-- ==== Sys2Proof/Word.lean ====
section
/-! DEFINITION. The word types of the DLN-6404 and `Tbl`, the one finite map every sparse piece of state is held in:
a list of (key, value) pairs with strictly rising keys, in which a key that is not listed has a default value.
Memory, register files and unit tables are all of this form (R2 of 00_scope: little-endian, bit 0 least significant). -/

namespace Sys2Proof

/-- A 64-bit register value (R60). -/
abbrev Word := BitVec 64
/-- A byte of memory. -/
abbrev Byte := BitVec 8
/-- A granule: 16 bytes (R2), also the width of a w register (R195). -/
abbrev Gran := BitVec 128

/-- A finite map from Nat: (key, value) pairs. -/
abbrev Tbl (α : Type) := List (Nat × α)

/-- The value at a key; `d` where the key is not listed. -/
def Tbl.get {α : Type} (d : α) : Tbl α → Nat → α
  | [], _ => d
  | (k, v) :: t, i => if i = k then v else Tbl.get d t i

/-- Lists the value at the key, keeping the keys rising. -/
def Tbl.set {α : Type} : Tbl α → Nat → α → Tbl α
  | [], i, v => [(i, v)]
  | (k, w) :: t, i, v =>
    if i < k then (i, v) :: (k, w) :: t
    else if i = k then (i, v) :: t
    else (k, w) :: Tbl.set t i v

/-- Takes a key out. -/
def Tbl.del {α : Type} : Tbl α → Nat → Tbl α
  | [], _ => []
  | (k, w) :: t, i => if i = k then Tbl.del t i else (k, w) :: Tbl.del t i

/-- Writes a value in canonical form: the default value is not listed. -/
def Tbl.put {α : Type} [DecidableEq α] (d : α) (t : Tbl α) (i : Nat) (v : α) : Tbl α :=
  if v = d then Tbl.del t i else Tbl.set t i v

/-- Is the key listed? -/
def Tbl.has {α : Type} : Tbl α → Nat → Bool
  | [], _ => false
  | (k, _) :: t, i => (i == k) || Tbl.has t i

/-- Every listed key is above `n`. -/
def Tbl.above {α : Type} (n : Nat) : Tbl α → Bool
  | [] => true
  | (k, _) :: t => decide (n < k) && Tbl.above n t

/-- The keys rise strictly. -/
def Tbl.rising {α : Type} : Tbl α → Bool
  | [] => true
  | (k, _) :: t => Tbl.above k t && Tbl.rising t

/-- No listed value is the default. -/
def Tbl.lean {α : Type} [DecidableEq α] (d : α) : Tbl α → Bool
  | [] => true
  | (_, v) :: t => decide (v ≠ d) && Tbl.lean d t

/-- The canonical form: keys strictly rising, no default listed. -/
def Tbl.canon {α : Type} [DecidableEq α] (d : α) (t : Tbl α) : Bool :=
  Tbl.rising t && Tbl.lean d t

end Sys2Proof
end

