-- ==== Sys2Proof/Syntax.lean ====
section
/-! DEFINITION. The instructions of the DLN-6404: one constructor for each row of the opcode table. An encoded instruction
carries its operand fields as the raw unsigned numbers of its word (a meaning sign-extends an immediate); an event of the
part, which has no word, takes its operands from `EvArgs`, the input that stands in State when it happens (State.inp): the
docstring of its constructor says which. The numbers of units: a core is its Hilbert index (R339), `rc` a register context
(0 normal, 1 urgent, 2 overflow; 3 to 6 the image in a suspended slot), `k` a place in the list of the things of that
kind that State holds. -/

namespace Sys2Proof

/-- The fields of a partition table entry that the physical function writes (R336). R336 gives no access field by field: EPOCH and PTSTAT, which the
device keeps, ignore a write (DESIGN CHOICE, log 37). -/
inductive PField where
  | cbase | clen | feat | s2root | slice | stres | meshres | hostres | t2res | twres (n : Nat) | qlim (i : Nat)
  | qact | ctxmax | period | savebase
  deriving DecidableEq, Repr

/-- The registers of BAR0 that have no row of their own in the opcode table (R330, R338): those a write stores into. -/
inductive BReg where
  | lstatbase | lstattail | dboost (d : Nat) | fqbase | fqlen | fqtail | trapcfg (c : Nat) | s1root (c : Nat) | ctxen
  | slice (c : Nat) | apbase | logbase | loglen | logtail | sigbase | siglen | sigtail | sucfg (i : Nat) | sucnt (i : Nat)
  | mbout (i : Nat) | mbdest | s2invaddr | twpair (port p : Nat)
  deriving DecidableEq, Repr

/-- What a request from a peer module does at its home (R358): an access, the addition of an RSCATTER.ADD in a format (R257), or an event of a completion
object there (R262–R265). -/
inductive PAcc where
  | load | store | amo (op : Nat) | scatterAdd (fmt : Nat) | cinit | arrive | expect | accepted | completed (fault : Option Nat) | cwatch
  deriving DecidableEq, Repr

/-- Where a soft error strikes (R322): the unit of each structure that it poisons. A plane is the half in use (0) or the half of the preload (1);
a record of a station is that of an operation of a core. -/
inductive SoftLoc where
  | corrected
  | icache (core : Nat)
  | gran (home : Nat)
  | xreg (core rc n : Nat)
  | wreg (core rc n : Nat)
  | greg (core n : Nat)
  | csr (core rc n : Nat)
  | inbox (core half i : Nat)
  | tile (core t : Nat)
  | plane (core half : Nat)
  | spec (part id : Nat)
  | transfer (k : Nat)
  | walk (k : Nat)
  | station (n core rc q : Nat)
  | task (part id : Nat)
  deriving DecidableEq, Repr

/-- The operands of an event of the part: what the outside gives (a register's value, a request), and which unit or which
list entry it concerns. An event uses the fields that its constructor's docstring names. -/
structure EvArgs where
  a : Nat
  b : Nat
  c : Nat
  d : Nat
  e : Nat
  f : Nat
  flag : Bool
  pf : PField
  br : BReg
  pacc : PAcc
  loc : SoftLoc
  deriving DecidableEq, Repr

/-- No input. -/
def EvArgs.zero : EvArgs :=
  { a := 0, b := 0, c := 0, d := 0, e := 0, f := 0, flag := false, pf := .cbase, br := .lstatbase, pacc := .load, loc := .corrected }

/-- The instructions and events of the opcode table. -/
inductive Instr where
  | lb (rd rs1 imm : Nat)
  | lh (rd rs1 imm : Nat)
  | lw (rd rs1 imm : Nat)
  | ld (rd rs1 imm : Nat)
  | lbu (rd rs1 imm : Nat)
  | lhu (rd rs1 imm : Nat)
  | lwu (rd rs1 imm : Nat)
  | fence (rd rs1 succ pred : Nat)
  | fenceTso (rd rs1 : Nat)
  | fenceFm8 (rd rs1 succ pred : Nat)
  | addi (rd rs1 imm : Nat)
  | slti (rd rs1 imm : Nat)
  | sltiu (rd rs1 imm : Nat)
  | xori (rd rs1 imm : Nat)
  | ori (rd rs1 imm : Nat)
  | andi (rd rs1 imm : Nat)
  | slli (rd rs1 shamt : Nat)
  | clz (rd rs1 : Nat)
  | ctz (rd rs1 : Nat)
  | cpop (rd rs1 : Nat)
  | sextB (rd rs1 : Nat)
  | sextH (rd rs1 : Nat)
  | srli (rd rs1 shamt : Nat)
  | srai (rd rs1 shamt : Nat)
  | rori (rd rs1 shamt : Nat)
  | auipc (rd imm : Nat)
  | addiw (rd rs1 imm : Nat)
  | slliw (rd rs1 shamt : Nat)
  | srliw (rd rs1 shamt : Nat)
  | sraiw (rd rs1 shamt : Nat)
  | sb (rs1 rs2 imm : Nat)
  | sh (rs1 rs2 imm : Nat)
  | sw (rs1 rs2 imm : Nat)
  | sd (rs1 rs2 imm : Nat)
  | amoaddW (rd rs1 rs2 aq rl : Nat)
  | amoswapW (rd rs1 rs2 aq rl : Nat)
  | amoxorW (rd rs1 rs2 aq rl : Nat)
  | amoorW (rd rs1 rs2 aq rl : Nat)
  | amoandW (rd rs1 rs2 aq rl : Nat)
  | amominW (rd rs1 rs2 aq rl : Nat)
  | amomaxW (rd rs1 rs2 aq rl : Nat)
  | amominuW (rd rs1 rs2 aq rl : Nat)
  | amomaxuW (rd rs1 rs2 aq rl : Nat)
  | amocasW (rd rs1 rs2 aq rl : Nat)
  | amoaddD (rd rs1 rs2 aq rl : Nat)
  | amoswapD (rd rs1 rs2 aq rl : Nat)
  | amoxorD (rd rs1 rs2 aq rl : Nat)
  | amoorD (rd rs1 rs2 aq rl : Nat)
  | amoandD (rd rs1 rs2 aq rl : Nat)
  | amominD (rd rs1 rs2 aq rl : Nat)
  | amomaxD (rd rs1 rs2 aq rl : Nat)
  | amominuD (rd rs1 rs2 aq rl : Nat)
  | amomaxuD (rd rs1 rs2 aq rl : Nat)
  | amocasD (rd rs1 rs2 aq rl : Nat)
  | amocasQ (rd rs1 rs2 aq rl : Nat)
  | add (rd rs1 rs2 : Nat)
  | sll (rd rs1 rs2 : Nat)
  | slt (rd rs1 rs2 : Nat)
  | sltu (rd rs1 rs2 : Nat)
  | xorr (rd rs1 rs2 : Nat)
  | srl (rd rs1 rs2 : Nat)
  | orr (rd rs1 rs2 : Nat)
  | andd (rd rs1 rs2 : Nat)
  | sub (rd rs1 rs2 : Nat)
  | sra (rd rs1 rs2 : Nat)
  | andn (rd rs1 rs2 : Nat)
  | mul (rd rs1 rs2 : Nat)
  | mulh (rd rs1 rs2 : Nat)
  | mulhsu (rd rs1 rs2 : Nat)
  | mulhu (rd rs1 rs2 : Nat)
  | div (rd rs1 rs2 : Nat)
  | divu (rd rs1 rs2 : Nat)
  | rem (rd rs1 rs2 : Nat)
  | remu (rd rs1 rs2 : Nat)
  | minn (rd rs1 rs2 : Nat)
  | minu (rd rs1 rs2 : Nat)
  | maxx (rd rs1 rs2 : Nat)
  | maxu (rd rs1 rs2 : Nat)
  | sh1add (rd rs1 rs2 : Nat)
  | sh2add (rd rs1 rs2 : Nat)
  | sh3add (rd rs1 rs2 : Nat)
  | rol (rd rs1 rs2 : Nat)
  | ror (rd rs1 rs2 : Nat)
  | lui (rd imm : Nat)
  | addw (rd rs1 rs2 : Nat)
  | sllw (rd rs1 rs2 : Nat)
  | srlw (rd rs1 rs2 : Nat)
  | subw (rd rs1 rs2 : Nat)
  | sraw (rd rs1 rs2 : Nat)
  | mulw (rd rs1 rs2 : Nat)
  | divw (rd rs1 rs2 : Nat)
  | divuw (rd rs1 rs2 : Nat)
  | remw (rd rs1 rs2 : Nat)
  | remuw (rd rs1 rs2 : Nat)
  | zextH (rd rs1 : Nat)
  | beq (rs1 rs2 imm : Nat)
  | bne (rs1 rs2 imm : Nat)
  | blt (rs1 rs2 imm : Nat)
  | bge (rs1 rs2 imm : Nat)
  | bltu (rs1 rs2 imm : Nat)
  | bgeu (rs1 rs2 imm : Nat)
  | jalr (rd rs1 imm : Nat)
  | jal (rd imm : Nat)
  | ecall
  | ebreak
  | csrrw (rd rs1 csr : Nat)
  | csrrs (rd rs1 csr : Nat)
  | csrrc (rd rs1 csr : Nat)
  | csrrwi (rd uimm csr : Nat)
  | csrrsi (rd uimm csr : Nat)
  | csrrci (rd uimm csr : Nat)
  | done
  | bind (rd rs1 rs2 : Nat)
  | unbind (rd rs1 : Nat)
  | loopb (rd rs1 : Nat)
  | tcancel (rd rs1 : Nat)
  | send (rd rs1 chan cnt urg bnc : Nat)
  | tenq (rd rs1 gr gw : Nat)
  | barrive (rs1 bar op chan : Nat)
  | callt (rd rs1 rs2 : Nat)
  | ldaqD (rd rs1 imm : Nat)
  | ldaqQ (rd rs1 imm : Nat)
  | strlD (rs1 rs2 imm : Nat)
  | strlQ (rs1 rs2 imm : Nat)
  | ldvD (rd rs1 : Nat)
  | ldvQ (rd rs1 : Nat)
  | stvD (rd rs1 rs2 : Nat)
  | stvQ (rd rs1 rs2 : Nat)
  | vwatch (rd rs1 rs2 : Nat)
  | dfence (scope kinds : Nat)
  | tfence
  | iflush (rs1 rs2 : Nat)
  | rkload (rd rs1 rs2 : Nat)
  | rkwalk (qd rs1 rs2 slot : Nat)
  | wld (rd rs1 imm : Nat)
  | wst (rs1 rs2 imm : Nat)
  | vadd (wd ws1 ws2 ty : Nat)
  | vsub (wd ws1 ws2 ty : Nat)
  | vmul (wd ws1 ws2 ty : Nat)
  | vmulhS (wd ws1 ws2 ty : Nat)
  | vmulhZ (wd ws1 ws2 ty : Nat)
  | vminS (wd ws1 ws2 ty : Nat)
  | vminZ (wd ws1 ws2 ty : Nat)
  | vmaxS (wd ws1 ws2 ty : Nat)
  | vmaxZ (wd ws1 ws2 ty : Nat)
  | vsaddS (wd ws1 ws2 ty : Nat)
  | vsaddZ (wd ws1 ws2 ty : Nat)
  | vssubS (wd ws1 ws2 ty : Nat)
  | vssubZ (wd ws1 ws2 ty : Nat)
  | vshl (wd ws1 ws2 ty : Nat)
  | vshrS (wd ws1 ws2 ty : Nat)
  | vshrZ (wd ws1 ws2 ty : Nat)
  | vand (wd ws1 ws2 ty : Nat)
  | vor (wd ws1 ws2 ty : Nat)
  | vxor (wd ws1 ws2 ty : Nat)
  | vandn (wd ws1 ws2 ty : Nat)
  | vcmpEq (wd ws1 ws2 ty : Nat)
  | vcmpNe (wd ws1 ws2 ty : Nat)
  | vcmpLt (wd ws1 ws2 ty : Nat)
  | vcmpLe (wd ws1 ws2 ty : Nat)
  | vcmpLtZ (wd ws1 ws2 ty : Nat)
  | vcmpLeZ (wd ws1 ws2 ty : Nat)
  | vsel (wd ws1 ws2 ty : Nat)
  | vfadd (wd ws1 ws2 ty : Nat)
  | vfsub (wd ws1 ws2 ty : Nat)
  | vfmul (wd ws1 ws2 ty : Nat)
  | vfma (wd ws1 ws2 ty : Nat)
  | vfmin (wd ws1 ws2 ty : Nat)
  | vfmax (wd ws1 ws2 ty : Nat)
  | vfdiv (wd ws1 ws2 ty : Nat)
  | vfsqrt (wd ws1 ty : Nat)
  | vexp2 (wd ws1 : Nat)
  | vlog2 (wd ws1 : Nat)
  | vrcp (wd ws1 : Nat)
  | vrsqrt (wd ws1 : Nat)
  | vsinpi (wd ws1 : Nat)
  | vcospi (wd ws1 : Nat)
  | vrsum (wd ws1 ty : Nat)
  | vrmax (wd ws1 ty : Nat)
  | vrmin (wd ws1 ty : Nat)
  | vcvt (wd ws1 sty ty : Nat)
  | vcvtHi (wd ws1 sty ty : Nat)
  | vcvtPk (wd ws1 sty ty : Nat)
  | vcvtl (wd ws1 ty : Nat)
  | vcvtlf (wd ws1 ty : Nat)
  | vshuf (wd ws1 ws2 ty : Nat)
  | vbcast (wd xs ty : Nat)
  | vins (wd xs lane ty : Nat)
  | vext (xd ws1 lane ty : Nat)
  | vextz (xd ws1 lane ty : Nat)
  | vksort (wd ws1 ws2 ty : Nat)
  | vkmergeLo (wd ws1 ws2 ty : Nat)
  | vkmergeHi (wd ws1 ws2 ty : Nat)
  | vkcombAdd (wd ws1 ws2 ty : Nat)
  | vkcombFirst (wd ws1 ws2 ty : Nat)
  | vkmatch (wd ws1 ws2 ty : Nat)
  | vsmmerge (wd ws1 ws2 : Nat)
  | vsmscale (wd ws1 ws2 : Nat)
  | vsmnorm (wd ws1 ws2 : Nat)
  | runionEx (rd rs1 rs2 : Nat)
  | runionSup (rd rs1 rs2 : Nat)
  | rinterEx (rd rs1 rs2 : Nat)
  | rinterSup (rd rs1 rs2 : Nat)
  | rsubEx (rd rs1 rs2 : Nat)
  | rsubSup (rd rs1 rs2 : Nat)
  | rsubSub (rd rs1 rs2 : Nat)
  | rdil (rd rs1 rs2 : Nat)
  | rshift (rd rs1 rs2 : Nat)
  | rproj (rd rs1 rs2 : Nat)
  | rsplit (rd rs1 rs2 : Nat)
  | rclip (rd rs1 rs2 : Nat)
  | rcount (rd rs1 : Nat)
  | rtest (rd rs1 rs2 : Nat)
  | rgetb (rd rs1 rs2 : Nat)
  | rld (rd rs1 : Nat)
  | rst (rs1 rs2 : Nat)
  | rb2 (rd rs1 rs2 : Nat)
  | rmask (rd rs1 rs2 : Nat)
  | tilepost (rd rs1 rs2 : Nat)
  | tilenext (rd rs1 : Nat)
  | rgather (rd rs1 rs2 gs : Nat)
  | rscatterSet (rd rs1 rs2 gs : Nat)
  | rscatterAdd (rd rs1 rs2 gs : Nat)
  | rcopy (rd rs1 rs2 : Nat)
  | rstream (qd rs1 gs : Nat)
  | rsink (rd qs gs : Nat)
  | rwait (rs1 rs2 : Nat)
  | rcapmkR (rd rs1 rs2 : Nat)
  | rcapmkW (rd rs1 rs2 : Nat)
  | rcapmkRw (rd rs1 rs2 : Nat)
  | qbind (qd rs1 rs2 : Nat)
  | qfree (qd : Nat)
  | cinit (rs1 rs2 : Nat)
  | carrive (rs1 : Nat)
  | cexpect (rs1 rs2 : Nat)
  | cwatch (rs1 rs2 : Nat)
  | bedset (rs1 rs2 : Nat)
  | mmul (rsB rsA ctile mode mcode ncode : Nat)
  | mlds (rs1 : Nat)
  | mstc (rs1 tile : Nat)
  | mzero (tile : Nat)
  | mcfg (rs1 : Nat)
  | mcmd (rd rs1 rs2 : Nat)
  | mwait
  /-- R361. Bit h of a: bring-up finds core h failed (R363). -/
  | moduleReset
  /-- R361: fn = a. -/
  | functionLevelReset
  /-- R19: stp = a. -/
  | aclkChange
  /-- R323. -/
  | thermalEmergency
  /-- R323: link = a. -/
  | linkFatal
  /-- R365: v = a. -/
  | powercapWrite
  /-- R332: fn = a, v = b. -/
  | lsubmit
  /-- R324: fn = a, v = b. -/
  | killh
  /-- R324: fn = a, v = b. -/
  | killb
  /-- R319: fn = a, fid = b. -/
  | resumeReplay
  /-- R319: fn = a, fid = b. -/
  | resumeFail
  /-- R334: fn = a, v = b. -/
  | inval
  /-- R334: fn = a. -/
  | invalComplete
  /-- R338: v = a. -/
  | s2invctl
  /-- R338. -/
  | s2invComplete
  /-- R335: fn = a. -/
  | mbdoor
  /-- R335: fn = a, text = b. -/
  | mbinReply
  /-- R335: fn = a, text = b. -/
  | managementMessage
  /-- R337: p = a, f = pf, v = b. -/
  | ptabWrite
  /-- R338: i = a, v = b. -/
  | hdecWrite
  /-- R344: p = a, dom = b, wrapped = c. -/
  | keyLoad
  /-- R344: p = a, dom = b. -/
  | keyDestroy
  /-- R330: fn = a, r = br, v = b. -/
  | registerWrite
  /-- R330: fn = a, off = b, n = c. -/
  | bar2Read
  /-- R330: fn = a, off = b, n = c, v = d. -/
  | bar2Write
  /-- R338: a = a, keep = flag. -/
  | cxlMemRead
  /-- R338: a = a, n = b, v = c. -/
  | cxlMemWrite
  /-- R356: line = a (home address / 64); with flag, the 64 bytes of b are written back. -/
  | backInvalidationResponse
  /-- R364. -/
  | getMeasurements
  /-- R358: port = a, rpart = b, acc = pacc, ipa = c, n = d, v = e, cmp = f. -/
  | peerRequest
  /-- R359: k = a, seen = b, kind = (if flag then some c else none). -/
  | peerCompletion
  /-- R359: k = a. -/
  | peerTimeout
  /-- R80: k = a; with flag, the first message of the arrival log of core a enters its inbox (R328). -/
  | messageResident
  /-- R85: core = a, rc = b. -/
  | dispatch
  /-- R90: core = a. -/
  | overflowPresent
  /-- R88: core = a, rc = b. -/
  | watchdog
  /-- R317: core = a, rc = b, k = c. -/
  | translationFault
  /-- R320: core = a, rc = b. -/
  | suspendOnSlotFree
  /-- R317: core = a, slot = b. -/
  | handlerResume
  /-- R318: fn = a. -/
  | faultRecordPost
  /-- R59: core = a, rc = b, k = c. -/
  | loadReturn
  /-- R151: core = a, rc = b, k = c; with b = 7, write c of an MSTC of core a (R284). -/
  | storePerformed
  /-- R150: core = a, rc = b, k = c. -/
  | vwatchRegister
  /-- R142: core = a, rc = b, k = c. -/
  | amoAtHome
  /-- R117: part = a. -/
  | taskDispatch
  /-- R121: part = a, id = b. -/
  | taskCommit
  /-- R102: part = a. -/
  | launchPlace
  /-- R105: part = a, ticket = b. -/
  | bandEnd
  /-- R105: part = a, ticket = b. -/
  | launchComplete
  /-- R332: part = a. -/
  | launchStatusWrite
  /-- R111: k = a. -/
  | barrierArrival
  /-- R245: k = a. -/
  | transferDecision
  /-- R247: k = a. -/
  | transferComplete
  /-- R255: k = a. -/
  | streamDeliver
  /-- R260: k = a. -/
  | neighbourElementArrive
  /-- R260: k = a. -/
  | neighbourCreditReturn
  /-- R277: core = a. -/
  | mmulKstep
  /-- R287: core = a. -/
  | operandFetchFault
  /-- R292: k = a. -/
  | mcmdReceive
  /-- R299: k = a; with flag, the versions of no read agree (R296). -/
  | rakeStep
  /-- R295: k = a. -/
  | rakeHandoff
  /-- R307: k = a, station = b. -/
  | rakeSlotLoad
  /-- R321: cluster = a. -/
  | slHung
  /-- R289: core = a. -/
  | mxHung
  /-- R305: station = a. -/
  | rkHung
  /-- R321: die = a. -/
  | ctHung
  /-- R325: part = a. -/
  | sliceEnd
  /-- R326: part = a. -/
  | contextSwitch
  /-- R343: part = a. -/
  | periodEnd
  /-- R343: part = a, cat = b. -/
  | quotaLimitReached
  /-- R347: part = a. -/
  | logBatchClose
  /-- R322: loc = loc. -/
  | softError
  /-- R56: w = a. -/
  | notAnInstruction
  /-- R282: core = a. -/
  | preloadRead
  /-- R358: fid = a. -/
  | peerServiceSignal
  deriving DecidableEq, Repr

end Sys2Proof
end

