-- ==== Sys2Proof/WellFormed.lean ====
section
/-! DEFINITION. Well-formed instructions: the operands lie in the ranges that their fields of the word and the operand
tables allow (R48, R50, R52–R55). An event of the part has no word and no field, and is always well formed: what its
operands must be is the condition under which it happens, and stands in its meaning. -/

namespace Sys2Proof

/-- The CSR numbers of the map of R74. -/
def csrKnown (c : Nat) : Bool :=
  (0xC00 ≤ c && c ≤ 0xC02) || (0xC10 ≤ c && c ≤ 0xC17) || (0xC20 ≤ c && c ≤ 0xC23) || c == 0xC30 || c == 0xC31
    || c == 0xC40 || c == 0xC41 || c == 0xC50 || c == 0xC51 || c == 0x801 || c == 0x802 || c == 0x810
    || (0x820 ≤ c && c ≤ 0x82F) || c == 0x830 || c == 0x831 || (0x840 ≤ c && c ≤ 0x842) || c == 0x850 || c == 0x860

/-- T of an integer vector instruction (R52): I8, I16, I32, I64. -/
def tyInt (t : Nat) : Bool := t < 4
/-- T of a floating vector instruction (R52): BF16, FP16, FP32, FP64. -/
def tyFloat (t : Nat) : Bool := 4 ≤ t && t < 8
/-- T of VCVTL and VCVTLF (R52): BF16, FP16, FP32. -/
def tyCvtl (t : Nat) : Bool := 4 ≤ t && t < 7
/-- T of the VK family (R52): I16, I32, FP32. -/
def tyKey (t : Nat) : Bool := t == 1 || t == 2 || t == 6
/-- Every T (R52). -/
def tyAll (t : Nat) : Bool := t < 8
/-- The bytes of an element of type T (R52). -/
def tyBytes (t : Nat) : Nat :=
  if t = 0 then 1 else if t = 1 ∨ t = 4 ∨ t = 5 then 2 else if t = 2 ∨ t = 6 then 4 else 8
/-- The lanes of a w register (R53). -/
def laneCount (t : Nat) : Nat := 16 / tyBytes t

/-- The operands of the instruction lie in the ranges its fields allow. -/
def Instr.wf : Instr → Bool
  | .moduleReset => true
  | .functionLevelReset => true
  | .aclkChange => true
  | .thermalEmergency => true
  | .linkFatal => true
  | .powercapWrite => true
  | .lsubmit => true
  | .killh => true
  | .killb => true
  | .resumeReplay => true
  | .resumeFail => true
  | .inval => true
  | .invalComplete => true
  | .s2invctl => true
  | .s2invComplete => true
  | .mbdoor => true
  | .mbinReply => true
  | .managementMessage => true
  | .ptabWrite => true
  | .hdecWrite => true
  | .keyLoad => true
  | .keyDestroy => true
  | .registerWrite => true
  | .bar2Read => true
  | .bar2Write => true
  | .cxlMemRead => true
  | .cxlMemWrite => true
  | .backInvalidationResponse => true
  | .getMeasurements => true
  | .peerRequest => true
  | .peerCompletion => true
  | .peerTimeout => true
  | .messageResident => true
  | .dispatch => true
  | .overflowPresent => true
  | .watchdog => true
  | .translationFault => true
  | .suspendOnSlotFree => true
  | .handlerResume => true
  | .faultRecordPost => true
  | .loadReturn => true
  | .storePerformed => true
  | .vwatchRegister => true
  | .amoAtHome => true
  | .taskDispatch => true
  | .taskCommit => true
  | .launchPlace => true
  | .bandEnd => true
  | .launchComplete => true
  | .launchStatusWrite => true
  | .barrierArrival => true
  | .transferDecision => true
  | .transferComplete => true
  | .streamDeliver => true
  | .neighbourElementArrive => true
  | .neighbourCreditReturn => true
  | .mmulKstep => true
  | .operandFetchFault => true
  | .mcmdReceive => true
  | .rakeStep => true
  | .rakeHandoff => true
  | .rakeSlotLoad => true
  | .slHung => true
  | .mxHung => true
  | .rkHung => true
  | .ctHung => true
  | .sliceEnd => true
  | .contextSwitch => true
  | .periodEnd => true
  | .quotaLimitReached => true
  | .logBatchClose => true
  | .softError => true
  | .lb rd rs1 imm => rd < 32 && rs1 < 32 && imm < 4096
  | .lh rd rs1 imm => rd < 32 && rs1 < 32 && imm < 4096
  | .lw rd rs1 imm => rd < 32 && rs1 < 32 && imm < 4096
  | .ld rd rs1 imm => rd < 32 && rs1 < 32 && imm < 4096
  | .lbu rd rs1 imm => rd < 32 && rs1 < 32 && imm < 4096
  | .lhu rd rs1 imm => rd < 32 && rs1 < 32 && imm < 4096
  | .lwu rd rs1 imm => rd < 32 && rs1 < 32 && imm < 4096
  | .fence rd rs1 succ pred => rd < 32 && rs1 < 32 && succ < 16 && pred < 16
  | .fenceTso rd rs1 => rd < 32 && rs1 < 32
  | .fenceFm8 rd rs1 succ pred => rd < 32 && rs1 < 32 && succ < 16 && pred < 16 && !(succ == 3 && pred == 3)
  | .addi rd rs1 imm => rd < 32 && rs1 < 32 && imm < 4096
  | .slti rd rs1 imm => rd < 32 && rs1 < 32 && imm < 4096
  | .sltiu rd rs1 imm => rd < 32 && rs1 < 32 && imm < 4096
  | .xori rd rs1 imm => rd < 32 && rs1 < 32 && imm < 4096
  | .ori rd rs1 imm => rd < 32 && rs1 < 32 && imm < 4096
  | .andi rd rs1 imm => rd < 32 && rs1 < 32 && imm < 4096
  | .slli rd rs1 shamt => rd < 32 && rs1 < 32 && shamt < 64
  | .clz rd rs1 => rd < 32 && rs1 < 32
  | .ctz rd rs1 => rd < 32 && rs1 < 32
  | .cpop rd rs1 => rd < 32 && rs1 < 32
  | .sextB rd rs1 => rd < 32 && rs1 < 32
  | .sextH rd rs1 => rd < 32 && rs1 < 32
  | .srli rd rs1 shamt => rd < 32 && rs1 < 32 && shamt < 64
  | .srai rd rs1 shamt => rd < 32 && rs1 < 32 && shamt < 64
  | .rori rd rs1 shamt => rd < 32 && rs1 < 32 && shamt < 64
  | .auipc rd imm => rd < 32 && imm < 1048576
  | .addiw rd rs1 imm => rd < 32 && rs1 < 32 && imm < 4096
  | .slliw rd rs1 shamt => rd < 32 && rs1 < 32 && shamt < 32
  | .srliw rd rs1 shamt => rd < 32 && rs1 < 32 && shamt < 32
  | .sraiw rd rs1 shamt => rd < 32 && rs1 < 32 && shamt < 32
  | .sb rs1 rs2 imm => rs1 < 32 && rs2 < 32 && imm < 4096
  | .sh rs1 rs2 imm => rs1 < 32 && rs2 < 32 && imm < 4096
  | .sw rs1 rs2 imm => rs1 < 32 && rs2 < 32 && imm < 4096
  | .sd rs1 rs2 imm => rs1 < 32 && rs2 < 32 && imm < 4096
  | .amoaddW rd rs1 rs2 aq rl => rd < 32 && rs1 < 32 && rs2 < 32 && aq < 2 && rl < 2
  | .amoswapW rd rs1 rs2 aq rl => rd < 32 && rs1 < 32 && rs2 < 32 && aq < 2 && rl < 2
  | .amoxorW rd rs1 rs2 aq rl => rd < 32 && rs1 < 32 && rs2 < 32 && aq < 2 && rl < 2
  | .amoorW rd rs1 rs2 aq rl => rd < 32 && rs1 < 32 && rs2 < 32 && aq < 2 && rl < 2
  | .amoandW rd rs1 rs2 aq rl => rd < 32 && rs1 < 32 && rs2 < 32 && aq < 2 && rl < 2
  | .amominW rd rs1 rs2 aq rl => rd < 32 && rs1 < 32 && rs2 < 32 && aq < 2 && rl < 2
  | .amomaxW rd rs1 rs2 aq rl => rd < 32 && rs1 < 32 && rs2 < 32 && aq < 2 && rl < 2
  | .amominuW rd rs1 rs2 aq rl => rd < 32 && rs1 < 32 && rs2 < 32 && aq < 2 && rl < 2
  | .amomaxuW rd rs1 rs2 aq rl => rd < 32 && rs1 < 32 && rs2 < 32 && aq < 2 && rl < 2
  | .amocasW rd rs1 rs2 aq rl => rd < 32 && rs1 < 32 && rs2 < 32 && aq < 2 && rl < 2
  | .amoaddD rd rs1 rs2 aq rl => rd < 32 && rs1 < 32 && rs2 < 32 && aq < 2 && rl < 2
  | .amoswapD rd rs1 rs2 aq rl => rd < 32 && rs1 < 32 && rs2 < 32 && aq < 2 && rl < 2
  | .amoxorD rd rs1 rs2 aq rl => rd < 32 && rs1 < 32 && rs2 < 32 && aq < 2 && rl < 2
  | .amoorD rd rs1 rs2 aq rl => rd < 32 && rs1 < 32 && rs2 < 32 && aq < 2 && rl < 2
  | .amoandD rd rs1 rs2 aq rl => rd < 32 && rs1 < 32 && rs2 < 32 && aq < 2 && rl < 2
  | .amominD rd rs1 rs2 aq rl => rd < 32 && rs1 < 32 && rs2 < 32 && aq < 2 && rl < 2
  | .amomaxD rd rs1 rs2 aq rl => rd < 32 && rs1 < 32 && rs2 < 32 && aq < 2 && rl < 2
  | .amominuD rd rs1 rs2 aq rl => rd < 32 && rs1 < 32 && rs2 < 32 && aq < 2 && rl < 2
  | .amomaxuD rd rs1 rs2 aq rl => rd < 32 && rs1 < 32 && rs2 < 32 && aq < 2 && rl < 2
  | .amocasD rd rs1 rs2 aq rl => rd < 32 && rs1 < 32 && rs2 < 32 && aq < 2 && rl < 2
  | .amocasQ rd rs1 rs2 aq rl => rd < 32 && rd % 2 == 0 && rs1 < 32 && rs2 < 32 && rs2 % 2 == 0 && aq < 2 && rl < 2
  | .add rd rs1 rs2 => rd < 32 && rs1 < 32 && rs2 < 32
  | .sll rd rs1 rs2 => rd < 32 && rs1 < 32 && rs2 < 32
  | .slt rd rs1 rs2 => rd < 32 && rs1 < 32 && rs2 < 32
  | .sltu rd rs1 rs2 => rd < 32 && rs1 < 32 && rs2 < 32
  | .xorr rd rs1 rs2 => rd < 32 && rs1 < 32 && rs2 < 32
  | .srl rd rs1 rs2 => rd < 32 && rs1 < 32 && rs2 < 32
  | .orr rd rs1 rs2 => rd < 32 && rs1 < 32 && rs2 < 32
  | .andd rd rs1 rs2 => rd < 32 && rs1 < 32 && rs2 < 32
  | .sub rd rs1 rs2 => rd < 32 && rs1 < 32 && rs2 < 32
  | .sra rd rs1 rs2 => rd < 32 && rs1 < 32 && rs2 < 32
  | .andn rd rs1 rs2 => rd < 32 && rs1 < 32 && rs2 < 32
  | .mul rd rs1 rs2 => rd < 32 && rs1 < 32 && rs2 < 32
  | .mulh rd rs1 rs2 => rd < 32 && rs1 < 32 && rs2 < 32
  | .mulhsu rd rs1 rs2 => rd < 32 && rs1 < 32 && rs2 < 32
  | .mulhu rd rs1 rs2 => rd < 32 && rs1 < 32 && rs2 < 32
  | .div rd rs1 rs2 => rd < 32 && rs1 < 32 && rs2 < 32
  | .divu rd rs1 rs2 => rd < 32 && rs1 < 32 && rs2 < 32
  | .rem rd rs1 rs2 => rd < 32 && rs1 < 32 && rs2 < 32
  | .remu rd rs1 rs2 => rd < 32 && rs1 < 32 && rs2 < 32
  | .minn rd rs1 rs2 => rd < 32 && rs1 < 32 && rs2 < 32
  | .minu rd rs1 rs2 => rd < 32 && rs1 < 32 && rs2 < 32
  | .maxx rd rs1 rs2 => rd < 32 && rs1 < 32 && rs2 < 32
  | .maxu rd rs1 rs2 => rd < 32 && rs1 < 32 && rs2 < 32
  | .sh1add rd rs1 rs2 => rd < 32 && rs1 < 32 && rs2 < 32
  | .sh2add rd rs1 rs2 => rd < 32 && rs1 < 32 && rs2 < 32
  | .sh3add rd rs1 rs2 => rd < 32 && rs1 < 32 && rs2 < 32
  | .rol rd rs1 rs2 => rd < 32 && rs1 < 32 && rs2 < 32
  | .ror rd rs1 rs2 => rd < 32 && rs1 < 32 && rs2 < 32
  | .lui rd imm => rd < 32 && imm < 1048576
  | .addw rd rs1 rs2 => rd < 32 && rs1 < 32 && rs2 < 32
  | .sllw rd rs1 rs2 => rd < 32 && rs1 < 32 && rs2 < 32
  | .srlw rd rs1 rs2 => rd < 32 && rs1 < 32 && rs2 < 32
  | .subw rd rs1 rs2 => rd < 32 && rs1 < 32 && rs2 < 32
  | .sraw rd rs1 rs2 => rd < 32 && rs1 < 32 && rs2 < 32
  | .mulw rd rs1 rs2 => rd < 32 && rs1 < 32 && rs2 < 32
  | .divw rd rs1 rs2 => rd < 32 && rs1 < 32 && rs2 < 32
  | .divuw rd rs1 rs2 => rd < 32 && rs1 < 32 && rs2 < 32
  | .remw rd rs1 rs2 => rd < 32 && rs1 < 32 && rs2 < 32
  | .remuw rd rs1 rs2 => rd < 32 && rs1 < 32 && rs2 < 32
  | .zextH rd rs1 => rd < 32 && rs1 < 32
  | .beq rs1 rs2 imm => rs1 < 32 && rs2 < 32 && imm < 8192 && imm % 2 == 0
  | .bne rs1 rs2 imm => rs1 < 32 && rs2 < 32 && imm < 8192 && imm % 2 == 0
  | .blt rs1 rs2 imm => rs1 < 32 && rs2 < 32 && imm < 8192 && imm % 2 == 0
  | .bge rs1 rs2 imm => rs1 < 32 && rs2 < 32 && imm < 8192 && imm % 2 == 0
  | .bltu rs1 rs2 imm => rs1 < 32 && rs2 < 32 && imm < 8192 && imm % 2 == 0
  | .bgeu rs1 rs2 imm => rs1 < 32 && rs2 < 32 && imm < 8192 && imm % 2 == 0
  | .jalr rd rs1 imm => rd < 32 && rs1 < 32 && imm < 4096
  | .jal rd imm => rd < 32 && imm < 2097152 && imm % 2 == 0
  | .ecall => true
  | .ebreak => true
  | .csrrw rd rs1 csr => rd < 32 && rs1 < 32 && csrKnown csr
  | .csrrs rd rs1 csr => rd < 32 && rs1 < 32 && csrKnown csr
  | .csrrc rd rs1 csr => rd < 32 && rs1 < 32 && csrKnown csr
  | .csrrwi rd uimm csr => rd < 32 && uimm < 32 && csrKnown csr
  | .csrrsi rd uimm csr => rd < 32 && uimm < 32 && csrKnown csr
  | .csrrci rd uimm csr => rd < 32 && uimm < 32 && csrKnown csr
  | .done => true
  | .bind rd rs1 rs2 => rd < 32 && rs1 < 32 && rs2 < 32
  | .unbind rd rs1 => rd < 32 && rs1 < 32
  | .loopb rd rs1 => rd < 32 && rs1 < 32
  | .tcancel rd rs1 => rd < 32 && rs1 < 32
  | .send rd rs1 chan cnt urg bnc => rd < 32 && rs1 < 32 && chan < 64 && cnt < 9 && urg < 2 && bnc < 2
  | .tenq rd rs1 gr gw => rd < 32 && rs1 < 32 && gr < 16 && gw < 16
  | .barrive rs1 bar op chan => rs1 < 32 && bar < 8 && op < 8 && chan < 64
  | .callt rd rs1 rs2 => rd < 32 && rs1 < 32 && rs2 < 32
  | .ldaqD rd rs1 imm => rd < 32 && rs1 < 32 && imm < 4096
  | .ldaqQ rd rs1 imm => rd < 32 && rs1 < 32 && imm < 4096
  | .strlD rs1 rs2 imm => rs1 < 32 && rs2 < 32 && imm < 4096
  | .strlQ rs1 rs2 imm => rs1 < 32 && rs2 < 32 && imm < 4096
  | .ldvD rd rs1 => rd < 32 && rs1 < 32
  | .ldvQ rd rs1 => rd < 32 && rs1 < 32
  | .stvD rd rs1 rs2 => rd < 32 && rs1 < 32 && rs2 < 32
  | .stvQ rd rs1 rs2 => rd < 32 && rs1 < 32 && rs2 < 32
  | .vwatch rd rs1 rs2 => rd < 32 && rs1 < 32 && rs2 < 32
  | .dfence scope kinds => scope < 6 && kinds < 16
  | .tfence => true
  | .iflush rs1 rs2 => rs1 < 32 && rs2 < 32
  | .rkload rd rs1 rs2 => rd < 32 && rs1 < 32 && rs2 < 32
  | .rkwalk qd rs1 rs2 slot => 26 ≤ qd && qd < 32 && rs1 < 32 && rs2 < 32 && slot < 16
  | .wld rd rs1 imm => rd < 32 && rs1 < 32 && imm < 4096
  | .wst rs1 rs2 imm => rs1 < 32 && rs2 < 32 && imm < 4096
  | .vadd wd ws1 ws2 ty => wd < 32 && ws1 < 32 && ws2 < 32 && tyInt ty
  | .vsub wd ws1 ws2 ty => wd < 32 && ws1 < 32 && ws2 < 32 && tyInt ty
  | .vmul wd ws1 ws2 ty => wd < 32 && ws1 < 32 && ws2 < 32 && tyInt ty
  | .vmulhS wd ws1 ws2 ty => wd < 32 && ws1 < 32 && ws2 < 32 && tyInt ty
  | .vmulhZ wd ws1 ws2 ty => wd < 32 && ws1 < 32 && ws2 < 32 && tyInt ty
  | .vminS wd ws1 ws2 ty => wd < 32 && ws1 < 32 && ws2 < 32 && tyInt ty
  | .vminZ wd ws1 ws2 ty => wd < 32 && ws1 < 32 && ws2 < 32 && tyInt ty
  | .vmaxS wd ws1 ws2 ty => wd < 32 && ws1 < 32 && ws2 < 32 && tyInt ty
  | .vmaxZ wd ws1 ws2 ty => wd < 32 && ws1 < 32 && ws2 < 32 && tyInt ty
  | .vsaddS wd ws1 ws2 ty => wd < 32 && ws1 < 32 && ws2 < 32 && tyInt ty
  | .vsaddZ wd ws1 ws2 ty => wd < 32 && ws1 < 32 && ws2 < 32 && tyInt ty
  | .vssubS wd ws1 ws2 ty => wd < 32 && ws1 < 32 && ws2 < 32 && tyInt ty
  | .vssubZ wd ws1 ws2 ty => wd < 32 && ws1 < 32 && ws2 < 32 && tyInt ty
  | .vshl wd ws1 ws2 ty => wd < 32 && ws1 < 32 && ws2 < 32 && tyInt ty
  | .vshrS wd ws1 ws2 ty => wd < 32 && ws1 < 32 && ws2 < 32 && tyInt ty
  | .vshrZ wd ws1 ws2 ty => wd < 32 && ws1 < 32 && ws2 < 32 && tyInt ty
  | .vand wd ws1 ws2 ty => wd < 32 && ws1 < 32 && ws2 < 32 && tyInt ty
  | .vor wd ws1 ws2 ty => wd < 32 && ws1 < 32 && ws2 < 32 && tyInt ty
  | .vxor wd ws1 ws2 ty => wd < 32 && ws1 < 32 && ws2 < 32 && tyInt ty
  | .vandn wd ws1 ws2 ty => wd < 32 && ws1 < 32 && ws2 < 32 && tyInt ty
  | .vcmpEq wd ws1 ws2 ty => wd < 32 && ws1 < 32 && ws2 < 32 && tyAll ty
  | .vcmpNe wd ws1 ws2 ty => wd < 32 && ws1 < 32 && ws2 < 32 && tyAll ty
  | .vcmpLt wd ws1 ws2 ty => wd < 32 && ws1 < 32 && ws2 < 32 && tyAll ty
  | .vcmpLe wd ws1 ws2 ty => wd < 32 && ws1 < 32 && ws2 < 32 && tyAll ty
  | .vcmpLtZ wd ws1 ws2 ty => wd < 32 && ws1 < 32 && ws2 < 32 && tyInt ty
  | .vcmpLeZ wd ws1 ws2 ty => wd < 32 && ws1 < 32 && ws2 < 32 && tyInt ty
  | .vsel wd ws1 ws2 ty => wd < 32 && ws1 < 32 && ws2 < 32 && tyAll ty
  | .vfadd wd ws1 ws2 ty => wd < 32 && ws1 < 32 && ws2 < 32 && tyFloat ty
  | .vfsub wd ws1 ws2 ty => wd < 32 && ws1 < 32 && ws2 < 32 && tyFloat ty
  | .vfmul wd ws1 ws2 ty => wd < 32 && ws1 < 32 && ws2 < 32 && tyFloat ty
  | .vfma wd ws1 ws2 ty => wd < 32 && ws1 < 32 && ws2 < 32 && tyFloat ty
  | .vfmin wd ws1 ws2 ty => wd < 32 && ws1 < 32 && ws2 < 32 && tyFloat ty
  | .vfmax wd ws1 ws2 ty => wd < 32 && ws1 < 32 && ws2 < 32 && tyFloat ty
  | .vfdiv wd ws1 ws2 ty => wd < 32 && ws1 < 32 && ws2 < 32 && tyFloat ty
  | .vfsqrt wd ws1 ty => wd < 32 && ws1 < 32 && tyFloat ty
  | .vexp2 wd ws1 => wd < 32 && ws1 < 32
  | .vlog2 wd ws1 => wd < 32 && ws1 < 32
  | .vrcp wd ws1 => wd < 32 && ws1 < 32
  | .vrsqrt wd ws1 => wd < 32 && ws1 < 32
  | .vsinpi wd ws1 => wd < 32 && ws1 < 32
  | .vcospi wd ws1 => wd < 32 && ws1 < 32
  | .vrsum wd ws1 ty => wd < 32 && ws1 < 32 && tyAll ty
  | .vrmax wd ws1 ty => wd < 32 && ws1 < 32 && tyAll ty
  | .vrmin wd ws1 ty => wd < 32 && ws1 < 32 && tyAll ty
  | .vcvt wd ws1 sty ty => wd < 32 && ws1 < 32 && sty < 8 && tyAll ty
  | .vcvtHi wd ws1 sty ty => wd < 32 && ws1 < 32 && sty < 8 && tyAll ty
  | .vcvtPk wd ws1 sty ty => wd < 32 && ws1 < 32 && sty < 8 && tyAll ty
  | .vcvtl wd ws1 ty => wd < 32 && ws1 < 32 && tyCvtl ty
  | .vcvtlf wd ws1 ty => wd < 32 && ws1 < 32 && tyCvtl ty
  | .vshuf wd ws1 ws2 ty => wd < 32 && ws1 < 32 && ws2 < 32 && tyAll ty
  | .vbcast wd xs ty => wd < 32 && xs < 32 && tyAll ty
  | .vins wd xs lane ty => wd < 32 && xs < 32 && lane < laneCount ty && tyAll ty
  | .vext xd ws1 lane ty => xd < 32 && ws1 < 32 && lane < laneCount ty && tyAll ty
  | .vextz xd ws1 lane ty => xd < 32 && ws1 < 32 && lane < laneCount ty && tyAll ty
  | .vksort wd ws1 ws2 ty => wd < 32 && ws1 < 32 && ws2 < 32 && tyKey ty
  | .vkmergeLo wd ws1 ws2 ty => wd < 32 && ws1 < 32 && ws2 < 32 && tyKey ty
  | .vkmergeHi wd ws1 ws2 ty => wd < 32 && ws1 < 32 && ws2 < 32 && tyKey ty
  | .vkcombAdd wd ws1 ws2 ty => wd < 32 && ws1 < 32 && ws2 < 32 && tyKey ty
  | .vkcombFirst wd ws1 ws2 ty => wd < 32 && ws1 < 32 && ws2 < 32 && tyKey ty
  | .vkmatch wd ws1 ws2 ty => wd < 32 && ws1 < 32 && ws2 < 32 && tyKey ty
  | .vsmmerge wd ws1 ws2 => wd < 32 && ws1 < 32 && ws2 < 32
  | .vsmscale wd ws1 ws2 => wd < 32 && ws1 < 32 && ws2 < 32
  | .vsmnorm wd ws1 ws2 => wd < 32 && ws1 < 32 && ws2 < 32
  | .runionEx rd rs1 rs2 => rd < 16 && rs1 < 16 && rs2 < 16
  | .runionSup rd rs1 rs2 => rd < 16 && rs1 < 16 && rs2 < 16
  | .rinterEx rd rs1 rs2 => rd < 16 && rs1 < 16 && rs2 < 16
  | .rinterSup rd rs1 rs2 => rd < 16 && rs1 < 16 && rs2 < 16
  | .rsubEx rd rs1 rs2 => rd < 16 && rs1 < 16 && rs2 < 16
  | .rsubSup rd rs1 rs2 => rd < 16 && rs1 < 16 && rs2 < 16
  | .rsubSub rd rs1 rs2 => rd < 16 && rs1 < 16 && rs2 < 16
  | .rdil rd rs1 rs2 => rd < 16 && rs1 < 16 && rs2 < 32
  | .rshift rd rs1 rs2 => rd < 16 && rs1 < 16 && rs2 < 32
  | .rproj rd rs1 rs2 => rd < 16 && rs1 < 16 && rs2 < 32
  | .rsplit rd rs1 rs2 => rd < 16 && rs1 < 16 && rs2 < 32
  | .rclip rd rs1 rs2 => rd < 16 && rs1 < 16 && rs2 < 32
  | .rcount rd rs1 => rd < 32 && rs1 < 16
  | .rtest rd rs1 rs2 => rd < 32 && rs1 < 16 && rs2 < 16
  | .rgetb rd rs1 rs2 => rd < 32 && rs1 < 16 && rs2 < 32
  | .rld rd rs1 => rd < 16 && rs1 < 32
  | .rst rs1 rs2 => rs1 < 32 && rs2 < 16
  | .rb2 rd rs1 rs2 => rd < 16 && rs1 < 32 && rs2 < 32
  | .rmask rd rs1 rs2 => rd < 16 && rs1 < 32 && rs2 < 16
  | .tilepost rd rs1 rs2 => rd < 32 && rs1 < 16 && rs2 < 32
  | .tilenext rd rs1 => rd < 16 && rs1 < 32
  | .rgather rd rs1 rs2 gs => rd < 32 && rs1 < 32 && rs2 < 32 && gs < 16
  | .rscatterSet rd rs1 rs2 gs => rd < 32 && rs1 < 32 && rs2 < 32 && gs < 16
  | .rscatterAdd rd rs1 rs2 gs => rd < 32 && rs1 < 32 && rs2 < 32 && gs < 16
  | .rcopy rd rs1 rs2 => rd < 32 && rs1 < 32 && rs2 < 16
  | .rstream qd rs1 gs => 26 ≤ qd && qd < 32 && rs1 < 32 && gs < 16
  | .rsink rd qs gs => rd < 32 && 26 ≤ qs && qs < 32 && gs < 16
  | .rwait rs1 rs2 => rs1 < 32 && rs2 < 16
  | .rcapmkR rd rs1 rs2 => rd < 24 && rs1 < 32 && rs2 < 16
  | .rcapmkW rd rs1 rs2 => rd < 24 && rs1 < 32 && rs2 < 16
  | .rcapmkRw rd rs1 rs2 => rd < 24 && rs1 < 32 && rs2 < 16
  | .qbind qd rs1 rs2 => 26 ≤ qd && qd < 32 && rs1 < 32 && rs2 < 32
  | .qfree qd => 26 ≤ qd && qd < 32
  | .cinit rs1 rs2 => rs1 < 32 && rs2 < 32
  | .carrive rs1 => rs1 < 32
  | .cexpect rs1 rs2 => rs1 < 32 && rs2 < 32
  | .cwatch rs1 rs2 => rs1 < 32 && rs2 < 32
  | .bedset rs1 rs2 => rs1 < 32 && rs2 < 32
  | .mmul rsB rsA ctile mode mcode ncode => rsB < 32 && rsA < 32 && ctile < 4 && mode < 3 && mcode < 3 && ncode < 64
  | .mlds rs1 => rs1 < 32
  | .mstc rs1 tile => rs1 < 32 && tile < 4
  | .mzero tile => tile < 4
  | .mcfg rs1 => rs1 < 32
  | .mcmd rd rs1 rs2 => rd < 32 && rs1 < 32 && rs2 < 32
  | .mwait => true
  | .notAnInstruction => true
  | .preloadRead => true
  | .peerServiceSignal => true

end Sys2Proof
end

