-- ==== Sys2Proof/Decode.lean ====
section
/-! DEFINITION. Decoding a word in the fixed order of R56, and after it an encoder written from the same tables
(R43, R44, R48, R50–R55). A word is read as its six fields of the R layout; every other format's fields are parts of
these. -/

namespace Sys2Proof

/-- Bits [lo+n-1:lo] of a word. -/
def fld (w lo n : Nat) : Nat := w / 2 ^ lo % 2 ^ n

/-- LOAD (R48). -/
def candLoad (rd f3 rs1 rs2 f7 : Nat) : Option (Instr × Nat) :=
  match f3 with
  | 0 => some (.lb rd rs1 (f7 * 32 + rs2), 0)
  | 1 => some (.lh rd rs1 (f7 * 32 + rs2), 0)
  | 2 => some (.lw rd rs1 (f7 * 32 + rs2), 0)
  | 3 => some (.ld rd rs1 (f7 * 32 + rs2), 0)
  | 4 => some (.lbu rd rs1 (f7 * 32 + rs2), 0)
  | 5 => some (.lhu rd rs1 (f7 * 32 + rs2), 0)
  | 6 => some (.lwu rd rs1 (f7 * 32 + rs2), 0)
  | _ => none

/-- MISC-MEM (R48, R49): the fm field is bits [31:28]; an fm other than 0 and 8 counts as a nonzero reserved field. -/
def candFence (rd f3 rs1 rs2 f7 : Nat) : Option (Instr × Nat) :=
  if f3 = 0 then
    if f7 / 8 = 0 then some (.fence rd rs1 (rs2 % 16) (f7 % 8 * 2 + rs2 / 16), 0)
    else if f7 / 8 = 8 then
      if rs2 = 19 ∧ f7 % 8 = 1 then some (.fenceTso rd rs1, 0)
      else some (.fenceFm8 rd rs1 (rs2 % 16) (f7 % 8 * 2 + rs2 / 16), 0)
    else some (.fence rd rs1 (rs2 % 16) (f7 % 8 * 2 + rs2 / 16), 1)
  else none

/-- OP-IMM (R48). -/
def candOpImm (rd f3 rs1 rs2 f7 : Nat) : Option (Instr × Nat) :=
  match f3 with
  | 0 => some (.addi rd rs1 (f7 * 32 + rs2), 0)
  | 2 => some (.slti rd rs1 (f7 * 32 + rs2), 0)
  | 3 => some (.sltiu rd rs1 (f7 * 32 + rs2), 0)
  | 4 => some (.xori rd rs1 (f7 * 32 + rs2), 0)
  | 6 => some (.ori rd rs1 (f7 * 32 + rs2), 0)
  | 7 => some (.andi rd rs1 (f7 * 32 + rs2), 0)
  | 1 =>
    if f7 / 2 = 0 then some (.slli rd rs1 (f7 % 2 * 32 + rs2), 0)
    else if f7 = 0x30 then
      match rs2 with
      | 0 => some (.clz rd rs1, 0)
      | 1 => some (.ctz rd rs1, 0)
      | 2 => some (.cpop rd rs1, 0)
      | 4 => some (.sextB rd rs1, 0)
      | 5 => some (.sextH rd rs1, 0)
      | _ => none
    else none
  | 5 =>
    match f7 / 2 with
    | 0 => some (.srli rd rs1 (f7 % 2 * 32 + rs2), 0)
    | 0x10 => some (.srai rd rs1 (f7 % 2 * 32 + rs2), 0)
    | 0x18 => some (.rori rd rs1 (f7 % 2 * 32 + rs2), 0)
    | _ => none
  | _ => none

/-- OP-IMM-32 (R48). -/
def candOpImm32 (rd f3 rs1 rs2 f7 : Nat) : Option (Instr × Nat) :=
  match f3 with
  | 0 => some (.addiw rd rs1 (f7 * 32 + rs2), 0)
  | 1 => if f7 = 0 then some (.slliw rd rs1 rs2, 0) else none
  | 5 => match f7 with
    | 0 => some (.srliw rd rs1 rs2, 0)
    | 0x20 => some (.sraiw rd rs1 rs2, 0)
    | _ => none
  | _ => none

/-- STORE (R48). -/
def candStore (rd f3 rs1 rs2 f7 : Nat) : Option (Instr × Nat) :=
  match f3 with
  | 0 => some (.sb rs1 rs2 (f7 * 32 + rd), 0)
  | 1 => some (.sh rs1 rs2 (f7 * 32 + rd), 0)
  | 2 => some (.sw rs1 rs2 (f7 * 32 + rd), 0)
  | 3 => some (.sd rs1 rs2 (f7 * 32 + rd), 0)
  | _ => none

/-- AMO (R48): funct5 is bits [31:27]. -/
def candAmo (rd f3 rs1 rs2 f7 : Nat) : Option (Instr × Nat) :=
  match f3 with
  | 2 =>
    match f7 / 4 with
    | 0 => some (.amoaddW rd rs1 rs2 (f7 / 2 % 2) (f7 % 2), 0)
    | 1 => some (.amoswapW rd rs1 rs2 (f7 / 2 % 2) (f7 % 2), 0)
    | 4 => some (.amoxorW rd rs1 rs2 (f7 / 2 % 2) (f7 % 2), 0)
    | 8 => some (.amoorW rd rs1 rs2 (f7 / 2 % 2) (f7 % 2), 0)
    | 0xc => some (.amoandW rd rs1 rs2 (f7 / 2 % 2) (f7 % 2), 0)
    | 0x10 => some (.amominW rd rs1 rs2 (f7 / 2 % 2) (f7 % 2), 0)
    | 0x14 => some (.amomaxW rd rs1 rs2 (f7 / 2 % 2) (f7 % 2), 0)
    | 0x18 => some (.amominuW rd rs1 rs2 (f7 / 2 % 2) (f7 % 2), 0)
    | 0x1c => some (.amomaxuW rd rs1 rs2 (f7 / 2 % 2) (f7 % 2), 0)
    | 5 => some (.amocasW rd rs1 rs2 (f7 / 2 % 2) (f7 % 2), 0)
    | _ => none
  | 3 =>
    match f7 / 4 with
    | 0 => some (.amoaddD rd rs1 rs2 (f7 / 2 % 2) (f7 % 2), 0)
    | 1 => some (.amoswapD rd rs1 rs2 (f7 / 2 % 2) (f7 % 2), 0)
    | 4 => some (.amoxorD rd rs1 rs2 (f7 / 2 % 2) (f7 % 2), 0)
    | 8 => some (.amoorD rd rs1 rs2 (f7 / 2 % 2) (f7 % 2), 0)
    | 0xc => some (.amoandD rd rs1 rs2 (f7 / 2 % 2) (f7 % 2), 0)
    | 0x10 => some (.amominD rd rs1 rs2 (f7 / 2 % 2) (f7 % 2), 0)
    | 0x14 => some (.amomaxD rd rs1 rs2 (f7 / 2 % 2) (f7 % 2), 0)
    | 0x18 => some (.amominuD rd rs1 rs2 (f7 / 2 % 2) (f7 % 2), 0)
    | 0x1c => some (.amomaxuD rd rs1 rs2 (f7 / 2 % 2) (f7 % 2), 0)
    | 5 => some (.amocasD rd rs1 rs2 (f7 / 2 % 2) (f7 % 2), 0)
    | _ => none
  | 4 =>
    match f7 / 4 with
    | 5 => some (.amocasQ rd rs1 rs2 (f7 / 2 % 2) (f7 % 2), 0)
    | _ => none
  | _ => none

/-- OP (R48). -/
def candOp (rd f3 rs1 rs2 f7 : Nat) : Option (Instr × Nat) :=
  match f7 with
  | 0 =>
    match f3 with
    | 0 => some (.add rd rs1 rs2, 0)
    | 1 => some (.sll rd rs1 rs2, 0)
    | 2 => some (.slt rd rs1 rs2, 0)
    | 3 => some (.sltu rd rs1 rs2, 0)
    | 4 => some (.xorr rd rs1 rs2, 0)
    | 5 => some (.srl rd rs1 rs2, 0)
    | 6 => some (.orr rd rs1 rs2, 0)
    | 7 => some (.andd rd rs1 rs2, 0)
    | _ => none
  | 1 =>
    match f3 with
    | 0 => some (.mul rd rs1 rs2, 0)
    | 1 => some (.mulh rd rs1 rs2, 0)
    | 2 => some (.mulhsu rd rs1 rs2, 0)
    | 3 => some (.mulhu rd rs1 rs2, 0)
    | 4 => some (.div rd rs1 rs2, 0)
    | 5 => some (.divu rd rs1 rs2, 0)
    | 6 => some (.rem rd rs1 rs2, 0)
    | 7 => some (.remu rd rs1 rs2, 0)
    | _ => none
  | 5 =>
    match f3 with
    | 4 => some (.minn rd rs1 rs2, 0)
    | 5 => some (.minu rd rs1 rs2, 0)
    | 6 => some (.maxx rd rs1 rs2, 0)
    | 7 => some (.maxu rd rs1 rs2, 0)
    | _ => none
  | 0x10 =>
    match f3 with
    | 2 => some (.sh1add rd rs1 rs2, 0)
    | 4 => some (.sh2add rd rs1 rs2, 0)
    | 6 => some (.sh3add rd rs1 rs2, 0)
    | _ => none
  | 0x20 =>
    match f3 with
    | 0 => some (.sub rd rs1 rs2, 0)
    | 5 => some (.sra rd rs1 rs2, 0)
    | 7 => some (.andn rd rs1 rs2, 0)
    | _ => none
  | 0x30 =>
    match f3 with
    | 1 => some (.rol rd rs1 rs2, 0)
    | 5 => some (.ror rd rs1 rs2, 0)
    | _ => none
  | _ => none

/-- OP-32 (R48). -/
def candOp32 (rd f3 rs1 rs2 f7 : Nat) : Option (Instr × Nat) :=
  match f7 with
  | 0 =>
    match f3 with
    | 0 => some (.addw rd rs1 rs2, 0)
    | 1 => some (.sllw rd rs1 rs2, 0)
    | 5 => some (.srlw rd rs1 rs2, 0)
    | _ => none
  | 1 =>
    match f3 with
    | 0 => some (.mulw rd rs1 rs2, 0)
    | 4 => some (.divw rd rs1 rs2, 0)
    | 5 => some (.divuw rd rs1 rs2, 0)
    | 6 => some (.remw rd rs1 rs2, 0)
    | 7 => some (.remuw rd rs1 rs2, 0)
    | _ => none
  | 4 =>
    match f3 with
    | 4 => if rs2 = 0 then some (.zextH rd rs1, 0) else none
    | _ => none
  | 0x20 =>
    match f3 with
    | 0 => some (.subw rd rs1 rs2, 0)
    | 5 => some (.sraw rd rs1 rs2, 0)
    | _ => none
  | _ => none

/-- BRANCH (R48). -/
def candBranch (rd f3 rs1 rs2 f7 : Nat) : Option (Instr × Nat) :=
  match f3 with
  | 0 => some (.beq rs1 rs2 (f7 / 64 * 4096 + rd % 2 * 2048 + f7 % 64 * 32 + rd / 2 * 2), 0)
  | 1 => some (.bne rs1 rs2 (f7 / 64 * 4096 + rd % 2 * 2048 + f7 % 64 * 32 + rd / 2 * 2), 0)
  | 4 => some (.blt rs1 rs2 (f7 / 64 * 4096 + rd % 2 * 2048 + f7 % 64 * 32 + rd / 2 * 2), 0)
  | 5 => some (.bge rs1 rs2 (f7 / 64 * 4096 + rd % 2 * 2048 + f7 % 64 * 32 + rd / 2 * 2), 0)
  | 6 => some (.bltu rs1 rs2 (f7 / 64 * 4096 + rd % 2 * 2048 + f7 % 64 * 32 + rd / 2 * 2), 0)
  | 7 => some (.bgeu rs1 rs2 (f7 / 64 * 4096 + rd % 2 * 2048 + f7 % 64 * 32 + rd / 2 * 2), 0)
  | _ => none

/-- SYSTEM (R48): two exact words, and the CSR instructions on a CSR of the map. -/
def candSystem (rd f3 rs1 rs2 f7 : Nat) : Option (Instr × Nat) :=
  match f3 with
  | 0 => if rd = 0 ∧ rs1 = 0 ∧ f7 = 0 then
      match rs2 with
      | 0 => some (.ecall, 0)
      | 1 => some (.ebreak, 0)
      | _ => none
    else none
  | 1 => if csrKnown (f7 * 32 + rs2) then some (.csrrw rd rs1 (f7 * 32 + rs2), 0) else none
  | 2 => if csrKnown (f7 * 32 + rs2) then some (.csrrs rd rs1 (f7 * 32 + rs2), 0) else none
  | 3 => if csrKnown (f7 * 32 + rs2) then some (.csrrc rd rs1 (f7 * 32 + rs2), 0) else none
  | 5 => if csrKnown (f7 * 32 + rs2) then some (.csrrwi rd rs1 (f7 * 32 + rs2), 0) else none
  | 6 => if csrKnown (f7 * 32 + rs2) then some (.csrrsi rd rs1 (f7 * 32 + rs2), 0) else none
  | 7 => if csrKnown (f7 * 32 + rs2) then some (.csrrci rd rs1 (f7 * 32 + rs2), 0) else none
  | _ => none

/-- custom-0 (R50). -/
def candCustom0 (rd f3 rs1 rs2 f7 : Nat) : Option (Instr × Nat) :=
  match f3 with
  | 0 =>
    match f7 with
    | 0 => some (.done, rd + rs1 + rs2)
    | 1 => some (.bind rd rs1 rs2, 0)
    | 2 => some (.unbind rd rs1, rs2)
    | 3 => some (.loopb rd rs1, rs2)
    | 4 => some (.tcancel rd rs1, rs2)
    | _ => none
  | 1 => some (.send rd rs1 (f7 % 2 * 32 + rs2) (f7 / 2 % 16) (f7 / 32 % 2) (f7 / 64), 0)
  | 2 => if f7 / 16 = 0 then some (.tenq rd rs1 rs2 (f7 % 16), 0) else none
  | 3 => some (.barrive rs1 (rs2 % 8) (f7 % 2 * 4 + rs2 / 8) (f7 / 2), rd)
  | 4 => if f7 = 0 then some (.callt rd rs1 rs2, 0) else none
  | _ => none

/-- custom-1 (R51). -/
def candCustom1 (rd f3 rs1 rs2 f7 : Nat) : Option (Instr × Nat) :=
  match f3 with
  | 0 => some (.ldaqD rd rs1 (f7 * 32 + rs2), 0)
  | 1 => some (.ldaqQ rd rs1 (f7 * 32 + rs2), 0)
  | 2 => some (.strlD rs1 rs2 (f7 * 32 + rd), 0)
  | 3 => some (.strlQ rs1 rs2 (f7 * 32 + rd), 0)
  | 5 => some (.wld rd rs1 (f7 * 32 + rs2), 0)
  | 6 => some (.wst rs1 rs2 (f7 * 32 + rd), 0)
  | 4 =>
    if f7 / 16 = 1 then some (.rkwalk rd rs1 rs2 (f7 % 16), 0)
    else match f7 with
    | 0 => some (.ldvD rd rs1, rs2)
    | 1 => some (.ldvQ rd rs1, rs2)
    | 2 => some (.stvD rd rs1 rs2, 0)
    | 3 => some (.stvQ rd rs1 rs2, 0)
    | 4 => some (.vwatch rd rs1 rs2, 0)
    | 5 => some (.dfence rs1 rs2, rd)
    | 6 => some (.tfence, rd + rs1 + rs2)
    | 7 => some (.iflush rs1 rs2, rd)
    | 8 => some (.rkload rd rs1 rs2, 0)
    | _ => none
  | _ => none

/-- custom-2 (R52, R53): funct7 is op and funct3 is T. -/
def candCustom2 (rd f3 rs1 rs2 f7 : Nat) : Option (Instr × Nat) :=
  match f7 with
  | 0 => if tyInt f3 then some (.vadd rd rs1 rs2 f3, 0) else none
  | 1 => if tyInt f3 then some (.vsub rd rs1 rs2 f3, 0) else none
  | 2 => if tyInt f3 then some (.vmul rd rs1 rs2 f3, 0) else none
  | 3 => if tyInt f3 then some (.vmulhS rd rs1 rs2 f3, 0) else none
  | 4 => if tyInt f3 then some (.vmulhZ rd rs1 rs2 f3, 0) else none
  | 5 => if tyInt f3 then some (.vminS rd rs1 rs2 f3, 0) else none
  | 6 => if tyInt f3 then some (.vminZ rd rs1 rs2 f3, 0) else none
  | 7 => if tyInt f3 then some (.vmaxS rd rs1 rs2 f3, 0) else none
  | 8 => if tyInt f3 then some (.vmaxZ rd rs1 rs2 f3, 0) else none
  | 9 => if tyInt f3 then some (.vsaddS rd rs1 rs2 f3, 0) else none
  | 0xa => if tyInt f3 then some (.vsaddZ rd rs1 rs2 f3, 0) else none
  | 0xb => if tyInt f3 then some (.vssubS rd rs1 rs2 f3, 0) else none
  | 0xc => if tyInt f3 then some (.vssubZ rd rs1 rs2 f3, 0) else none
  | 0xd => if tyInt f3 then some (.vshl rd rs1 rs2 f3, 0) else none
  | 0xe => if tyInt f3 then some (.vshrS rd rs1 rs2 f3, 0) else none
  | 0xf => if tyInt f3 then some (.vshrZ rd rs1 rs2 f3, 0) else none
  | 0x10 => if tyInt f3 then some (.vand rd rs1 rs2 f3, 0) else none
  | 0x11 => if tyInt f3 then some (.vor rd rs1 rs2 f3, 0) else none
  | 0x12 => if tyInt f3 then some (.vxor rd rs1 rs2 f3, 0) else none
  | 0x13 => if tyInt f3 then some (.vandn rd rs1 rs2 f3, 0) else none
  | 0x18 => if tyAll f3 then some (.vcmpEq rd rs1 rs2 f3, 0) else none
  | 0x19 => if tyAll f3 then some (.vcmpNe rd rs1 rs2 f3, 0) else none
  | 0x1a => if tyAll f3 then some (.vcmpLt rd rs1 rs2 f3, 0) else none
  | 0x1b => if tyAll f3 then some (.vcmpLe rd rs1 rs2 f3, 0) else none
  | 0x1c => if tyInt f3 then some (.vcmpLtZ rd rs1 rs2 f3, 0) else none
  | 0x1d => if tyInt f3 then some (.vcmpLeZ rd rs1 rs2 f3, 0) else none
  | 0x1e => if tyAll f3 then some (.vsel rd rs1 rs2 f3, 0) else none
  | 0x20 => if tyFloat f3 then some (.vfadd rd rs1 rs2 f3, 0) else none
  | 0x21 => if tyFloat f3 then some (.vfsub rd rs1 rs2 f3, 0) else none
  | 0x22 => if tyFloat f3 then some (.vfmul rd rs1 rs2 f3, 0) else none
  | 0x23 => if tyFloat f3 then some (.vfma rd rs1 rs2 f3, 0) else none
  | 0x24 => if tyFloat f3 then some (.vfmin rd rs1 rs2 f3, 0) else none
  | 0x25 => if tyFloat f3 then some (.vfmax rd rs1 rs2 f3, 0) else none
  | 0x26 => if tyFloat f3 then some (.vfdiv rd rs1 rs2 f3, 0) else none
  | 0x27 => if tyFloat f3 then some (.vfsqrt rd rs1 f3, rs2) else none
  | 0x28 => if f3 = 6 then some (.vexp2 rd rs1, rs2) else none
  | 0x29 => if f3 = 6 then some (.vlog2 rd rs1, rs2) else none
  | 0x2a => if f3 = 6 then some (.vrcp rd rs1, rs2) else none
  | 0x2b => if f3 = 6 then some (.vrsqrt rd rs1, rs2) else none
  | 0x2c => if f3 = 6 then some (.vsinpi rd rs1, rs2) else none
  | 0x2d => if f3 = 6 then some (.vcospi rd rs1, rs2) else none
  | 0x30 => if tyAll f3 then some (.vrsum rd rs1 f3, rs2) else none
  | 0x31 => if tyAll f3 then some (.vrmax rd rs1 f3, rs2) else none
  | 0x32 => if tyAll f3 then some (.vrmin rd rs1 f3, rs2) else none
  | 0x38 => if tyAll f3 then some (.vcvt rd rs1 rs2 f3, 0) else none
  | 0x39 => if tyAll f3 then some (.vcvtHi rd rs1 rs2 f3, 0) else none
  | 0x3a => if tyAll f3 then some (.vcvtPk rd rs1 rs2 f3, 0) else none
  | 0x3b => if tyCvtl f3 then some (.vcvtl rd rs1 f3, rs2) else none
  | 0x3c => if tyCvtl f3 then some (.vcvtlf rd rs1 f3, rs2) else none
  | 0x40 => if tyAll f3 then some (.vshuf rd rs1 rs2 f3, 0) else none
  | 0x41 => if tyAll f3 then some (.vbcast rd rs1 f3, rs2) else none
  | 0x42 => if tyAll f3 then some (.vins rd rs1 rs2 f3, 0) else none
  | 0x43 => if tyAll f3 then some (.vext rd rs1 rs2 f3, 0) else none
  | 0x44 => if tyAll f3 then some (.vextz rd rs1 rs2 f3, 0) else none
  | 0x48 => if tyKey f3 then some (.vksort rd rs1 rs2 f3, 0) else none
  | 0x49 => if tyKey f3 then some (.vkmergeLo rd rs1 rs2 f3, 0) else none
  | 0x4a => if tyKey f3 then some (.vkmergeHi rd rs1 rs2 f3, 0) else none
  | 0x4b => if tyKey f3 then some (.vkcombAdd rd rs1 rs2 f3, 0) else none
  | 0x4c => if tyKey f3 then some (.vkcombFirst rd rs1 rs2 f3, 0) else none
  | 0x4d => if tyKey f3 then some (.vkmatch rd rs1 rs2 f3, 0) else none
  | 0x50 => if f3 = 6 then some (.vsmmerge rd rs1 rs2, 0) else none
  | 0x51 => if f3 = 6 then some (.vsmscale rd rs1 rs2, 0) else none
  | 0x52 => if f3 = 6 then some (.vsmnorm rd rs1 rs2, 0) else none
  | _ => none

/-- custom-3 (R54). -/
def candCustom3 (rd f3 rs1 rs2 f7 : Nat) : Option (Instr × Nat) :=
  match f3 with
  | 0 =>
    match f7 with
    | 0 => some (.runionEx rd rs1 rs2, 0)
    | 1 => some (.runionSup rd rs1 rs2, 0)
    | 2 => some (.rinterEx rd rs1 rs2, 0)
    | 3 => some (.rinterSup rd rs1 rs2, 0)
    | 4 => some (.rsubEx rd rs1 rs2, 0)
    | 5 => some (.rsubSup rd rs1 rs2, 0)
    | 6 => some (.rsubSub rd rs1 rs2, 0)
    | 8 => some (.rdil rd rs1 rs2, 0)
    | 9 => some (.rshift rd rs1 rs2, 0)
    | 0xa => some (.rproj rd rs1 rs2, 0)
    | 0xb => some (.rsplit rd rs1 rs2, 0)
    | 0xc => some (.rclip rd rs1 rs2, 0)
    | 0xd => some (.rcount rd rs1, rs2)
    | 0xe => some (.rtest rd rs1 rs2, 0)
    | 0xf => some (.rgetb rd rs1 rs2, 0)
    | 0x10 => some (.rld rd rs1, rs2)
    | 0x11 => some (.rst rs1 rs2, rd)
    | 0x12 => some (.rb2 rd rs1 rs2, 0)
    | 0x13 => some (.rmask rd rs1 rs2, 0)
    | 0x14 => some (.tilepost rd rs1 rs2, 0)
    | 0x15 => some (.tilenext rd rs1, rs2)
    | _ => none
  | 2 =>
    match f7 with
    | 0 => some (.rcopy rd rs1 rs2, 0)
    | 1 => some (.rstream rd rs1 rs2, 0)
    | 2 => some (.rsink rd rs1 rs2, 0)
    | 3 => some (.rwait rs1 rs2, rd)
    | 4 => some (.rcapmkR rd rs1 rs2, 0)
    | 5 => some (.rcapmkW rd rs1 rs2, 0)
    | 6 => some (.rcapmkRw rd rs1 rs2, 0)
    | 8 => some (.qbind rd rs1 rs2, 0)
    | 9 => some (.qfree rd, rs1 + rs2)
    | 0xa => some (.cinit rs1 rs2, rd)
    | 0xb => some (.carrive rs1, rd + rs2)
    | 0xc => some (.cexpect rs1 rs2, rd)
    | 0xd => some (.cwatch rs1 rs2, rd)
    | 0xe => some (.bedset rs1 rs2, rd)
    | _ => none
  | 4 =>
    match f7 with
    | 0 => some (.mlds rs1, rd + rs2)
    | 1 => some (.mstc rs1 rs2, rd)
    | 2 => some (.mzero rs2, rd + rs1)
    | 3 => some (.mcfg rs1, rd + rs2)
    | 4 => some (.mcmd rd rs1 rs2, 0)
    | 5 => some (.mwait, rd + rs1 + rs2)
    | _ => none
  | 1 =>
    match f7 % 4 with
    | 0 => some (.rgather rd rs1 rs2 (f7 / 4), 0)
    | 1 => some (.rscatterSet rd rs1 rs2 (f7 / 4), 0)
    | 2 => some (.rscatterAdd rd rs1 rs2 (f7 / 4), 0)
    | _ => none
  | 3 => some (.mmul rd rs1 (rs2 % 4) (rs2 / 4 % 4) (rs2 / 16 + f7 % 2 * 2) (f7 / 2), 0)
  | _ => none

/-- Steps 1 to 3 of R56: the instruction that the selectors name, with the value of its reserved fields (0 when they are
all zero); none where the word raises ILLEGAL_OP. -/
def candidate (op rd f3 rs1 rs2 f7 : Nat) : Option (Instr × Nat) :=
  match op with
  | 0x03 => candLoad rd f3 rs1 rs2 f7
  | 0x0B => candCustom0 rd f3 rs1 rs2 f7
  | 0x0F => candFence rd f3 rs1 rs2 f7
  | 0x13 => candOpImm rd f3 rs1 rs2 f7
  | 0x17 => some (.auipc rd (f7 * 8192 + rs2 * 256 + rs1 * 8 + f3), 0)
  | 0x1B => candOpImm32 rd f3 rs1 rs2 f7
  | 0x23 => candStore rd f3 rs1 rs2 f7
  | 0x2B => candCustom1 rd f3 rs1 rs2 f7
  | 0x2F => candAmo rd f3 rs1 rs2 f7
  | 0x33 => candOp rd f3 rs1 rs2 f7
  | 0x37 => some (.lui rd (f7 * 8192 + rs2 * 256 + rs1 * 8 + f3), 0)
  | 0x3B => candOp32 rd f3 rs1 rs2 f7
  | 0x5B => candCustom2 rd f3 rs1 rs2 f7
  | 0x63 => candBranch rd f3 rs1 rs2 f7
  | 0x67 => if f3 = 0 then some (.jalr rd rs1 (f7 * 32 + rs2), 0) else none
  | 0x6F => some (.jal rd (f7 / 64 * 1048576 + (rs1 * 8 + f3) * 4096 + rs2 % 2 * 2048 + (f7 % 64 * 16 + rs2 / 2) * 2), 0)
  | 0x73 => candSystem rd f3 rs1 rs2 f7
  | 0x7B => candCustom3 rd f3 rs1 rs2 f7
  | _ => none

/-- What a word reads as: ILLEGAL_OP (steps 1–3 of R56), an instruction with a reserved or out-of-range field (step 5),
or an instruction. -/
inductive Decoded where
  | illegal
  | reserved (i : Instr)
  | instr (i : Instr)
  deriving DecidableEq, Repr

/-- R56 on the six fields of a word. -/
def decodeFields (op rd f3 rs1 rs2 f7 : Nat) : Decoded :=
  match candidate op rd f3 rs1 rs2 f7 with
  | none => .illegal
  | some (i, r) => if r = 0 ∧ i.wf = true then .instr i else .reserved i

/-- R56 on a 32-bit word. Bits [1:0] other than 0b11 name no major opcode of R47, so steps 1 and 2 are one test. -/
def decode (w : Nat) : Decoded :=
  decodeFields (fld w 0 7) (fld w 7 5) (fld w 12 3) (fld w 15 5) (fld w 20 5) (fld w 25 7)

/-- The little-endian number that bytes hold (R2). -/
def leNat : List Byte → Nat
  | [] => 0
  | b :: t => b.toNat + 256 * leNat t

/-- The n little-endian bytes of a number (R2). -/
def leBytes (w : Nat) : Nat → List Byte
  | 0 => []
  | n + 1 => BitVec.ofNat 8 w :: leBytes (w / 256) n

/-- Decoding any bytes: the first four are the word (R42); fewer are none of the instructions. -/
def decodeBytes (bs : List Byte) : Decoded :=
  if bs.length < 4 then .illegal else decode (leNat (bs.take 4))

/-- What the decoder reads from the instruction whose bits are w (of the table's nbits; the bits above are 0). -/
def decodeTableWord (nbits w : Nat) : Option Instr :=
  match decodeBytes (leBytes (w % 2 ^ nbits) 4) with
  | .instr i => some i
  | _ => none

/-- The word of six fields (R43). -/
def word (op rd f3 rs1 rs2 f7 : Nat) : Nat :=
  op + rd * 128 + f3 * 4096 + rs1 * 32768 + rs2 * 1048576 + f7 * 33554432

/-- The word of an instruction; an event of the part has none. -/
def encode : Instr → Option Nat
  | .moduleReset => none
  | .functionLevelReset => none
  | .aclkChange => none
  | .thermalEmergency => none
  | .linkFatal => none
  | .powercapWrite => none
  | .lsubmit => none
  | .killh => none
  | .killb => none
  | .resumeReplay => none
  | .resumeFail => none
  | .inval => none
  | .invalComplete => none
  | .s2invctl => none
  | .s2invComplete => none
  | .mbdoor => none
  | .mbinReply => none
  | .managementMessage => none
  | .ptabWrite => none
  | .hdecWrite => none
  | .keyLoad => none
  | .keyDestroy => none
  | .registerWrite => none
  | .bar2Read => none
  | .bar2Write => none
  | .cxlMemRead => none
  | .cxlMemWrite => none
  | .backInvalidationResponse => none
  | .getMeasurements => none
  | .peerRequest => none
  | .peerCompletion => none
  | .peerTimeout => none
  | .messageResident => none
  | .dispatch => none
  | .overflowPresent => none
  | .watchdog => none
  | .translationFault => none
  | .suspendOnSlotFree => none
  | .handlerResume => none
  | .faultRecordPost => none
  | .loadReturn => none
  | .storePerformed => none
  | .vwatchRegister => none
  | .amoAtHome => none
  | .taskDispatch => none
  | .taskCommit => none
  | .launchPlace => none
  | .bandEnd => none
  | .launchComplete => none
  | .launchStatusWrite => none
  | .barrierArrival => none
  | .transferDecision => none
  | .transferComplete => none
  | .streamDeliver => none
  | .neighbourElementArrive => none
  | .neighbourCreditReturn => none
  | .mmulKstep => none
  | .operandFetchFault => none
  | .mcmdReceive => none
  | .rakeStep => none
  | .rakeHandoff => none
  | .rakeSlotLoad => none
  | .slHung => none
  | .mxHung => none
  | .rkHung => none
  | .ctHung => none
  | .sliceEnd => none
  | .contextSwitch => none
  | .periodEnd => none
  | .quotaLimitReached => none
  | .logBatchClose => none
  | .softError => none
  | .lb rd rs1 imm => some (word 3 rd 0 rs1 (imm % 32) (imm / 32))
  | .lh rd rs1 imm => some (word 3 rd 1 rs1 (imm % 32) (imm / 32))
  | .lw rd rs1 imm => some (word 3 rd 2 rs1 (imm % 32) (imm / 32))
  | .ld rd rs1 imm => some (word 3 rd 3 rs1 (imm % 32) (imm / 32))
  | .lbu rd rs1 imm => some (word 3 rd 4 rs1 (imm % 32) (imm / 32))
  | .lhu rd rs1 imm => some (word 3 rd 5 rs1 (imm % 32) (imm / 32))
  | .lwu rd rs1 imm => some (word 3 rd 6 rs1 (imm % 32) (imm / 32))
  | .fence rd rs1 succ pred => some (word 0xf rd 0 rs1 (succ + pred % 2 * 16) (0 + pred / 2))
  | .fenceTso rd rs1 => some (word 0xf rd 0 rs1 19 65)
  | .fenceFm8 rd rs1 succ pred => some (word 0xf rd 0 rs1 (succ + pred % 2 * 16) (64 + pred / 2))
  | .addi rd rs1 imm => some (word 0x13 rd 0 rs1 (imm % 32) (imm / 32))
  | .slti rd rs1 imm => some (word 0x13 rd 2 rs1 (imm % 32) (imm / 32))
  | .sltiu rd rs1 imm => some (word 0x13 rd 3 rs1 (imm % 32) (imm / 32))
  | .xori rd rs1 imm => some (word 0x13 rd 4 rs1 (imm % 32) (imm / 32))
  | .ori rd rs1 imm => some (word 0x13 rd 6 rs1 (imm % 32) (imm / 32))
  | .andi rd rs1 imm => some (word 0x13 rd 7 rs1 (imm % 32) (imm / 32))
  | .slli rd rs1 shamt => some (word 0x13 rd 1 rs1 (shamt % 32) (0 + shamt / 32))
  | .clz rd rs1 => some (word 0x13 rd 1 rs1 0 48)
  | .ctz rd rs1 => some (word 0x13 rd 1 rs1 1 48)
  | .cpop rd rs1 => some (word 0x13 rd 1 rs1 2 48)
  | .sextB rd rs1 => some (word 0x13 rd 1 rs1 4 48)
  | .sextH rd rs1 => some (word 0x13 rd 1 rs1 5 48)
  | .srli rd rs1 shamt => some (word 0x13 rd 5 rs1 (shamt % 32) (0 + shamt / 32))
  | .srai rd rs1 shamt => some (word 0x13 rd 5 rs1 (shamt % 32) (32 + shamt / 32))
  | .rori rd rs1 shamt => some (word 0x13 rd 5 rs1 (shamt % 32) (48 + shamt / 32))
  | .auipc rd imm => some (word 0x17 rd (imm % 8) (imm / 8 % 32) (imm / 256 % 32) (imm / 8192))
  | .addiw rd rs1 imm => some (word 0x1b rd 0 rs1 (imm % 32) (imm / 32))
  | .slliw rd rs1 shamt => some (word 0x1b rd 1 rs1 shamt 0)
  | .srliw rd rs1 shamt => some (word 0x1b rd 5 rs1 shamt 0)
  | .sraiw rd rs1 shamt => some (word 0x1b rd 5 rs1 shamt 32)
  | .sb rs1 rs2 imm => some (word 0x23 (imm % 32) 0 rs1 rs2 (imm / 32))
  | .sh rs1 rs2 imm => some (word 0x23 (imm % 32) 1 rs1 rs2 (imm / 32))
  | .sw rs1 rs2 imm => some (word 0x23 (imm % 32) 2 rs1 rs2 (imm / 32))
  | .sd rs1 rs2 imm => some (word 0x23 (imm % 32) 3 rs1 rs2 (imm / 32))
  | .amoaddW rd rs1 rs2 aq rl => some (word 0x2f rd 2 rs1 rs2 (0 + aq * 2 + rl))
  | .amoswapW rd rs1 rs2 aq rl => some (word 0x2f rd 2 rs1 rs2 (4 + aq * 2 + rl))
  | .amoxorW rd rs1 rs2 aq rl => some (word 0x2f rd 2 rs1 rs2 (16 + aq * 2 + rl))
  | .amoorW rd rs1 rs2 aq rl => some (word 0x2f rd 2 rs1 rs2 (32 + aq * 2 + rl))
  | .amoandW rd rs1 rs2 aq rl => some (word 0x2f rd 2 rs1 rs2 (48 + aq * 2 + rl))
  | .amominW rd rs1 rs2 aq rl => some (word 0x2f rd 2 rs1 rs2 (64 + aq * 2 + rl))
  | .amomaxW rd rs1 rs2 aq rl => some (word 0x2f rd 2 rs1 rs2 (80 + aq * 2 + rl))
  | .amominuW rd rs1 rs2 aq rl => some (word 0x2f rd 2 rs1 rs2 (96 + aq * 2 + rl))
  | .amomaxuW rd rs1 rs2 aq rl => some (word 0x2f rd 2 rs1 rs2 (112 + aq * 2 + rl))
  | .amocasW rd rs1 rs2 aq rl => some (word 0x2f rd 2 rs1 rs2 (20 + aq * 2 + rl))
  | .amoaddD rd rs1 rs2 aq rl => some (word 0x2f rd 3 rs1 rs2 (0 + aq * 2 + rl))
  | .amoswapD rd rs1 rs2 aq rl => some (word 0x2f rd 3 rs1 rs2 (4 + aq * 2 + rl))
  | .amoxorD rd rs1 rs2 aq rl => some (word 0x2f rd 3 rs1 rs2 (16 + aq * 2 + rl))
  | .amoorD rd rs1 rs2 aq rl => some (word 0x2f rd 3 rs1 rs2 (32 + aq * 2 + rl))
  | .amoandD rd rs1 rs2 aq rl => some (word 0x2f rd 3 rs1 rs2 (48 + aq * 2 + rl))
  | .amominD rd rs1 rs2 aq rl => some (word 0x2f rd 3 rs1 rs2 (64 + aq * 2 + rl))
  | .amomaxD rd rs1 rs2 aq rl => some (word 0x2f rd 3 rs1 rs2 (80 + aq * 2 + rl))
  | .amominuD rd rs1 rs2 aq rl => some (word 0x2f rd 3 rs1 rs2 (96 + aq * 2 + rl))
  | .amomaxuD rd rs1 rs2 aq rl => some (word 0x2f rd 3 rs1 rs2 (112 + aq * 2 + rl))
  | .amocasD rd rs1 rs2 aq rl => some (word 0x2f rd 3 rs1 rs2 (20 + aq * 2 + rl))
  | .amocasQ rd rs1 rs2 aq rl => some (word 0x2f rd 4 rs1 rs2 (20 + aq * 2 + rl))
  | .add rd rs1 rs2 => some (word 0x33 rd 0 rs1 rs2 0)
  | .sll rd rs1 rs2 => some (word 0x33 rd 1 rs1 rs2 0)
  | .slt rd rs1 rs2 => some (word 0x33 rd 2 rs1 rs2 0)
  | .sltu rd rs1 rs2 => some (word 0x33 rd 3 rs1 rs2 0)
  | .xorr rd rs1 rs2 => some (word 0x33 rd 4 rs1 rs2 0)
  | .srl rd rs1 rs2 => some (word 0x33 rd 5 rs1 rs2 0)
  | .orr rd rs1 rs2 => some (word 0x33 rd 6 rs1 rs2 0)
  | .andd rd rs1 rs2 => some (word 0x33 rd 7 rs1 rs2 0)
  | .sub rd rs1 rs2 => some (word 0x33 rd 0 rs1 rs2 32)
  | .sra rd rs1 rs2 => some (word 0x33 rd 5 rs1 rs2 32)
  | .andn rd rs1 rs2 => some (word 0x33 rd 7 rs1 rs2 32)
  | .mul rd rs1 rs2 => some (word 0x33 rd 0 rs1 rs2 1)
  | .mulh rd rs1 rs2 => some (word 0x33 rd 1 rs1 rs2 1)
  | .mulhsu rd rs1 rs2 => some (word 0x33 rd 2 rs1 rs2 1)
  | .mulhu rd rs1 rs2 => some (word 0x33 rd 3 rs1 rs2 1)
  | .div rd rs1 rs2 => some (word 0x33 rd 4 rs1 rs2 1)
  | .divu rd rs1 rs2 => some (word 0x33 rd 5 rs1 rs2 1)
  | .rem rd rs1 rs2 => some (word 0x33 rd 6 rs1 rs2 1)
  | .remu rd rs1 rs2 => some (word 0x33 rd 7 rs1 rs2 1)
  | .minn rd rs1 rs2 => some (word 0x33 rd 4 rs1 rs2 5)
  | .minu rd rs1 rs2 => some (word 0x33 rd 5 rs1 rs2 5)
  | .maxx rd rs1 rs2 => some (word 0x33 rd 6 rs1 rs2 5)
  | .maxu rd rs1 rs2 => some (word 0x33 rd 7 rs1 rs2 5)
  | .sh1add rd rs1 rs2 => some (word 0x33 rd 2 rs1 rs2 16)
  | .sh2add rd rs1 rs2 => some (word 0x33 rd 4 rs1 rs2 16)
  | .sh3add rd rs1 rs2 => some (word 0x33 rd 6 rs1 rs2 16)
  | .rol rd rs1 rs2 => some (word 0x33 rd 1 rs1 rs2 48)
  | .ror rd rs1 rs2 => some (word 0x33 rd 5 rs1 rs2 48)
  | .lui rd imm => some (word 0x37 rd (imm % 8) (imm / 8 % 32) (imm / 256 % 32) (imm / 8192))
  | .addw rd rs1 rs2 => some (word 0x3b rd 0 rs1 rs2 0)
  | .sllw rd rs1 rs2 => some (word 0x3b rd 1 rs1 rs2 0)
  | .srlw rd rs1 rs2 => some (word 0x3b rd 5 rs1 rs2 0)
  | .subw rd rs1 rs2 => some (word 0x3b rd 0 rs1 rs2 32)
  | .sraw rd rs1 rs2 => some (word 0x3b rd 5 rs1 rs2 32)
  | .mulw rd rs1 rs2 => some (word 0x3b rd 0 rs1 rs2 1)
  | .divw rd rs1 rs2 => some (word 0x3b rd 4 rs1 rs2 1)
  | .divuw rd rs1 rs2 => some (word 0x3b rd 5 rs1 rs2 1)
  | .remw rd rs1 rs2 => some (word 0x3b rd 6 rs1 rs2 1)
  | .remuw rd rs1 rs2 => some (word 0x3b rd 7 rs1 rs2 1)
  | .zextH rd rs1 => some (word 0x3b rd 4 rs1 0 4)
  | .beq rs1 rs2 imm => some (word 0x63 (imm / 2 % 16 * 2 + imm / 2048 % 2) 0 rs1 rs2 (imm / 4096 * 64 + imm / 32 % 64))
  | .bne rs1 rs2 imm => some (word 0x63 (imm / 2 % 16 * 2 + imm / 2048 % 2) 1 rs1 rs2 (imm / 4096 * 64 + imm / 32 % 64))
  | .blt rs1 rs2 imm => some (word 0x63 (imm / 2 % 16 * 2 + imm / 2048 % 2) 4 rs1 rs2 (imm / 4096 * 64 + imm / 32 % 64))
  | .bge rs1 rs2 imm => some (word 0x63 (imm / 2 % 16 * 2 + imm / 2048 % 2) 5 rs1 rs2 (imm / 4096 * 64 + imm / 32 % 64))
  | .bltu rs1 rs2 imm => some (word 0x63 (imm / 2 % 16 * 2 + imm / 2048 % 2) 6 rs1 rs2 (imm / 4096 * 64 + imm / 32 % 64))
  | .bgeu rs1 rs2 imm => some (word 0x63 (imm / 2 % 16 * 2 + imm / 2048 % 2) 7 rs1 rs2 (imm / 4096 * 64 + imm / 32 % 64))
  | .jalr rd rs1 imm => some (word 0x67 rd 0 rs1 (imm % 32) (imm / 32))
  | .jal rd imm => some (word 0x6f rd (imm / 4096 % 8) (imm / 32768 % 32) (imm / 2 % 16 * 2 + imm / 2048 % 2) (imm / 1048576 * 64 + imm / 32 % 64))
  | .ecall => some (word 0x73 0 0 0 0 0)
  | .ebreak => some (word 0x73 0 0 0 1 0)
  | .csrrw rd rs1 csr => some (word 0x73 rd 1 rs1 (csr % 32) (csr / 32))
  | .csrrs rd rs1 csr => some (word 0x73 rd 2 rs1 (csr % 32) (csr / 32))
  | .csrrc rd rs1 csr => some (word 0x73 rd 3 rs1 (csr % 32) (csr / 32))
  | .csrrwi rd uimm csr => some (word 0x73 rd 5 uimm (csr % 32) (csr / 32))
  | .csrrsi rd uimm csr => some (word 0x73 rd 6 uimm (csr % 32) (csr / 32))
  | .csrrci rd uimm csr => some (word 0x73 rd 7 uimm (csr % 32) (csr / 32))
  | .done => some (word 0xb 0 0 0 0 0)
  | .bind rd rs1 rs2 => some (word 0xb rd 0 rs1 rs2 1)
  | .unbind rd rs1 => some (word 0xb rd 0 rs1 0 2)
  | .loopb rd rs1 => some (word 0xb rd 0 rs1 0 3)
  | .tcancel rd rs1 => some (word 0xb rd 0 rs1 0 4)
  | .send rd rs1 chan cnt urg bnc => some (word 0xb rd 1 rs1 (chan % 32) (chan / 32 + cnt * 2 + urg * 32 + bnc * 64))
  | .tenq rd rs1 gr gw => some (word 0xb rd 2 rs1 gr gw)
  | .barrive rs1 bar op chan => some (word 0xb 0 3 rs1 (bar + op % 4 * 8) (op / 4 + chan * 2))
  | .callt rd rs1 rs2 => some (word 0xb rd 4 rs1 rs2 0)
  | .ldaqD rd rs1 imm => some (word 0x2b rd 0 rs1 (imm % 32) (imm / 32))
  | .ldaqQ rd rs1 imm => some (word 0x2b rd 1 rs1 (imm % 32) (imm / 32))
  | .strlD rs1 rs2 imm => some (word 0x2b (imm % 32) 2 rs1 rs2 (imm / 32))
  | .strlQ rs1 rs2 imm => some (word 0x2b (imm % 32) 3 rs1 rs2 (imm / 32))
  | .ldvD rd rs1 => some (word 0x2b rd 4 rs1 0 0)
  | .ldvQ rd rs1 => some (word 0x2b rd 4 rs1 0 1)
  | .stvD rd rs1 rs2 => some (word 0x2b rd 4 rs1 rs2 2)
  | .stvQ rd rs1 rs2 => some (word 0x2b rd 4 rs1 rs2 3)
  | .vwatch rd rs1 rs2 => some (word 0x2b rd 4 rs1 rs2 4)
  | .dfence scope kinds => some (word 0x2b 0 4 scope kinds 5)
  | .tfence => some (word 0x2b 0 4 0 0 6)
  | .iflush rs1 rs2 => some (word 0x2b 0 4 rs1 rs2 7)
  | .rkload rd rs1 rs2 => some (word 0x2b rd 4 rs1 rs2 8)
  | .rkwalk qd rs1 rs2 slot => some (word 0x2b qd 4 rs1 rs2 (16 + slot))
  | .wld rd rs1 imm => some (word 0x2b rd 5 rs1 (imm % 32) (imm / 32))
  | .wst rs1 rs2 imm => some (word 0x2b (imm % 32) 6 rs1 rs2 (imm / 32))
  | .vadd wd ws1 ws2 ty => some (word 0x5b wd ty ws1 ws2 0)
  | .vsub wd ws1 ws2 ty => some (word 0x5b wd ty ws1 ws2 1)
  | .vmul wd ws1 ws2 ty => some (word 0x5b wd ty ws1 ws2 2)
  | .vmulhS wd ws1 ws2 ty => some (word 0x5b wd ty ws1 ws2 3)
  | .vmulhZ wd ws1 ws2 ty => some (word 0x5b wd ty ws1 ws2 4)
  | .vminS wd ws1 ws2 ty => some (word 0x5b wd ty ws1 ws2 5)
  | .vminZ wd ws1 ws2 ty => some (word 0x5b wd ty ws1 ws2 6)
  | .vmaxS wd ws1 ws2 ty => some (word 0x5b wd ty ws1 ws2 7)
  | .vmaxZ wd ws1 ws2 ty => some (word 0x5b wd ty ws1 ws2 8)
  | .vsaddS wd ws1 ws2 ty => some (word 0x5b wd ty ws1 ws2 9)
  | .vsaddZ wd ws1 ws2 ty => some (word 0x5b wd ty ws1 ws2 10)
  | .vssubS wd ws1 ws2 ty => some (word 0x5b wd ty ws1 ws2 11)
  | .vssubZ wd ws1 ws2 ty => some (word 0x5b wd ty ws1 ws2 12)
  | .vshl wd ws1 ws2 ty => some (word 0x5b wd ty ws1 ws2 13)
  | .vshrS wd ws1 ws2 ty => some (word 0x5b wd ty ws1 ws2 14)
  | .vshrZ wd ws1 ws2 ty => some (word 0x5b wd ty ws1 ws2 15)
  | .vand wd ws1 ws2 ty => some (word 0x5b wd ty ws1 ws2 16)
  | .vor wd ws1 ws2 ty => some (word 0x5b wd ty ws1 ws2 17)
  | .vxor wd ws1 ws2 ty => some (word 0x5b wd ty ws1 ws2 18)
  | .vandn wd ws1 ws2 ty => some (word 0x5b wd ty ws1 ws2 19)
  | .vcmpEq wd ws1 ws2 ty => some (word 0x5b wd ty ws1 ws2 24)
  | .vcmpNe wd ws1 ws2 ty => some (word 0x5b wd ty ws1 ws2 25)
  | .vcmpLt wd ws1 ws2 ty => some (word 0x5b wd ty ws1 ws2 26)
  | .vcmpLe wd ws1 ws2 ty => some (word 0x5b wd ty ws1 ws2 27)
  | .vcmpLtZ wd ws1 ws2 ty => some (word 0x5b wd ty ws1 ws2 28)
  | .vcmpLeZ wd ws1 ws2 ty => some (word 0x5b wd ty ws1 ws2 29)
  | .vsel wd ws1 ws2 ty => some (word 0x5b wd ty ws1 ws2 30)
  | .vfadd wd ws1 ws2 ty => some (word 0x5b wd ty ws1 ws2 32)
  | .vfsub wd ws1 ws2 ty => some (word 0x5b wd ty ws1 ws2 33)
  | .vfmul wd ws1 ws2 ty => some (word 0x5b wd ty ws1 ws2 34)
  | .vfma wd ws1 ws2 ty => some (word 0x5b wd ty ws1 ws2 35)
  | .vfmin wd ws1 ws2 ty => some (word 0x5b wd ty ws1 ws2 36)
  | .vfmax wd ws1 ws2 ty => some (word 0x5b wd ty ws1 ws2 37)
  | .vfdiv wd ws1 ws2 ty => some (word 0x5b wd ty ws1 ws2 38)
  | .vfsqrt wd ws1 ty => some (word 0x5b wd ty ws1 0 39)
  | .vexp2 wd ws1 => some (word 0x5b wd 6 ws1 0 40)
  | .vlog2 wd ws1 => some (word 0x5b wd 6 ws1 0 41)
  | .vrcp wd ws1 => some (word 0x5b wd 6 ws1 0 42)
  | .vrsqrt wd ws1 => some (word 0x5b wd 6 ws1 0 43)
  | .vsinpi wd ws1 => some (word 0x5b wd 6 ws1 0 44)
  | .vcospi wd ws1 => some (word 0x5b wd 6 ws1 0 45)
  | .vrsum wd ws1 ty => some (word 0x5b wd ty ws1 0 48)
  | .vrmax wd ws1 ty => some (word 0x5b wd ty ws1 0 49)
  | .vrmin wd ws1 ty => some (word 0x5b wd ty ws1 0 50)
  | .vcvt wd ws1 sty ty => some (word 0x5b wd ty ws1 sty 56)
  | .vcvtHi wd ws1 sty ty => some (word 0x5b wd ty ws1 sty 57)
  | .vcvtPk wd ws1 sty ty => some (word 0x5b wd ty ws1 sty 58)
  | .vcvtl wd ws1 ty => some (word 0x5b wd ty ws1 0 59)
  | .vcvtlf wd ws1 ty => some (word 0x5b wd ty ws1 0 60)
  | .vshuf wd ws1 ws2 ty => some (word 0x5b wd ty ws1 ws2 64)
  | .vbcast wd xs ty => some (word 0x5b wd ty xs 0 65)
  | .vins wd xs lane ty => some (word 0x5b wd ty xs lane 66)
  | .vext xd ws1 lane ty => some (word 0x5b xd ty ws1 lane 67)
  | .vextz xd ws1 lane ty => some (word 0x5b xd ty ws1 lane 68)
  | .vksort wd ws1 ws2 ty => some (word 0x5b wd ty ws1 ws2 72)
  | .vkmergeLo wd ws1 ws2 ty => some (word 0x5b wd ty ws1 ws2 73)
  | .vkmergeHi wd ws1 ws2 ty => some (word 0x5b wd ty ws1 ws2 74)
  | .vkcombAdd wd ws1 ws2 ty => some (word 0x5b wd ty ws1 ws2 75)
  | .vkcombFirst wd ws1 ws2 ty => some (word 0x5b wd ty ws1 ws2 76)
  | .vkmatch wd ws1 ws2 ty => some (word 0x5b wd ty ws1 ws2 77)
  | .vsmmerge wd ws1 ws2 => some (word 0x5b wd 6 ws1 ws2 80)
  | .vsmscale wd ws1 ws2 => some (word 0x5b wd 6 ws1 ws2 81)
  | .vsmnorm wd ws1 ws2 => some (word 0x5b wd 6 ws1 ws2 82)
  | .runionEx rd rs1 rs2 => some (word 0x7b rd 0 rs1 rs2 0)
  | .runionSup rd rs1 rs2 => some (word 0x7b rd 0 rs1 rs2 1)
  | .rinterEx rd rs1 rs2 => some (word 0x7b rd 0 rs1 rs2 2)
  | .rinterSup rd rs1 rs2 => some (word 0x7b rd 0 rs1 rs2 3)
  | .rsubEx rd rs1 rs2 => some (word 0x7b rd 0 rs1 rs2 4)
  | .rsubSup rd rs1 rs2 => some (word 0x7b rd 0 rs1 rs2 5)
  | .rsubSub rd rs1 rs2 => some (word 0x7b rd 0 rs1 rs2 6)
  | .rdil rd rs1 rs2 => some (word 0x7b rd 0 rs1 rs2 8)
  | .rshift rd rs1 rs2 => some (word 0x7b rd 0 rs1 rs2 9)
  | .rproj rd rs1 rs2 => some (word 0x7b rd 0 rs1 rs2 10)
  | .rsplit rd rs1 rs2 => some (word 0x7b rd 0 rs1 rs2 11)
  | .rclip rd rs1 rs2 => some (word 0x7b rd 0 rs1 rs2 12)
  | .rcount rd rs1 => some (word 0x7b rd 0 rs1 0 13)
  | .rtest rd rs1 rs2 => some (word 0x7b rd 0 rs1 rs2 14)
  | .rgetb rd rs1 rs2 => some (word 0x7b rd 0 rs1 rs2 15)
  | .rld rd rs1 => some (word 0x7b rd 0 rs1 0 16)
  | .rst rs1 rs2 => some (word 0x7b 0 0 rs1 rs2 17)
  | .rb2 rd rs1 rs2 => some (word 0x7b rd 0 rs1 rs2 18)
  | .rmask rd rs1 rs2 => some (word 0x7b rd 0 rs1 rs2 19)
  | .tilepost rd rs1 rs2 => some (word 0x7b rd 0 rs1 rs2 20)
  | .tilenext rd rs1 => some (word 0x7b rd 0 rs1 0 21)
  | .rgather rd rs1 rs2 gs => some (word 0x7b rd 1 rs1 rs2 (0 + gs * 4))
  | .rscatterSet rd rs1 rs2 gs => some (word 0x7b rd 1 rs1 rs2 (1 + gs * 4))
  | .rscatterAdd rd rs1 rs2 gs => some (word 0x7b rd 1 rs1 rs2 (2 + gs * 4))
  | .rcopy rd rs1 rs2 => some (word 0x7b rd 2 rs1 rs2 0)
  | .rstream qd rs1 gs => some (word 0x7b qd 2 rs1 gs 1)
  | .rsink rd qs gs => some (word 0x7b rd 2 qs gs 2)
  | .rwait rs1 rs2 => some (word 0x7b 0 2 rs1 rs2 3)
  | .rcapmkR rd rs1 rs2 => some (word 0x7b rd 2 rs1 rs2 4)
  | .rcapmkW rd rs1 rs2 => some (word 0x7b rd 2 rs1 rs2 5)
  | .rcapmkRw rd rs1 rs2 => some (word 0x7b rd 2 rs1 rs2 6)
  | .qbind qd rs1 rs2 => some (word 0x7b qd 2 rs1 rs2 8)
  | .qfree qd => some (word 0x7b qd 2 0 0 9)
  | .cinit rs1 rs2 => some (word 0x7b 0 2 rs1 rs2 10)
  | .carrive rs1 => some (word 0x7b 0 2 rs1 0 11)
  | .cexpect rs1 rs2 => some (word 0x7b 0 2 rs1 rs2 12)
  | .cwatch rs1 rs2 => some (word 0x7b 0 2 rs1 rs2 13)
  | .bedset rs1 rs2 => some (word 0x7b 0 2 rs1 rs2 14)
  | .mmul rsB rsA ctile mode mcode ncode => some (word 0x7b rsB 3 rsA (ctile + mode * 4 + mcode % 2 * 16) (mcode / 2 + ncode * 2))
  | .mlds rs1 => some (word 0x7b 0 4 rs1 0 0)
  | .mstc rs1 tile => some (word 0x7b 0 4 rs1 tile 1)
  | .mzero tile => some (word 0x7b 0 4 0 tile 2)
  | .mcfg rs1 => some (word 0x7b 0 4 rs1 0 3)
  | .mcmd rd rs1 rs2 => some (word 0x7b rd 4 rs1 rs2 4)
  | .mwait => some (word 0x7b 0 4 0 0 5)
  | .notAnInstruction => none
  | .preloadRead => none
  | .peerServiceSignal => none

end Sys2Proof
end

