-- ==== Sys2Proof/Config.lean ====
section
/-! DEFINITION. What an implementation fixes, and the free values: constants with no body, so that no proof can know what
they are (notes/assumptions/10.md). -/

namespace Sys2Proof.Config

/-- A byte that the manual leaves open: data decrypted under a key other than the one it was written under (R137, R344),
a cell that a context switch did not save (R326). The argument is State.fresh. -/
opaque freeByte : Nat → Byte
/-- The capability key of a key generation (R344): fresh and random; no register returns it. -/
opaque capKey : Nat → BitVec 256
/-- Byte j of the XMSS signature made at index i by a key (R347, R364): 2,820 bytes. -/
opaque sigByte : Nat → Nat → Byte
/-- Byte j of the public root and seed of log key n (R347). -/
opaque logKeyByte : Nat → Nat → Byte
/-- Byte j of the measurements: ROM and firmware hashes, rollback counter, identity root (R364). -/
opaque measureByte : Nat → Byte

/-- The revision of the part and the serial number of the module (R349). -/
opaque revision : BitVec 64
opaque serial : BitVec 64
/-- What the entry of feature n of the capability list says of its limits (R349). -/
opaque featLimit : Nat → BitVec 64

/-- How many queued tasks a partition's queue holds beyond one: the manual gives no size (R116, notes/assumptions/20.md). -/
opaque taskQueueExtra : Nat

/-- Data frames of a station: 698,880 frames of 4 KiB (R16). -/
def stationBytes : Nat := 698880 * 4096
/-- The cores of the grid (R11). -/
def cores : Nat := 4096
/-- NETCAP (R18, R74). -/
def netcap : Word := 0x08081010

end Sys2Proof.Config
end

