-- ==== Sys2Proof/Machine/Types.lean ====
section
/-! DEFINITION. The records that State is made of: plain data, one structure for each kind of record that the manual gives
the machine. -/

namespace Sys2Proof.Machine

/-- A register context: core (Hilbert index), tenant context, and 0 normal, 1 urgent, 2 overflow (R84). -/
structure Who where
  core : Nat
  ctx : Nat
  rc : Nat
  deriving DecidableEq, Repr

/-! ## Regions and tensors -/

/-- One dimension of a box: lo, lo + step, …, hi (R217). -/
structure Rng where
  lo : Nat
  hi : Nat
  step : Nat
  deriving DecidableEq, Repr

/-- A region (R217): at most 8 boxes of `rank` ranges; a ragged one has a clip window and a length vector (R220). -/
structure Region where
  rank : Nat
  boxes : List (List Rng)
  ragged : Bool
  inexact : Bool
  row0 : Nat
  rbase : Nat
  lenvec : Nat
  deriving DecidableEq, Repr

/-- The empty region of a rank. -/
def Region.empty (r : Nat) : Region := { rank := r, boxes := [], ragged := false, inexact := false, row0 := 0, rbase := 0, lenvec := 0 }

/-- A tensor shape record (R226), or the flat tensor (R229). -/
structure Tsr where
  fmt : Nat
  rank : Nat
  wrap : Nat
  layout : Nat
  bed : Option Nat
  rights : Nat
  rot : Nat
  base : Nat
  ext : List Nat
  origin : List Nat
  rotbase : BitVec 32
  stride : List Int
  grant : Nat
  deriving DecidableEq, Repr

/-- A tensor as an operation samples it: the record with the governing format and scale (R189). -/
structure Operand where
  tsr : Tsr
  fmt : Nat
  scale : BitVec 32
  deriving DecidableEq, Repr

/-! ## Translation -/

/-- The result of a two-stage walk for one page (R133): where its first byte lies (a home address), its size in bits, and
what the leaves say. `s1` and `s2` are the permission bits R, W, X of the leaves; `leaves` are the home addresses of the two
leaf entries, for A and D; `via` the intermediate pages that the walk passed through (R338). -/
structure Leaf where
  home : Nat
  bits : Nat
  v : Bool
  key : Nat
  s1 : Nat
  s2 : Nat
  ipa : Nat
  leaves : List Nat
  via : List Nat
  deriving DecidableEq, Repr

/-- A leaf that a walk of one stage reached (R130): the entry, where it stands, its level. -/
structure PLeaf where
  pte : Nat
  home : Nat
  lvl : Nat
  deriving DecidableEq, Repr

/-- An entry of the translation cache of a station (R136): partition, context, stage 1 or 2, the address it was made for divided by the size
that the leaf maps, the leaf; `via` are the intermediate pages of the tables that a stage-1 walk passed through (R338). -/
structure TEntry where
  station : Nat
  part : Nat
  ctx : Nat
  stage : Nat
  page : Nat
  leaf : PLeaf
  via : List Nat
  deriving DecidableEq, Repr

/-! ## Messages -/

/-- A message (R79). `bar` is the barrier of a barrier result (its arrival bit clears when it is resident, R110). -/
structure Msg where
  hdr : Word
  pay : List Word
  ext : List Gran
  bar : Option Nat
  deriving DecidableEq, Repr

/-- A message on its way (R81): destination core and context, and the register context whose SEND sent it, with its place in program order
(R152); `task` is the id of the task of an ordered domain that held it until its commit, 0 for none (R159). -/
structure Flight where
  msg : Msg
  core : Nat
  ctx : Nat
  src : Option Who
  seq : Nat := 0
  task : Nat := 0
  deriving DecidableEq, Repr

/-- A message resident in a half of an inbox (R80), with its diverted mark (R89); `no` gives the order of residence over both halves. -/
structure InMsg where
  msg : Msg
  div : Bool
  no : Nat := 0
  deriving DecidableEq, Repr

/-- A channel table entry (R77). -/
structure Chan where
  bound : Bool
  gen : Nat
  entry : Nat
  prio : Nat
  urg : Bool
  divert : Bool
  dcnt : Nat
  deriving DecidableEq, Repr

/-! ## Operations outstanding in a register context -/

/-- What a region instruction makes of the bytes that its relaxed loads return (R231): a region image (R237), a bitmap over a box (R240), the rows of a
ragged region to be counted (R234), compared (R235) or projected (R233). -/
inductive Fill where
  | image (rd : Nat)
  | mask (rd : Nat) (sup : Bool) (g : Region)
  | count (rd : Nat) (g : Region)
  | test (rd : Nat) (a b : Region)
  | proj (rd v : Nat) (g : Region)
  deriving DecidableEq, Repr

/-- Where the result of an operation goes: a register (n bytes, sign-extended or not), a pair, a place of the outbox, a
stream port, what a region instruction makes of it. -/
inductive Dest where
  | none
  | x (rd n : Nat) (sext : Bool)
  | w (rd : Nat)
  | pair (rd : Nat)
  | outbox (i : Nat)
  | port (q : Nat)
  | fill (f : Fill)
  deriving DecidableEq, Repr

/-- The kinds of operation a home performs for a core. -/
inductive OpK where
  | load
  | store
  | amo (op : Nat)
  | ldv
  | stv
  | vwatch (target chan gen : Nat) (urg : Bool)
  | cinit (v : Gran)
  | carrive
  | cexpect (d : Word)
  | cwatch (chan gen : Nat) (urg : Bool)
  | barrive (bar op chan gen : Nat)
  | rkload (slot id : Nat)
  deriving DecidableEq, Repr

/-- An operation issued and not yet performed (R151, R156). `seq` is its place in program order; `parts` are the parts still
to perform, as (address, bytes); `got` the bytes that returned, by address. `peer`: its request is on its way to a peer
module (R359); `held`: the station holds it on fault service (R317); `inv`: the invocation that issued it, `task` its task; `spec`: it is a store of a
speculative task that met a fault, and goes to the speculation store (R63, R123). -/
structure Op where
  seq : Nat
  pc : Word
  k : OpK
  va : Nat
  n : Nat
  data : Gran
  cmp : Gran
  dest : Dest
  aq : Bool
  rl : Bool
  parts : List (Nat × Nat)
  got : List (Nat × Byte)
  peer : Bool
  held : Bool
  inv : Nat
  task : Option Nat := none
  spec : Bool := false
  deriving DecidableEq, Repr

/-- A fence that has retired and whose earlier operations are not all performed (R152, R153): its place in program order, its scope, the kinds
that it orders before and after it (bit 0 loads, 1 stores, 2 engine commands, 3 messages). -/
structure Fence where
  seq : Nat
  scope : Nat
  before : Nat
  after : Nat
  deriving DecidableEq, Repr

/-! ## Register contexts -/

/-- How a suspended invocation goes on (R317): after an operation's parts have returned, by running on at `cont`, after an EBREAK,
once HELD of the matrix unit clears, or with the member of its gang that faulted (R108). -/
inductive Resume where
  | op (o : Op)
  | rerun
  | ebreak
  | matrix
  | gang
  deriving DecidableEq, Repr

/-- What a suspension waits for: `pc` the faulting instruction, `cont` the address at which the handler goes on, `need` the parts
still held, `gang` the number of the gang's suspension, whose members all must be ready (R108). -/
structure Wait where
  why : Resume
  pc : Word
  cont : Word
  need : Nat
  gang : Option Nat
  deriving DecidableEq, Repr

/-- Idle, running (or pre-empted), or held in place because no suspended slot is free (R320). -/
inductive Run where
  | idle
  | running
  | held
  deriving DecidableEq, Repr

/-- A register context (R84): the registers, the register-scope CSRs of R74 and the outstanding operations. `seq` numbers the
operations in program order; `inv` is the number of the running invocation,
`vseq` the operation whose version vlast holds (R148),
`wait` what a handler held in place waits for (R320), `fences` the fences that still order something; `kept` the bytes that reads of the
instruction at the pc have returned before it issues (R139, R156), by address; `msgNo` the place of the handler's message in the order of
residence. -/
structure RegCtx where
  x : Tbl Word
  w : Tbl Gran
  pc : Word
  run : Run
  msg : Option Msg
  chan : Option Nat
  q0 : Nat
  outbox : List (Option Gran)
  hdr : Word
  tstamp : Word
  tdomain : Nat
  task : Option Nat
  spec : Bool
  stackBase : Word
  txstat : Word
  vlast : Nat
  wdcnt : Nat
  fflags : BitVec 5
  frm : Nat
  txcomp : Word
  ops : List Op
  seq : Nat
  inv : Nat
  vseq : Nat
  wait : Option Wait
  fences : List Fence
  kept : List (Nat × Byte) := []
  msgNo : Nat := 0
  deriving DecidableEq, Repr

/-- A suspended slot (R316): the image of register context rc, the g registers of a normal one, and what it waits for. -/
structure Slot where
  rc : Nat
  img : RegCtx
  g : Tbl Region
  wait : Wait
  deriving DecidableEq, Repr

/-- A stream port q2–q7 (R259, R260): kind 0 is unbound; `buf` the buffer of 8, `stage` the staging of 64; for Rake results `tasks` are the tasks
whose walks the elements come from (R306). For R247, `waited` is how long the staging of a Sluice input has been full, the last time since `fullAt`, and
`pushed` are the times at which the elements of an output's buffer were pushed. -/
structure Port where
  kind : Nat
  peer : Nat
  peerPort : Nat
  buf : List Gran
  stage : List Gran
  tasks : List (Option Nat)
  credits : Nat
  fullAt : Nat := 0
  waited : Nat := 0
  pushed : List Nat := []
  deriving DecidableEq, Repr

/-! ## The matrix unit -/

/-- An accumulator tile (R271): shape none or (M, N), kind (0 INT32, 1 FP32, 2 LNS64), sampled scales, slots, presence. -/
structure Tile where
  shape : Option (Nat × Nat)
  kind : Nat
  sA : BitVec 32
  sB : BitVec 32
  slot : Tbl Word
  pres : Tbl Bool
  deriving DecidableEq, Repr

/-- A matrix operand as MMUL snapshots it (R273, R276); `tsrAt` is the address of its TSR record, as the descriptor gives it (R282). -/
structure MOperand where
  tsrAt : Nat
  op : Operand
  orgr : Nat
  orgc : Nat
  ksteps : Nat
  sparse : Bool
  spix : Nat
  deriving DecidableEq, Repr

/-- A preload of B (R281, R282): the descriptor's address, ncode, the snapshot; the element cells once read, failed, claimed; `seq` the place of
its MLDS in program order (R158), `got` the bytes that its reads have returned. -/
structure Preload where
  addr : Nat
  ncode : Nat
  b : MOperand
  cells : Option (List (Option Word))
  failed : Bool
  claimed : Bool
  pc : Word
  seq : Nat := 0
  got : List (Nat × Byte) := []
  deriving DecidableEq, Repr

/-- An MMUL in the queue (R276, R277): k counts its completed k-steps; `src` is the sender of a remote command (R292);
`pre` says that it claimed the preload; `held` that it is held on fault service, at k-step `at_` (R375); `seq` is the place of an own
MMUL in program order (R158). -/
structure MJob where
  tile : Nat
  mode : Nat
  m : Nat
  n : Nat
  a : MOperand
  b : MOperand
  k : Nat
  src : Option Who
  word0 : Word
  pre : Bool
  held : Bool
  pc : Word
  at_ : Nat := 0
  seq : Nat := 0
  deriving DecidableEq, Repr

/-- A deferred matrix fault (R288). -/
structure Deferred where
  cause : Nat
  addr : Nat
  tile : Nat
  k : Nat
  deriving DecidableEq, Repr

/-- A command on its way to a matrix unit (R291): the block, the image, the sender, with its place in the sender's program order (R152). -/
structure MCmd where
  core : Nat
  ctx : Nat
  src : Who
  seq : Nat := 0
  block : List Byte
  image : List Byte
  deriving DecidableEq, Repr

/-- A write of an MSTC (R284) or of a speculative task (R123) that its home has still to perform: place, key generation, layout tag,
bytes, the address that it was issued for; the core, the place of its instruction in program order, and whether that is a release (R158); the leaves that
translated it, whose D bits are set as it is written (R133). -/
structure MxStore where
  home : Nat
  gen : Nat
  tag : Nat
  bytes : List Byte
  va : Nat := 0
  core : Nat := 0
  seq : Nat := 0
  rl : Bool := false
  leaves : List Nat := []
  deriving DecidableEq, Repr

/-- The matrix unit's state of one tenant context (R269): `recv` are the commands in the receive buffer; `atCfg`: an MCFG of the core waits at
issue (R272); `fetched` are the bytes that fetches of the oldest MMUL's next k-step have returned, by address (R156), `cmdGot` those
that peer modules have sent for the checks of the oldest command received. -/
structure MxUnit where
  cfg : Nat
  tiles : Tbl Tile
  queue : List MJob
  recv : List MCmd
  pre : Option Preload
  held : Bool
  deferred : Option Deferred
  stores : List MxStore
  atCfg : Bool := false
  fetched : List (Nat × Byte) := []
  cmdGot : List (Nat × Byte) := []
  deriving DecidableEq, Repr

/-! ## Tenant contexts on a core -/

/-- The state that one tenant context has on one core (R74 "tenant", R77, R80, R110, R150, R221, R259, R265, R316, R326). `fresh`: its band
started while it was switched out, and it has not run since. `live`: the region at liveimg when it was last switched out (R326); `liveGot`: what peer
modules have sent of its image for a switch that waits, `liveFail`: one has failed (R358). -/
structure Tenant where
  n : RegCtx
  u : RegCtx
  o : RegCtx
  instret : Nat
  lcore : Nat
  bandsz : Nat
  torusX : Nat
  torusY : Nat
  gangidx : Nat
  gangsz : Nat
  ctab : List Nat
  partid : Nat
  caplist : Word
  evc : Tbl Nat
  evcCredit : Tbl Nat
  fntab : Nat
  fnlen : Nat
  ovfbase : Nat
  ovflen : Nat
  wdlim : Nat
  liveimg : Nat
  chans : Tbl Chan
  ovfEntry : Option Word
  rr : Tbl Nat
  inboxN : List InMsg
  inboxU : List InMsg
  epiN : Option Nat
  epiU : Option Nat
  g : Tbl Region
  ports : Tbl Port
  slots : Tbl Slot
  arrived : Tbl Bool
  vwPend : Nat
  cwPend : Nat
  mx : MxUnit
  tsrc : List (Nat × List Byte)
  log : List Flight
  fresh : Bool
  live : Option Region
  liveGot : List (Nat × Byte) := []
  liveFail : Bool := false
  deriving DecidableEq, Repr

/-! ## The Sluice -/

/-- A part of a reservation taken by a transfer: partition, resource (0–383 stations, 384 mesh, 385–400 Tideway, 401 tier 2,
402 host), frame, bytes (R245). -/
structure Taken where
  part : Nat
  r : Nat
  f : Nat
  n : Nat
  deriving DecidableEq, Repr

inductive XK where
  | copy | stream | sink | gather | scatterSet | scatterAdd
  deriving DecidableEq, Repr

/-- One cell of a transfer: its coordinates, and the addresses it is read from and written to; none where an index entry names no
cell (R257), or for a stream. `bad`: its source cannot be read (R319); `done`: it has been moved, or is not to be written. -/
structure Mv where
  cell : List Nat
  src : Option Nat
  dst : Option Nat
  bad : Bool
  done : Bool := false
  deriving DecidableEq, Repr

/-- A transfer (R241): issued and undecided, or accepted. `moves` are its cells in canonical order, `id` its name in the model and
`recno` its record of the Sluice (0–127), `done` how many elements a stream has delivered or a sink has taken, `xl` the
translations kept by page (R243), `stale` the pages of them that an invalidation has dropped, to be translated again before they are used,
`got` the values of the cells that have been read, or taken from the port of a sink, by their place (R156, R358);
`fault` the first fault (R262); `heldPg` the pages whose cells are held on fault service, the first since `heldAt` (R243); `takeovers` counts those of
R321; `since` is the time of acceptance of a sink, and what its port had waited then of a stream (R247); `inv` is the invocation that issued it,
`seq` its place in program order; `rag` its region, where that is ragged (R220), with the boxes of the grants of its source and its destination. -/
structure Xfer where
  id : Nat
  recno : Nat
  who : Who
  part : Nat
  cluster : Nat
  pc : Word
  kind : XK
  moves : List Mv
  src : Option Operand
  dst : Option Operand
  port : Nat
  comp : Nat
  accepted : Bool
  done : Nat
  deadline : Nat
  xl : List (Nat × Leaf)
  fault : Option Nat
  takeovers : Nat
  heldPg : List Nat := []
  heldAt : Nat
  since : Nat := 0
  stale : List Nat := []
  got : List (Nat × Nat) := []
  inv : Nat := 0
  seq : Nat := 0
  rag : Option Region := none
  gsrc : Option (Nat × List (List Rng)) := none
  gdst : Option (Nat × List (List Rng)) := none
  deriving DecidableEq, Repr

/-- Some part of a transfer is held on fault service. -/
def Xfer.held (x : Xfer) : Bool := !x.heldPg.isEmpty

/-! ## Rakes -/

/-- A walk (R294), `id` its issue sequence. `prog` is its program, the header first; `need` says that the next evaluation reads; `rule` is the
last rule evaluated; `station` the Rake that has it, 384 while the entry station of its start address has it; `data` and `vers` the granules
last read and their versions; `begun`: its step has begun; of the read of the step, `look` are the granules read in the current attempt with
their versions, `seen` how many versions have been read again, `attempt` the attempt (R303); `held` on fault service; `ready` the elements still
to be delivered once it has ended (R301); `turn` its place in the round robin of its Rake (R294); `remote` the station whose Rake was reset, for
which the Rake that took the walk over reads (R305); `seq` the place of its RKWALK in program order (R158); `slot` the program slot whose snapshot it
takes as it is accepted, none once it has been (R294, R308). -/
structure Walk where
  id : Nat
  who : Who
  part : Nat
  port : Nat
  ptr : Nat
  key : Word
  prog : List Word
  cur : Nat
  rule : Nat
  steps : Nat
  need : Bool
  data : List Gran
  vers : List Nat
  station : Nat
  held : Bool
  ready : Option (List Gran)
  task : Option Nat
  pc : Word
  turn : Nat := 0
  begun : Bool := false
  look : List (Gran × Nat) := []
  seen : Nat := 0
  attempt : Nat := 0
  remote : Option Nat := none
  seq : Nat := 0
  slot : Option Nat := none
  deriving DecidableEq, Repr

/-- A program on its way to the stations (R307): those that have not yet acknowledged. -/
structure RkLoad where
  id : Nat
  who : Who
  part : Nat
  slot : Nat
  prog : List Word
  todo : List Nat
  total : Nat
  deriving DecidableEq, Repr

/-- A program slot of a Rake (R294). -/
structure RkSlot where
  part : Nat
  ctx : Nat
  slot : Nat
  station : Nat
  prog : List Word
  deriving DecidableEq, Repr

/-! ## Tasks, bands, barriers -/

/-- States of a task (R120). -/
inductive TState where
  | held | queued | spec | oldest | ended | failed
  deriving DecidableEq, Repr

/-- A task (R113, R115, R120): `stores` are its buffered stores in program order, `msgs` its held
messages, `traps` the held trap records of the members of its gang (R108); `after` the register context whose TENQ enqueued it, with its place in program
order: the dispatch message goes after every store before it (R116, R158). -/
structure Task where
  id : Nat
  part : Nat
  ctx : Nat
  ts : Nat
  dom : Nat
  chan : Nat
  prio : Nat
  aff : Option Nat
  args : List Nat
  src : Nat
  srcCore : Nat
  read : Region
  write : Region
  parent : Option Nat
  st : TState
  core : Nat
  stores : List MxStore
  msgs : List Flight
  traps : List Flight
  after : Option (Who × Nat) := none
  deriving DecidableEq, Repr

/-- A band (R101, R105): `ended` once it is quiet or killed. -/
structure Band where
  part : Nat
  ctx : Nat
  ticket : Nat
  h0 : Nat
  len : Nat
  members : List Nat
  comp : Nat
  submitted : Nat
  ended : Bool
  killed : Bool
  deriving DecidableEq, Repr

/-- A launch record as the Distributor read it (R99); `bad`: it could not be read; `rsv`: a reserved field of it is not zero; `at_`: reads of it at a peer module
are still out, from this address on; `got` what peer modules have sent of it, or of the route table at `routes`. -/
structure Launch where
  part : Nat
  ctx : Nat
  ticket : Nat
  submitted : Nat
  bad : Bool
  rsv : Bool
  mtype : Nat
  cores : Nat
  tx : Nat
  ty : Nat
  gang : Nat
  prio : Nat
  args : List Word
  comp : Nat
  routes : Nat
  resv : Option Nat
  at_ : Option Nat := none
  got : List (Nat × Byte) := []
  deriving DecidableEq, Repr

/-- A launch-status entry waiting to be written (R332). -/
structure LStatus where
  part : Nat
  ctx : Nat
  ticket : Nat
  status : Nat
  comp : Nat
  submitted : Nat
  completed : Nat
  deriving DecidableEq, Repr

/-- An arrival at a barrier (R110): on its way to the combining tree, or held there. -/
structure Arrival where
  part : Nat
  ticket : Nat
  core : Nat
  ctx : Nat
  lcore : Nat
  bar : Nat
  v : Word
  op : Nat
  chan : Nat
  gen : Nat
  evc : List Nat
  deriving DecidableEq, Repr

/-- A barrier of a band (R109): phases completed and the arrivals of the current phase; the die whose tree holds it. -/
structure Bar where
  part : Nat
  ticket : Nat
  bar : Nat
  phases : Nat
  arr : List Arrival
  die : Nat
  deriving DecidableEq, Repr

/-- A watch registered at a home (R150, R265): pool 0 VWATCH, 1 CWATCH. -/
structure Watch where
  pool : Nat
  gran : Nat
  va : Nat
  target : Nat
  core : Nat
  ctx : Nat
  chan : Nat
  gen : Nat
  urg : Bool
  deriving DecidableEq, Repr

/-- A cluster work queue (R125–R127): the grid position to visit next counts from 0. -/
structure WorkQ where
  region : Region
  ext : List Nat
  cursor : Nat
  live : Bool
  rank : Nat
  deriving DecidableEq, Repr

/-- An element or a credit between neighbour ports (R260): to port q of a core. -/
structure NElem where
  core : Nat
  ctx : Nat
  q : Nat
  fromCore : Nat
  fromQ : Nat
  v : Gran
  deriving DecidableEq, Repr

/-! ## Fault queues, peers, the host -/

/-- A fault-queue record (R318) on its way to the queue of a function; `told` once PARTITION_BOUND was posted for it (R384). -/
structure FRec where
  fn : Nat
  fid : Nat
  cause : Nat
  source : Nat
  ctx : Nat
  rc : Nat
  resumable : Bool
  addr : Nat
  pc : Word
  lcore : Nat
  part : Nat
  info : Nat
  told : Bool := false
  deriving DecidableEq, Repr

/-- What a held request belongs to (R317, R319). -/
inductive HeldBy where
  | slot (core ctx slot : Nat) (part : Nat × Nat)
  | place (w : Who) (part : Nat × Nat)
  | op (w : Who) (seq : Nat)
  | xfer (k : Nat)
  | comp (k : Nat)
  | walk (k : Nat)
  | matrix (core ctx : Nat)
  | remote (port : Nat)
  deriving DecidableEq, Repr

/-- A request held on fault service (R317): the function that owns the fault, its id, original cause and address; `peer`: a peer module
services it (R358). -/
structure Held where
  fn : Nat
  fid : Nat
  cause : Nat
  va : Nat
  by_ : HeldBy
  peer : Bool
  deriving DecidableEq, Repr

/-- What a request to a peer module is for, beside an operation or a transfer: a read that an instruction of invocation `inv` makes at issue,
nobody's any more, a fetch of the matrix unit for its MMUL or its preload, an access through BAR2 (R330),
a read of the checks of a received command (R292), a walker's read of a table entry at a home (R130), the Distributor's reads of a launch record and of a
route table (R99, R100). -/
inductive AskedBy where
  | other
  | nobody
  | early (inv : Nat)
  | mmul
  | preload
  | bar2
  | mcmd
  | table (home : Nat)
  | launch (ticket : Nat)
  | routes (ticket : Nat)
  | image
  deriving DecidableEq, Repr

/-- An entry of a page table that a peer module has answered for a partition's walks, until one has used it: its value, or the kind of the fault that the
peer reports (R130, R358); `used`: an access of the step has used it. -/
structure PteGot where
  part : Nat
  home : Nat
  v : Nat
  bad : Option Nat
  used : Bool := false
  deriving DecidableEq, Repr

/-- A request sent to a peer module and not yet completed (R358, R359), `held` while the peer services a fault of it: the port, the partition there, the intermediate address there, what
is done and with what; it is for n bytes at va of operation `seq` of a register context (0 normal, 1 urgent, 2 overflow), or for a cell of a
transfer or its completion object (`xfer`: the transfer, and the cell's place plus 1, or 0), or as `by_` says; `cmp` is the comparand of a CAS (R142), `fmt` 1 more than the
format of an RSCATTER.ADD (R257), 0 of an AMO; `info` the ticket of a launch's arrival (R332); `leaves` those in which a write sets D as it is performed (R133). -/
structure PeerReq where
  port : Nat
  rpart : Nat
  ipa : Nat
  k : OpK
  data : Gran
  xfer : Option (Nat × Nat)
  who : Who
  seq : Nat
  va : Nat
  n : Nat
  issued : Nat
  held : Bool := false
  by_ : AskedBy := .other
  cmp : Gran := 0
  fmt : Nat := 0
  info : Nat := 0
  leaves : List Nat := []
  deriving DecidableEq, Repr

/-- A host-decoder entry (R338). -/
structure HDec where
  ipaBase : Nat
  hpaBase : Nat
  count : Nat
  en : Bool
  part : Nat
  deriving DecidableEq, Repr

/-- A line the host holds (R356): its home address / 64, the host-decoder entry it came through, the partition, the intermediate address by which
it was reached. -/
structure HostLine where
  line : Nat
  entry : Nat
  part : Nat
  ipa : Nat := 0
  deriving DecidableEq, Repr

/-! ## Partitions -/

/-- A usage record before it is written to the ring (R345), and a signature entry (R347). -/
structure LogBuf where
  recs : List (List Byte)
  sigs : List (List Byte)
  seq : Nat
  prev : List Byte
  batchFirst : Nat
  batchCount : Nat
  batchTime : Nat
  keyidx : Nat
  signed : Nat
  certDone : Bool
  deriving DecidableEq, Repr

/-- The reservation of a resource that applies from a frame on (R340). -/
structure Resv where
  r : Nat
  from_ : Nat
  n : Nat
  deriving DecidableEq, Repr

/-- A partition: its table entry (R336), the BAR0 of its function (R330, R331), its keys (R344) and its log (R345); `invalstat` the
invalidation in progress; `keyhash` what VAL1 of R345 says of a loaded key; the resident context and the last one; when its slice began,
and since when it is stopping (R325); `flr`: a function-level reset is under way (R361). -/
structure Part where
  cbase : Nat
  clen : Nat
  feat : Nat
  s2root : Nat
  slice : List Nat
  resv : List Resv
  qlim : Tbl Nat
  qact : Nat
  ctxmax : Nat
  period : Nat
  savebase : Nat
  epoch : Nat
  pterr : Bool
  lticket : Nat
  lfull : Bool
  lstatbase : Nat
  lstathead : Nat
  lstattail : Nat
  dboost : Tbl Nat
  fqbase : Nat
  fqlen : Nat
  fqhead : Nat
  fqtail : Nat
  trapcfg : Tbl Nat
  s1root : Tbl Nat
  invalstat : Option Nat
  ctxen : Nat
  slices : Tbl Nat
  apbase : Nat
  quse : Tbl Nat
  qperiod : Nat
  qstart : Nat
  qhit : List Nat
  logbase : Nat
  loglen : Nat
  loghead : Nat
  logtail : Nat
  sigbase : Nat
  siglen : Nat
  sighead : Nat
  sigtail : Nat
  sucfg : Tbl Nat
  sucnt : Tbl Nat
  mbout : Tbl Byte
  mbin : Tbl Byte
  mbreq : Bool
  mbrep : Bool
  mbdest : Nat
  keys : Tbl Nat
  capkey : Nat
  log : LogBuf
  keyhash : Tbl Nat
  resident : Option Nat
  lastCtx : Nat
  sliceStart : Option Nat
  deduct : Tbl Nat
  stopping : Option Nat
  flr : Bool
  nextFid : Nat
  lost : Bool
  nextSeq : Tbl Nat
  lastTs : Tbl Nat
  lastDom : Tbl Nat
  deriving DecidableEq, Repr

/-! ## Images -/

/-- An entry of the handler table of an image (R36, R351): channel (assigned), priority, urgent, entry address. -/
structure HEntry where
  chan : Nat
  prio : Nat
  urg : Bool
  entry : Nat
  deriving DecidableEq, Repr

/-- The parts of the image loaded into a tenant context that the Distributor uses at a launch (R103, R352). -/
structure Image where
  part : Nat
  ctx : Nat
  handlers : List HEntry
  tcm : List Byte
  pans : List (Nat × List Byte)
  fntab : Nat
  fnlen : Nat
  deriving DecidableEq, Repr

/-- What the function's debugger changes in a suspended image (R69): a register, or the pc. -/
inductive Edit where
  | x (i : Nat) (v : Word)
  | w (i : Nat) (v : Gran)
  | g (i : Nat) (v : Region)
  | pc (v : Word)
  deriving DecidableEq, Repr

/-- The next move, when it is not the default one: a core's step, of which it may be that only one of the reads that its instruction makes at
issue takes place, an event, time that passes (RCLK ticks), an entry of a cache
that is replaced, a host read of BAR0 (R330), a change that the debugger makes (R69), the address at which firmware keeps the copy of the
capability list (R349), a peer module's notice that a completion object there which is watched has changed its phase (R265, R358). -/
inductive Move where
  | run (core ctx : Nat)
  | look (core ctx i : Nat)
  | event (i : Instr) (a : EvArgs)
  | elapse (n : Nat)
  | evictT (i : Nat)
  | evictI (i : Nat)
  | bar0Read (fn off : Nat)
  | debug (core ctx slot : Nat) (e : Edit)
  | caplist (part ctx : Nat) (v : Word)
  | peerWatch (gran : Nat) (v : Gran)
  deriving DecidableEq, Repr

end Sys2Proof.Machine
end

