-- ==== Sys2Proof/Machine/State.lean ====
section
/-! DEFINITION. The state of the module and its value at reset. Every field is plain data. What is sparse is held in a `Tbl`
in which an unlisted key has the reset value. Cores are keyed by Hilbert index (R339), clusters by index / 16. The tenant
context of a core is keyed core · 8 + context.

Memory is one map over home addresses (R128, R132): TCM of context c on core h at (c · 4096 + h) · 2^18, the saved Pan of context c
of partition p in cluster k, while it is switched out, at 2^34 + ((1 + p · 8 + c) · 256 + k) · 2^22 (R326, R328), the Pan of cluster k itself, which its 16
cores reach (R14), at 2^34 + k · 2^22, the Pond of die d at 2^40 + d · 2^27, HBM at 2^44 + station · 2^32 + offset, tier 2 at 2^53, the host at 2^54, peer n at 2^55 + n · 2^52. -/

namespace Sys2Proof.Machine

/-- No meaning of this model ends in a fault: the manual gives every error of a program a trap, which is a next state. -/
inductive Fault where
  /-- Raised by nothing. Safe: it never takes the place of an effect. -/
  | stopped
  deriving DecidableEq, Repr

/-- Refusals. -/
inductive Refusal where
  /-- Raised by an arm of exec that has no meaning yet. Safe: nothing is claimed of such an instruction. -/
  | notModelled (mnemonic : String)
  deriving DecidableEq, Repr

/-- A bed format register (R188). -/
structure Bed where
  scale : BitVec 32
  fmt : Nat
  deriving DecidableEq, Repr

/-- The state of the module. -/
structure State where
  /-- The model's own: the register context that acts, the event input, the moves to make first, whether an operation is
  performed at issue, whether the last instruction did not issue, whether a gang member acts without its
  gang (while the step runs one gang instruction on each member), which of an instruction's reads at issue takes place alone (while the step
  makes it), the counter of free values. -/
  cur : Who
  inp : EvArgs
  agenda : List Move
  eager : Bool
  stalled : Bool
  solo : Bool
  look : Option Nat
  fresh : Nat
  /-- Cores and clusters; `lostCsr` is what a soft error took from a CSR that the device keeps by itself (R322). -/
  tenants : Tbl Tenant
  icache : Tbl (BitVec 512)
  cyc : Tbl Nat
  lostCsr : Tbl Nat
  beds : Tbl Bed
  workq : Tbl WorkQ
  xfers : List Xfer
  nextId : Nat
  /-- Memory (R128): bytes, and what is kept beside them: versions (R146) and poison (R322) by granule, landed bits (R250) by
  granule, layout tags (R249) by 1 KiB block (256 is untagged), the key generation of each 64-byte block (R137). -/
  mem : Tbl Byte
  vers : Tbl Nat
  poison : Tbl Bool
  landed : Tbl Bool
  tags : Tbl Nat
  keytag : Tbl Nat
  tcache : List TEntry
  /-- Entries of page tables at peer modules that have been answered and not used yet. -/
  ptes : List PteGot
  /-- Under way between units. -/
  flights : List Flight
  arrivals : List Arrival
  mcmds : List MCmd
  nelems : List NElem
  ncredits : List NElem
  walks : List Walk
  rakeTurn : Nat
  rkslots : List RkSlot
  rkloads : List RkLoad
  watches : List Watch
  held : List Held
  frecs : List FRec
  peerReqs : List PeerReq
  /-- Distributors, Crystallizers and combining trees. -/
  bands : List Band
  bars : List Bar
  tasks : List Task
  launches : List Launch
  lstats : List LStatus
  taken : List Taken
  images : List Image
  /-- The hub and the physical function. -/
  parts : Tbl Part
  time : Nat
  aclk : Nat
  aclkStep : Nat
  aclkMax : Nat
  thermal : Bool
  failedLinks : List Nat
  cfail : List Nat
  failedStations : List Nat
  t2empty : List Nat
  s2invaddr : Nat
  s2invstat : Option (Nat × Nat)
  hdec : Tbl HDec
  twpair : Tbl Nat
  keyGen : Nat
  nextLogKey : Nat
  idIndex : Nat
  corrected : Nat
  mbq : List (Nat × List Byte)
  /-- What left the module for the host and the peers: read completions (value, poisoned), responses, measurements. -/
  hostHeld : List HostLine
  hostOut : List (Nat × Nat × Bool)
  peerOut : List (Nat × Nat × Nat)
  attests : List (List Byte)
  deriving DecidableEq, Repr

/-- A register context after reset: the registers have no reset value in the manual (DESIGN CHOICE 0, log 4); the CSRs are 0
(R74). -/
def RegCtx.reset : RegCtx :=
  { x := [], w := [], pc := 0, run := .idle, msg := none, chan := none, q0 := 0, outbox := [], hdr := 0, tstamp := 0,
    tdomain := 0, task := none, spec := false, stackBase := 0, txstat := 0, vlast := 0, wdcnt := 0, fflags := 0, frm := 0,
    txcomp := 0, ops := [], seq := 0, inv := 0, vseq := 0, wait := none, fences := [] }

/-- A channel after reset (R77). -/
def Chan.reset : Chan :=
  { bound := false, gen := 0, entry := 0, prio := 0, urg := false, divert := false, dcnt := 0 }

/-- An unbound port (R259). -/
def Port.reset : Port := { kind := 0, peer := 0, peerPort := 0, buf := [], stage := [], tasks := [], credits := 0 }

/-- A tile after reset (R271). -/
def Tile.reset : Tile := { shape := none, kind := 0, sA := 0, sB := 0, slot := [], pres := [] }

/-- The matrix unit after reset (R75, R271). -/
def MxUnit.reset : MxUnit :=
  { cfg := 0, tiles := [], queue := [], recv := [], pre := none, held := false, deferred := none, stores := [] }

/-- A tenant context on a core after reset. -/
def Tenant.reset : Tenant :=
  { n := .reset, u := .reset, o := .reset, instret := 0, lcore := 0, bandsz := 0, torusX := 0, torusY := 0, gangidx := 0,
    gangsz := 0, ctab := [], partid := 0, caplist := 0, evc := [], evcCredit := [], fntab := 0, fnlen := 0, ovfbase := 0,
    ovflen := 0, wdlim := 0x00400000, liveimg := 0, chans := [], ovfEntry := none, rr := [], inboxN := [], inboxU := [],
    epiN := none, epiU := none, g := [], ports := [], slots := [], arrived := [], vwPend := 0, cwPend := 0, mx := .reset,
    tsrc := [], log := [], fresh := false, live := none }

/-- A work queue after reset (R125, R127). -/
def WorkQ.reset : WorkQ := { region := .empty 0, ext := [], cursor := 0, live := false, rank := 0 }

/-- A bed format register after reset (R188): scale 1.0, FMT 0. -/
def Bed.reset : Bed := { scale := 0x3F800000, fmt := 0 }

def LogBuf.reset : LogBuf :=
  { recs := [], sigs := [], seq := 0, prev := [], batchFirst := 0, batchCount := 0, batchTime := 0, keyidx := 0, signed := 0,
    certDone := false }

/-- A partition after module reset (R331, R362 step 7). -/
def Part.reset : Part :=
  { cbase := 0, clen := 0, feat := 0, s2root := 0, slice := [], resv := [], qlim := [], qact := 0, ctxmax := 0, period := 0,
    savebase := 0, epoch := 0, pterr := false, lticket := 0, lfull := false, lstatbase := 0, lstathead := 0, lstattail := 0,
    dboost := [], fqbase := 0, fqlen := 128, fqhead := 0, fqtail := 0, trapcfg := [], s1root := [], invalstat := none,
    ctxen := 0, slices := [], apbase := 0, quse := [], qperiod := 0, qstart := 0, qhit := [], logbase := 0, loglen := 64,
    loghead := 0, logtail := 0, sigbase := 0, siglen := 4, sighead := 0, sigtail := 0, sucfg := [], sucnt := [], mbout := [],
    mbin := [], mbreq := false, mbrep := false, mbdest := 0, keys := [], capkey := 0, log := .reset, keyhash := [],
    resident := none, lastCtx := 7, sliceStart := none, deduct := [], stopping := none, flr := false, nextFid := 0, lost := false, nextSeq := [], lastTs := [], lastDom := [] }

def HDec.reset : HDec := { ipaBase := 0, hpaBase := 0, count := 0, en := false, part := 0 }

/-- The module right after reset and bring-up (R361, R362). -/
def State.reset : State :=
  { cur := { core := 0, ctx := 0, rc := 0 }, inp := .zero, agenda := [], eager := true, stalled := false, solo := false, look := none, fresh := 0,
    tenants := [], icache := [], cyc := [], lostCsr := [], beds := [], workq := [], xfers := [], nextId := 0,
    mem := [], vers := [], poison := [], landed := [], tags := [], keytag := [], tcache := [], ptes := [],
    flights := [], arrivals := [], mcmds := [], nelems := [], ncredits := [], walks := [], rakeTurn := 0, rkslots := [], rkloads := [],
    watches := [], held := [], frecs := [], peerReqs := [],
    bands := [], bars := [], tasks := [], launches := [], lstats := [], taken := [], images := [],
    parts := [], time := 0, aclk := 0, aclkStep := 0, aclkMax := 9, thermal := false, failedLinks := [], cfail := [], failedStations := [], t2empty := [],
    s2invaddr := 0, s2invstat := none, hdec := [], twpair := [], keyGen := 1, nextLogKey := 0, idIndex := 0, corrected := 0, mbq := [],
    hostHeld := [], hostOut := [], peerOut := [], attests := [] }

end Sys2Proof.Machine
end

