-- ==== Sys2Proof/Machine/Ops.lean ====
section
/-! DEFINITION. The named operations over the state: register contexts, registers, memory at its homes, messages, the end of a
handler, and the one operation by which an instruction takes a trap. Every meaning is written over these. -/

namespace Sys2Proof.Machine

/-- The outcome of an instruction of this machine. -/
abbrev Out := Host.Outcome State Fault Refusal

/-- Bits [lo+len-1:lo] of a number. -/
def bits (n lo len : Nat) : Nat := n / 2 ^ lo % 2 ^ len

/-- Sign extension of a number of n bits, as an integer (R8). -/
def sextI (v n : Nat) : Int := if v / 2 ^ (n - 1) % 2 = 1 then (v % 2 ^ n : Int) - (2 ^ n : Int) else (v % 2 ^ n : Int)

/-- Sign extension to 64 bits (R8). -/
def sext64 (v n : Nat) : Word := BitVec.ofInt 64 (sextI v n)

/-- An immediate of n bits, sign-extended from its top bit (R43). -/
def immS (v n : Nat) : Word := sext64 v n

/-! ## Tenant contexts and register contexts -/

def tkey (core ctx : Nat) : Nat := core * 8 + ctx

/-- The key of a CSR of a core, or of a tenant context on it, that a soft error has struck. -/
def lostKey (core ctx n : Nat) : Nat := tkey core (if n = 0xC01 ∨ n = 0xC17 then 0 else ctx) * 4096 + n
def State.tenant (s : State) (core ctx : Nat) : Tenant := Tbl.get Tenant.reset s.tenants (tkey core ctx)
def State.setTenant (s : State) (core ctx : Nat) (t : Tenant) : State :=
  { s with tenants := Tbl.set s.tenants (tkey core ctx) t }
def State.modTenant (s : State) (core ctx : Nat) (f : Tenant → Tenant) : State := s.setTenant core ctx (f (s.tenant core ctx))

/-- Register context j: 0 normal, 1 urgent, 2 overflow, 3 + i the image in suspended slot i. -/
def Tenant.rcx (t : Tenant) (j : Nat) : RegCtx :=
  match j with
  | 0 => t.n
  | 1 => t.u
  | 2 => t.o
  | j + 3 => match Tbl.get none (t.slots.map fun p => (p.1, some p.2)) j with
    | some sl => sl.img
    | none => .reset

def Tenant.setRcx (t : Tenant) (j : Nat) (r : RegCtx) : Tenant :=
  match j with
  | 0 => { t with n := r }
  | 1 => { t with u := r }
  | 2 => { t with o := r }
  | j + 3 => { t with slots := t.slots.map fun p => if p.1 = j then (p.1, { p.2 with img := r }) else p }

def State.rcx (s : State) (w : Who) : RegCtx := (s.tenant w.core w.ctx).rcx w.rc
def State.setRcx (s : State) (w : Who) (r : RegCtx) : State :=
  s.setTenant w.core w.ctx ((s.tenant w.core w.ctx).setRcx w.rc r)
def State.modRcx (s : State) (w : Who) (f : RegCtx → RegCtx) : State := s.setRcx w (f (s.rcx w))

/-- The register context and the tenant context that act. -/
def State.rc (s : State) : RegCtx := s.rcx s.cur
def State.tn (s : State) : Tenant := s.tenant s.cur.core s.cur.ctx

/-! ## Registers (R60, R195, R217) -/

/-- x0 reads zero (R60). -/
def RegCtx.rx (r : RegCtx) (i : Nat) : Word := if i = 0 then 0 else Tbl.get 0 r.x i
/-- A write to x0 is discarded (R60). -/
def RegCtx.wx (r : RegCtx) (i : Nat) (v : Word) : RegCtx := if i = 0 then r else { r with x := Tbl.put 0 r.x i v }
def RegCtx.rw (r : RegCtx) (i : Nat) : Gran := Tbl.get 0 r.w i
def RegCtx.ww (r : RegCtx) (i : Nat) (v : Gran) : RegCtx := { r with w := Tbl.put 0 r.w i v }

def State.x (s : State) (i : Nat) : Word := s.rc.rx i
def State.setX (s : State) (i : Nat) (v : Word) : State := s.modRcx s.cur fun r => r.wx i v

/-- g0 reads as the empty region of rank 0 (R217). -/
def Tenant.rg (t : Tenant) (i : Nat) : Region := if i = 0 then .empty 0 else Tbl.get (Region.empty 0) t.g i
/-- A write to g0 is discarded (R217). -/
def Tenant.wg (t : Tenant) (i : Nat) (v : Region) : Tenant := if i = 0 then t else { t with g := Tbl.put (Region.empty 0) t.g i v }

/-- The instruction retires and the next one follows it; what its reads have returned is used up. -/
def State.retire (s : State) : State :=
  let t := s.tn
  let r := t.rcx s.cur.rc
  s.setTenant s.cur.core s.cur.ctx { t.setRcx s.cur.rc { r with pc := r.pc + 4, kept := [] } with instret := t.instret + 1 }

/-- The instruction retires and control goes to an address. -/
def State.jump (s : State) (pc : Word) : State :=
  let t := s.tn
  let r := t.rcx s.cur.rc
  s.setTenant s.cur.core s.cur.ctx { t.setRcx s.cur.rc { r with pc := pc, kept := [] } with instret := t.instret + 1 }

/-- An instruction that only writes x[rd] and retires. -/
def State.result (s : State) (rd : Nat) (v : Word) : State := (s.setX rd v).retire

/-- The instruction does not issue; the boundary lies before it (R84). -/
def stall (s : State) : Out := .next { s with stalled := true }

def Chan.at (t : Tenant) (n : Nat) : Chan := Tbl.get Chan.reset t.chans n
def Tenant.setChan (t : Tenant) (n : Nat) (c : Chan) : Tenant := { t with chans := Tbl.put Chan.reset t.chans n c }
def Tenant.port (t : Tenant) (q : Nat) : Port := Tbl.get Port.reset t.ports q
def Tenant.setPort (t : Tenant) (q : Nat) (p : Port) : Tenant := { t with ports := Tbl.put Port.reset t.ports q p }

/-! ## Event counters, quotas, counters of shared units -/

/-- Adds n to an event counter, saturating at 2^32 - 1 (R76). -/
def State.count (s : State) (core ctx i n : Nat) : State :=
  s.modTenant core ctx fun t => { t with evc := Tbl.put 0 t.evc i (min (Tbl.get 0 t.evc i + n) 0xFFFFFFFF) }

def State.part (s : State) (p : Nat) : Part := Tbl.get Part.reset s.parts p
def State.setPart (s : State) (p : Nat) (q : Part) : State := { s with parts := Tbl.set s.parts p q }
def State.modPart (s : State) (p : Nat) (f : Part → Part) : State := s.setPart p (f (s.part p))

/-- The partition whose interval holds a core (R339). -/
def State.owner (s : State) (core : Nat) : Option Nat :=
  (s.parts.find? fun p => decide (p.2.cbase ≤ core) && decide (core < p.2.cbase + p.2.clen)).map (·.1)

/-- The tenant context that is resident on a core. -/
def State.live (s : State) (core : Nat) : Nat :=
  match s.owner core with
  | some p => (s.part p).resident.getD 0
  | none => 0

/-- The context is switched out of a core (R326, R328). -/
def State.away (s : State) (core ctx : Nat) : Bool :=
  match s.owner core with
  | some p => (s.part p).resident != some ctx
  | none => false

/-- Charges a quota category, saturating (R343). -/
def State.charge (s : State) (p cat n : Nat) : State :=
  s.modPart p fun q => { q with quse := Tbl.put 0 q.quse cat (min (Tbl.get 0 q.quse cat + n) 0xFFFFFFFFFFFFFFFF) }

/-- Counts an event of a shared unit into the counters of the context that select it (R348). -/
def State.su (s : State) (p ctx code n : Nat) : State :=
  if code = 0 then s else s.modPart p fun q =>
    { q with sucnt := (List.range 16).foldl (fun t i => if Tbl.get 0 q.sucfg (ctx * 16 + i) = code
        then Tbl.put 0 t (ctx * 16 + i) (min (Tbl.get 0 t (ctx * 16 + i) + n) 0xFFFFFFFFFFFFFFFF) else t) q.sucnt }

/-! ## Where things are (R12, R339, R104) -/

/-- The row and column of a Hilbert index, by undoing R339 from the innermost level. -/
def hilbertYX : Nat → Nat → Nat → Nat → Nat → Nat × Nat
  | 0, _, _, y, x => (y, x)
  | n + 1, sz, t, y, x =>
    let rx := t / 2 % 2
    let ry := (t + rx) % 2
    let (y1, x1) := if ry = 0 then (if rx = 1 then (sz - 1 - x, sz - 1 - y) else (x, y)) else (y, x)
    hilbertYX n (sz * 2) (t / 4) (y1 + sz * ry) (x1 + sz * rx)

/-- The die of a core (R12). -/
def dieOf (h : Nat) : Nat := let (y, x) := hilbertYX 6 1 h 0 0; 2 * (y / 16) + x / 32
/-- The physical core number pcore (R12). -/
def pcoreOf (h : Nat) : Nat := let (y, x) := hilbertYX 6 1 h 0 0; 64 * y + x
/-- The slot of a core within its cluster (R12). -/
def slotOf (h : Nat) : Nat := let (y, x) := hilbertYX 6 1 h 0 0; 4 * (y % 4) + x % 4
/-- The number of a cluster within its die (R12). -/
def clusterOf (h : Nat) : Nat := let (y, x) := hilbertYX 6 1 h 0 0; 8 * (y % 16 / 4) + x % 32 / 4

def tcmHome (core ctx : Nat) : Nat := (ctx * 4096 + core) * 2 ^ 18
/-- The Pan of a cluster, which its 16 cores reach (R14). -/
def panHome (cluster : Nat) : Nat := 2 ^ 34 + cluster * 2 ^ 22
/-- What a switch has saved of a cluster's Pan for a tenant context of a partition, while that is switched out (R326, R328). -/
def panSaved (part cluster ctx : Nat) : Nat := 2 ^ 34 + ((1 + part * 8 + ctx) * 256 + cluster) * 2 ^ 22
def pondHome (die : Nat) : Nat := 2 ^ 40 + die * 2 ^ 27
def hbmHome (pa : Nat) : Nat := 2 ^ 44 + pa
def tier2Home : Nat := 2 ^ 53
def hostHome : Nat := 2 ^ 54
def peerHome (n : Nat) : Nat := 2 ^ 55 + n * 2 ^ 52

/-- The kinds of home. -/
inductive Space where
  | tcm | pan | pond | hbm | tier2 | host | peer
  deriving DecidableEq, Repr

def space (h : Nat) : Space :=
  if h < 2 ^ 34 then .tcm else if h < 2 ^ 40 then .pan else if h < 2 ^ 44 then .pond else if h < 2 ^ 53 then .hbm
  else if h < 2 ^ 54 then .tier2 else if h < 2 ^ 55 then .host else .peer

/-- The station of an HBM home (R135). -/
def stationOf (h : Nat) : Nat := (h - 2 ^ 44) / 2 ^ 32

/-! ## Memory at its homes -/

/-- What a byte that nothing has written reads as (DESIGN CHOICE, log 5). -/
def unwritten : Byte := 0

/-- The canonical form of memory: addresses strictly rising, no entry equal to what an unlisted address reads as. -/
def Memory.wf (m : Tbl Byte) : Bool := Tbl.canon unwritten m

def State.byte (s : State) (a : Nat) : Byte := Tbl.get unwritten s.mem a

/-- n bytes at a home. -/
def State.bytes (s : State) (a : Nat) : Nat → List Byte
  | 0 => []
  | n + 1 => s.byte a :: s.bytes (a + 1) n

/-- Stores bytes, and nothing else. -/
def putBytes (m : Tbl Byte) (a : Nat) : List Byte → Tbl Byte
  | [] => m
  | b :: t => putBytes (Tbl.put unwritten m a b) (a + 1) t

/-- The granules that n bytes at an address touch. -/
def granules (a n : Nat) : List Nat :=
  if n = 0 then [] else (List.range ((a + n - 1) / 16 - a / 16 + 1)).map (· + a / 16)

/-- A place: a home address, the key generation that encrypts it (0: not encrypted), and whether its page is versioned. -/
structure Spot where
  home : Nat
  gen : Nat
  v : Bool
  deriving DecidableEq, Repr

/-- What a read gives is open: the 64-byte block is read under another key than it was written under (R137, R344), or it lies in the memory
of a peer module. -/
def State.garbled (s : State) (sp : Spot) : Bool :=
  space sp.home == .peer
    || (sp.gen != 0 && Tbl.get 0 s.keytag (sp.home / 64) != 0 && Tbl.get 0 s.keytag (sp.home / 64) != sp.gen)

/-- The host holds the line of a home (R356). -/
def State.heldLine (s : State) (home : Nat) : Bool := s.hostHeld.any fun l => l.line == home / 64

/-- n free bytes, from counter k on. -/
def freeBytes (k : Nat) : Nat → List Byte
  | 0 => []
  | n + 1 => Config.freeByte k :: freeBytes (k + 1) n

/-- Reads n bytes, of one granule: free values where the key is not the one they were written under. -/
def State.readAt (s : State) (sp : Spot) (n : Nat) : State × List Byte :=
  if s.garbled sp then ({ s with fresh := s.fresh + n }, freeBytes s.fresh n) else (s, s.bytes sp.home n)

/-- Posts a message onto the mesh (R81). -/
def State.post (s : State) (f : Flight) : State := { s with flights := s.flights ++ [f] }

/-- The header of a message (R79). -/
def mkHdr (gen src kind : Nat) (urg bnc : Bool) (xcnt pcnt chan : Nat) : Word :=
  BitVec.ofNat 64 (gen % 65536 * 2 ^ 48 + src % 4096 * 2 ^ 36 + kind % 16 * 2 ^ 32 + (if urg then 2 ^ 31 else 0)
    + (if bnc then 2 ^ 30 else 0) + xcnt % 32 * 2 ^ 25 + pcnt % 16 * 2 ^ 21 + chan % 64)

def Msg.chan (m : Msg) : Nat := bits m.hdr.toNat 0 6
def Msg.gen (m : Msg) : Nat := bits m.hdr.toNat 48 16
def Msg.src (m : Msg) : Nat := bits m.hdr.toNat 36 12
def Msg.kind (m : Msg) : Nat := bits m.hdr.toNat 32 4
def Msg.urg (m : Msg) : Bool := bits m.hdr.toNat 31 1 == 1
def Msg.bnc (m : Msg) : Bool := bits m.hdr.toNat 30 1 == 1

/-- Serial comparison of versions (R147). -/
def reached (v t : Nat) : Bool := (v + 65536 - t % 65536) % 65536 < 32768

/-- The granule whose 16 bytes stand at a home granule. -/
def State.gran (s : State) (g : Nat) : Gran := BitVec.ofNat 128 (leNat (s.bytes (g * 16) 16))

/-- The message of a watch (R150, R265). -/
def watchFlight (w : Watch) (a1 : Nat) (v : Gran) : Flight :=
  { msg := { hdr := mkHdr w.gen 0xFFF (if w.pool = 0 then 5 else 4) w.urg false 1 2 w.chan,
             pay := [BitVec.ofNat 64 w.va, BitVec.ofNat 64 a1], ext := [v], bar := none },
    core := w.core, ctx := w.ctx, src := none }

/-- Fires the version watches of a granule that its version has reached (R150). -/
def State.fireWatches (s : State) (g : Nat) : State :=
  let v := Tbl.get 0 s.vers g
  let hit := fun (w : Watch) => w.pool == 0 && w.gran == g && reached v w.target
  { s with watches := s.watches.filter (fun w => !hit w),
           flights := s.flights ++ (s.watches.filter hit).map (fun w => watchFlight w v (s.gran g)) }

/-- The effects on one granule of a write of it beside its bytes: the version advances on HBM (R146), the landed bit of TCM and
Pan is set (R250), a whole-granule write clears poison (R322), version watches fire. -/
def State.touch (s : State) (whole : Bool) (g : Nat) : State :=
  let s := if whole then { s with poison := Tbl.put false s.poison g false } else s
  match space (g * 16) with
  | .hbm => State.fireWatches { s with vers := Tbl.put 0 s.vers g ((Tbl.get 0 s.vers g + 1) % 65536) } g
  | .tcm => { s with landed := Tbl.put false s.landed g true }
  | .pan => { s with landed := Tbl.put false s.landed g true }
  | _ => s

/-- Re-encryption of a block written under another key: its other bytes are free values (R137, R344). -/
def State.rekey (s : State) (sp : Spot) : State :=
  if sp.gen = 0 then s
  else
    let blk := sp.home / 64
    let s := if s.garbled sp then
        { s with mem := putBytes s.mem (blk * 64) (freeBytes s.fresh 64), fresh := s.fresh + 64 }
      else s
    { s with keytag := Tbl.put 0 s.keytag blk sp.gen }

/-- Whether some granule that a write covers only in part is poisoned: such a write is refused (R322). -/
def State.poisonedPart (s : State) (a n : Nat) : Bool :=
  (granules a n).any fun g => Tbl.get false s.poison g && !(a ≤ g * 16 && g * 16 + 16 ≤ a + n)

/-- The cause of a memory fault (R138). -/
def mcause (acc kind : Nat) : Nat := 0x40 + acc * 8 + kind

/-- The code of a poisoned place (R322): kind 5 of its access on HBM and tier 2, else the code of its structure. -/
def poisonCause (home acc : Nat) : Nat :=
  match space home with
  | .tcm => 0xA8
  | .pan => 0xA9
  | .pond => 0xAA
  | _ => mcause acc 5

/-- Whether some granule of a range is poisoned. -/
def State.poisoned (s : State) (a n : Nat) : Bool := (granules a n).any fun g => Tbl.get false s.poison g

/-- Writes bytes at a home in one act (memory of a peer module is the peer's, and not kept here), with the layout tag that the write leaves on TCM and Pan blocks (256: untagged,
R249). -/
def State.writeAt (s : State) (sp : Spot) (bs : List Byte) (tag : Nat) : State :=
  if space sp.home = .peer then s else
  let s := s.rekey sp
  let s := { s with mem := putBytes s.mem sp.home bs }
  let s := match space sp.home with
    | .tcm => { s with tags := Tbl.put 256 s.tags (sp.home / 1024) tag }
    | .pan => { s with tags := Tbl.put 256 s.tags (sp.home / 1024) tag }
    | _ => s
  (granules sp.home bs.length).foldl
    (fun s g => s.touch (decide (sp.home ≤ g * 16) && decide (g * 16 + 16 ≤ sp.home + bs.length)) g) s

/-- The counters of shared units for n bytes of an access to a home (R348). -/
def State.suAt (s : State) (p ctx home n : Nat) (write : Bool) : State :=
  match space home with
  | .hbm => s.su p ctx (if write then 2 else 1) n
  | .tier2 => s.su p ctx 10 n
  | .host => s.su p ctx 11 n
  | .peer => s.su p ctx (if write then 8 else 9) n
  | .pond => s.su p ctx 7 n
  | _ => s

/-- The quota category of a home (R343): 16 bytes for each granule. -/
def quotaOf (home : Nat) : Nat :=
  match space home with
  | .hbm => 2 | .tier2 => 3 | .host => 4 | .peer => 5 | _ => 0

/-- The quota and the counters of a core access or a transfer (R343, R348). -/
def State.chargeAt (s : State) (p ctx home n : Nat) (write : Bool) : State :=
  let s := if quotaOf home = 0 then s else s.charge p (quotaOf home) (16 * (granules home n).length)
  s.suAt p ctx home n write

/-! ## Fault queues (R318) -/

/-- The next fault id of a function, and the state after taking it. -/
def State.takeFid (s : State) (fn : Nat) : State × Nat :=
  (s.modPart fn fun q => { q with nextFid := (q.nextFid + 1) % 2 ^ 32 }, (s.part fn).nextFid)

/-- Room in a function's fault queue: a base is set and the ring is not full (R318, R331). -/
def Part.fqRoom (q : Part) : Bool := q.fqbase != 0 && (q.fqhead + 1) % q.fqlen != q.fqtail % q.fqlen

/-! ## Ending a handler, and taking a trap (R94, R312–R315) -/

/-- The slots of the trap record (R312). -/
def trapMsg (urg : Bool) (chan lcore : Nat) (a0 : Nat) (pc a2 : Word) (a4 : Nat) (task : Nat) (a6 : Word) (a3 : Nat) : Msg :=
  { hdr := mkHdr 0 lcore 6 urg false 0 7 chan,
    pay := [BitVec.ofNat 64 a0, pc, a2, BitVec.ofNat 64 (a3 % 4096), BitVec.ofNat 64 a4, BitVec.ofNat 64 task, a6], ext := [], bar := none }

/-- A trap record sent to the trap channel of a tenant context, raised on a core (R315). `a0` holds the cause, the register
context and the flags of R312. -/
def State.trapFlight (s : State) (core ctx : Nat) (a0 : Nat) (pc a2 : Word) (a4 task : Nat) (a6 : Word) (a3 : Nat) : Flight :=
  let t := s.tenant core ctx
  let c := Tbl.get 0 (s.part t.partid).trapcfg ctx
  let tcore := bits c 8 12
  let dst := if bits c 7 1 = 1 ∧ tcore < t.bandsz then (t.ctab.getD tcore core) else core
  { msg := trapMsg (bits c 6 1 == 1) (bits c 0 6) t.lcore a0 pc a2 a4 task a6 a3, core := dst, ctx := ctx, src := none }

/-- The channel slot a4 of a trap record (R312). -/
def chanSlot (c : Option Nat) : Nat := match c with | some n => n | none => 64

/-- The cores of the gang that a core belongs to, the leader first; itself alone when gangs are off (R101, R106). -/
def State.wholeGang (s : State) (core ctx : Nat) : List Nat :=
  let t := s.tenant core ctx
  if t.gangsz ≤ 1 then [core] else (List.range t.gangsz).map fun i => core - t.gangidx + i

/-- The cores that act together with a core: those of its gang, itself alone while one member acts for itself. -/
def State.gang (s : State) (core ctx : Nat) : List Nat := if s.solo then [core] else s.wholeGang core ctx

/-! ## Operations outstanding in a register context -/

def OpK.isLoad : OpK → Bool
  | .load => true | .amo _ => true | .ldv => true | .carrive => true | .cexpect _ => true | _ => false
def OpK.isStore : OpK → Bool
  | .store => true | .amo _ => true | .stv => true | .cinit _ => true | .carrive => true | .cexpect _ => true | _ => false

/-- The operation that a suspension waits for, unless all of it has been performed. -/
def waitOps (x : Option Wait) : List Op :=
  match x with
  | some x => (match x.why with | .op o => if o.parts.isEmpty then [] else [o] | _ => [])
  | none => []

/-- The operations outstanding in register context j of a tenant context: its own, those of its suspended images, and those that
suspensions wait for. Program order runs unbroken over them all (R157). -/
def Tenant.opsOf (t : Tenant) (j : Nat) : List Op :=
  (t.rcx j).ops ++ waitOps (t.rcx j).wait
    ++ (t.slots.filter fun p => p.2.rc == j).flatMap fun p => p.2.img.ops ++ waitOps (some p.2.wait)

/-- The register context that index j of `rcx` belongs to. -/
def Tenant.home (t : Tenant) (j : Nat) : Nat :=
  match j with
  | k + 3 => match t.slots.find? (fun p => p.1 == k) with
    | some p => p.2.rc
    | none => 0
  | j => j

/-- The operations outstanding in the register context that w belongs to. -/
def State.opsOf (s : State) (w : Who) : List Op := let t := s.tenant w.core w.ctx; t.opsOf (t.home w.rc)

/-! ## The inbox and its diversion (R80, R82, R89, R92) -/

/-- The bytes that a message occupies (R80). -/
def Msg.size (m : Msg) : Nat := 16 + 16 * ((m.pay.length + 1) / 2) + 16 * m.ext.length

/-- A core whose gang leader is another core (R106). -/
def Tenant.follower (t : Tenant) : Bool := decide (1 < t.gangsz) && decide (0 < t.gangidx)

/-- The messages that running and suspended handlers hold; a follower's normal handler holds its leader's (R106). -/
def Tenant.handled (t : Tenant) : List Msg :=
  (if t.follower then [] else t.n.msg.toList) ++ t.u.msg.toList ++ t.o.msg.toList
    ++ t.slots.flatMap fun p => if p.2.rc = 0 && t.follower then [] else p.2.img.msg.toList

def Tenant.half (t : Tenant) (urg : Bool) : List InMsg := if urg then t.inboxU else t.inboxN
def Tenant.setHalf (t : Tenant) (urg : Bool) (l : List InMsg) : Tenant := if urg then { t with inboxU := l } else { t with inboxN := l }

/-- The occupancy of a half (R80). -/
def Tenant.occ (t : Tenant) (urg : Bool) : Nat :=
  (t.half urg).foldl (fun n m => n + m.msg.size) 0 + (t.handled.filter fun m => m.urg == urg).foldl (fun n m => n + m.size) 0

/-- A diverted message of channel n is resident, one under presentation included (R92). -/
def Tenant.divertedHere (t : Tenant) (n : Nat) : Bool :=
  (t.inboxN ++ t.inboxU).any (fun m => m.div && m.msg.chan == n)
    || (match t.o.msg with | some m => m.chan == n | none => false)
    || t.slots.any (fun p => p.2.rc == 2 && (match p.2.img.msg with | some m => m.chan == n | none => false))

/-- The channel of a half chosen for diversion: the lowest priority, then the highest number (R89). -/
def Tenant.victim (t : Tenant) (urg : Bool) : Option Nat :=
  let cs := ((t.half urg).filter fun m => !m.div).map fun m => m.msg.chan
  cs.foldl (fun v c => match v with
    | none => some c
    | some d => let pc := (Chan.at t c).prio; let pd := (Chan.at t d).prio
      if pc < pd ∨ (pc = pd ∧ d < c) then some c else v) none

def Tenant.setEpi (t : Tenant) (urg : Bool) (e : Option Nat) : Tenant := if urg then { t with epiU := e } else { t with epiN := e }

/-- Chooses a channel, sets its DIVERT bit and marks all its resident messages, those of an earlier class included. -/
def Tenant.divertOne (t : Tenant) (urg : Bool) : Tenant :=
  match t.victim urg with
  | none => t
  | some c =>
    let t := t.setChan c { Chan.at t c with divert := true }
    let mark := fun (l : List InMsg) => l.map fun m => if m.msg.chan = c then { m with div := true } else m
    Tenant.setEpi { t with inboxN := mark t.inboxN, inboxU := mark t.inboxU } urg (some c)

/-- The episodes of diversion of a half (R89). -/
def Tenant.episode (t : Tenant) (urg : Bool) : Tenant :=
  match if urg then t.epiU else t.epiN with
  | none => if 16048 ≤ t.occ urg then t.divertOne urg else t
  | some c =>
    if t.occ urg < 12288 then t.setEpi urg none
    else if t.divertedHere c then t
    else t.divertOne urg

/-- Both halves, when messages have come or gone: the next channel is chosen in the act that frees the last copied message of the one
before. -/
def Tenant.episodes (t : Tenant) : Tenant := (t.episode true).episode false

/-- The places in the order of residence of the messages under presentation to the overflow context (R90). -/
def Tenant.presented (t : Tenant) : List Nat :=
  (if t.o.msg.isSome then [t.o.msgNo] else []) ++ (t.slots.filter fun p => p.2.rc == 2 && p.2.img.msg.isSome).map fun p => p.2.img.msgNo

/-- The place of the next message in the order of residence. -/
def Tenant.nextNo (t : Tenant) : Nat := ((t.inboxN ++ t.inboxU).map (·.no) ++ t.presented).foldl (fun n m => max n (m + 1)) 0

/-- The outbox of an ended handler is gone: what a load still brings for it is dropped. -/
def Op.forget (o : Op) : Op := match o.dest with | .outbox _ => { o with dest := .none } | _ => o

/-- The message of an overflow handler that ends other than by DONE stays resident and diverted, ahead of every other one of its half, with its
place in the order of residence; the overflow entry is unset (R93). -/
def Tenant.keepDiverted (t : Tenant) (rc : Nat) (m : Option Msg) (no : Nat) : Tenant :=
  match m with
  | some m =>
    if rc = 2 then
      let k : InMsg := { msg := m, div := true, no := no }
      let t := if m.urg then { t with inboxU := k :: t.inboxU } else { t with inboxN := k :: t.inboxN }
      { t with ovfEntry := none }
    else t
  | none => t

/-- An operation of a handler whose image is gone: it is still performed, and what it brings for a register or an outbox is dropped. -/
def Op.adrift (o : Op) : Op := match o.dest with | .port _ => o | _ => { o with dest := .none }

/-- The operations of an image that goes are still performed, as those of its register context (R151, R314). -/
def Tenant.giveBack (t : Tenant) (x : Slot) : Tenant :=
  let r := t.rcx x.rc
  t.setRcx x.rc { r with ops := r.ops ++ x.img.ops.map Op.adrift }

/-- The part of an end of handler that concerns its own register context (R94, R314): the outbox is discarded, the message is
freed, the context becomes idle. In the overflow context an end by DONE counts the message as copied (R90, R94); any other end
keeps it resident and diverted and unsets the overflow entry (R93). -/
def State.endRc (s : State) (w : Who) (done : Bool) : State :=
  let t := s.tenant w.core w.ctx
  let r := t.rcx w.rc
  let t := if w.rc = 0 then { t with mx := { t.mx with atCfg := false } } else t
  let t := t.setRcx w.rc { r with run := .idle, msg := none, chan := none, outbox := [], q0 := 0, hdr := 0, tstamp := 0,
                                   tdomain := 0, task := none, spec := false, wait := none, kept := [], ops := r.ops.map Op.forget }
  if w.rc = 2 then
    match r.msg with
    | none => s.setTenant w.core w.ctx t
    | some m =>
      if done then
        let c := Chan.at t m.chan
        (s.setTenant w.core w.ctx (t.setChan m.chan { c with dcnt := min (c.dcnt + 1) 4095 }).episodes).count w.core w.ctx 6 1
      else s.setTenant w.core w.ctx (t.keepDiverted 2 (some m) r.msgNo)
  else s.setTenant w.core w.ctx t.episodes

/-- The task of a partition with an id. -/
def State.findTask (s : State) (p id : Nat) : Option Task := s.tasks.find? fun t => t.part == p && t.id == id
def State.setTask (s : State) (t : Task) : State :=
  { s with tasks := s.tasks.map fun u => if u.part == t.part && u.id == t.id then t else u }
def State.dropTask (s : State) (p id : Nat) : State :=
  { s with tasks := s.tasks.filter fun u => !(u.part == p && u.id == id) }

/-- Task a comes before task b of its domain (R115). -/
def Task.before (a b : Task) : Bool :=
  a.part == b.part && a.dom == b.dom && (decide (a.ts < b.ts) || (a.ts == b.ts && decide (a.id < b.id)))

/-- Drops the children of a task that are held with it, and theirs (R120). -/
def dropHeldChildren (p : Nat) : Nat → Nat → List Task → List Task
  | 0, _, ts => ts
  | n + 1, id, ts =>
    let kids := ts.filter fun u => u.part == p && u.parent == some id && u.st == .held
    let ts := ts.filter fun u => !(u.part == p && u.parent == some id && u.st == .held)
    kids.foldl (fun ts k => dropHeldChildren p n k.id ts) ts

/-! ## Requests to peer modules (R358, R359) -/

/-- The peer port of a home. -/
def peerPort (home : Nat) : Nat := (home - 2 ^ 55) / 2 ^ 52
/-- The partition of the peer module that partition p is paired with across a port (R358). -/
def State.rpart (s : State) (port p : Nat) : Nat := Tbl.get 0 s.twpair (port * 64 + p) % 64

/-- A request that the device itself or the host makes for a partition leaves for a peer module: no operation waits for it. -/
def State.deviceAsks (s : State) (p ctx home va n : Nat) (k : OpK) (data : Gran) (by_ : AskedBy := .other) (info : Nat := 0)
    (leaves : List Nat := []) : State :=
  { s with peerReqs := s.peerReqs ++ [{ port := peerPort home, rpart := s.rpart (peerPort home) p, ipa := home % 2 ^ 52, k := k, data := data, xfer := none,
                                        who := { core := 4096, ctx := ctx, rc := p }, seq := 0, va := va, n := n, issued := s.time, by_ := by_, info := info, leaves := leaves }] }

/-! ## Entries of page tables, and the bits that are set in them (R130, R133) -/

/-- What a peer module has answered of an entry at a home, for the walks of a partition (R130, R358). -/
def State.pteGot (s : State) (p home : Nat) : Option PteGot := s.ptes.find? fun g => g.part == p && g.home == home

/-- An entry at a home, as a walk of a partition has it: one 8-byte load (R130), as it stands, whatever key its block was written under (DEDUCED,
log 46); of one at a peer module what has been answered, 0 for nothing yet or a fault. -/
def State.pte (s : State) (p home : Nat) : Nat :=
  if space home = .peer then (match s.pteGot p home with | some g => if g.bad.isSome then 0 else g.v | none => 0) else leNat (s.bytes home 8)

/-- An entry at a peer module that has not been answered. -/
def State.pteMissing (s : State) (p home : Nat) : Bool := space home == .peer && (s.pteGot p home).isNone
/-- The kind of the fault that the peer reports of an entry there. -/
def State.pteBad (s : State) (p home : Nat) : Option Nat := if space home = .peer then (s.pteGot p home).bind (·.bad) else none

/-- The bits of an entry as this module knows them: of one at a peer module, those last answered or kept in a translation cache. -/
def State.pteBits (s : State) (p home : Nat) : Nat :=
  if space home = .peer then match s.pteGot p home with
    | some g => g.v
    | none => match s.tcache.find? fun e => e.part == p && e.leaf.home == home with
      | some e => e.leaf.pte
      | none => 0
  else s.pte p home

/-- Sets a bit of the entry at a home if it is clear, as one atomic OR, which is a write of its granule (R133, R146) and refused where that is poisoned
(R322); where a peer module holds the entry, the OR leaves as a request for partition p. -/
def State.orPte (s : State) (p mask home : Nat) : State :=
  let b := s.pteBits p home % 256
  if b &&& mask = mask then s
  else if space home = .peer then
    let s := s.deviceAsks p 0 home (home % 2 ^ 52) 8 (.amo 3) (BitVec.ofNat 128 mask)
    { s with ptes := s.ptes.map (fun g => if g.part = p ∧ g.home = home then { g with v := g.v ||| mask } else g),
             tcache := s.tcache.map fun e =>
               if e.part = p ∧ e.leaf.home = home then { e with leaf := { e.leaf with pte := e.leaf.pte ||| mask } } else e }
  else if Tbl.get false s.poison (home / 16) then s
  else
    let s := { s with mem := putBytes s.mem home [BitVec.ofNat 8 (b ||| mask)] }
    s.touch false (home / 16)

/-- Sets a bit of several entries: A in the leaves used, D in the leaves of a write (R133). -/
def State.mark (s : State) (p mask : Nat) (homes : List Nat) : State := homes.foldl (fun s h => s.orPte p mask h) s

/-- An entry whose bit is still to be set lies in a line that the host holds (R356). -/
def State.markWaits (s : State) (p mask : Nat) (homes : List Nat) : Bool :=
  homes.any fun h => s.heldLine h && s.pteBits p h &&& mask != mask

/-- A store leaves for a peer module as an operation of the normal register context of a core: it is performed when its completion arrives
(R359). -/
def State.storeToPeer (s : State) (core ctx : Nat) (task : Option Nat) (m : MxStore) : State :=
  let w : Who := { core := core, ctx := ctx, rc := 0 }
  let r := s.rcx w
  let n := m.bytes.length
  let v := BitVec.ofNat 128 (leNat m.bytes)
  let o : Op := { seq := r.seq, pc := 0, k := .store, va := m.va, n := n, data := v, cmp := 0, dest := .none, aq := false, rl := false,
                  parts := [(m.va, n)], got := [], peer := true, held := false, inv := r.inv, task := task }
  { s.setRcx w { r with ops := r.ops ++ [o], seq := r.seq + 1 } with
    peerReqs := s.peerReqs ++ [{ port := peerPort m.home, rpart := s.rpart (peerPort m.home) (s.tenant core ctx).partid, ipa := m.home % 2 ^ 52, k := .store,
                                 data := v, who := w, seq := r.seq, va := m.va, n := n, issued := s.time, xfer := none, leaves := m.leaves }] }

/-- The frame that holds a home, by the address of its tier (R132, R313). -/
def frameAddr (home : Nat) : Nat :=
  (match space home with
    | .hbm => home - 2 ^ 44
    | .tier2 => home - tier2Home
    | .host => home - hostHome
    | .peer => (home - 2 ^ 55) % 2 ^ 52
    | _ => 0) / 4096 * 4096

/-- One buffered store of a task is performed at its home, with D set in the leaves of its page, and charged (R121, R133, R343), or leaves for a peer; a
poisoned granule that it covers only in part refuses it, and its trap record is sent (R322; DEDUCED, log 16). -/
def State.drainOne (s : State) (t : Task) (m : MxStore) : State :=
  if space m.home = .peer then s.storeToPeer m.core t.ctx (some t.id) m
  else if s.poisonedPart m.home m.bytes.length then
    s.post (s.trapFlight t.core t.ctx (poisonCause m.home 1) 0 (BitVec.ofNat 64 m.va) 64 t.id (BitVec.ofNat 64 (frameAddr m.home))
      (s.tenant t.core t.ctx).lcore)
  else ((s.mark t.part 0x80 m.leaves).writeAt { home := m.home, gen := m.gen, v := false } m.bytes m.tag).chargeAt t.part t.ctx m.home m.bytes.length true

/-- Performs stores of a task at their homes, in program order (R121). -/
def State.drain (s : State) (t : Task) (stores : List MxStore) : State := stores.foldl (fun s m => s.drainOne t m) s

/-- Nothing of the normal register context of a task's core is outstanding that an order could put before its buffered stores. -/
def State.clear_ (s : State) (t : Task) : Bool :=
  (s.wholeGang t.core t.ctx).all fun h => t.stores.all fun m => m.core != h
    || ((s.opsOf { core := h, ctx := t.ctx, rc := 0 }).all (fun o => decide (m.seq ≤ o.seq)) && (s.tenant h t.ctx).n.fences.all fun f => decide (m.seq ≤ f.seq))

/-- None of these buffered stores of a partition lies in a line that the host holds, nor a leaf whose D bit it is to set (R356). -/
def State.canDrain (s : State) (p : Nat) (stores : List MxStore) : Bool :=
  stores.all fun m => !s.heldLine m.home && !s.markWaits p 0x80 m.leaves

/-- Some store of a task that its handler performed or drained is still on its way (R121, R161). -/
def State.taskWriting (s : State) (t : Task) : Bool :=
  (s.wholeGang t.core t.ctx).any fun h => ((s.tenant h t.ctx).opsOf 0).any fun o => o.task == some t.id && o.k.isStore

/-- A message that an earlier task of the domain of task id held is not yet resident (R159): the next commit waits. -/
def State.domBusy (s : State) (p id : Nat) : Bool :=
  s.flights.any fun f => f.task != 0 && f.task != id && f.task / 2 ^ 58 == id / 2 ^ 58 && (s.tenant f.core f.ctx).partid == p

/-- The turn of a task of an ordered domain has come, as far as the commit before it and its own stores are concerned. -/
def State.commits (s : State) (t : Task) : Bool :=
  t.dom == 0 || (!s.taskWriting t && !s.domBusy t.part t.id)

/-- A held message of a task as it is posted. -/
def Task.posts (t : Task) (f : Flight) : Flight := { f with task := if t.dom = 0 then 0 else t.id }

/-- A change of the operation that a suspension waits for, and of those outstanding in a register context. -/
def Wait.mapOp (x : Wait) (f : Op → Op) : Wait := match x.why with | .op o => { x with why := .op (f o) } | _ => x
def RegCtx.mapOps (r : RegCtx) (f : Op → Op) : RegCtx := { r with ops := r.ops.map f, wait := r.wait.map (·.mapOp f) }

/-- A task that has become the oldest of its domain while it runs (R120): its buffered stores drain, its held messages post,
SPEC clears. -/
def State.promote (s : State) (t : Task) : State :=
  let s := s.drain t t.stores
  let s := { s with flights := s.flights ++ t.msgs.map t.posts }
  let s := s.setTask { t with st := .oldest, stores := [], msgs := [] }
  let clr := fun (r : RegCtx) => if r.task == some t.id && r.spec then { r with spec := false } else r
  let op := fun (o : Op) => if o.task = some t.id then { o with spec := false } else o
  (s.wholeGang t.core t.ctx).foldl (fun s h => s.modTenant h t.ctx fun n =>
    { n with n := (clr n.n).mapOps op, slots := n.slots.map fun p => (p.1, { p.2 with img := (clr p.2.img).mapOps op, wait := p.2.wait.mapOp op }) }) s

/-- The task of a domain that comes first: every earlier one has committed or is gone. A held task counts (R120). -/
def State.firstOf (s : State) (p dom : Nat) : Option Task :=
  s.tasks.find? fun t => t.part == p && t.dom == dom && !(s.tasks.any fun u => u.before t)

/-- The first task of an ordered domain, if it is running speculatively, becomes the oldest (R120), at once where operations are performed
as soon as they can be. -/
def State.promoteNext (s : State) (p dom : Nat) : State :=
  if dom = 0 ∨ !s.eager then s
  else match s.firstOf p dom with
    | some t => if t.st = .spec ∧ s.canDrain t.part t.stores ∧ s.clear_ t ∧ s.commits t ∧ t.stores.all (fun m => space m.home != .peer) then s.promote t else s
    | none => s

/-- After tasks of a partition have gone: the same in every domain. -/
def State.promoteAll (s : State) (p : Nat) : State := (List.range 64).foldl (fun s d => s.promoteNext p d) s

/-- Commits a task (R121): its stores apply, its messages post, its held children are queued; then the next may become the
oldest. A FAILED task sends its trap records and leaves nothing else (R120); the children held with it go then, when it is discarded (DESIGN
CHOICE, log 53). -/
def State.commit (s : State) (t : Task) : State :=
  let s := if t.st = .failed then
      { s with tasks := dropHeldChildren t.part s.tasks.length t.id s.tasks, flights := s.flights ++ t.traps.map t.posts }
    else
      let s := s.drain t t.stores
      { s with flights := s.flights ++ t.msgs.map t.posts, tasks := s.tasks.map fun u =>
          if u.part == t.part && u.parent == some t.id && u.st == .held then { u with st := .queued } else u }
  let s := s.dropTask t.part t.id
  let s := if t.dom = 0 then s else s.modPart t.part fun q => { q with lastTs := Tbl.put 0 q.lastTs t.dom t.ts }
  s.promoteAll t.part

/-- The end of a task's handler reaches the Crystallizer (R94, R120). `trap` is the record of a handler that ended by a trap. The oldest task
of an ordered domain commits once its own stores are performed and the commit before it has finished (R121, R159): until then it
stands as ended. -/
def State.taskEnd (s : State) (p id : Nat) (trap : Option Flight) : State :=
  match s.findTask p id with
  | none => match trap with | some f => s.post f | none => s
  | some t =>
    match t.st, trap with
    | .spec, none => s.setTask { t with st := .ended }
    | .spec, some f => s.setTask { t with st := .failed, traps := [f] }
    | .ended, _ => s
    | .failed, none => s
    | .failed, some f => s.setTask { t with traps := t.traps ++ [f] }
    | _, none => if s.commits t then s.commit t else s.setTask { t with st := .ended }
    | _, some f => if s.commits t then s.commit { t with st := .failed, traps := [f] } else s.setTask { t with st := .failed, traps := [f] }

/-- A trap record is held with a speculative task and marked SPEC (R312, R314). -/
def markSpec (f : Flight) : Flight :=
  { f with msg := { f.msg with pay := match f.msg.pay with | a :: t => (a ||| 0x800) :: t | [] => [] } }

/-- Ends the handler of one register context, with the trap record it leaves, if any; a task's end is reported. -/
def State.endOne (s : State) (w : Who) (done : Bool) (trap : Option Flight) : State :=
  let r := s.rcx w
  let p := (s.tenant w.core w.ctx).partid
  let s' := s.endRc w done
  match r.task with
  | some id => s'.taskEnd p id (trap.map fun f => if r.spec then markSpec f else f)
  | none => match trap with | some f => s'.post f | none => s'

/-- The other members of a gang whose normal handler runs end as by DONE (R108); at a DONE of the leader each retires the
same DONE (R107). -/
def State.endGang (s : State) (w : Who) (ret : Nat) : State :=
  if w.rc = 0 then
    (s.gang w.core w.ctx).foldl (fun s h => if h = w.core then s else
      if (s.tenant h w.ctx).n.run = .idle then s
      else (s.endRc { w with core := h } true).modTenant h w.ctx fun t => { t with instret := t.instret + ret }) s
  else s

/-- TAKING A TRAP (R314): the handler of w ends, its gang with it, and its trap record goes to the trap channel (R315), held
with a speculative task. The trapping instruction does not retire. -/
def State.trap (s : State) (w : Who) (cause : Nat) (pc a2 a6 : Word) : State :=
  let r := s.rcx w
  let t := s.tenant w.core w.ctx
  let f := s.trapFlight w.core w.ctx (w.rc % 4 * 256 + cause) pc a2 (chanSlot r.chan) (r.task.getD 0) a6 t.lcore
  (s.endOne w false (some f)).endGang w 0

/-- THE RETURN FROM A HANDLER (R94): the handler ends by DONE, its gang with it. -/
def State.finish (s : State) (w : Who) : State := (s.endOne w true none).endGang w 1

/-- A trap of the instruction at pc in the register context that acts. -/
def trapNow (s : State) (cause : Nat) (a2 a6 : Word) : Out := .next (s.trap s.cur cause s.rc.pc a2 a6)

end Sys2Proof.Machine
end

