-- ==== Sys2Proof/Machine/Region.lean ====
section
/-! DEFINITION. The region algebra (R217–R225): sets of cells as boxes of ranges, their lattice, their canonical form, the policies. A set
is a union of boxes of stepped ranges, or a difference of two unions; its canonical form is computed by a sweep of the lattice that
jumps over stretches on which nothing changes. -/

namespace Sys2Proof.Machine

/-- A box: one range for each dimension. -/
abbrev Box := List Rng

/-! ## Ranges -/

/-- A coordinate lies in a range. -/
def Rng.has (r : Rng) (c : Nat) : Bool := decide (r.lo ≤ c) && decide (c ≤ r.hi) && ((c - r.lo) % max r.step 1 == 0)
/-- A cell lies in a box. -/
def boxHas : List Rng → List Nat → Bool
  | [], [] => true
  | r :: b, c :: t => r.has c && boxHas b t
  | _, _ => false
/-- A cell lies in a region that is not ragged. -/
def Region.has (g : Region) (c : List Nat) : Bool := g.boxes.any fun b => boxHas b c

/-- The least x ≥ n with x ≡ p modulo s. -/
def alignUp (s p n : Nat) : Nat := n + (p + s * (n / s + 1) - n) % s
/-- The greatest x ≤ n with x ≡ p modulo s, for p ≤ n. -/
def alignDown (s p n : Nat) : Nat := n - (n - p) % s

/-- The coefficient of a in a·x + b·y = gcd a b, by Euclid's steps. -/
def bezout : Nat → Int → Int → Int → Int → Int
  | 0, _, _, x, _ => x
  | n + 1, a, b, x, y => if b = 0 then x else bezout n b (a % b) y (x - a / b * y)
/-- The inverse of a modulo m, for a prime to m. -/
def invMod (a m : Nat) : Nat := (bezout 200 a m 1 0 % (m : Int)).toNat

/-- The least x ≥ c with x ≡ c modulo s and x ≡ l modulo t. -/
def meetFrom (c s l t : Nat) : Option Nat :=
  let g := Nat.gcd s t
  let d := (((l : Int) - c) % (t : Int)).toNat
  if d % g ≠ 0 then none
  else
    let m := t / g
    some (c + s * (d / g * invMod (s / g % m) m % m))

/-- The coordinates that two ranges share. -/
def Rng.meet (a b : Rng) : Option Rng :=
  if a.lo = a.hi then (if b.has a.lo then some a else none)
  else if b.lo = b.hi then (if a.has b.lo then some b else none)
  else
    let c := alignUp a.step (a.lo % a.step) (max a.lo b.lo)
    let hi := min a.hi b.hi
    match meetFrom c a.step b.lo b.step with
    | none => none
    | some x =>
      if hi < x then none
      else
        let t := Nat.lcm a.step b.step
        some { lo := x, hi := x + (hi - x) / t * t, step := t }

/-- How many coordinates a range holds. -/
def Rng.count (r : Rng) : Nat := if r.lo ≤ r.hi then (r.hi - r.lo) / max r.step 1 + 1 else 0
/-- The part of a range inside [lo, hi]. -/
def Rng.clip (r : Rng) (lo hi : Nat) : Option Rng :=
  let l := alignUp (max r.step 1) (r.lo % max r.step 1) (max r.lo lo)
  let h := min r.hi hi
  if h < l then none else some { lo := l, hi := alignDown (max r.step 1) l h, step := r.step }
/-- The range with the same ends and step 1. -/
def Rng.dense (r : Rng) : Rng := { r with step := 1 }

/-- Applies a partial function to every entry. -/
def allSome {α β : Type} (f : α → Option β) : List α → Option (List β)
  | [] => some []
  | x :: t => match f x, allSome f t with | some y, some l => some (y :: l) | _, _ => none

/-- The cells that two boxes share. -/
def meetBox (a b : Box) : Option Box := allSome (fun p => p.1.meet p.2) (a.zip b)
def boxCount (b : Box) : Nat := b.foldl (fun n r => n * r.count) 1
/-- Every pair of a box of one list and a box of another, met. -/
def meetAll (as bs : List Box) : List Box := as.flatMap fun a => bs.filterMap fun b => meetBox a b

/-! ## The lattice (R218) -/

/-- Step and phase of one dimension. -/
structure Lat where
  s : Nat
  p : Nat
  deriving DecidableEq, Repr

/-- The lattice of a list of coordinates. -/
def latOf (l : List Nat) : Lat :=
  match l with
  | [] => { s := 1, p := 0 }
  | c :: t =>
    let m := t.foldl min c
    let g := l.foldl (fun g x => Nat.gcd g (x - m)) 0
    if g = 0 then { s := 1, p := 0 } else { s := g, p := m % g }

/-- The lattice of a union of boxes in their dimension d: each range gives its first, second and last coordinate. -/
def unionLat (bs : List Box) (d : Nat) : Lat :=
  latOf (bs.flatMap fun b => match b[d]? with
    | some r => if r.lo = r.hi then [r.lo] else [r.lo, r.lo + r.step, r.hi]
    | none => [])

/-- The lattice of a region that is not ragged, or of an image's box (R218). -/
def latticeOf (rank : Nat) (bs : List Box) : List Lat := (List.range rank).map (unionLat bs)

/-! ## Differences -/

/-- Sorted insertion without repeats. -/
def insertNat (x : Nat) : List Nat → List Nat
  | [] => [x]
  | y :: t => if x < y then x :: y :: t else if x = y then y :: t else y :: insertNat x t

/-- A stretch of a difference in its first dimension: coordinates of it that fix its lattice, and the boxes of the minuend and of the
subtrahend over it. -/
structure Part1 where
  sample : List Nat
  as : List Box
  bs : List Box

/-- The first range of a box. -/
def head1 (b : Box) : Rng := b.headD { lo := 0, hi := 0, step := 1 }

/-- The stretches of as ∖ bs in the first dimension. The boxes of `as` share one lattice there, and so do those of `bs`: between two ends
of ranges, a coordinate on the lattice of `as` lies on that of `bs` or does not. -/
def parts1 (as bs : List Box) : List Part1 :=
  match as with
  | [] => []
  | a0 :: _ =>
    let la := max (head1 a0).step 1
    let pa := (head1 a0).lo % la
    let cuts := (as ++ bs).foldl (fun l b => insertNat (alignUp la pa (head1 b).lo) (insertNat (alignUp la pa ((head1 b).hi + 1)) l)) []
    (cuts.zip (cuts.drop 1)).flatMap fun (x, y) =>
      let last := y - la
      let act := as.filter fun b => (head1 b).lo ≤ x && x ≤ (head1 b).hi
      let sub := bs.filter fun b => (head1 b).lo ≤ x && x ≤ (head1 b).hi
      let cut := act.map List.tail
      if act.isEmpty then []
      else match sub with
        | [] => [{ sample := (List.range 2).map (fun i => x + la * i) |>.filter (· ≤ last), as := cut, bs := [] }]
        | b0 :: _ =>
          let lb := max (head1 b0).step 1
          let m := lb / Nat.gcd lb la
          let off := fun (n : Nat) => ((List.range n).map fun i => x + la * i).filter fun c => decide (c ≤ last) && !((c + lb * (c / lb + 1) - (head1 b0).lo % lb) % lb == 0)
          let out : Part1 := { sample := off 5, as := cut, bs := [] }
          match meetFrom x la (head1 b0).lo lb with
          | none => [{ out with sample := ((List.range 2).map fun i => x + la * i).filter (· ≤ last) }]
          | some c =>
            let in_ : Part1 := { sample := [c, c + la * m].filter (· ≤ last), as := cut, bs := sub.map List.tail }
            (if m = 1 then [] else [out]) ++ [in_]

/-- as ∖ bs holds a cell, in n dimensions. -/
def diffAny : Nat → List Box → List Box → Bool
  | 0, as, bs => !as.isEmpty && bs.isEmpty
  | n + 1, as, bs => (parts1 as bs).any fun p => !p.sample.isEmpty && diffAny n p.as p.bs

/-- Dimension d of a box brought to the front. -/
def frontDim (d : Nat) (b : Box) : Box := (b.drop d).take 1 ++ (b.take d ++ b.drop (d + 1))

/-- The lattice of as ∖ bs. -/
def diffLattice (rank : Nat) (as bs : List Box) : List Lat :=
  (List.range rank).map fun d =>
    latOf ((parts1 (as.map (frontDim d)) (bs.map (frontDim d))).flatMap fun p => if diffAny (rank - 1) p.as p.bs then p.sample else [])

/-! ## The canonical form (R224) -/

/-- A slab under construction: its ends and its cross-section. -/
structure Slab where
  lo : Nat
  hi : Nat
  x : List Box
  deriving DecidableEq, Repr

/-- The boxes whose first range holds a coordinate, without that range. -/
def hits (bs : List Box) (c : Nat) : List Box := (bs.filter fun b => (head1 b).has c).map List.tail

/-- The next coordinate of the lattice, after c, at which a range may gain or lose a coordinate. -/
def changeAt (l : Lat) (c : Nat) (r : Rng) : Option Nat :=
  let st := max r.step 1
  if c < r.lo then some (alignUp l.s l.p r.lo)
  else if r.hi < c then none
  else if r.has c then
    if l.s % st = 0 then some (alignUp l.s l.p (r.hi + 1)) else some (c + l.s)
  else match meetFrom (c + l.s) l.s r.lo st with
    | some x => if x ≤ r.hi then some x else none
    | none => none

/-- The next end of a range after c. -/
def edgeAt (l : Lat) (c : Nat) (r : Rng) : Option Nat :=
  if c < r.lo then some (alignUp l.s l.p r.lo) else if c ≤ r.hi then some (alignUp l.s l.p (r.hi + 1)) else none

def minSome (l : List (Option Nat)) : Option Nat :=
  l.foldl (fun m x => match m, x with | none, x => x | m, none => m | some a, some b => some (min a b)) none

/-- From c to the next end of a range every coordinate has the cross-section x: seen over one period of the steps, where it is short. -/
def steady (l : Lat) (c edge : Nat) (as bs : List Box) (sub : List Box → List Box → Option (List Box)) (x : List Box) : Bool :=
  let act := (as ++ bs).filter fun b => (head1 b).lo ≤ c && c ≤ (head1 b).hi
  let per := act.foldl (fun n b => Nat.lcm n (max (head1 b).step 1)) l.s
  decide (per / l.s ≤ 5040) && decide (c + per < edge) && (List.range (per / l.s)).all fun i => sub (hits as (c + l.s * i)) (hits bs (c + l.s * i)) == some x

/-- The sweep of one dimension: `sub` gives the cross-sections; none where more than `lim` boxes come out. -/
def sweep (lim : Nat) (l : Lat) (sub : List Box → List Box → Option (List Box)) (as bs : List Box) (last : Nat) :
    Nat → Nat → List Slab → Nat → Option (List Slab)
  | 0, _, _, _ => none
  | fuel + 1, c, sl, n =>
    if last < c then some sl
    else match sub (hits as c) (hits bs c) with
      | none => none
      | some x =>
        let rs := (as ++ bs).map head1
        let next := (minSome (rs.map (changeAt l c))).getD (last + l.s)
        if x.isEmpty then sweep lim l sub as bs last fuel (max next (c + l.s)) sl n
        else
          let edge := (minSome (rs.map (edgeAt l c))).getD (last + l.s)
          let next := max (if next < edge && steady l c edge as bs sub x then edge else next) (c + l.s)
          let hi := min (next - l.s) (alignDown l.s l.p last)
          match sl with
          | t :: r =>
            if t.hi + l.s = c ∧ t.x = x then sweep lim l sub as bs last fuel next ({ t with hi := hi } :: r) n
            else if lim < n + x.length then none
            else sweep lim l sub as bs last fuel next ({ lo := c, hi := hi, x := x } :: sl) (n + x.length)
          | [] => if lim < x.length then none else sweep lim l sub as bs last fuel next [{ lo := c, hi := hi, x := x }] x.length

/-- canon(as ∖ bs) on a lattice, one dimension at a time; none where it has more than `lim` boxes. -/
def canonOn (lim : Nat) : List Lat → List Box → List Box → Option (List Box)
  | [], as, bs => some (if !as.isEmpty && bs.isEmpty then [[]] else [])
  | l :: ls, as, bs =>
    match as with
    | [] => some []
    | a0 :: t =>
      let first := t.foldl (fun m b => min m (head1 b).lo) (head1 a0).lo
      let last := as.foldl (fun m b => max m (head1 b).hi) 0
      match sweep lim l (canonOn lim ls) as bs last (2 ^ 34) (alignUp l.s l.p first) [] 0 with
      | none => none
      | some sl => some (sl.reverse.flatMap fun t => t.x.map fun b => { lo := t.lo, hi := t.hi, step := l.s } :: b)

/-- canon of a union of boxes. -/
def canonU (lim rank : Nat) (bs : List Box) : Option (List Box) := canonOn lim (latticeOf rank bs) bs []
/-- canon of a difference. -/
def canonD (lim rank : Nat) (as bs : List Box) : Option (List Box) := canonOn lim (diffLattice rank as bs) as bs
/-- No bound on the boxes. -/
def noLim : Nat := 2 ^ 64

/-! ## The policies (R225) -/

inductive Policy where
  | ex | sup | sub
  deriving DecidableEq, Repr

/-- The bounding box of two boxes on their lattice, and of a list. -/
def bbox2 (a b : Box) : Box := a.zipWith (fun r q => { lo := min r.lo q.lo, hi := max r.hi q.hi, step := r.step }) b
def bboxAll : List Box → Box
  | [] => []
  | a :: t => t.foldl bbox2 a

/-- The cells of a box that the disjoint boxes of a set on the same lattice do not hold. -/
def missing (bs : List Box) (b : Box) : Nat := boxCount b - bs.foldl (fun n c => n + (match meetBox b c with | some m => boxCount m | none => 0)) 0

/-- The place of the least element, the lowest on ties. -/
def argMin : List Nat → Nat
  | [] => 0
  | x :: t => (t.zipIdx.foldl (fun (best : Nat × Nat) p => if p.1 < best.1 then (p.1, p.2 + 1) else best) (x, 0)).2

/-- sup_merge of a set in canonical form (R225). -/
def supMerge (rank : Nat) : Nat → List Box → List Box
  | 0, bs => bs
  | fuel + 1, bs =>
    if bs.length ≤ 8 then bs
    else
      let pairs := bs.zip (bs.drop 1)
      let i := argMin (pairs.map fun p => missing bs (bbox2 p.1 p.2))
      match pairs[i]? with
      | none => bs
      | some p =>
        let s := (canonU noLim rank (bbox2 p.1 p.2 :: bs)).getD []
        if bs.length ≤ s.length then (canonU noLim rank [bboxAll bs]).getD [] else supMerge rank fuel s

/-- The box with the fewest cells, the highest on ties. -/
def fewest (bs : List Box) : Nat :=
  (bs.zipIdx.foldl (fun (best : Option (Nat × Nat)) p => match best with
    | none => some (boxCount p.1, p.2)
    | some q => if boxCount p.1 ≤ q.1 then some (boxCount p.1, p.2) else best) none).elim 0 (·.2)

/-- sub_drop of a set in canonical form (R225). -/
def subDrop (rank : Nat) : Nat → List Box → List Box
  | 0, bs => bs
  | fuel + 1, bs =>
    if bs.length ≤ 8 then bs else subDrop rank fuel ((canonU noLim rank (bs.eraseIdx (fewest bs))).getD [])

/-- What a region computation gives: a set with whether it was approximated, or a cause. -/
inductive RRes where
  | ok (bs : List Box) (approx : Bool)
  | bad (cause : Nat)
  deriving DecidableEq, Repr

def denseAll (bs : List Box) : List Box := bs.map fun b => b.map Rng.dense
/-- The lattice of some boxes of a rank has step 1 in every dimension (R218). -/
def isDense (bs : List Box) : Bool := (latticeOf (bs.headD []).length bs).all fun l => l.s == 1

/-- The two operands conflict (R225). -/
def conflict (rank : Nat) (as bs : List Box) : Bool := !as.isEmpty && !bs.isEmpty && latticeOf rank as != latticeOf rank bs

/-- The lattices of some boxes differ (R225, for RLD). -/
def boxConflict (rank : Nat) (bs : List Box) : Bool := bs.any fun b => latticeOf rank [b] != latticeOf rank (bs.take 1)

/-- A union under a policy EX or SUP. -/
def unionR (pol : Policy) (rank : Nat) (as bs : List Box) : RRes :=
  match canonU 8 rank (as ++ bs) with
  | some r => .ok r false
  | none =>
    let c := conflict rank as bs
    if pol = .ex then .bad (if c then 0x23 else 0x21)
    else
      let s := (canonU noLim rank (if c then denseAll (as ++ bs) else as ++ bs)).getD []
      .ok (supMerge rank s.length s) true

/-- An intersection under a policy EX or SUP. -/
def interR (pol : Policy) (rank : Nat) (as bs : List Box) : RRes :=
  match canonU 8 rank (meetAll as bs) with
  | some r => .ok r false
  | none =>
    let c := conflict rank as bs
    if pol = .ex then .bad (if c then 0x23 else 0x21)
    else
      let s := (canonU noLim rank (if c then meetAll (denseAll as) (denseAll bs) else meetAll as bs)).getD []
      .ok (supMerge rank s.length s) true

/-- A difference under a policy. -/
def subR (pol : Policy) (rank : Nat) (as bs : List Box) : RRes :=
  match canonD 8 rank as bs with
  | some r => .ok r false
  | none =>
    let c := conflict rank as bs
    match pol with
    | .ex => .bad (if c then 0x23 else 0x21)
    | .sup =>
      let s := (if c then canonD noLim rank (denseAll as) (if isDense bs then bs else []) else canonD noLim rank as bs).getD []
      .ok (supMerge rank s.length s) true
    | .sub =>
      let s := (canonD noLim rank as (if c then denseAll bs else bs)).getD []
      .ok (subDrop rank s.length s) true

/-- A list of boxes under a policy EX or SUP where no conflict is looked for (R233 RDIL, RPROJ; R240). -/
def plainR (sup : Bool) (rank : Nat) (bs : List Box) : RRes :=
  match canonU 8 rank bs with
  | some r => .ok r false
  | none =>
    if sup then
      let s := (canonU noLim rank bs).getD []
      .ok (supMerge rank s.length s) true
    else .bad 0x21

/-- A region of boxes in canonical form that is not ragged. -/
def mkRegion (rank : Nat) (bs : List Box) (inexact : Bool) : Region :=
  { Region.empty rank with boxes := bs, inexact := inexact }

/-- The number of cells of a region that is not ragged. -/
def Region.cellCount (g : Region) : Nat := g.boxes.foldl (fun n b => n + boxCount b) 0

/-- Two footprints share a cell (R117, R120); cells with a first coordinate above 0xFFF match nothing (R114). -/
def Region.meets (a b : Region) : Bool :=
  a.rank == b.rank && (meetAll a.boxes b.boxes).any fun x => match x with | r :: _ => decide (r.lo ≤ 0xFFF) | [] => true

/-- The coordinates of a range, ascending. -/
def Rng.list (r : Rng) : List Nat := (List.range r.count).map fun i => r.lo + i * max r.step 1
/-- The cells of a box, in ascending lexicographic order. -/
def boxCells : Box → List (List Nat)
  | [] => [[]]
  | r :: t => let rest := boxCells t; r.list.flatMap fun c => rest.map fun l => c :: l

end Sys2Proof.Machine
end

