-- ==== Sys2Proof/Machine/Image.lean ====
section
/-! DEFINITION. Region images (R222, R223), the rows of ragged regions (R220), and what a region instruction makes of the bytes that its relaxed loads
have returned (R231, R233–R237, R240). -/

namespace Sys2Proof.Machine

/-- The little-endian number in bytes [o, o + n) of a record. -/
def leAt (bs : List Byte) (o n : Nat) : Nat := leNat ((bs.drop o).take n)

/-- Zero bytes [o, o + n) of a record. -/
def zeroAt (bs : List Byte) (o n : Nat) : Bool := leAt bs o n == 0

/-! ## Region images (R222, R223) -/

/-- An address lies in own TCM or the own cluster's Pan (R220). -/
def ownVector (a : Nat) : Bool := a < 0x40000 || (0x1000000 ≤ a && a < 0x1400000)

/-- The boxes of an image. -/
def imageBoxes (bs : List Byte) : List Box :=
  (List.range (leAt bs 0 1)).map fun b => (List.range (leAt bs 1 1)).map fun d =>
    { lo := leAt bs (32 + 60 * b + 4 * d) 4, hi := leAt bs (52 + 60 * b + 4 * d) 4, step := leAt bs (72 + 60 * b + 4 * d) 4 }

/-- An image that RLD accepts (R223). -/
def imageOk (bs : List Byte) : Bool :=
  let nbox := leAt bs 0 1
  let rank := leAt bs 1 1
  let flags := leAt bs 2 1
  let ragged := bits flags 0 1 == 1
  let boxes := imageBoxes bs
  let row0 := leAt bs 4 4
  let lenvec := leAt bs 16 8
  nbox ≤ 8 && rank ≤ 5 && (nbox == 0 || 1 ≤ rank) && bits flags 2 6 == 0 && zeroAt bs 3 1 && zeroAt bs 12 4 && zeroAt bs 24 8
    && (List.range 8).all (fun b => (List.range 5).all fun d => (b < nbox && d < rank)
          || (zeroAt bs (32 + 60 * b + 4 * d) 4 && zeroAt bs (52 + 60 * b + 4 * d) 4 && zeroAt bs (72 + 60 * b + 4 * d) 4))
    && boxes.all (fun b => b.all fun r => r.lo ≤ r.hi && 1 ≤ r.step && (r.hi - r.lo) % r.step == 0)
    && (if ragged then
          nbox == 1 && rank == 2 && boxes.all (fun b => b.all fun r => r.step == 1)
            && row0 ≤ (boxes.headD []).foldr (fun r _ => r.lo) 0 && ((boxes.headD []).headD { lo := 0, hi := 0, step := 1 }).hi - row0 < 65536
            && lenvec % 4 == 0 && ownVector lenvec
        else row0 == 0 && leAt bs 8 4 == 0 && lenvec == 0)

/-- The region of an image, or the cause RLD raises (R223, R237). -/
def regionOfImage (bs : List Byte) : Except Nat Region :=
  if !imageOk bs then .error 0x30
  else
    let rank := leAt bs 1 1
    let inexact := bits (leAt bs 2 1) 1 1 == 1
    let boxes := imageBoxes bs
    if bits (leAt bs 2 1) 0 1 = 1 then
      .ok { rank := 2, boxes := boxes, ragged := true, inexact := inexact, row0 := leAt bs 4 4, rbase := leAt bs 8 4, lenvec := leAt bs 16 8 }
    else match canonU 8 rank boxes with
      | some r => .ok (mkRegion rank r inexact)
      | none => .error (if boxConflict rank boxes then 0x23 else 0x21)

/-- The image of a region (R222), as RST writes it: 512 bytes. -/
def Region.image (g : Region) : List Byte :=
  let cell := fun (b d : Nat) (f : Rng → Nat) => match g.boxes[b]? with
    | some x => match x[d]? with
      | some r => leBytes (f r) 4
      | none => leBytes 0 4
    | none => leBytes 0 4
  leBytes g.boxes.length 1 ++ leBytes g.rank 1 ++ leBytes ((if g.ragged then 1 else 0) + (if g.inexact then 2 else 0)) 1 ++ leBytes 0 1
    ++ leBytes g.row0 4 ++ leBytes g.rbase 4 ++ leBytes 0 4 ++ leBytes g.lenvec 8 ++ leBytes 0 8
    ++ (List.range 8).flatMap fun b =>
        (List.range 5).flatMap (fun d => cell b d (·.lo)) ++ (List.range 5).flatMap (fun d => cell b d (·.hi))
          ++ (List.range 5).flatMap (fun d => cell b d (·.step))

/-! ## Ragged regions (R220) -/

/-- The clip window of a ragged region. -/
def Region.window (g : Region) : Rng × Rng :=
  let z : Rng := { lo := 0, hi := 0, step := 1 }
  let b := g.boxes.headD []
  (b.getD 0 z, b.getD 1 z)

/-- Rows that hold the same cells and follow each other, as one box. -/
def mergeRows : List (Nat × Nat × Nat) → List Box
  | [] => []
  | (c, l, h) :: t =>
    let r1 : Rng := { lo := l, hi := h, step := 1 }
    match mergeRows t with
    | (r :: x) :: rest => if r.lo = c + 1 ∧ x = [r1] then ({ r with lo := c } :: x) :: rest else [{ lo := c, hi := c, step := 1 }, r1] :: (r :: x) :: rest
    | l => [{ lo := c, hi := c, step := 1 }, r1] :: l

/-- Where the entries of the rows of a ragged region's window stand: the first one's address, and their bytes (R220). -/
def Region.rowsAt (g : Region) : Nat × Nat :=
  let r0 := g.window.1
  (g.lenvec + 4 * (r0.lo - g.row0), 4 * (r0.hi + 1 - r0.lo))

/-- The rows of a ragged region as boxes, from the bytes of their entries (R220). -/
def Region.rowBoxes (g : Region) (bs : List Byte) : List Box :=
  let (r0, r1) := g.window
  mergeRows ((List.range (r0.hi + 1 - r0.lo)).filterMap fun i =>
    let len := leAt bs (4 * i) 4
    let lo := max g.rbase r1.lo
    let hi := min (g.rbase + len - 1) r1.hi
    if len = 0 ∨ hi < lo then none else some (r0.lo + i, lo, hi))

/-- A ragged region with its clip window met with a box; empty where nothing of the window is left (R220, R232). -/
def Region.clipTo (g : Region) (b : Box) : Region :=
  match g.boxes with
  | [x] => match meetBox x b with
    | some y => { g with boxes := [y] }
    | none => { Region.empty g.rank with inexact := g.inexact }
  | _ => g

/-- as ⊆ bs, for two sets of boxes of a rank, each on one lattice. -/
def subsetOf (rank : Nat) (as bs : List Box) : Bool := !(diffAny rank as bs)

/-! ## Results of relaxed loads (R231) -/

/-- The maximal runs of set bits, from bit i on. -/
def runsOf : List Bool → Nat → Option Nat → List (Nat × Nat)
  | [], i, some a => [(a, i - 1)]
  | [], _, none => []
  | true :: t, i, some a => runsOf t (i + 1) (some a)
  | true :: t, i, none => runsOf t (i + 1) (some i)
  | false :: t, i, some a => (a, i - 1) :: runsOf t (i + 1) none
  | false :: t, i, none => runsOf t (i + 1) none

/-- The dimensions that a mask keeps. -/
def kept (mask : Nat) : List Nat := (List.range 5).filter fun d => bits mask d 1 == 1

/-- The rank of a result of two operands, where they are rank-compatible (R219). -/
def rank2 (a b : Region) : Option Nat :=
  if a.boxes.isEmpty then (if b.boxes.isEmpty then some (max a.rank b.rank) else some b.rank)
  else if b.boxes.isEmpty ∨ a.rank = b.rank then some a.rank
  else none

/-- What an instruction makes of the bytes that it has read: a region for g[rd], approximated or not; a number for x[rd]; a cause, with the value of its
address slot. -/
inductive FillRes where
  | g (rd : Nat) (v : Region) (approx : Bool)
  | x (rd : Nat) (v : Nat)
  | bad (cause va : Nat)
  deriving DecidableEq, Repr

/-- A computed set of cells as the result of an instruction (R221). -/
def RRes.fills (r : RRes) (rd rank : Nat) (inexact : Bool) : FillRes :=
  match r with
  | .bad c => .bad c 0
  | .ok bs ap => .g rd (mkRegion rank bs (inexact || ap)) ap

/-- The projection of boxes on the dimensions that a control operand keeps (R233). -/
def projBoxes (v : Nat) (bs : List Box) : List Box := bs.map fun b => (kept (bits v 0 5)).map fun d => b.getD d { lo := 0, hi := 0, step := 1 }

/-- RPROJ of cells in boxes (R233). -/
def projFill (rd v : Nat) (inexact : Bool) (bs : List Box) : FillRes :=
  let n := (kept (bits v 0 5)).length
  (plainR (bits v 63 1 == 1) n (projBoxes v bs)).fills rd n inexact

/-- The number of cells of disjoint boxes, saturating (R234). -/
def countFill (bs : List Box) : Nat := min (bs.foldl (fun n b => n + boxCount b) 0) (2 ^ 64 - 1)

/-- The bits of RTEST for two sets of cells (R235). -/
def testFill (rank : Nat) (as bs : List Box) : Nat :=
  let ab := subsetOf rank as bs
  let ba := subsetOf rank bs as
  let bit := fun (c : Bool) (n : Nat) => if c then 2 ^ n else 0
  bit (!(meetAll as bs).isEmpty) 0 + bit ab 1 + bit ba 2 + bit (ab && ba) 3 + bit as.isEmpty 4 + bit bs.isEmpty 5

/-- The boxes of a bitmap along dimension 0 of a base box (R240). -/
def maskBoxes (b : Box) (bs : List Byte) : List Box :=
  let r := head1 b
  let set := (List.range (r.hi + 1 - r.lo)).map fun i => ((bs.getD (i / 8) 0).getLsbD (i % 8))
  (runsOf set 0 none).map fun p => ({ lo := r.lo + p.1, hi := r.lo + p.2, step := 1 } : Rng) :: b.tail

/-- The cells of a region as boxes, where the entries of a ragged one have been read: `read` gives bytes by address and length. -/
def Region.boxesFrom (g : Region) (read : Nat → Nat → List Byte) : List Box :=
  if g.ragged then g.rowBoxes (read g.rowsAt.1 g.rowsAt.2) else g.boxes

/-- The result of a region instruction whose loads have returned, from address va on (R231). -/
def Fill.result (f : Fill) (va n : Nat) (read : Nat → Nat → List Byte) : FillRes :=
  match f with
  | .image rd => match regionOfImage (read va n) with
    | .ok g => .g rd g false
    | .error c => .bad c va
  | .mask rd sup g => (plainR sup g.rank (maskBoxes (g.boxes.headD []) (read va n))).fills rd g.rank g.inexact
  | .count rd g => .x rd (countFill (g.boxesFrom read))
  | .test rd a b => .x rd (testFill ((rank2 a b).getD 0) (a.boxesFrom read) (b.boxesFrom read))
  | .proj rd v g => projFill rd v g.inexact (g.boxesFrom read)

/-- The g register that a fill writes, and the x register. -/
def Fill.rg (f : Fill) : Option Nat := match f with | .image rd => some rd | .mask rd .. => some rd | .proj rd .. => some rd | _ => none
def Fill.rx (f : Fill) : Option Nat := match f with | .count rd _ => some rd | .test rd .. => some rd | _ => none

end Sys2Proof.Machine
end

