-- ==== Sys2Proof/Machine/Translate.lean ====
section
/-! DEFINITION. Address windows (R128, R129), the two-stage translation (R130–R138) and the location of an access. -/

namespace Sys2Proof.Machine

/-- Where an address of a core falls (R128). -/
inductive Loc where
  | local_ (home : Nat)
  | global
  | nowhere
  deriving DecidableEq, Repr

/-- The Pan that a context on a core reaches: its cluster's (R14); while it is switched out, what is saved of it (R328). -/
def State.panAt (s : State) (core ctx : Nat) : Nat :=
  if s.away core ctx then panSaved (s.tenant core ctx).partid (core / 16) ctx else panHome (core / 16)

/-- The windows of R128 (R104 for remote TCM). -/
def State.window (s : State) (w : Who) (va : Nat) : Loc :=
  if va < 0x40000 then .local_ (tcmHome w.core w.ctx + va)
  else if 0x1000000 ≤ va ∧ va < 0x1400000 then .local_ (s.panAt w.core w.ctx + (va - 0x1000000))
  else if 0x8000000 ≤ va ∧ va < 0xE000000 then .local_ (pondHome (dieOf w.core) + (va - 0x8000000))
  else if 0x100000000 ≤ va ∧ va < 0x140000000 then
    let t := s.tenant w.core w.ctx
    let n := (va - 0x100000000) / 0x40000
    match if n < t.bandsz then t.ctab[n]? else none with
    | some h => .local_ (tcmHome h w.ctx + va % 0x40000)
    | none => .nowhere
  else if 0x10000000000 ≤ va ∧ va < 0x1000000000000 then .global
  else .nowhere

/-- A number for the window of an address, one for each logical core's remote TCM (R63); 0 for no window. -/
def State.windowId (s : State) (w : Who) (va : Nat) : Nat :=
  match s.window w va with
  | .nowhere => 0
  | .global => 1
  | .local_ _ => if va < 0x40000 then 2 else if va < 0x1400000 then 3 else if va < 0xE000000 then 4
    else 5 + (va - 0x100000000) / 0x40000

/-! ## Page tables -/

/-- What a walker makes of an entry (R131, R132). -/
inductive PteClass where
  | absent
  | pointer
  | leaf
  deriving DecidableEq, Repr

/-- The size in bits of what a leaf maps (R131, R134). -/
def leafBits (lvl pte : Nat) : Nat := if lvl = 0 then (if bits pte 8 1 = 1 then 16 else 12) else if lvl = 1 then 21 else 30

def tierOk (t : Nat) : Bool := t ≤ 2 || (16 ≤ t && t ≤ 31)

/-- The class of an entry at a level, in stage 1 or 2 (R131, R132). A reserved TIER in stage 2 makes it not present, as R132 says, where R138
names kind 7 (DEDUCED, log 46). -/
def pteClass (stage2 : Bool) (lvl pte : Nat) : PteClass :=
  if bits pte 0 1 = 0 then .absent
  else if (bits pte 2 1 = 1 && bits pte 1 1 == 0) || bits pte 52 2 != 0 || bits pte 4 2 != 0
      || (bits pte 8 1 == 1 && lvl != 0) || (stage2 && !tierOk (bits pte 54 5)) then .absent
  else if bits pte 1 3 = 0 then (if lvl = 0 then .absent else .pointer)
  else if lvl = 3 ∨ bits pte 12 40 * 4096 % 2 ^ leafBits lvl pte ≠ 0 then .absent
  else .leaf

/-- The frame address of an entry. -/
def pteFrame (pte : Nat) : Nat := bits pte 12 40 * 4096
/-- The index of an address at a level (R131). -/
def pteIndex (a lvl : Nat) : Nat := bits a (12 + 9 * lvl) 9

/-- The entry station of a request from a core of a die (R130). -/
def entryStation (die va : Nat) : Nat := die * 48 + (bits va 12 9 ^^^ bits va 21 9) % 48

/-- The entry of a station's translation cache for an address, in a stage (R136). -/
def State.cachedAt (s : State) (st p ctx stage a : Nat) : Option TEntry :=
  s.tcache.find? fun e => e.station == st && e.part == p && e.ctx == ctx && e.stage == stage && e.page == a / 2 ^ leafBits e.leaf.lvl e.leaf.pte

/-- The stage-2 walk (R130): none where an entry is not present, and the homes of the entries that it read. Its table pointers are HBM
addresses (DEDUCED, log 8). -/
def State.walk2 (s : State) (p ipa tbl : Nat) : Nat → Option PLeaf × List Nat
  | 0 =>
    let h := tbl + 8 * pteIndex ipa 0
    match pteClass true 0 (s.pte p h) with
    | .leaf => (some { pte := s.pte p h, home := h, lvl := 0 }, [h])
    | _ => (none, [h])
  | l + 1 =>
    let h := tbl + 8 * pteIndex ipa (l + 1)
    match pteClass true (l + 1) (s.pte p h) with
    | .leaf => (some { pte := s.pte p h, home := h, lvl := l + 1 }, [h])
    | .pointer => let r := s.walk2 p ipa (hbmHome (pteFrame (s.pte p h))) l; (r.1, h :: r.2)
    | .absent => (none, [h])

/-- The stage-2 leaf of an intermediate address, from the tables. One with bits [51:48] nonzero has no index bits for them: no entry is
present for it (DEDUCED, log 46). -/
def State.tables2 (s : State) (p ipa : Nat) : Option PLeaf × List Nat :=
  if ipa < 2 ^ 48 then s.walk2 p ipa (hbmHome (s.part p).s2root) 3 else (none, [])

/-- What a walk leaves behind it: the leaf entries that it used, whose A bits are to be set (R133), the entries that it adds to the cache, the
homes of the entries that it read, the intermediate pages of the tables it passed through (R338), and the intermediate address that
stage 2 translated last (R318). -/
structure Trail where
  used : List Nat := []
  fills : List TEntry := []
  reads : List Nat := []
  via : List Nat := []
  last : Nat := 0

/-- The trail of a walk that goes on. -/
def Trail.then (a b : Trail) : Trail :=
  { used := a.used ++ b.used, fills := a.fills ++ b.fills, reads := a.reads ++ b.reads, via := a.via ++ b.via, last := b.last }

/-- Stage 2 as a station gets it: from its cache, or by a walk. -/
def State.stage2 (s : State) (st p ctx ipa : Nat) : Option PLeaf × Trail :=
  match s.cachedAt st p ctx 2 ipa with
  | some e => (some e.leaf, { last := ipa })
  | none => match s.tables2 p ipa with
    | (none, rs) => (none, { reads := rs, last := ipa })
    | (some l, rs) =>
      (some l, { reads := rs, last := ipa,
                 fills := [{ station := st, part := p, ctx := ctx, stage := 2, page := ipa / 2 ^ leafBits l.lvl l.pte, leaf := l, via := [] }] })

/-- The home address that a stage-2 leaf gives an intermediate address. -/
def PLeaf.homeOf (l : PLeaf) (ipa : Nat) : Nat :=
  let pa := pteFrame l.pte + ipa % 2 ^ leafBits l.lvl l.pte
  match bits l.pte 54 5 with
  | 0 => hbmHome pa
  | 1 => tier2Home + pa
  | 2 => hostHome + pa
  | n => peerHome (n - 16) + pa

/-- A link is failed: 0 host, 2 + n Tideway port n, 18 + n tier-2 port n (R323). -/
def State.linkFailed (s : State) (l : Nat) : Bool := s.failedLinks.contains l

/-- The populated ports of tier 2 (R360). -/
def State.t2ports (s : State) : List Nat := (List.range 4).filter fun n => !s.t2empty.contains n

/-- The port of a tier-2 address (R360): with all four populated, 4 KiB blocks interleave over them; else each holds one contiguous range of
2 TiB, in port order. None beyond what they hold. -/
def State.t2port (s : State) (a : Nat) : Option Nat :=
  if s.t2ports.length = 4 then (if a < 2 ^ 43 then some (a / 4096 % 4) else none) else s.t2ports[a / 2 ^ 41]?

/-- The checks of a home that a stage-2 leaf names (step 4 of R138, R135, R350, R358): the kind of the failure. -/
def State.frameKind (s : State) (p home : Nat) : Option Nat :=
  let q := s.part p
  match space home with
  | .hbm =>
    if 2 ^ 41 ≤ home - 2 ^ 44 then some 7
    else if 384 ≤ stationOf home then some 7
    else if Config.stationBytes ≤ home % 2 ^ 32 then some 7
    else if q.slice.contains (stationOf home) then none else some 6
  | .tier2 => if bits q.feat 13 1 = 1 then some 7 else match s.t2port (home - tier2Home) with
    | some n => if s.linkFailed (18 + n) then some 7 else none
    | none => some 7
  | .host => if s.linkFailed 0 then some 7 else none
  | .peer =>
    let n := (home - 2 ^ 55) / 2 ^ 52
    if bits q.feat 12 1 = 1 || s.linkFailed (2 + n) || bits (Tbl.get 0 s.twpair (n * 64 + p)) 7 1 = 0 then some 7 else none
  | _ => none

/-- Reads the stage-1 entry at an intermediate address, through stage 2 (R130, R138 item 1). A table whose frame fails the checks of its
frame fails the walk with their kind (DEDUCED, log 46). -/
def State.pte1 (s : State) (st p ctx ipa : Nat) : Except Nat Nat × Trail :=
  match s.stage2 st p ctx ipa with
  | (none, t) => (.error 2, t)
  | (some l, t) =>
    if bits l.pte 1 1 = 0 then (.error 3, t)
    else match s.frameKind p (l.homeOf ipa) with
      | some k => (.error k, { t with used := [l.home] })
      | none => (.ok (l.homeOf ipa), { t with used := [l.home], reads := t.reads ++ [l.homeOf ipa], via := [ipa / 4096] })

/-- The stage-1 walk from a table at an intermediate address: the leaf's entry, its home and level. -/
def State.walk1 (s : State) (st p ctx va tbl : Nat) : Nat → Except Nat PLeaf × Trail
  | 0 =>
    match s.pte1 st p ctx (tbl + 8 * pteIndex va 0) with
    | (.error k, t) => (.error k, t)
    | (.ok h, t) => match pteClass false 0 (s.pte p h) with
      | .leaf => (.ok { pte := s.pte p h, home := h, lvl := 0 }, t)
      | _ => (.error 0, t)
  | l + 1 =>
    match s.pte1 st p ctx (tbl + 8 * pteIndex va (l + 1)) with
    | (.error k, t) => (.error k, t)
    | (.ok h, t) => match pteClass false (l + 1) (s.pte p h) with
      | .leaf => (.ok { pte := s.pte p h, home := h, lvl := l + 1 }, t)
      | .pointer => let r := s.walk1 st p ctx va (pteFrame (s.pte p h)) l; (r.1, t.then r.2)
      | .absent => (.error 0, t)

/-- Stage 1 as a station gets it: from its cache, or by a walk under the root of the context; a root of 0 names no table (R331). -/
def State.stage1 (s : State) (st p ctx va : Nat) : Except Nat PLeaf × Trail :=
  match s.cachedAt st p ctx 1 va with
  | some e => (.ok e.leaf, { via := e.via })
  | none =>
    let root := Tbl.get 0 (s.part p).s1root ctx
    if root = 0 then (.error 0, {})
    else match s.walk1 st p ctx va root 3 with
      | (.error k, t) => (.error k, t)
      | (.ok l, t) =>
        (.ok l, { t with fills := t.fills ++
          [{ station := st, part := p, ctx := ctx, stage := 1, page := va / 2 ^ leafBits l.lvl l.pte, leaf := l, via := t.via }] })

/-- Whether permission bits (R, W, X at 0, 1, 2) grant what an access needs (R133). -/
def grants (perm need : Nat) : Bool := perm &&& need == need

/-- The result of a translation at a station: the page, or the kind of the first failure (R138), with its trail, and the home of the byte in its frame,
once stage 2 has found that (R313). -/
structure Walked where
  res : Except Nat Leaf
  trail : Trail
  frame : Option Nat := none

/-- The translation that an access which needs the permissions `need` gets at a station (R133, R138). -/
def State.walk (s : State) (st p ctx va need : Nat) : Walked :=
  match s.stage1 st p ctx va with
  | (.error k, t) => { res := .error k, trail := t }
  | (.ok l1, t) =>
    if !grants (bits l1.pte 1 3) need then { res := .error 1, trail := t }
    else
      let ipa := pteFrame l1.pte + va % 2 ^ leafBits l1.lvl l1.pte
      let r2 := s.stage2 st p ctx ipa
      let t := t.then { r2.2 with used := [l1.home] }
      match r2.1 with
      | none => { res := .error 2, trail := t }
      | some l2 =>
        let home := l2.homeOf ipa
        if !grants (bits l2.pte 1 3) need then { res := .error 3, trail := t, frame := some home }
        else
          let b := min (leafBits l1.lvl l1.pte) (leafBits l2.lvl l2.pte)
          let t := { t with used := t.used ++ [l2.home] }
          match s.frameKind p home with
          | some k => { res := .error k, trail := t, frame := some home }
          | none => { res := .ok { home := home - va % 2 ^ b, bits := b, v := bits l1.pte 63 1 == 1 && space home == .hbm,
                                   key := bits l1.pte 59 4, s1 := bits l1.pte 1 3, s2 := bits l2.pte 1 3, ipa := ipa - va % 2 ^ b,
                                   leaves := [l1.home, l2.home], via := t.via },
                      trail := t, frame := some home }

/-- The address of a fault record (R318): virtual, or, for stage-2 kinds, the intermediate address at which stage 2 fails the walk. -/
def State.recordAddr (s : State) (die p ctx cause va : Nat) : Nat :=
  if 0x40 ≤ cause ∧ cause < 0x60 ∧ (cause % 8 = 2 ∨ cause % 8 = 3) then (s.walk (entryStation die va) p ctx va 0).trail.last else va

/-- A walk afresh: what the caches hold of a page, and of intermediate addresses for its context, is not used, nor what peer modules have answered of
tables of the partition (R317 step 4). -/
def State.forget (s : State) (p ctx va : Nat) : State :=
  { s with ptes := s.ptes.filter (fun g => g.part != p), tcache := s.tcache.filter fun e =>
      !(e.part == p && e.ctx == ctx && (e.stage == 2 || e.page == va / 2 ^ leafBits e.leaf.lvl e.leaf.pte)) }

/-- The walks of an access have used the entries that they read: what peer modules have answered of them goes with the end of the step. -/
def State.spend (s : State) (p : Nat) (reads : List Nat) : State :=
  { s with ptes := s.ptes.map fun g => if g.part = p ∧ reads.contains g.home then { g with used := true } else g }

/-- The end of a step: the answers that an access has used are gone. -/
def State.sweep (s : State) : State := { s with ptes := s.ptes.filter fun g => !g.used }

/-- A walk of partition p needs an entry at a peer module (R130): the state with its request out, and whether it was out already. -/
def State.askTable (s : State) (p home : Nat) : State × Bool :=
  if s.peerReqs.any fun r => r.by_ == .table home && r.who.core == 4096 && r.who.rc == p then (s, true)
  else (s.deviceAsks p 0 home home 8 .load 0 (.table home), false)

/-- A station keeps an entry; its cache holds 4,096, and a full one loses its oldest (R136; which one is left open, log 7). -/
def State.cache (s : State) (e : TEntry) : State :=
  let mine := fun (x : TEntry) => x.station == e.station
  let l := if 4096 ≤ (s.tcache.filter mine).length then s.tcache.eraseIdx ((s.tcache.findIdx? mine).getD 0) else s.tcache
  { s with tcache := l ++ [e] }

/-- The key generation of a partition's domain: 0 where the slot is empty (R344). -/
def State.keyOf (s : State) (p dom : Nat) : Nat := Tbl.get 0 (s.part p).keys dom

/-- The access codes of R138. -/
def aLoad : Nat := 0
def aStore : Nat := 1
def aAtomic : Nat := 2
def aFetch : Nat := 3

/-- The permissions an access code needs (R133). -/
def needOf (acc : Nat) : Nat := if acc = 0 then 1 else if acc = 1 then 2 else 3

/-- A memory cause whose kind suspends (R138). -/
def suspends (cause : Nat) : Bool := 0x40 ≤ cause && cause < 0x60 && cause % 8 < 4

/-- The place of a translated address, or kind 4 where its domain has no key (R137, step 5 of R138). -/
def State.spotOf (s : State) (p va : Nat) (l : Leaf) : Except Nat Spot :=
  let home := l.home + va % 2 ^ l.bits
  match space home with
  | .hbm => if s.keyOf p l.key = 0 then .error 4 else .ok { home := home, gen := s.keyOf p l.key, v := l.v }
  | .tier2 => if s.keyOf p l.key = 0 then .error 4 else .ok { home := home, gen := s.keyOf p l.key, v := false }
  | _ => .ok { home := home, gen := 0, v := false }

/-- What locating gives: a place, the kind of a failure, a wait for a line of a table that the host holds (R356), or a request to a peer module for an
entry of a table there (R358): `asked` where it has just left, `wait` while it is out. -/
inductive Place where
  | ok (sp : Spot)
  | error (k : Nat)
  | wait
  | asked
  deriving DecidableEq, Repr

/-- A located access: the state after it (cache, counts, A bits, and D bits of a write), `clean` the state where the access then fails a
later check, and so sets no D bit (R133), the place, the space of the frame once the checks of the frame have passed, and the leaves that translated
it. -/
structure Located where
  s : State
  clean : State
  res : Place
  tier : Option Space
  leaves : List Nat := []

/-- An access that ends where it is located. -/
def Located.stop (s : State) (r : Place) (tier : Option Space) : Located := { s := s, clean := s, res := r, tier := tier }

/-- What keeps a walk that has read some entries from being done: a line of them that the host holds, an entry that a peer module is still to send, or a
fault that it reports of one. -/
def State.walkStop (s : State) (p : Nat) (reads : List Nat) : Option Located :=
  if reads.any s.heldLine then some (.stop s .wait none)
  else match reads.find? (s.pteMissing p) with
    | some h => let q := s.askTable p h; some (.stop q.1 (if q.2 then .wait else .asked) none)
    | none => (reads.findSome? (s.pteBad p)).map fun k => .stop (s.spend p reads) (.error k) none

/-- Locates an access of context (p, ctx) at a global address, at a station, with the permissions it needs. A miss and its walk are
counted where the access is not to be replayed (R348). -/
def State.locateG (s : State) (st p ctx va need : Nat) (write : Bool) : Located :=
  let r := s.walk st p ctx va need
  let t := r.trail
  let counted := if t.reads.isEmpty then s else ((s.su p ctx 3 1).su p ctx 4 1).spend p t.reads
  match s.walkStop p t.reads with
  | some l => l
  | none =>
    if s.markWaits p 0x40 t.used then .stop s .wait none
    else match r.res with
      | .error k => .stop ((if k < 4 then s.spend p t.reads else counted).mark p 0x40 t.used) (.error k) none
      | .ok l =>
        let tier := some (space (l.home + va % 2 ^ l.bits))
        let s1 := (t.fills.foldl State.cache counted).mark p 0x40 t.used
        match s.spotOf p va l with
        | .error k => .stop s1 (.error k) tier
        | .ok sp =>
          if write then
            if s.markWaits p 0x80 l.leaves then .stop s .wait none else { s := s1.mark p 0x80 l.leaves, clean := s1, res := .ok sp, tier := tier, leaves := l.leaves }
          else { Located.stop s1 (.ok sp) tier with leaves := l.leaves }

/-- Counts the miss and the walk of an access from state s0 that fails and is never made again (R348). -/
def State.countMiss (s s0 : State) (st p ctx va need : Nat) : State :=
  if (s0.walk st p ctx va need).trail.reads.isEmpty then s else (s.su p ctx 3 1).su p ctx 4 1

/-- Locates an access of a core to global space, at its entry station (R130), or at another for a Rake (R295). -/
def State.locateAt (s : State) (st : Nat) (w : Who) (va need : Nat) (write : Bool) : Located :=
  match s.window w va with
  | .local_ h => .stop s (.ok { home := h, gen := 0, v := false }) (some (space h))
  | .nowhere => .stop s (.error 6) none
  | .global => s.locateG st (s.tenant w.core w.ctx).partid w.ctx va need write

/-- Locates a core's access (R128, R138): an address of no window gives kind 6. -/
def State.locate (s : State) (w : Who) (va need : Nat) (write : Bool) : Located :=
  s.locateAt (entryStation (dieOf w.core) va) w va need write

/-- The translation of an address of global space as it stands now, without any effect. -/
def State.leafOf (s : State) (w : Who) (va : Nat) : Option Leaf :=
  match (s.walk (entryStation (dieOf w.core) va) (s.tenant w.core w.ctx).partid w.ctx va 0).res with
  | .ok l => some l
  | .error _ => none

/-- The home of an address as it stands now, where it has one, without any effect. -/
def State.peek (s : State) (w : Who) (va : Nat) : Option Nat :=
  match s.window w va with
  | .local_ h => some h
  | .nowhere => none
  | .global => (s.leafOf w va).map fun l => l.home + va % 2 ^ l.bits

/-- A stage-2 access of the device or the host to an intermediate address (R330, R384), under the key of domain 0. -/
def State.locate2 (s : State) (p ipa need : Nat) (write : Bool) : Located :=
  let r := s.tables2 p ipa
  match s.walkStop p r.2 with
  | some l => l
  | none => match r.1 with
  | none => .stop (s.spend p r.2) (.error 2) none
  | some l =>
    if !grants (bits l.pte 1 3) need then .stop (s.spend p r.2) (.error 3) none
    else
      let home := l.homeOf ipa
      let s1 := (s.spend p r.2).orPte p 0x40 l.home
      match s.frameKind p home with
      | some k => .stop s1 (.error k) none
      | none =>
        match s.spotOf p ipa { home := home - ipa % 4096, bits := 12, v := false, key := 0, s1 := 7, s2 := 7, ipa := 0, leaves := [], via := [] } with
        | .error k => .stop s1 (.error k) (some (space home))
        | .ok sp => { s := if write then s1.orPte p 0x80 l.home else s1, clean := s1, res := .ok sp, tier := some (space home), leaves := [l.home] }

/-- Reads n bytes at an intermediate address, 8 at a time at most (R384); none where a walk fails or a place is poisoned. -/
def State.read2 (s : State) (p ipa : Nat) : Nat → Option (List Byte)
  | 0 => some []
  | n + 1 => match (s.locate2 p ipa 1 false).res with
    | .ok sp => match s.read2 p (ipa + 1) n with
      | none => none
      | some t => if s.poisoned sp.home 1 then none else some (((s.readAt sp 1).2.headD 0) :: t)
    | _ => none

/-- The host holds a line of a range, or of the tables that it is reached through. -/
def State.waits2 (s : State) (p a : Nat) : Bool :=
  match (s.locate2 p a 0 false).res with
  | .ok sp => s.heldLine sp.home
  | .error _ => false
  | .wait => true
  | .asked => true

/-- The host holds a line of a range at an intermediate address, or an entry that leads to it is still to come from a peer module: the device waits with
its access (R156, R356, R358). -/
def State.held2 (s : State) (p ipa n : Nat) : Bool := (granules ipa n).any fun g => s.waits2 p (g * 16)

/-- The state with a request out for an entry of a table that an access to such a range needs. -/
def State.ask2 (s : State) (p ipa n : Nat) : State :=
  (granules ipa n).foldl (fun (s : State) g => let l := s.locate2 p (g * 16) 0 false; if l.res = .asked then l.s else s) s

/-- An event that waits: the state where it has sent a request, none where nothing is new. -/
def State.waiting (s t : State) : Option State := if t.peerReqs.length = s.peerReqs.length then none else some t

/-- The same of a range of global space in a tenant context, reached at the stations of die 0 (log 47). -/
def State.heldV (s : State) (p ctx va n : Nat) : Bool :=
  (granules va n).any fun g => match (s.locateG (entryStation 0 (g * 16)) p ctx (g * 16) 0 false).res with
    | .ok sp => s.heldLine sp.home
    | .error _ => false
    | .wait => true
    | .asked => true

/-- The state with a request out for an entry that such an access needs. -/
def State.askV (s : State) (p ctx va n : Nat) : State :=
  (granules va n).foldl (fun (s : State) g =>
    let l := s.locateG (entryStation 0 (g * 16)) p ctx (g * 16) 0 false; if l.res = .asked then l.s else s) s

/-- Writes bytes of one granule at an intermediate address (R384). -/
def State.write2 (s : State) (p ipa : Nat) (bs : List Byte) : State × Bool :=
  let l := s.locate2 p ipa 2 true
  match l.res with
  | .ok sp =>
    if space sp.home = .peer then (l.clean.deviceAsks p 0 sp.home ipa bs.length .store (BitVec.ofNat 128 (leNat bs)) .other 0 l.leaves, true)
    else if l.s.poisonedPart sp.home bs.length then (l.clean, false) else (l.s.writeAt sp bs 256, true)
  | _ => (l.clean, false)

end Sys2Proof.Machine
end

