-- ==== Sys2Proof/Machine/Access.lean ====
section
/-! DEFINITION. What a home does for an operation of a core (R142–R150, R156–R158, R261–R265), the order in which the
outstanding operations of a register context may be performed, suspension on a translation fault and what a station keeps
(R317–R320), and the reads that an instruction makes at issue. -/

namespace Sys2Proof.Machine

/-! ## Footprints and speculation (R114, R123) -/

/-- The footprint cell of a granule of global space (R114). -/
def footCell (va : Nat) : List Nat := [va / 2 ^ 36, va % 2 ^ 36 / 16]

/-- The task that a register context runs, if its domain is ordered (R114). -/
def State.orderedTask (s : State) (w : Who) : Option Task :=
  let r := s.rcx w
  match r.task with
  | none => none
  | some id => if r.tdomain = 0 then none else s.findTask (s.tenant w.core w.ctx).partid id

/-- Every granule of an access to global space lies in the footprints that R114 asks for. -/
def State.footOk (s : State) (w : Who) (va n : Nat) (write : Bool) : Bool :=
  match s.orderedTask w with
  | none => true
  | some t => (granules va n).all fun g =>
      if s.window w (g * 16) = .global then t.write.has (footCell (g * 16)) || (!write && t.read.has (footCell (g * 16))) else true

/-- A store that R123 forbids in a speculative task. -/
def State.specStoreBad (s : State) (w : Who) (va n : Nat) : Bool :=
  let r := s.rcx w
  r.spec && (List.range n).any fun i =>
    match s.window w (va + i) with
    | .global => false
    | .nowhere => false
    | .local_ _ => !(va + i < 0x40000 && decide (r.stackBase.toNat ≤ va + i + 0x4000) && decide (va + i < r.stackBase.toNat))

/-! ## Completion objects (R261, R262) -/

/-- The events of R262. -/
inductive CEv where
  | arrive
  | expectArr (d : Int) (exp : Bool)
  | expectTx (d : Int)
  | accepted
  | completed (fault : Option Nat)
  deriving DecidableEq, Repr

/-- The event of an expect dword (R264). -/
def expectEv (d : Nat) : CEv :=
  let v := sextI (bits d 0 24) 24
  if bits d 63 1 = 1 then .expectTx v else .expectArr v (bits d 62 1 == 1)

/-- The fields of a completion object (R261). -/
structure CObj where
  fcode : Nat
  fcount : Nat
  fault : Bool
  mode : Nat
  pt : Nat
  exp : Nat
  pa : Nat
  phase : Nat
  deriving DecidableEq, Repr

def CObj.ofGran (g : Gran) : CObj :=
  let n := g.toNat
  { fcode := bits n 88 8, fcount := bits n 83 5, fault := bits n 82 1 == 1, mode := bits n 80 2, pt := bits n 56 24,
    exp := bits n 36 20, pa := bits n 16 20, phase := bits n 0 16 }

def CObj.toGran (o : CObj) : Gran :=
  BitVec.ofNat 128 (o.fcode * 2 ^ 88 + o.fcount * 2 ^ 83 + (if o.fault then 2 ^ 82 else 0) + o.mode * 2 ^ 80 + o.pt * 2 ^ 56
    + o.exp * 2 ^ 36 + o.pa * 2 ^ 16 + o.phase)

/-- Recording a fault (R261). -/
def CObj.record (o : CObj) (c : Nat) : CObj :=
  { o with fcode := if o.fault then o.fcode else c, fault := true, fcount := min (o.fcount + 1) 31 }

/-- Evaluation of a main-mode object (R262): the phase advances when nothing is pending. -/
def CObj.eval (o : CObj) : CObj × Bool :=
  if o.pa = 0 ∧ o.pt = 0 then ({ o with phase := (o.phase + 1) % 65536, pa := o.exp }, true) else (o, false)

/-- A sum clamped to 0 … m, with misuse recorded on a clamp (R262). -/
def clampAdd (n : Nat) (d : Int) (m : Nat) : Nat × Bool :=
  let v := (n : Int) + d
  if v < 0 then (0, true) else if (m : Int) < v then (m, true) else (v.toNat, false)

/-- R262: the object after an event, and whether its phase changed. An expect that clamps both PA and EXP records misuse once, and an arrival at a
fixed-mode object whose PA a plain store has made 0 changes the phase (DESIGN CHOICE, log 55). -/
def CObj.step (o : CObj) (e : CEv) : CObj × Bool :=
  if o.mode = 0 then
    match e with
    | .arrive => if 0 < o.pa then { o with pa := o.pa - 1 }.eval else (o.record 0x36, false)
    | .expectArr d x =>
      let (p, c1) := clampAdd o.pa d (2 ^ 20 - 1)
      let (q, c2) := if x then clampAdd o.exp d (2 ^ 20 - 1) else (o.exp, false)
      let o := { o with pa := p, exp := q }
      (if c1 || c2 then o.record 0x36 else o).eval
    | .expectTx d =>
      let (p, c) := clampAdd o.pt d (2 ^ 24 - 1)
      (if c then { o with pt := p }.record 0x36 else { o with pt := p }).eval
    | .accepted =>
      let (p, c) := clampAdd o.pt 1 (2 ^ 24 - 1)
      (if c then { o with pt := p }.record 0x36 else { o with pt := p }, false)
    | .completed f =>
      let o := if o.pt = 0 then o.record 0x36 else { o with pt := o.pt - 1 }
      (match f with | some c => o.record c | none => o).eval
  else if o.mode = 1 then
    let dec := fun (o : CObj) =>
      if o.pa ≤ 1 then ({ o with phase := (o.phase + 1) % 65536, pa := o.exp }, true) else ({ o with pa := o.pa - 1 }, false)
    match e with
    | .arrive => dec o
    | .completed f => dec (match f with | some c => o.record c | none => o)
    | .accepted => (o, false)
    | _ => (o.record 0x36, false)
  else (o.record 0x36, false)

/-- A watch registered for a core of a peer module: core 4096 plus the port (R358). -/
def Watch.away (w : Watch) : Bool := decide (4096 ≤ w.core)

/-- The watches of a completion object fire at a phase change (R265); one that a peer module registered is told to it. -/
def State.fireComp (s : State) (g : Nat) (o : CObj) : State :=
  let hit := fun (w : Watch) => w.pool == 1 && w.gran == g
  let hits := s.watches.filter hit
  { s with watches := s.watches.filter (fun w => !hit w),
           flights := s.flights ++ (hits.filter fun w => !w.away).map (fun w => watchFlight w o.phase o.toGran),
           peerOut := s.peerOut ++ (hits.filter Watch.away).map fun w => (w.core - 4096, 66, o.toGran.toNat) }

/-- Writes a completion object at its home and fires its watches at a phase change (R262, R265). -/
def State.putComp (s : State) (sp : Spot) (o : CObj) (fire : Bool) : State :=
  let s := s.writeAt sp (leBytes o.toGran.toNat 16) 256
  if fire then s.fireComp (sp.home / 16) o else s

/-- The event changes the object: a fixed-mode object is left as it is by the acceptance of a transfer (R262). -/
def CObj.heeds (o : CObj) (e : CEv) : Bool := !(o.mode == 1 && e == .accepted)

/-- An event at the home of a completion object (R262); one without effect writes nothing. -/
def State.compEvent (s : State) (sp : Spot) (e : CEv) : State :=
  let rd := s.readAt sp 16
  let o := CObj.ofGran (BitVec.ofNat 128 (leNat rd.2))
  if o.heeds e then
    let (o', fire) := o.step e
    rd.1.putComp sp o' fire
  else s

/-! ## Fault-queue records (R318) -/

/-- The 32 bytes of a record. -/
def FRec.bytes (r : FRec) (lost : Bool) : List Byte :=
  leBytes r.fid 4 ++ leBytes r.cause 1 ++ leBytes r.source 1 ++ leBytes (r.ctx % 8 + r.rc % 4 * 8) 1
    ++ leBytes ((if r.resumable then 1 else 0) + (if lost then 2 else 0)) 1 ++ leBytes r.addr 8 ++ leBytes r.pc.toNat 8
    ++ leBytes r.lcore 2 ++ leBytes r.part 1 ++ leBytes 0 1 ++ leBytes r.info 4

/-- What became of a record: written, no room for it (the ring is full or unset), a wait for a line that the host holds or for an entry of a table at a
peer module, or the stage-2 walk of its place does not complete (R384). -/
inductive Posted where
  | written (s : State)
  | full
  | waits (s : State)
  | bound

/-- Writes a record at the head of its function's queue (R318, R384). -/
def State.putRec (s : State) (r : FRec) : Posted :=
  let q := s.part r.fn
  let a := q.fqbase + q.fqhead * 32
  if !q.fqRoom then .full
  else if s.held2 r.fn a 32 then .waits (s.ask2 r.fn a 32)
  else
    let bs := r.bytes q.lost
    let (s1, ok1) := s.write2 r.fn a (bs.take 16)
    let (s2, ok2) := s1.write2 r.fn (a + 16) (bs.drop 16)
    if ok1 && ok2 then .written (s2.modPart r.fn fun q => { q with fqhead := (q.fqhead + 1) % q.fqlen, lost := false }) else .bound

/-- LOST is marked: an informational record was dropped (R318). -/
def State.loseRec (s : State) (fn : Nat) : State := s.modPart fn fun q => { q with lost := true }

/-- PARTITION_BOUND to the physical function (R323), dropped like any informational record where its own queue is full or not reached. -/
def State.pbound (s : State) (p addr : Nat) : State :=
  let (s, fid) := s.takeFid 0
  let r : FRec := { fn := 0, fid := fid, cause := 0xA1, source := 6, ctx := 0, rc := 3, resumable := false, addr := addr, pc := 0, lcore := 0xFFF,
                    part := p, info := 0 }
  match s.putRec r with
  | .written s => s
  | .waits s => { s with frecs := s.frecs ++ [r] }
  | _ => s.loseRec 0

/-- A record that stage 2 does not let through posts PARTITION_BOUND (R384). -/
def State.boundRec (s : State) (r : FRec) : State := s.pbound r.fn ((s.part r.fn).fqbase + (s.part r.fn).fqhead * 32)

/-- Posts an informational record: dropped, and LOST marked, where it cannot be written (R318). It waits only for a line that the host
holds, or for an entry of a table at a peer module. -/
def State.postInfo (s : State) (r : FRec) : State :=
  let (s, fid) := s.takeFid r.fn
  let r := { r with fid := fid, resumable := false }
  match s.putRec r with
  | .written s => s
  | .waits s => { s with frecs := s.frecs ++ [r] }
  | .full => s.loseRec r.fn
  | .bound => (s.loseRec r.fn).boundRec r

/-- Posts the oldest record that waits for a function, if its queue has room (R318). One that stage 2 does not let through is held as
while the ring is full (R384), and PARTITION_BOUND is posted for it once. An informational one that waited for the host is dropped where the
ring is full by then. -/
def State.flushRec (s : State) (fn : Nat) : State × Bool :=
  match s.frecs.find? (fun r => r.fn == fn) with
  | none => (s, false)
  | some r => match s.putRec r with
    | .written s' => ({ s' with frecs := s'.frecs.erase r }, true)
    | .waits s' => (s', s'.peerReqs.length != s.peerReqs.length)
    | .full => if r.resumable then (s, false) else (State.loseRec { s with frecs := s.frecs.erase r } fn, true)
    | .bound =>
      if r.told then (s, false)
      else (State.boundRec { s with frecs := s.frecs.map fun x => if x == r then { x with told := true } else x } r, false)

/-- A resumable record of a request from a die is posted; it waits at its station while the queue is full (R318). A fault of a peer module's is
held without a record here: it has its own (R358). -/
def State.postHeld (s : State) (die : Nat) (r : FRec) (by_ : HeldBy) (peer : Bool) : State :=
  if peer then
    { s with held := s.held ++ [{ fn := r.part, fid := s.nextId, cause := r.cause, va := r.addr, by_ := by_, peer := true }], nextId := s.nextId + 1 }
  else
  let (s, fid) := s.takeFid r.fn
  let va := r.addr
  let r := { r with fid := fid, resumable := true, addr := match by_ with | .remote _ => va | _ => s.recordAddr die r.part r.ctx r.cause va }
  let s := { s with frecs := s.frecs ++ [r], held := s.held ++ [{ fn := r.fn, fid := fid, cause := r.cause, va := va, by_ := by_, peer := false }] }
  if (s.frecs.filter fun x => x.fn == r.fn).length = 1 then (s.flushRec r.fn).1 else s

/-- A fault of an access of w was met at a peer module: here its place translates, or it is of an entry of a table there (R358). `need` are the
permissions of the access. -/
def State.peerFault (s : State) (w : Who) (va need : Nat) : Bool :=
  let p := (s.tenant w.core w.ctx).partid
  (match s.window w va with
    | .global => (s.walk (entryStation (dieOf w.core) va) p w.ctx va need).trail.reads.any fun h => (s.pteBad p h).isSome
    | _ => false)
  || match (s.locate w va need false).res with
    | .ok sp => space sp.home == .peer
    | _ => false

/-- The permissions of the access of an instruction at pc that met a cause: a fetch is of its own line. -/
def needAt (pc : Word) (cause va : Nat) : Nat :=
  let acc := (cause - 0x40) / 8
  if acc < 3 then needOf acc else if va / 64 = pc.toNat / 64 then 4 else 1

/-- The function that owns a translation fault (R317 step 1). -/
def faultFn (p cause : Nat) : Nat := if 0x40 ≤ cause ∧ 2 ≤ cause % 8 then 0 else p

/-- The record of a core access (R317, R318). -/
def State.coreRec (s : State) (w : Who) (cause addr : Nat) (pc : Word) : FRec :=
  let t := s.tenant w.core w.ctx
  { fn := faultFn t.partid cause, fid := 0, cause := cause, source := 0, ctx := w.ctx, rc := t.home w.rc, resumable := true, addr := addr, pc := pc,
    lcore := t.lcore, part := t.partid, info := 0 }

/-! ## Suspension (R316, R317, R320) -/

/-- A free suspended slot. -/
def Tenant.freeSlot (t : Tenant) : Option Nat := (List.range 4).find? fun i => !Tbl.has t.slots i

/-- An operation that goes with the image of its handler: it has a destination to fill. -/
def Op.goes (o : Op) : Bool := o.dest != .none

/-- Copies the context image into slot i and makes the register context idle (R317 step 2). -/
def Tenant.suspendTo (t : Tenant) (j i : Nat) (x : Wait) : Tenant :=
  let r := t.rcx j
  let img := { r with pc := x.pc, ops := r.ops.filter Op.goes, wait := none, fences := [] }
  let live := { r with run := .idle, msg := none, chan := none, q0 := 0, outbox := [], task := none, spec := false, tdomain := 0,
                       tstamp := 0, hdr := 0, wait := none, kept := [], ops := r.ops.filter fun o => !o.goes }
  { t.setRcx j live with slots := Tbl.set t.slots i { rc := j, img := img, g := if j = 0 then t.g else [], wait := x } }

/-- Suspends the handler of register context j, or holds it in place where no slot is free (R320). -/
def Tenant.suspendOrHold (t : Tenant) (j : Nat) (x : Wait) : Tenant :=
  match t.freeSlot with
  | some i => t.suspendTo j i x
  | none => t.setRcx j { t.rcx j with run := .held, wait := some x }

/-- The other members of a gang suspend with the member that faulted (R108), under the number of its suspension. -/
def State.suspendGang (s : State) (w : Who) (gid : Nat) : State :=
  (s.gang w.core w.ctx).foldl (fun s h =>
    if h = w.core then s
    else
      let t := s.tenant h w.ctx
      if t.n.run = .running then
        s.setTenant h w.ctx (t.suspendOrHold 0 { why := .gang, pc := t.n.pc, cont := t.n.pc, need := 0, gang := some gid })
      else s) s

/-- Suspends the handler of w: parts are the addresses and lengths of the requests that the station keeps, each with its cause.
With no free slot the handler is held in place (R320). `dec` is 1 for an instruction that had been counted as retired. -/
def State.suspend (s : State) (w : Who) (why : Resume) (pc cont : Word) (parts : List (Nat × Nat × Nat)) (dec : Nat) : State :=
  let t := s.tenant w.core w.ctx
  let t := { t with instret := t.instret - dec }
  let gang := if w.rc = 0 ∧ 1 < (s.gang w.core w.ctx).length then some s.nextId else none
  let s := if gang.isSome then { s with nextId := s.nextId + 1 } else s
  let x : Wait := { why := why, pc := pc, cont := cont, need := parts.length, gang := gang }
  let s := s.setTenant w.core w.ctx (t.suspendOrHold w.rc x)
  let by_ := fun (p : Nat × Nat × Nat) => match t.freeSlot with
    | some i => HeldBy.slot w.core w.ctx i (p.1, p.2.1)
    | none => HeldBy.place w (p.1, p.2.1)
  let s := parts.foldl (fun s p =>
    s.postHeld (dieOf w.core) (s.coreRec w p.2.2 p.1 pc) (by_ p) (s.peerFault w p.1 (needAt pc p.2.2 p.1))) s
  match gang with
  | some g => s.suspendGang w g
  | none => s

/-- Suspends a handler on a translation fault. evc10 counts it as its image is copied into a slot (step 2 of R317, R320). -/
def State.suspendFault (s : State) (w : Who) (why : Resume) (pc cont : Word) (parts : List (Nat × Nat × Nat)) (dec : Nat) : State :=
  let t := s.suspend w why pc cont parts dec
  if (s.tenant w.core w.ctx).freeSlot.isSome then t.count w.core w.ctx 10 1 else t

/-- The physical frame address of a faulting address, when known: once its walk has found a stage-2 leaf (R313). -/
def State.frameOf (s : State) (w : Who) (va : Nat) : Word :=
  match s.window w va with
  | .global => match (s.walk (entryStation (dieOf w.core) va) (s.tenant w.core w.ctx).partid w.ctx va 0).frame with
    | some h => BitVec.ofNat 64 (frameAddr h)
    | none => 0
  | _ => 0

/-- The extra slot of a trap that an access at an address raises: the frame for a memory cause, else 0 (R313). -/
def State.extraOf (s : State) (w : Who) (cause va : Nat) : Word := if 0x40 ≤ cause ∧ cause < 0x60 then s.frameOf w va else 0

/-- A memory fault of an access that the instruction at pc makes at issue: it suspends, and the instruction runs again on resume, or
it traps (R138, R139). -/
def memFault (s : State) (cause va n : Nat) : Out :=
  if suspends cause then .next (s.suspendFault s.cur .rerun s.rc.pc s.rc.pc [(va, n, cause)] 0)
  else trapNow s cause (BitVec.ofNat 64 va) (s.extraOf s.cur cause va)

/-! ## The order of operations (R158) -/

/-- The ordering units that an operation's remaining parts touch: granules, or 8-byte units on host and tier 2 (R158). Where nothing is mapped yet, the
granule of the address stands for it. -/
def State.units (s : State) (w : Who) (parts : List (Nat × Nat)) : List Nat :=
  parts.flatMap fun p => (List.range ((p.1 % 8 + p.2 + 7) / 8)).map fun i =>
    let a := (p.1 / 8 + i) * 8
    match s.peek w a with
    | some h => (match space h with
      | .host => h / 8 * 2 + 1
      | .tier2 => h / 8 * 2 + 1
      | _ => h / 16 * 2)
    | none => 2 ^ 62 + a / 16

/-- An atomic memory operation. -/
def Op.isAmo (o : Op) : Bool := match o.k with | .amo _ => true | _ => false
/-- A load that pushes into a stream port: pushes into one port keep program order (DEDUCED, log 17). -/
def Op.toPort (o : Op) : Bool := match o.dest with | .port _ => true | _ => false
/-- An arrival (R158): it goes after every earlier store. -/
def Op.arrives (o : Op) : Bool := match o.k with | .carrive => true | .cexpect _ => true | .barrive .. => true | _ => false

/-- Core h lies in the TCMs of a scope (R151). -/
def State.coreIn (s : State) (w : Who) (scope h : Nat) : Bool :=
  match scope with
  | 0 => h == w.core
  | 1 => (s.wholeGang w.core w.ctx).contains h
  | 2 => h / 16 == w.core / 16
  | 3 => dieOf h == dieOf w.core
  | _ => true

/-- A home lies in a scope (R151). Scopes nest: the device scope has every Pan and Pond of the module (DEDUCED, log 18). -/
def State.homeIn (s : State) (w : Who) (scope home : Nat) : Bool :=
  match space home with
  | .tcm => s.coreIn w scope (home / 2 ^ 18 % 4096)
  | .pan => 4 ≤ scope || (2 ≤ scope && (home - 2 ^ 34) / 2 ^ 22 % 256 == w.core / 16) || (scope == 3 && dieOf ((home - 2 ^ 34) / 2 ^ 22 % 256 * 16) == dieOf w.core)
  | .pond => 4 ≤ scope || (scope == 3 && (home - 2 ^ 40) / 2 ^ 27 == dieOf w.core)
  | .hbm => 4 ≤ scope || (scope == 3 && stationOf home / 48 == dieOf w.core)
  | _ => 5 ≤ scope

/-- An address lies in a scope, or is not located yet. -/
def State.addrIn (s : State) (w : Who) (scope va : Nat) : Bool :=
  match s.peek w va with
  | some h => s.homeIn w scope h
  | none => true

/-- Operation e of w lies in a scope: some part still to perform has its home there, or is not located yet. -/
def State.opIn (s : State) (w : Who) (scope : Nat) (e : Op) : Bool := e.parts.isEmpty || e.parts.any fun p => s.addrIn w scope p.1

/-- The kinds that a fence knows an operation by (R152): bit 0 loads, 1 stores. -/
def OpK.kinds (k : OpK) : Nat := (if k.isLoad then 1 else 0) + (if k.isStore then 2 else 0)

/-- The register context that w belongs to, as the party of R157. -/
def State.party (s : State) (w : Who) : Who := { w with rc := (s.tenant w.core w.ctx).home w.rc }

/-- The least scope that holds the Rake which accepts a walk (R151, R295): that of the home of its start address, or of its entry station where that
does not translate yet. -/
def State.rakeScope (s : State) (k : Walk) : Nat :=
  let st := if k.station = 384 then (match s.peek k.who k.ptr with
      | some h => if space h = .hbm then stationOf h else entryStation (dieOf k.who.core) k.ptr
      | none => entryStation (dieOf k.who.core) k.ptr)
    else k.station
  if st / 48 = dieOf k.who.core then 3 else 4

/-- The commands of the matrix unit and the Rakes that a register context has issued, which its engine accepts once nothing holds them back (R158): the
place of each in program order, and the least scope that holds its engine. -/
def State.commands (s : State) (w : Who) : List (Nat × Nat) :=
  let u := (s.tenant w.core w.ctx).mx
  (if w.rc ≠ 0 then [] else
    (u.queue.filter fun j => j.src.isNone).map (fun j => (j.seq, 0)) ++ u.pre.toList.map (fun p => (p.seq, 0)) ++ u.stores.map fun m => (m.seq, 0))
    ++ (s.walks.filter fun k => k.who == w).map fun k => (k.seq, s.rakeScope k)

/-- Something that a fence of w puts before later operations is not yet performed (R151, R152), given the earlier fences that still hold something
back: an operation, a command that its engine has not taken, a message that is not resident. -/
def State.fencePending (s : State) (w : Who) (earlier : List Fence) (f : Fence) : Bool :=
  let p := s.party w
  let stuck := fun (c : Nat × Nat) => (s.opsOf w).any (fun e => decide (e.seq < c.1) && (e.k.isStore || e.aq))
    || earlier.any fun g => decide (g.seq < c.1) && g.after &&& 4 != 0 && decide (c.2 ≤ g.scope)
  (s.opsOf w).any (fun e => decide (e.seq ≤ f.seq) && f.before &&& e.k.kinds != 0 && s.opIn w f.scope e)
    || (bits f.before 2 1 == 1 &&
      (s.xfers.any (fun x => x.who == p && !x.accepted && decide (x.seq ≤ f.seq) && decide (2 ≤ f.scope))
        || s.mcmds.any (fun m => m.src == p && decide (m.seq ≤ f.seq) && s.coreIn w f.scope m.core)
        || s.walks.any (fun k => k.who == p && k.slot.isSome && decide (k.seq ≤ f.seq) && decide (s.rakeScope k ≤ f.scope))
        || (s.commands p).any fun c => decide (c.1 ≤ f.seq) && decide (c.2 ≤ f.scope) && stuck c))
    || (bits f.before 3 1 == 1 && s.flights.any (fun m => m.src == some p && decide (m.seq ≤ f.seq) && s.coreIn w f.scope m.core))

/-- The retired fences of w that still hold something back, in program order. -/
def State.pendingFences (s : State) (w : Who) : List Fence :=
  (s.rcx (s.party w)).fences.foldl (fun l f => if s.fencePending w l f then l ++ [f] else l) []

/-- A retired fence of w still keeps back what comes at place `seq` of the program order, is of kinds k, and lies in a scope as `within`
says (R152, R153). -/
def State.barred (s : State) (w : Who) (seq k : Nat) (within : Nat → Bool) : Bool :=
  (s.pendingFences w).any fun f => decide (f.seq < seq) && f.after &&& k != 0 && within f.scope

/-- A command at place `seq` waits before its engine accepts it (R143, R152, R158): for every earlier store, acquire, and for fences whose
scope holds the engine: `scope` is the least one that does. -/
def State.cmdWaits (s : State) (w : Who) (seq scope : Nat) : Bool :=
  (s.opsOf w).any (fun e => decide (e.seq < seq) && (e.k.isStore || e.aq)) || s.barred w seq 4 fun c => decide (scope ≤ c)

/-- No edge of R158 puts an outstanding earlier operation before operation o of w. -/
def State.ordered (s : State) (w : Who) (o : Op) : Bool :=
  let earlier := (s.opsOf w).filter fun e => decide (e.seq < o.seq)
  !(o.rl && earlier.any fun e => e.k.isLoad || e.k.isStore)
    && !(o.arrives && earlier.any fun e => e.k.isStore)
    && !(o.isAmo && (o.aq || o.rl) && earlier.any fun e => e.isAmo && (e.aq || e.rl))
    && !(o.toPort && earlier.any fun e => e.dest == o.dest)
    && !(let u := s.units w o.parts; earlier.any fun e => (s.units w e.parts).any fun g => u.contains g)
    && !s.barred w o.seq o.k.kinds fun c => s.opIn w c o

/-- R158 permits operation o of w to be performed now: no station holds it and no peer module has it, and no edge keeps it back. -/
def State.mayPerform (s : State) (w : Who) (o : Op) : Bool := !o.held && !o.peer && s.ordered w o

/-! ## Performing one part of an operation -/

/-- What a home answers for one part; `again`: a request has left for an entry of a table at a peer module. -/
inductive PartRes where
  | ok (s : State) (o : Op)
  | wait
  | again (s : State)
  | peer (s : State)
  | bad (s : State) (cause : Nat)

/-- The result of an atomic operation (R142): op in the order ADD, SWAP, XOR, OR, AND, MIN, MAX, MINU, MAXU, CAS. none: nothing
is written. -/
def amoResult (op n : Nat) (old src cmp : Nat) : Option Nat :=
  let m := 2 ^ (8 * n)
  match op with
  | 0 => some ((old + src) % m)
  | 1 => some (src % m)
  | 2 => some ((old ^^^ src) % m)
  | 3 => some ((old ||| src) % m)
  | 4 => some ((old &&& src) % m)
  | 5 => some (if sextI old (8 * n) ≤ sextI (src % m) (8 * n) then old else src % m)
  | 6 => some (if sextI old (8 * n) ≤ sextI (src % m) (8 * n) then src % m else old)
  | 7 => some (min old (src % m))
  | 8 => some (max old (src % m))
  | _ => if old = cmp % m then some (src % m) else none

/-- The bytes that a speculative task's own buffered stores put over a read (R123). -/
def overlay (stores : List MxStore) (home : Nat) (bs : List Byte) : List Byte :=
  stores.foldl (fun bs st => (List.range bs.length).map fun i =>
    if st.home ≤ home + i ∧ home + i < st.home + st.bytes.length then st.bytes.getD (home + i - st.home) 0 else bs.getD i 0) bs

/-- The buffered stores of the task that w runs speculatively. -/
def State.specStores (s : State) (w : Who) : List MxStore :=
  let r := s.rcx w
  match r.task with
  | some id => if r.spec then match s.findTask (s.tenant w.core w.ctx).partid id with
      | some t => t.stores
      | none => []
    else []
  | none => []

/-- Those that an operation of w comes after: its own task's loads see them (R123). -/
def State.specBefore (s : State) (w : Who) (o : Op) : List MxStore := (s.specStores w).filter fun m => m.core != w.core || decide (m.seq < o.seq)

/-- The access code of an operation (R138). -/
def OpK.acc : OpK → Nat
  | .load => 0 | .ldv => 0 | .vwatch .. => 0
  | .store => 1 | .stv => 1
  | _ => 2

/-- An access that needs 16-byte atomicity where the path carries 8 bytes (R142, R143, R261). -/
def Op.wide (o : Op) : Bool :=
  match o.k with
  | .load => o.aq && o.n == 16
  | .store => o.rl && o.n == 16
  | .amo _ => o.n == 16
  | .cinit _ => true | .carrive => true | .cexpect _ => true | .cwatch .. => true
  | _ => false

/-- An operation that acts on versions, and its page is not a V page (R147). -/
def Op.needsV (o : Op) : Bool := match o.k with | .ldv => true | .stv => true | .vwatch .. => true | _ => false

/-- The bytes [i, i + n) of the value that an operation stores. -/
def Op.dataBytes (o : Op) (va n : Nat) : List Byte := ((leBytes o.data.toNat o.n).drop (va - o.va)).take n

/-- The quota and the counters of one part (R343, R348): a granule is charged once, with the last of its parts (`o` has those still to
perform after this one). -/
def State.chargePart (s : State) (p ctx : Nat) (o : Op) (home va n : Nat) (write : Bool) : State :=
  if o.parts.any fun q => q.1 / 16 == va / 16 then s.suAt p ctx home n write else s.chargeAt p ctx home n write

/-- The effect of one part at its place; `o` has the parts still to perform after it. An AMOCAS that does not match writes nothing, and leaves the
layout tag (DESIGN CHOICE, log 30). -/
def State.actPart (s : State) (w : Who) (o : Op) (sp : Spot) (va n : Nat) : PartRes :=
  let t := s.tenant w.core w.ctx
  let p := t.partid
  let rd := s.readAt sp n
  let old := overlay (s.specBefore w o) sp.home rd.2
  match o.k with
  | .load =>
    if s.poisoned sp.home n then .bad s (poisonCause sp.home 0)
    else .ok (rd.1.chargePart p w.ctx o sp.home va n false) { o with got := o.got ++ (old.zipIdx.map fun q => (va + q.2, q.1)) }
  | .ldv =>
    if s.poisoned sp.home n then .bad s (poisonCause sp.home 0)
    else if (s.specBefore w o).any fun st => (granules st.home st.bytes.length).contains (sp.home / 16) then .bad s 0x85
    else
      let v := Tbl.get 0 s.vers (sp.home / 16)
      let s := rd.1.modRcx w fun r => if r.vseq ≤ o.seq then { r with vlast := v, vseq := o.seq } else r
      .ok (s.chargePart p w.ctx o sp.home va n false) { o with got := o.got ++ (rd.2.zipIdx.map fun q => (va + q.2, q.1)) }
  | .store =>
    if s.poisonedPart sp.home n then .bad s (poisonCause sp.home 1)
    else .ok ((s.writeAt sp (o.dataBytes va n) 256).chargePart p w.ctx o sp.home va n true) o
  | .stv =>
    if s.poisonedPart sp.home n then .bad s (poisonCause sp.home 1)
    else
      let s := (s.writeAt sp (o.dataBytes va n) 256).chargePart p w.ctx o sp.home va n true
      .ok s { o with got := (leBytes (Tbl.get 0 s.vers (sp.home / 16)) 8).zipIdx.map fun q => (va + q.2, q.1) }
  | .amo op =>
    if s.poisoned sp.home n then .bad s (poisonCause sp.home 2)
    else
      let s := rd.1
      let s := match amoResult op n (leNat rd.2) (o.data.toNat % 2 ^ (8 * n)) o.cmp.toNat with
        | some v => s.writeAt sp (leBytes v n) 256
        | none => s
      .ok (s.chargePart p w.ctx o sp.home va n true) { o with got := rd.2.zipIdx.map fun q => (va + q.2, q.1) }
  | .vwatch target chan gen urg =>
    if s.poisoned (sp.home / 16 * 16) 16 then .bad s (poisonCause sp.home 0)
    else
    let g := sp.home / 16
    let x : Watch := { pool := 0, gran := g, va := va, target := target, core := w.core, ctx := w.ctx, chan := chan, gen := gen, urg := urg }
    .ok (State.fireWatches { s with watches := s.watches ++ [x] } g) o
  | .cinit v =>
    if s.poisonedPart sp.home n then .bad s (poisonCause sp.home 2)
    else .ok ((s.writeAt sp (leBytes v.toNat 16) 256).chargePart p w.ctx o sp.home va n true) o
  | .carrive =>
    if s.poisoned sp.home n then .bad s (poisonCause sp.home 2)
    else .ok ((s.compEvent sp .arrive).chargePart p w.ctx o sp.home va n true) o
  | .cexpect d =>
    if s.poisoned sp.home n then .bad s (poisonCause sp.home 2)
    else .ok ((s.compEvent sp (expectEv d.toNat)).chargePart p w.ctx o sp.home va n true) o
  | .cwatch chan gen urg =>
    if s.poisoned sp.home 16 then .bad s (poisonCause sp.home 2)
    else
    let x : Watch := { pool := 1, gran := sp.home / 16, va := va, target := 0, core := w.core, ctx := w.ctx, chan := chan, gen := gen, urg := urg }
    .ok { s with watches := s.watches ++ [x] } o
  | .barrive .. => .ok s o
  | .rkload .. => .ok s o

/-- The page of an address is mapped with V. -/
def State.vPage (s : State) (w : Who) (va : Nat) : Bool :=
  match s.window w va with
  | .global => (s.leafOf w va).any (·.v)
  | _ => false

/-- A store of a speculative task goes to the speculation store, with its place in program order and the leaves that translated it (R123, R133). -/
def State.bufferOf (s : State) (w : Who) (t : Task) (sp : Spot) (va : Nat) (bs : List Byte) (seq : Nat) (rl : Bool) : State :=
  let m : MxStore := { home := sp.home, gen := sp.gen, tag := 256, bytes := bs, va := va, core := w.core, seq := seq, rl := rl,
                       leaves := match s.leafOf w va with | some l => l.leaves | none => [] }
  s.setTask { t with stores := t.stores ++ [m] }

/-- The same for task `id` of w's partition; nothing where that is gone. -/
def State.buffer (s : State) (w : Who) (id : Option Nat) (sp : Spot) (va : Nat) (bs : List Byte) (seq : Nat) (rl : Bool) : State :=
  match id.bind (s.findTask (s.tenant w.core w.ctx).partid) with
  | some t => s.bufferOf w t sp va bs seq rl
  | none => s

/-- An operation of w at an address goes to the speculation store. -/
def State.toSpec (s : State) (w : Who) (o : Op) (va : Nat) : Bool := o.spec && s.window w va == .global

/-- One part of an operation: located, checked, performed; `o` has the parts still to perform after it. The checks of the frame and of its
tier come before those made at the home (R138, R142, R143, R147). `peer`: the peer module's completion is at hand (R359). -/
def State.doPart (s : State) (w : Who) (o : Op) (va n : Nat) (peer : Bool) : PartRes :=
  let l := s.locate w va (needOf o.k.acc) (o.k.isStore && !s.toSpec w o va)
  if l.tier.isSome && o.needsV && !s.vPage w va then .bad l.clean 0x2D
  else if o.wide && (l.tier == some .host || l.tier == some .tier2) then .bad l.clean (mcause o.k.acc 7)
  else match l.res with
    | .error k => .bad l.clean (mcause o.k.acc k)
    | .wait => .wait
    | .asked => .again l.s
    | .ok sp =>
      if s.toSpec w o va then
        (if l.s.poisonedPart sp.home n then .bad l.clean (poisonCause sp.home 1)
          else .ok (l.s.buffer w o.task sp va (o.dataBytes va n) o.seq o.rl) o)
      else if s.heldLine sp.home then .wait
      else if space sp.home == .peer && !peer then .peer l.clean
      else match l.s.actPart w o sp va n with
        | .bad _ c => .bad l.clean c
        | r => r

/-- The parts still to perform, cut at 8-byte units on the host and tier-2 paths (R62, R140). -/
def State.cutParts (s : State) (w : Who) (parts : List (Nat × Nat)) : List (Nat × Nat) :=
  parts.flatMap fun p =>
    let m := 8 - p.1 % 8
    let narrow := match s.peek w p.1 with
      | some h => space h == .host || space h == .tier2
      | none => false
    if narrow && decide (m < p.2) then [(p.1, m), (p.1 + m, p.2 - m)] else [p]

/-- The operation with its part number d taken out, and that part: the parts are performed in any order (R62). -/
def State.pick (s : State) (w : Who) (o : Op) (d : Nat) : Option ((Nat × Nat) × Op) :=
  let ps := s.cutParts w o.parts
  (ps[d]?).map fun p => (p, { o with parts := ps.eraseIdx d })

/-- The value that an operation returned. -/
def Op.value (o : Op) : Nat := leNat ((List.range (if o.k = .stv then 8 else o.n)).map fun i => Tbl.get 0 o.got (o.va + i))

/-- An element pushed into an output port (R256, R260): the buffer of a Sluice output, or a credit spent and the element sent. -/
def State.push (s : State) (core ctx q : Nat) (v : Gran) : State :=
  let t := s.tenant core ctx
  let p := t.port q
  if p.kind = 5 then
    { s.setTenant core ctx (t.setPort q { p with credits := p.credits - 1 }) with
      nelems := s.nelems ++ [{ core := t.ctab.getD p.peer 0, ctx := ctx, q := p.peerPort, fromCore := core, fromQ := q, v := v }] }
  else s.setTenant core ctx (t.setPort q { p with buf := p.buf ++ [v], pushed := p.pushed ++ [s.time] })

/-- Delivers the result of a performed operation to its destination. -/
def State.deliver (s : State) (w : Who) (o : Op) : State :=
  let v := o.value
  match o.dest with
  | .none => s
  | .x rd n sx => s.modRcx w fun r => r.wx rd (if sx then sext64 v (8 * n) else BitVec.ofNat 64 (v % 2 ^ (8 * n)))
  | .w rd => s.modRcx w fun r => r.ww rd (BitVec.ofNat 128 v)
  | .pair rd => if rd = 0 then s else s.modRcx w fun r => (r.wx rd (BitVec.ofNat 64 v)).wx (rd + 1) (BitVec.ofNat 64 (v / 2 ^ 64))
  | .outbox i => s.modRcx w fun r => { r with outbox := r.outbox.set i (some (BitVec.ofNat 128 v)) }
  | .port q => s.push w.core w.ctx q (BitVec.ofNat 128 v)
  | .fill _ => s

/-- Replaces or removes an operation of a register context. -/
def RegCtx.putOp (r : RegCtx) (o : Op) : RegCtx := { r with ops := r.ops.map fun e => if e.seq == o.seq then o else e }
def RegCtx.dropOp (r : RegCtx) (q : Nat) : RegCtx := { r with ops := r.ops.filter fun e => e.seq != q }

/-- A watch that will not be registered leaves its pool (R150, R265). -/
def State.unwatch (s : State) (w : Who) (o : Op) : State :=
  match o.k with
  | .vwatch .. => s.modTenant w.core w.ctx fun t => { t with vwPend := t.vwPend - 1 }
  | .cwatch .. => s.modTenant w.core w.ctx fun t => { t with cwPend := t.cwPend - 1 }
  | _ => s

/-- Requests held on fault service are given up. -/
def State.dropHeld (s : State) (p : HeldBy → Bool) : State := { s with held := s.held.filter fun h => !p h.by_ }

/-- What is held for a slot, or for a handler held in place. -/
def HeldBy.atSlot (core ctx i : Nat) (b : HeldBy) : Bool := match b with | .slot c x j _ => c == core && x == ctx && j == i | _ => false
def HeldBy.atPlace (w : Who) (b : HeldBy) : Bool := match b with | .place v _ => v == w | _ => false

/-- What a request of a suspended handler is held as. -/
def heldAs (w : Who) (p : Nat × Nat) : HeldBy := if 3 ≤ w.rc then .slot w.core w.ctx (w.rc - 3) p else .place w p

/-- What a suspended handler waits for: in its slot (rc 3 + i), or held in place. -/
def State.waitOf (s : State) (w : Who) : Option Wait :=
  if 3 ≤ w.rc then ((s.tenant w.core w.ctx).slots.find? fun p => p.1 == w.rc - 3).map (·.2.wait) else (s.rcx w).wait

/-- The operation that a suspension of w waits for ends with it, the part at `va` failed (none: no part): a watch leaves its pool; the parts that no station
holds are still performed, for nobody (R63, R151). -/
def State.endWaiting (s : State) (w : Who) (x : Wait) (va : Option Nat) : State :=
  match x.why with
  | .op o =>
    let left := o.parts.filter fun p => some p.1 != va && !s.held.any fun h => h.by_ == heldAs w p
    let s := s.unwatch w o
    if left.isEmpty then s
    else s.modRcx (s.party w) fun r => { r with ops := r.ops ++ [{ o with parts := left, dest := .none, got := [], held := false }] }
  | _ => s

/-- The other members of a gang whose suspension `gid` ends, in slots or held in place, end as by DONE (R108). -/
def State.endGangSlots (s : State) (core ctx gid : Nat) : State :=
  (s.wholeGang core ctx).foldl (fun s h =>
    if h = core then s
    else
      let gone := ((s.tenant h ctx).slots.filter fun p => p.2.wait.gang == some gid)
      let s := gone.foldl (fun s p => s.endWaiting { core := h, ctx := ctx, rc := 3 + p.1 } p.2.wait none) s
      let t := gone.foldl (fun t p => t.giveBack p.2) (s.tenant h ctx)
      let mine := fun (b : HeldBy) => gone.any fun p => b.atSlot h ctx p.1
      let s := (s.setTenant h ctx (Tenant.episodes { t with slots := t.slots.filter fun p => p.2.wait.gang != some gid })).dropHeld mine
      let w : Who := { core := h, ctx := ctx, rc := 0 }
      match t.n.run, t.n.wait with
      | .held, some x => if x.gang = some gid then ((s.endWaiting w x none).endRc w true).dropHeld (HeldBy.atPlace w) else s
      | _, _ => s) s

/-- The same of what suspension x belongs to, where it is a gang's. -/
def State.endGangOf (s : State) (core ctx : Nat) (x : Wait) : State :=
  match x.gang with
  | some g => s.endGangSlots core ctx g
  | none => s

/-- The parts of an operation still to perform, but for those that a station holds. -/
def State.looseParts (s : State) (w : Who) (o : Op) : List (Nat × Nat) :=
  o.parts.filter fun p => !s.held.any fun h => h.by_ == .op (s.party w) o.seq && h.va == p.1

/-- What stations hold of operations of an invocation of w that is killed is dropped (R324); the other parts of those are still performed, for nobody. -/
def State.dropOps (s : State) (w : Who) (inv : Nat) : State :=
  let v := s.party w
  let mine := (s.opsOf w).filter fun o => o.inv == inv && s.held.any fun h => h.by_ == .op v o.seq
  let s := mine.foldl (fun (s : State) o => if (s.looseParts w o).isEmpty then s.unwatch w o else s) s
  let rest := fun (o : Op) =>
    if !mine.contains o then some o
    else if (s.looseParts w o).isEmpty then none
    else some { o with parts := s.looseParts w o, dest := .none, got := [], held := false }
  let left := fun (r : RegCtx) => { r with ops := r.ops.filterMap rest }
  ((s.modRcx v left).modRcx w left).dropHeld fun b => mine.any fun o => b == .op v o.seq

/-- The end of a suspended handler from its slot, with a trap record (R319), its gang with it (R108). -/
def State.endSlot (s : State) (core ctx i cause : Nat) (a2 a6 : Word) : State :=
  let t := s.tenant core ctx
  match t.slots.find? (fun p => p.1 == i) with
  | none => s
  | some (_, sl) =>
    let f := s.trapFlight core ctx (sl.rc * 256 + cause) sl.img.pc a2 (chanSlot sl.img.chan) (sl.img.task.getD 0) a6 t.lcore
    let t := t.giveBack sl
    let t := Tenant.episodes (Tenant.keepDiverted { t with slots := Tbl.del t.slots i } sl.rc sl.img.msg sl.img.msgNo)
    let s := ((s.setTenant core ctx t).dropHeld (HeldBy.atSlot core ctx i)).endGangOf core ctx sl.wait
    match sl.img.task with
    | some id => s.taskEnd t.partid id (some (if sl.img.spec then markSpec f else f))
    | none => s.post f

/-- The end of a handler held in place by a trap of the instruction at pc: its request is dropped, its gang ends with it, wherever its members wait
(R108, R320). -/
def State.endPlace (s : State) (w : Who) (x : Wait) (pc : Word) (cause : Nat) (a2 a6 : Word) : State :=
  ((s.endGangOf w.core w.ctx x).trap w cause pc a2 a6).dropHeld (HeldBy.atPlace w)

/-- A fault of an operation that does not suspend (R138), with the value of the extra slot: the handler that issued it ends, live or in its slot;
where that handler has ended already, the record alone is sent (DEDUCED, log 16). The parts `left` are still performed, for nobody (R63). -/
def State.opEnds (s : State) (w : Who) (o : Op) (cause va : Nat) (a6 : Word) (left : List (Nat × Nat)) : State :=
  let v := s.party w
  let s := (s.modRcx w fun r => r.dropOp o.seq).unwatch w o
  let t := s.tenant w.core w.ctx
  let a2 := BitVec.ofNat 64 va
  let s :=
    if 3 ≤ w.rc then (match s.waitOf w with | some x => s.endWaiting w x none | none => s).endSlot w.core w.ctx (w.rc - 3) cause a2 a6
    else if (t.rcx w.rc).run ≠ .idle ∧ (t.rcx w.rc).inv = o.inv then
      let s := s.setTenant w.core w.ctx { t with instret := t.instret - 1 }
      match (t.rcx w.rc).wait with
      | some x => (s.endWaiting w x none).endPlace w x o.pc cause a2 a6
      | none => s.trap w cause o.pc a2 a6
    else s.post (s.trapFlight w.core w.ctx (w.rc * 256 + cause) o.pc a2 64 0 a6 t.lcore)
  if left.isEmpty then s
  else s.modRcx v fun r => { r with ops := r.ops ++ [{ o with parts := left, dest := .none, got := [], peer := false, held := false }] }

/-- The same with the extra slot of an access. -/
def State.opTrap (s : State) (w : Who) (o : Op) (cause va : Nat) (left : List (Nat × Nat)) : State :=
  s.opEnds w o cause va (s.extraOf w cause va) left

/-- A region goes to a region register of the handler of w, live or in its slot. -/
def State.putG (s : State) (w : Who) (rd : Nat) (v : Region) : State :=
  s.modTenant w.core w.ctx fun t =>
    if 3 ≤ w.rc then { t with slots := t.slots.map fun p =>
      if p.1 = w.rc - 3 then (p.1, { p.2 with g := if rd = 0 then p.2.g else Tbl.put (Region.empty 0) p.2.g rd v }) else p }
    else t.wg rd v

/-- The loads of a region instruction have returned (R231): its result, an approximation counted in evc4 (R221), or its trap. -/
def State.completeFill (s : State) (w : Who) (o : Op) (f : Fill) : State :=
  let gone := fun (s : State) => s.modRcx w fun r => r.dropOp o.seq
  match f.result o.va o.n fun a n => (List.range n).map fun i => Tbl.get 0 o.got (a + i) with
  | .bad c va => s.opEnds w o c va 0 []
  | .x rd v => gone (s.modRcx w fun r => r.wx rd (BitVec.ofNat 64 v))
  | .g rd v ap => gone (if ap then (s.putG w rd v).count w.core w.ctx 4 1 else s.putG w rd v)

/-- Every part of an operation has been performed: its result is delivered and it is no longer outstanding. An arrival leaves its core: it samples
the counters of the member then (DESIGN CHOICE, log 50). -/
def State.complete (s : State) (w : Who) (o : Op) : State :=
  match o.dest with
  | .fill f => s.completeFill w o f
  | _ =>
  let s := s.deliver w o
  let s := match o.k with
    | .barrive bar op chan gen =>
      let t := s.tenant w.core w.ctx
      let tk := match s.bands.find? (fun (b : Band) => b.members.contains w.core && b.ctx == w.ctx && b.part == t.partid) with
        | some b => b.ticket
        | none => 0
      let x : Arrival := { part := t.partid, ticket := tk, core := w.core, ctx := w.ctx, lcore := t.lcore, bar := bar, op := op, chan := chan,
                           gen := gen, v := BitVec.ofNat 64 o.data.toNat, evc := (List.range 16).map fun i => Tbl.get 0 t.evc i }
      { s with arrivals := s.arrivals ++ [x] }
    | _ => s
  s.modRcx w fun r => r.dropOp o.seq

/-- What the parts of an operation came to after one of them has faulted: `o` has those still to perform, `sus` those of them that the station
keeps on fault service, `wait` those that are still to be performed when nothing is in the way, `bad` is the first cause that does not suspend. -/
structure Rest where
  s : State
  o : Op
  sus : List (Nat × Nat × Nat)
  wait : List (Nat × Nat)
  bad : Option (Nat × Nat)

/-- One part, after another has faulted: the parts are issued together and neither waits for the other's outcome (R63). -/
def Rest.part (w : Who) (r : Rest) (p : Nat × Nat) : Rest :=
  match r.s.doPart w { r.o with parts := r.o.parts.erase p } p.1 p.2 false with
  | .ok s o => { r with s := s, o := o }
  | .wait => { r with wait := r.wait ++ [p] }
  | .again s => { r with s := s, wait := r.wait ++ [p] }
  | .peer s => { r with s := s, wait := r.wait ++ [p] }
  | .bad s c =>
    if suspends c then { r with s := s, sus := r.sus ++ [(p.1, p.2, c)] }
    else { r with s := s, bad := match r.bad with | some b => some b | none => some (c, p.1) }

/-- An operation that met a fault (R63, R139, R317). What the station keeps of it stays part of the operation, which is outstanding until it
is performed (R151). -/
def State.opFault (s : State) (w : Who) (o : Op) : State :=
  let o := { o with parts := s.cutParts w o.parts }
  let x := o.parts.foldl (Rest.part w) { s := s, o := o, sus := [], wait := [], bad := none }
  match x.bad with
  | some (c, va) => x.s.opTrap w x.o c va x.wait
  | none =>
    let o' := { x.o with held := true }
    let r := x.s.rcx w
    if w.rc < 3 ∧ r.run = .running ∧ r.inv = o.inv then
      (x.s.setRcx w (r.dropOp o.seq)).suspendFault w (.op o') o.pc r.pc x.sus 1
    else
      let s := x.s.modRcx w fun r => r.putOp o'
      x.sus.foldl (fun s p => s.postHeld (dieOf w.core) (s.coreRec w p.2.2 p.1 o.pc) (.op (s.party w) o.seq) false) s

/-- The fault that part d of operation o would meet now, if any. -/
def State.opFaults (s : State) (w : Who) (o : Op) (d : Nat) : Option Nat :=
  match s.pick w o d with
  | none => none
  | some (p, o') => match s.doPart w o' p.1 p.2 false with
    | .bad _ c => some c
    | _ => none

/-- Sends a part of an operation to a peer module (R358, R359). -/
def State.toPeer (s : State) (w : Who) (o : Op) (va n : Nat) : State :=
  let home := (s.peek w va).getD (peerHome 0)
  let p := (s.tenant w.core w.ctx).partid
  { s with peerReqs := s.peerReqs ++
      [{ port := peerPort home, rpart := s.rpart (peerPort home) p, ipa := home % 2 ^ 52, k := o.k,
         data := match o.k with | .store => BitVec.ofNat 128 (leNat (o.dataBytes va n)) | _ => o.data,
         xfer := none, who := s.party w, seq := o.seq, va := va, n := n, issued := s.time, cmp := o.cmp,
         leaves := if o.k.isStore then ((s.leafOf w va).map (·.leaves)).getD [] else [] }] }

/-- Performs part d of operation o of w, if the edges and the home permit; none where nothing takes place. -/
def State.perform (s : State) (w : Who) (o : Op) (d : Nat) : Option State :=
  if !s.mayPerform w o then none
  else if o.parts.isEmpty then match o.k with
    | .rkload .. => none
    | _ => some (s.complete w o)
  else match s.pick w o d with
    | none => none
    | some ((va, n), o') =>
      match s.doPart w o' va n false with
      | .wait => none
      | .again s' => some s'
      | .peer s' =>
        let s' := s'.modRcx w fun r => r.putOp { o' with peer := true, parts := (va, n) :: o'.parts }
        some (s'.toPeer w o va n)
      | .bad _ _ => some (s.opFault w o)
      | .ok s' o' => if o'.parts = [] then some (s'.complete w o') else some (s'.modRcx w fun r => r.putOp o')

/-- The operation with a number. -/
def RegCtx.findOp (r : RegCtx) (q : Nat) : Option Op := r.ops.find? fun o => o.seq == q

/-- Performs operation q of w as far as it goes at once. -/
def State.settle (s : State) (w : Who) (q : Nat) : Nat → State
  | 0 => s
  | n + 1 => match (s.rcx w).findOp q with
    | none => s
    | some o => match s.perform w o 0 with
      | some s' => s'.settle w q n
      | none => s

/-! ## Issuing an operation -/

/-- The granule parts of an access (R62). -/
def splitParts (va n : Nat) : List (Nat × Nat) :=
  if va % 16 + n ≤ 16 then [(va, n)] else [(va, 16 - va % 16), (va + (16 - va % 16), n - (16 - va % 16))]

/-- A fresh operation. -/
def mkOp (k : OpK) (va n : Nat) (data cmp : Gran) (dest : Dest) (aq rl : Bool) : Op :=
  { seq := 0, pc := 0, k := k, va := va, n := n, data := data, cmp := cmp, dest := dest, aq := aq, rl := rl, parts := splitParts va n,
    got := [], peer := false, held := false, inv := 0 }

/-- How many acts an operation may take: each part, cut in two on a narrow path, and its end. -/
def Op.acts (o : Op) : Nat := 2 * o.parts.length + 1

/-- Issues an operation of the instruction at pc and retires it; where operations are performed at issue (State.eager), the
operation is performed as far as it can be. -/
def State.issue (s : State) (o : Op) : State :=
  let r := s.rc
  let o := { o with seq := r.seq, pc := r.pc, inv := r.inv, task := r.task }
  let s := (s.setRcx s.cur { r with ops := r.ops ++ [o], seq := r.seq + 1 }).retire
  if s.eager then s.settle s.cur o.seq o.acts else s

/-! ## Busy registers and waits at issue (R59) -/

/-- Register x[i] waits for an outstanding operation (R59). -/
def RegCtx.busyX (r : RegCtx) (i : Nat) : Bool :=
  i != 0 && r.ops.any fun o => match o.dest with
    | .x rd _ _ => rd == i
    | .pair rd => rd != 0 && (rd == i || rd + 1 == i)
    | .fill f => f.rx == some i
    | _ => false

/-- A region register waits for one. -/
def RegCtx.busyG (r : RegCtx) (i : Nat) : Bool :=
  i != 0 && r.ops.any fun o => match o.dest with
    | .fill f => f.rg == some i
    | _ => false

def RegCtx.busyW (r : RegCtx) (i : Nat) : Bool := r.ops.any fun o => o.dest == .w i

/-- An acquire of the acting party is outstanding: no later load, store, atomic, engine command or SEND goes past it (R143, R158). -/
def State.acquiring (s : State) : Bool := (s.opsOf s.cur).any fun o => o.aq

/-- A store of the acting party is outstanding. -/
def State.storing (s : State) : Bool := (s.opsOf s.cur).any fun o => o.k.isStore

/-- 16 loads, or 16 stores, are outstanding: a further one stalls at issue (R58). -/
def RegCtx.full (r : RegCtx) (k : OpK) : Bool :=
  decide (16 ≤ (r.ops.filter fun o => o.k.isLoad == k.isLoad && o.k.isStore == k.isStore).length)

/-! ## Reads made at issue -/

/-- What a read or a write made at issue gives. `again`: the instruction does not issue yet, one of its reads has been made or asked for; a fault
has the number of bytes of the read that met it, 0 for none. -/
inductive Acc (α : Type) where
  | ok (s : State) (a : α)
  | stall
  | again (s : State)
  | fault (s : State) (cause va n : Nat)

/-- Goes on with a result, or stalls, or takes the fault. -/
def Acc.then {α : Type} (a : Acc α) (s0 : State) (f : State → α → Out) : Out :=
  match a with
  | .ok s x => f s x
  | .stall => Sys2Proof.Machine.stall s0
  | .again s => Sys2Proof.Machine.stall s
  | .fault s c va n => memFault s c va n

/-- Goes on with what an access gave. -/
def Acc.bind {α β : Type} (a : Acc α) (f : State → α → Acc β) : Acc β :=
  match a with
  | .ok s x => f s x
  | .stall => .stall
  | .again s => .again s
  | .fault s c va n => .fault s c va n

/-- A check within an access: a cause with the value for its slot where it fails. -/
def Acc.guard (s : State) (c : Bool) (cause va : Nat) : Acc Unit := if c then .ok s () else .fault s cause va 1

/-- Bytes [va, va + n) among bytes by address, where all of them are there. -/
def keptBytes (k : List (Nat × Byte)) (va n : Nat) : Option (List Byte) :=
  if k.isEmpty then none
  else if (List.range n).all fun i => k.any fun p => p.1 == va + i then some ((List.range n).map fun i => Tbl.get 0 k (va + i)) else none

/-- Bytes by address. -/
def byAddr (va : Nat) (bs : List Byte) : List (Nat × Byte) := bs.zipIdx.map fun q => (va + q.2, q.1)

/-- Bytes that a read of the instruction at the pc of w has returned are kept for it. -/
def State.keepRead (s : State) (w : Who) (va : Nat) (bs : List Byte) : State := s.modRcx w fun r => { r with kept := r.kept ++ byAddr va bs }

/-- A read of w at issue, of n bytes at va, with an access code, leaves for a peer module (R358, R359). -/
def State.askEarly (s : State) (w : Who) (home va n acc : Nat) : State :=
  { s with peerReqs := s.peerReqs ++ [{ port := peerPort home, rpart := s.rpart (peerPort home) (s.tenant w.core w.ctx).partid, ipa := home % 2 ^ 52, k := .load,
                                        data := 0, xfer := none, who := s.party w, seq := acc, va := va, n := n, issued := s.time, by_ := .early (s.rcx w).inv }] }

/-- Such a read is out. -/
def State.askedEarly (s : State) (w : Who) (va : Nat) : Bool :=
  s.peerReqs.any fun r => r.by_ == .early (s.rcx w).inv && r.who == s.party w && r.va == va

/-- An outstanding operation of the party touches an ordering unit of an access (R158, "Same granule"), or a fence keeps the access, of kinds
k, back. -/
def State.clash (s : State) (w : Who) (k va n : Nat) : Bool :=
  let u := s.units w [(va, n)]
  (s.opsOf w).any (fun o => (s.units w o.parts).any fun g => u.contains g)
    || s.barred w (s.rcx (s.party w)).seq k fun c => s.addrIn w c va

/-- A read of n bytes of one granule at issue, with the access code of an engine (3) or a core (0); what a read has returned before is used as it
is (R139); a peer module is asked. -/
def State.readOnce (s : State) (w : Who) (acc va n : Nat) : Acc (List Byte) :=
  match keptBytes (s.rcx w).kept va n with
  | some bs => .ok s bs
  | none =>
    if s.clash w 1 va n then .stall
    else
      let l := s.locate w va 1 false
      match l.res with
      | .error k => .fault l.s (mcause acc k) va n
      | .wait => .stall
      | .asked => .again l.s
      | .ok sp =>
        if s.heldLine sp.home then .stall
        else if l.s.poisoned sp.home n then .fault l.s (poisonCause sp.home acc) va n
        else if space sp.home = .peer then (if s.askedEarly w va then .stall else .again (l.s.askEarly w sp.home va n acc))
        else
          let rd := l.s.readAt sp n
          .ok (rd.1.chargeAt (s.tenant w.core w.ctx).partid w.ctx sp.home n false) (overlay (if acc = 0 then s.specStores w else []) sp.home rd.2)

/-- The parts of a read, in order, all at once. -/
def State.readAll (s : State) (w : Who) (acc : Nat) : List (Nat × Nat) → Acc (List Byte)
  | [] => .ok s []
  | (va, n) :: t => (s.readOnce w acc va n).bind fun s bs => (s.readAll w acc t).bind fun s cs => .ok s (bs ++ cs)

/-- Reads the bytes of several parts, in order: each is performed at an instant of its own (R156). Where `look` names one of those still to be made, that
one is made alone, and its bytes are kept; else they are all made now. -/
def State.readParts (s : State) (w : Who) (acc : Nat) (l : List (Nat × Nat)) : Acc (List Byte) :=
  match s.look with
  | none => s.readAll w acc l
  | some d => match (l.filter fun (p : Nat × Nat) => (keptBytes (s.rcx w).kept p.1 p.2).isNone)[d]? with
    | none => s.readAll w acc l
    | some p => (s.readOnce w acc p.1 p.2).bind fun s bs => .again (s.keepRead w p.1 bs)

/-- The granule parts of a range of any length. -/
def rangeParts (va n : Nat) : List (Nat × Nat) :=
  (granules va n).map fun g =>
    let lo := max va (g * 16)
    (lo, min (va + n) (g * 16 + 16) - lo)

/-- Reads a range at issue, granule by granule. -/
def State.readRange (s : State) (w : Who) (va n : Nat) : Acc (List Byte) := s.readParts w 0 (rangeParts va n)

/-- Reads n bytes of one page at issue, n and the address multiples of 64, all at one instant (R154, R230): a record is fetched whole. -/
def State.readWhole (s : State) (w : Who) (va n : Nat) : Acc (List Byte) :=
  match keptBytes (s.rcx w).kept va n with
  | some bs => .ok s bs
  | none =>
    if s.clash w 1 va n then .stall
    else
      let l := s.locate w va 1 false
      match l.res with
      | .error k => .fault l.s (mcause 0 k) va n
      | .wait => .stall
      | .asked => .again l.s
      | .ok sp =>
        if (List.range (n / 64)).any fun i => s.heldLine (sp.home + 64 * i) then .stall
        else if l.s.poisoned sp.home n then .fault l.s (poisonCause sp.home 0) va n
        else
          let rd := (List.range (n / 64)).foldl (fun (q : State × List Byte) i =>
            let r := q.1.readAt { sp with home := sp.home + 64 * i } 64; (r.1, q.2 ++ r.2)) (l.s, [])
          .ok (rd.1.chargeAt (s.tenant w.core w.ctx).partid w.ctx sp.home n false) (overlay (s.specStores w) sp.home rd.2)

/-- Bytes of own TCM as they stand, but for those that reads of the instruction have returned. -/
def State.tcmNow (s : State) (w : Who) (off n : Nat) : List Byte :=
  let k := (s.rcx w).kept
  let bs := s.bytes (tcmHome w.core w.ctx + off) n
  if k.isEmpty then bs else bs.zipIdx.map fun q => Tbl.get q.1 k (off + q.2)

/-- Bytes of own TCM, read after every earlier store of the register context to them, each granule at an instant of its own (R156). -/
def State.readTcm (s : State) (w : Who) (off n : Nat) : Acc (List Byte) :=
  let open_ := match s.look with
    | none => none
    | some d => ((rangeParts off n).filter fun (p : Nat × Nat) => (keptBytes (s.rcx w).kept p.1 p.2).isNone)[d]?
  let p := open_.getD (off, n)
  if s.clash w 1 p.1 p.2 then .stall
  else if s.poisoned (tcmHome w.core w.ctx + p.1) p.2 then .fault s 0xA8 p.1 p.2
  else if open_.isSome then .again (s.keepRead w p.1 (s.tcmNow w p.1 p.2))
  else .ok s (s.tcmNow w off n)

end Sys2Proof.Machine
end

