-- ==== Sys2Proof/Machine/Hash.lean ====
section
/-! DEFINITION. SHAKE256 and KMAC256, which R266, R345 and R347 name (FIPS 202, SP 800-185; PRESUMED, log 19). -/

namespace Sys2Proof.Machine

/-- The 25 lanes of the permutation's state; lane (x, y) has number x + 5 y. -/
abbrev Lanes := List (BitVec 64)

def Lanes.lane (l : Lanes) (k : Nat) : BitVec 64 := l.getD (k % 25) 0

/-- The lane numbers that π visits from (1, 0), each the image of the one before: (x, y) goes to (y, 2 x + 3 y). -/
def piWalk : Nat → Nat → List Nat
  | 0, _ => []
  | n + 1, k => k :: piWalk n (k / 5 + 5 * ((2 * (k % 5) + 3 * (k / 5)) % 5))

/-- The bit that the feedback register of ι holds, shifted t times from 1. -/
def feedback : Nat → Nat
  | 0 => 1
  | t + 1 => let v := 2 * feedback t
             if v < 256 then v else v % 256 ^^^ 0x71

/-- What ι adds to lane 0 in round r: bit 2^j − 1 is the low bit of the register at time j + 7 r. -/
def iotaWord (r : Nat) : BitVec 64 :=
  (List.range 7).foldl (fun w j => if (feedback (j + 7 * r)).testBit 0 then w ||| 1#64 <<< (2 ^ j - 1) else w) 0

/-- One round: the parities of the columns spread (θ), every lane but the first turned and moved along the walk (ρ, π: the t-th
    by (t + 1)(t + 2)/2), the rows mixed (χ), the round's word added (ι). -/
def keccakRound (l : Lanes) (r : Nat) : Lanes :=
  let parity := fun x => ((List.range 5).map fun y => l.lane (x % 5 + 5 * y)).foldl (· ^^^ ·) 0#64
  let spread : Lanes := (List.range 25).map fun k => l.lane k ^^^ parity (k + 4) ^^^ (parity (k + 1)).rotateLeft 1
  let walk := piWalk 25 1
  let moved := (List.range 24).foldl (fun (m : Lanes) t =>
    m.set (walk.getD (t + 1) 0) ((spread.lane (walk.getD t 0)).rotateLeft (((t + 1) * (t + 2) / 2) % 64))) spread
  let row := fun k d => moved.lane (k / 5 * 5 + (k + d) % 5)
  let mixed : Lanes := (List.range 25).map fun k => moved.lane k ^^^ (row k 2 &&& ~~~(row k 1))
  mixed.set 0 (mixed.lane 0 ^^^ iotaWord r)

def keccakF (l : Lanes) : Lanes := (List.range 24).foldl keccakRound l

/-- The rate in bytes. -/
def rate : Nat := 136

/-- Absorbs whole blocks of the rate. -/
def absorb : Nat → Lanes → List Byte → Lanes
  | 0, l, _ => l
  | n + 1, l, bs =>
    let words := (List.range 25).map fun k => if k < rate / 8 then BitVec.ofNat 64 (leNat (((bs.take rate).drop (8 * k)).take 8)) else 0
    absorb n (keccakF (List.zipWith (· ^^^ ·) l words)) (bs.drop rate)

/-- Padding from a suffix byte. -/
def keccakPad (bs : List Byte) (suffix : Nat) : List Byte :=
  let k := rate - bs.length % rate
  if k = 1 then bs ++ [BitVec.ofNat 8 (suffix + 0x80)] else bs ++ [BitVec.ofNat 8 suffix] ++ List.replicate (k - 2) 0 ++ [0x80]

/-- A sponge of at most 136 bytes of output. -/
def sponge (bs : List Byte) (suffix n : Nat) : List Byte :=
  let p := keccakPad bs suffix
  (((absorb (p.length / rate) (List.replicate 25 0) p).take 17).flatMap fun l => leBytes l.toNat 8).take n

/-- SHAKE256 of at most 136 bytes. -/
def shake256 (bs : List Byte) (n : Nat) : List Byte := sponge bs 0x1F n

/-- A number in bytes, the most significant first, for numbers below 2^16. -/
def beNum (n : Nat) : List Byte := if n < 256 then [BitVec.ofNat 8 n] else [BitVec.ofNat 8 (n / 256), BitVec.ofNat 8 n]
def leftEncode (n : Nat) : List Byte := BitVec.ofNat 8 (beNum n).length :: beNum n
def rightEncode (n : Nat) : List Byte := beNum n ++ [BitVec.ofNat 8 (beNum n).length]
def encodeString (bs : List Byte) : List Byte := leftEncode (8 * bs.length) ++ bs
def bytePad (bs : List Byte) : List Byte :=
  let x := leftEncode rate ++ bs
  x ++ List.replicate ((rate - x.length % rate) % rate) 0

/-- The bytes of a text. -/
def ascii (t : String) : List Byte := t.toList.map fun c => BitVec.ofNat 8 c.toNat

/-- KMAC256 with n bytes of output. -/
def kmac256 (key x : List Byte) (n : Nat) (custom : String) : List Byte :=
  sponge (bytePad (encodeString (ascii "KMAC") ++ encodeString (ascii custom)) ++ bytePad (encodeString key) ++ x ++ rightEncode (8 * n)) 0x04 n

end Sys2Proof.Machine
end

