-- ==== Sys2Proof/Machine/Log.lean ====
section
/-! DEFINITION. The usage log of a partition (R345–R347): records, their chain, batches and signature entries, the rings. -/

namespace Sys2Proof.Machine

/-- Writes bytes at an intermediate address, granule by granule; false at the first that is not reached (R384). -/
def State.writeAll2 (s : State) (p ipa : Nat) (bs : List Byte) : State × Bool :=
  (rangeParts ipa bs.length).foldl (fun (r : State × Bool) x =>
    if r.2 then r.1.write2 p x.1 ((bs.drop (x.1 - ipa)).take x.2) else r) (s, true)

/-- Moves waiting records to the ring, while it has room, the host does not hold its lines and peer modules have answered the entries of tables that lead
to it (R346, R356, R358); at most n. -/
def State.flushRecs (s : State) (p : Nat) : Nat → State
  | 0 => s
  | n + 1 =>
    let q := s.part p
    match q.log.recs with
    | [] => s
    | r :: rest =>
      if q.logbase = 0 ∨ (q.loghead + 1) % q.loglen = q.logtail % q.loglen then s
      else if s.held2 p (q.logbase + q.loghead * 128) 128 then s.ask2 p (q.logbase + q.loghead * 128) 128
      else
        let (s', ok) := s.writeAll2 p (q.logbase + q.loghead * 128) r
        if ok then
          (s'.modPart p fun q => { q with loghead := (q.loghead + 1) % q.loglen, log := { q.log with recs := rest } }).flushRecs p n
        else s.pbound p (q.logbase + q.loghead * 128)

/-- The same for signature entries. -/
def State.flushSigs (s : State) (p : Nat) : Nat → State
  | 0 => s
  | n + 1 =>
    let q := s.part p
    match q.log.sigs with
    | [] => s
    | r :: rest =>
      if q.sigbase = 0 ∨ (q.sighead + 1) % q.siglen = q.sigtail % q.siglen then s
      else if s.held2 p (q.sigbase + q.sighead * 3072) 3072 then s.ask2 p (q.sigbase + q.sighead * 3072) 3072
      else
        let (s', ok) := s.writeAll2 p (q.sigbase + q.sighead * 3072) r
        if ok then
          (s'.modPart p fun q => { q with sighead := (q.sighead + 1) % q.siglen, log := { q.log with sigs := rest } }).flushSigs p n
        else s.pbound p (q.sigbase + q.sighead * 3072)

def State.flushLog (s : State) (p : Nat) : State :=
  (s.flushRecs p (s.part p).log.recs.length).flushSigs p (s.part p).log.sigs.length

/-- The hub buffer is full: no launch status is written and no context is switched in (R346). -/
def Part.logFull (q : Part) : Bool := decide (4096 ≤ q.log.recs.length) || decide (64 ≤ q.log.sigs.length)

/-- A signature entry (R347). The signature is a free value. -/
def sigEntry (first last time keyidx type : Nat) (body : List Byte) (index : Nat) : List Byte :=
  leBytes first 8 ++ leBytes last 8 ++ leBytes time 8 ++ leBytes keyidx 4 ++ leBytes type 4 ++ body
    ++ (List.range 2820).map (Config.sigByte index) ++ List.replicate 156 0

/-- The log key that a partition's next batch is signed with: its own, or, where it has none or has used it up, the next one of the module, whose
certificate the identity key signs (R347, R364). The indexes of both outlast every reset. -/
def State.takeLogKey (s : State) (p : Nat) : State :=
  let l := (s.part p).log
  if l.certDone then s
  else
    let cert := sigEntry 0 0 s.time s.nextLogKey 1 ((List.range 64).map fun j => Config.logKeyByte s.nextLogKey j) (2 ^ 80 + s.idIndex)
    State.modPart { s with nextLogKey := s.nextLogKey + 1, idIndex := s.idIndex + 1 } p fun q =>
      { q with log := { l with keyidx := s.nextLogKey, signed := 0, certDone := true, sigs := l.sigs ++ [cert] } }

/-- Closes the open batch (R347): the certificate of a log key comes before its first batch; a key signs at most 2^20 batches. -/
def State.closeBatch (s : State) (p : Nat) : State :=
  if (s.part p).log.batchCount = 0 then s
  else
    let s := s.takeLogKey p
    let l := (s.part p).log
    let batch := sigEntry l.batchFirst (l.seq - 1) s.time l.keyidx 0 (l.prev ++ List.replicate 32 0) (l.keyidx * 2 ^ 21 + l.signed)
    let l' := { l with sigs := l.sigs ++ [batch], batchCount := 0, certDone := decide (l.signed + 1 < 2 ^ 20), signed := l.signed + 1 }
    State.flushLog (s.modPart p fun q => { q with log := l' }) p

/-- PREV of the first record of an epoch. -/
def logSeed (p epoch : Nat) : List Byte := shake256 (ascii "GNOPOR-LOG" ++ leBytes p 1 ++ leBytes epoch 4) 32

/-- Appends a usage record (R345); a batch of 64 records closes first. -/
def State.usage (s : State) (p kind ctx id : Nat) (vals : List Nat) : State :=
  let s := if 64 ≤ (s.part p).log.batchCount then s.closeBatch p else s
  let q := s.part p
  let l := q.log
  let prev := if l.prev = [] then logSeed p q.epoch else l.prev
  let r := leBytes l.seq 8 ++ leBytes s.time 8 ++ leBytes kind 1 ++ leBytes ctx 1 ++ leBytes p 1 ++ List.replicate 5 0 ++ leBytes id 4
    ++ List.replicate 4 0 ++ ((List.range 8).flatMap fun i => leBytes (vals.getD i 0) 8) ++ prev
  let l' := { l with recs := l.recs ++ [r], seq := l.seq + 1, prev := shake256 r 32, batchCount := l.batchCount + 1,
                     batchFirst := if l.batchCount = 0 then l.seq else l.batchFirst, batchTime := if l.batchCount = 0 then s.time else l.batchTime }
  State.flushLog (s.setPart p { q with log := l' }) p

end Sys2Proof.Machine
end

