-- ==== Sys2Proof/Machine/Operands.lean ====
section
/-! DEFINITION. Operand forms: the registers an instruction waits for at issue (R59), features (R350), the checks of loads and
stores, and w-register fields that may name a port (R44, R87, R145, R197). -/

namespace Sys2Proof.Machine

/-- An instruction that reads or writes a busy register stalls at issue (R59). -/
def useX (s : State) (regs : List Nat) (body : Out) : Out := if regs.any s.rc.busyX then stall s else body

/-- The same of region registers (R59, R231). -/
def useG (s : State) (regs : List Nat) (body : Out) : Out := if regs.any s.rc.busyG then stall s else body

/-- Step 4 of R56: an instruction of a masked feature raises FEATURE_MASKED, with its word in the address slot (R57). -/
def feature (i : Instr) (fs : List Nat) (s : State) (body : Out) : Out :=
  if fs.any fun f => bits (s.part s.tn.partid).feat f 1 == 1 then
    trapNow s 0x02 (BitVec.ofNat 64 ((encode i).getD 0)) 0
  else body

/-- Normal-context-only state used from another register context (R71). -/
def normalOnly (s : State) (body : Out) : Out := if s.cur.rc ≠ 0 then trapNow s 0x08 0 0 else body

/-- A later access does not go past an outstanding acquire (R143, R158). -/
def orderly (s : State) (body : Out) : Out := if s.acquiring then stall s else body

/-! ## The w field: w0–w23 and the ports q0–q7 -/

/-- How long the staging of a Sluice input has been full by a time (R247). -/
def Port.waitedBy (p : Port) (now : Nat) : Nat := if p.kind = 1 ∧ 64 ≤ p.stage.length then p.waited + (now - p.fullAt) else p.waited

/-- The direction of a port as the core sees it (R259): 0 unbound, 1 input, 2 output. -/
def Port.dir (p : Port) : Nat :=
  match p.kind with
  | 1 => 1 | 2 => 2 | 3 => 1 | 4 => 1 | 5 => 2 | _ => 0

/-- The bytes of an element of a tensor format (R226); LNS6 is one byte. -/
def fmtSize (f : Nat) : Nat := match f with | 0 => 1 | 1 => 2 | 2 => 4 | 3 => 8 | 4 => 2 | 5 => 2 | 6 => 4 | 7 => 8 | _ => 1

/-- The elements of a stream or a sink: granules of packed cells (R255, R256). -/
def Xfer.elems (x : Xfer) : Nat :=
  (x.moves.length * (match x.src.or x.dst with | some d => fmtSize d.fmt | none => 1) + 15) / 16

/-- Elements owed to an input port by accepted streams and issued walks (R260); a stream that has delivered all of its elements owes none. -/
def State.owes (s : State) (core ctx q : Nat) : Bool :=
  s.xfers.any (fun x => x.who.core == core && x.who.ctx == ctx && x.port == q && (x.kind == .stream || x.kind == .gather) && x.accepted && decide (x.done < x.elems))
    || s.walks.any fun k => k.who.core == core && k.who.ctx == ctx && k.port == q

/-- What reading a w field gives: the value and the state after it (a port is popped), a stall, or a cause. -/
inductive WRead where
  | ok (s : State) (v : Gran)
  | stall
  | bad (cause : Nat)

/-- Reads a w field as a source (R87, R145, R197, R260). -/
def State.readW (s : State) (i : Nat) : WRead :=
  let r := s.rc
  if i < 24 then (if r.busyW i then .stall else .ok s (r.rw i))
  else if i = 24 then
    match r.msg with
    | some m => match m.ext[r.q0]? with
      | some v => .ok (s.setRcx s.cur { r with q0 := r.q0 + 1 }) v
      | none => .bad 0x28
    | none => .bad 0x28
  else if i = 25 then .bad 0x2F
  else if s.cur.rc ≠ 0 then .bad 0x08
  else
    let t := s.tn
    let p := t.port (i - 24)
    match p.dir with
    | 0 => .bad 0x29
    | 2 => .bad 0x2F
    | _ => match p.buf with
      | v :: rest =>
        let s := s.setTenant s.cur.core s.cur.ctx (t.setPort (i - 24)
          { p with buf := rest ++ p.stage.take 1, stage := p.stage.drop 1, tasks := p.tasks.drop 1, waited := p.waitedBy s.time })
        let s := if p.kind = 4 then
            { s with ncredits := s.ncredits ++ [{ core := t.ctab.getD p.peer 0, ctx := s.cur.ctx, q := p.peerPort, fromCore := s.cur.core,
                                                  fromQ := i - 24, v := 0 }] }
          else s
        .ok s v
      | [] => if p.kind ≠ 4 && s.owes s.cur.core s.cur.ctx (i - 24) then .stall else .bad 0x39

/-- The cause that a write of a w field would raise, 0 for none, or a stall (R87, R145, R256, R260). -/
inductive WCheck where
  | ok
  | stall
  | bad (cause : Nat)

/-- The elements that accepted RSINKs of a port still await. -/
def State.sinkOwed (s : State) (core ctx q : Nat) : Nat :=
  (s.xfers.filter fun x => x.who.core == core && x.who.ctx == ctx && x.port == q && x.kind == .sink && x.accepted).foldl
    (fun n x => n + (x.elems - x.done)) 0

def State.checkW (s : State) (i : Nat) : WCheck :=
  let r := s.rc
  if i < 24 then (if r.busyW i then .stall else .ok)
  else if i = 24 then .bad 0x2F
  else if i = 25 then (if 16 ≤ r.outbox.length then .bad 0x2E else .ok)
  else if s.cur.rc ≠ 0 then .bad 0x08
  else
    let p := s.tn.port (i - 24)
    let pend := (r.ops.filter fun o => o.dest == .port (i - 24)).length
    match p.dir with
    | 0 => .bad 0x29
    | 1 => .bad 0x2F
    | _ =>
      if p.kind = 5 then (if p.credits ≤ pend then .bad 0x38 else .ok)
      else
        let owed := s.sinkOwed s.cur.core s.cur.ctx (i - 24)
        if owed + 8 ≤ p.buf.length + pend then .bad 0x2E
        else if 8 ≤ p.buf.length + pend then .stall
        else .ok

/-- Writes a w field: a register, the outbox, a port. -/
def State.writeW (s : State) (i : Nat) (v : Gran) : State :=
  if i < 24 then s.modRcx s.cur fun r => r.ww i v
  else if i = 25 then s.modRcx s.cur fun r => { r with outbox := r.outbox ++ [some v] }
  else s.push s.cur.core s.cur.ctx (i - 24) v

/-- Reads a source field and goes on with its value. -/
def srcW (s : State) (i : Nat) (f : State → Gran → Out) : Out :=
  match s.readW i with
  | .ok s' v => f s' v
  | .stall => stall s
  | .bad c => trapNow s c 0 0

/-- Checks a destination field and goes on. -/
def dstW (s : State) (i : Nat) (body : Out) : Out :=
  match s.checkW i with
  | .ok => body
  | .stall => stall s
  | .bad c => trapNow s c 0 0

/-! ## Checks of an access at issue -/

/-- The cause that an access of w of n bytes raises before any part of it is issued (R62, R63, R114, R123): the code and the address for
its slot. `align` is the alignment it needs. -/
def State.accessBad (s : State) (w : Who) (va n align : Nat) (acc : Nat) (write : Bool) : Option (Nat × Nat) :=
  if va % align ≠ 0 then some (0x20, va)
  else
    let ids := (List.range n).map fun i => s.windowId w (va + i)
    match ids.findIdx? (· == 0) with
    | some i => some (mcause acc 6, va + i)
    | none =>
      if ids.any fun k => k != ids.headD 0 then some (0x20, va)
      else if write && s.specStoreBad w va n then some (0x85, va)
      else if !s.footOk w va n write then some (0x26, va)
      else none

/-- Checks an access and goes on. -/
def access (s : State) (va n align acc : Nat) (write : Bool) (body : Out) : Out :=
  match s.accessBad s.cur va n align acc write with
  | some (c, a) => trapNow s c (BitVec.ofNat 64 a) 0
  | none => body

/-- The bytes in use of the speculation store of a die: the data bytes of its buffered stores (R15, R123; DESIGN CHOICE, log 60). -/
def State.specUsed (s : State) (die : Nat) : Nat :=
  s.tasks.foldl (fun n t => if dieOf t.core = die then n + t.stores.foldl (fun n m => n + m.bytes.length) 0 else n) 0

/-- What the parts of a speculative task's store come to before any of them takes place: whether some must wait, the addresses of those whose pages do not
translate with their causes, the first cause that does not suspend; `wide`: the store needs 16-byte atomicity (R143). -/
structure SpecPlan where
  s : State
  wide : Bool
  wait : Bool
  sus : List (Nat × Nat)
  bad : Option (Nat × Nat)

/-- One part of the plan: all parts are tried, and neither waits for the other's outcome (R63). -/
def SpecPlan.part (w : Who) (r : SpecPlan) (p : Nat × List Byte) : SpecPlan :=
  let l := r.s.locate w p.1 2 false
  let no := fun (c : Nat) =>
    if suspends c then { r with s := l.s, sus := r.sus ++ [(p.1, c)] }
    else { r with s := l.s, bad := match r.bad with | some b => some b | none => some (c, p.1) }
  if r.wide && (l.tier == some .host || l.tier == some .tier2) then no (mcause 1 7)
  else match l.res with
  | .wait => { r with wait := true }
  | .asked => { r with s := l.s, wait := true }
  | .error k => no (mcause 1 k)
  | .ok sp =>
    if r.s.heldLine sp.home && r.s.window w p.1 != .global then { r with wait := true }
    else if l.s.poisonedPart sp.home p.2.length then no (poisonCause sp.home 1)
    else { r with s := l.s }

/-- The bytes of an operation's parts. -/
def Op.byteParts (o : Op) : List (Nat × List Byte) := o.parts.map fun p => (p.1, o.dataBytes p.1 p.2)

/-- One part takes place: into the speculation store, with its place in program order, or, in own TCM, at its home. -/
def State.specPart (s : State) (w : Who) (rl : Bool) (p : Nat × List Byte) : State :=
  let l := s.locate w p.1 2 false
  match l.res with
  | .ok sp =>
    if s.window w p.1 = .global then l.s.buffer w (s.rcx w).task sp p.1 p.2 (s.rcx w).seq rl
    else l.s.writeAt sp p.2 256
  | _ => s

/-- The stores of a speculative task that met faults suspend it: it waits for the first, the station keeps the others, and each goes to the speculation
store once it is replayed (R63, R317). Each part has its cause. -/
def State.suspendSpec (s : State) (os : List Op) (sus : List (Nat × Nat)) : State :=
  let c := s.rc
  let cause := fun (va : Nat) => Tbl.get 0 sus va
  let os := os.zipIdx.map fun p => { p.1 with seq := c.seq + p.2, pc := c.pc, inv := c.inv, task := c.task, held := true, spec := true }
  match os with
  | [] => s
  | o :: rest =>
    let s := s.setRcx s.cur { c with ops := c.ops ++ rest, seq := c.seq + os.length }
    let s := s.suspendFault s.cur (.op o) c.pc (c.pc + 4) (o.parts.map fun p => (p.1, p.2, cause p.1)) 0
    rest.foldl (fun s e => e.parts.foldl (fun s p =>
      s.postHeld (dieOf s.cur.core) (s.coreRec s.cur (cause p.1) p.1 c.pc) (.op (s.party s.cur) e.seq)
        (s.peerFault s.cur p.1 (needAt c.pc (cause p.1) p.1))) s) s

/-- The stores of an instruction of a speculative task (R123): its parts go to the speculation store, or to own TCM at once; where parts do not translate,
the others take place, and the instruction suspends with those (R63). A buffered store
is performed when its task leaves speculation (R157): what comes after a fence does not wait for it. `rl`: a release; `wide`: it needs 16-byte
atomicity; `pop` takes the stored element from a port. -/
def specStore (s : State) (os : List Op) (rl wide : Bool) (pop : State → State) : Out :=
  let parts := os.flatMap Op.byteParts
  let total := parts.foldl (fun n p => n + p.2.length) 0
  let direct := parts.filter fun p => s.window s.cur p.1 != .global
  if 4 * 2 ^ 20 < s.specUsed (dieOf s.cur.core) + total ∨ direct.any (fun p => s.clash s.cur 2 p.1 p.2.length)
      ∨ (rl ∧ !direct.isEmpty ∧ !(s.opsOf s.cur).isEmpty) then stall s
  else
    let r := parts.foldl (SpecPlan.part s.cur) { s := s, wide := wide, wait := false, sus := [], bad := none }
    match r.bad with
    | some (c, va) => memFault r.s c va 1
    | none =>
      if r.wait then stall r.s
      else
        let out := fun (va : Nat) => r.sus.any fun p => p.1 == va
        let t := pop (State.modRcx ((parts.filter fun p => !out p.1).foldl (fun s p => s.specPart s.cur rl p) r.s) s.cur fun c => { c with seq := c.seq + 1 })
        if r.sus.isEmpty then .next t.retire
        else .next (t.suspendSpec ((os.map fun o => { o with parts := o.parts.filter fun p => out p.1 }).filter fun o => !o.parts.isEmpty) r.sus)

/-- Issues a load into a destination (R59, R60, R143, R144). -/
def loadOp (s : State) (va n : Nat) (dest : Dest) (aq : Bool) : Out :=
  if s.rc.full .load then stall s else .next (s.issue (mkOp .load va n 0 0 dest aq false))

/-- Issues a store (R60, R143, R144), or keeps it in the speculation store (R123). -/
def storeOp (s : State) (va n : Nat) (v : Gran) (rl : Bool) : Out :=
  if s.rc.spec then
    specStore s [mkOp .store va n v 0 .none false rl] rl (rl && n == 16) id
  else if s.rc.full .store then stall s else .next (s.issue (mkOp .store va n v 0 .none false rl))

end Sys2Proof.Machine
end

