-- ==== Sys2Proof/Machine/Scalar.lean ====
section
/-! DEFINITION. The integer instructions (R60, R61): each is one operation on register values. -/

namespace Sys2Proof.Machine

/-- An instruction on x registers with one result: it stalls while a register it uses is busy (R59); with rd = x0 it is a HINT and
reads nothing (R49). -/
def alu (rd : Nat) (regs : List Nat) (v : Word) (s : State) : Out :=
  if rd = 0 then .next (s.result 0 0) else useX s (rd :: regs) (.next (s.result rd v))

/-- The low 32 bits, sign-extended (R60 "W" forms). -/
def sxw (v : Word) : Word := (v.setWidth 32).signExtend 64

def boolW (b : Bool) : Word := if b then 1 else 0

/-- Quotient and remainder with the special cases of R61, at width n. -/
def divS {n : Nat} (a b : BitVec n) : BitVec n := if b = 0 then BitVec.allOnes n else a.sdiv b
def divU {n : Nat} (a b : BitVec n) : BitVec n := if b = 0 then BitVec.allOnes n else a.udiv b
def remS {n : Nat} (a b : BitVec n) : BitVec n := if b = 0 then a else a.srem b
def remU {n : Nat} (a b : BitVec n) : BitVec n := if b = 0 then a else a.umod b

/-- Bits [127:64] of a product of integers (R60 MULH). -/
def mulHigh (a b : Int) : Word := BitVec.ofInt 64 (a * b / 2 ^ 64)

/-- Leading and trailing zeros and ones counted (R60): 64 at zero. -/
def clzN (v : Word) : Nat := if v = 0 then 64 else 63 - v.toNat.log2
def ctzFrom (v : Nat) : Nat → Nat
  | 0 => 0
  | n + 1 => if v % 2 = 1 then 0 else 1 + ctzFrom (v / 2) n
def ctzN (v : Word) : Nat := ctzFrom v.toNat 64
def onesFrom (v : Nat) : Nat → Nat
  | 0 => 0
  | n + 1 => v % 2 + onesFrom (v / 2) n
def cpopN (v : Word) : Nat := onesFrom v.toNat 64

/-- ADDI (R60). -/
def execAddi (rd rs1 imm : Nat) (s : State) : Out := alu rd [rs1] (s.x rs1 + immS imm 12) s
/-- SLTI (R60). -/
def execSlti (rd rs1 imm : Nat) (s : State) : Out := alu rd [rs1] (boolW ((s.x rs1).slt (immS imm 12))) s
/-- SLTIU (R60). -/
def execSltiu (rd rs1 imm : Nat) (s : State) : Out := alu rd [rs1] (boolW ((s.x rs1).ult (immS imm 12))) s
/-- XORI (R60). -/
def execXori (rd rs1 imm : Nat) (s : State) : Out := alu rd [rs1] (s.x rs1 ^^^ immS imm 12) s
/-- ORI (R60). -/
def execOri (rd rs1 imm : Nat) (s : State) : Out := alu rd [rs1] (s.x rs1 ||| immS imm 12) s
/-- ANDI (R60). -/
def execAndi (rd rs1 imm : Nat) (s : State) : Out := alu rd [rs1] (s.x rs1 &&& immS imm 12) s
/-- SLLI (R60). -/
def execSlli (rd rs1 shamt : Nat) (s : State) : Out := alu rd [rs1] (s.x rs1 <<< shamt) s
/-- CLZ (R60). -/
def execClz (rd rs1 : Nat) (s : State) : Out := alu rd [rs1] (BitVec.ofNat 64 (clzN (s.x rs1))) s
/-- CTZ (R60). -/
def execCtz (rd rs1 : Nat) (s : State) : Out := alu rd [rs1] (BitVec.ofNat 64 (ctzN (s.x rs1))) s
/-- CPOP (R60). -/
def execCpop (rd rs1 : Nat) (s : State) : Out := alu rd [rs1] (BitVec.ofNat 64 (cpopN (s.x rs1))) s
/-- SEXT.B (R60). -/
def execSextB (rd rs1 : Nat) (s : State) : Out := alu rd [rs1] (((s.x rs1).setWidth 8).signExtend 64) s
/-- SEXT.H (R60). -/
def execSextH (rd rs1 : Nat) (s : State) : Out := alu rd [rs1] (((s.x rs1).setWidth 16).signExtend 64) s
/-- SRLI (R60). -/
def execSrli (rd rs1 shamt : Nat) (s : State) : Out := alu rd [rs1] (s.x rs1 >>> shamt) s
/-- SRAI (R60). -/
def execSrai (rd rs1 shamt : Nat) (s : State) : Out := alu rd [rs1] ((s.x rs1).sshiftRight shamt) s
/-- RORI (R60). -/
def execRori (rd rs1 shamt : Nat) (s : State) : Out := alu rd [rs1] ((s.x rs1).rotateRight shamt) s
/-- AUIPC (R60). -/
def execAuipc (rd imm : Nat) (s : State) : Out := alu rd [] (s.rc.pc + sext64 (imm * 4096) 32) s
/-- ADDIW (R60). -/
def execAddiw (rd rs1 imm : Nat) (s : State) : Out := alu rd [rs1] (sxw (s.x rs1 + immS imm 12)) s
/-- SLLIW (R60). -/
def execSlliw (rd rs1 shamt : Nat) (s : State) : Out := alu rd [rs1] ((((s.x rs1).setWidth 32) <<< shamt).signExtend 64) s
/-- SRLIW (R60). -/
def execSrliw (rd rs1 shamt : Nat) (s : State) : Out := alu rd [rs1] ((((s.x rs1).setWidth 32) >>> shamt).signExtend 64) s
/-- SRAIW (R60). -/
def execSraiw (rd rs1 shamt : Nat) (s : State) : Out := alu rd [rs1] ((((s.x rs1).setWidth 32).sshiftRight shamt).signExtend 64) s
/-- ADD (R60). -/
def execAdd (rd rs1 rs2 : Nat) (s : State) : Out := alu rd [rs1, rs2] (s.x rs1 + s.x rs2) s
/-- SLL (R60). -/
def execSll (rd rs1 rs2 : Nat) (s : State) : Out := alu rd [rs1, rs2] (s.x rs1 <<< ((s.x rs2).toNat % 64)) s
/-- SLT (R60). -/
def execSlt (rd rs1 rs2 : Nat) (s : State) : Out := alu rd [rs1, rs2] (boolW ((s.x rs1).slt (s.x rs2))) s
/-- SLTU (R60). -/
def execSltu (rd rs1 rs2 : Nat) (s : State) : Out := alu rd [rs1, rs2] (boolW ((s.x rs1).ult (s.x rs2))) s
/-- XOR (R60). -/
def execXorr (rd rs1 rs2 : Nat) (s : State) : Out := alu rd [rs1, rs2] (s.x rs1 ^^^ s.x rs2) s
/-- SRL (R60). -/
def execSrl (rd rs1 rs2 : Nat) (s : State) : Out := alu rd [rs1, rs2] (s.x rs1 >>> ((s.x rs2).toNat % 64)) s
/-- OR (R60). -/
def execOrr (rd rs1 rs2 : Nat) (s : State) : Out := alu rd [rs1, rs2] (s.x rs1 ||| s.x rs2) s
/-- AND (R60). -/
def execAndd (rd rs1 rs2 : Nat) (s : State) : Out := alu rd [rs1, rs2] (s.x rs1 &&& s.x rs2) s
/-- SUB (R60). -/
def execSub (rd rs1 rs2 : Nat) (s : State) : Out := alu rd [rs1, rs2] (s.x rs1 - s.x rs2) s
/-- SRA (R60). -/
def execSra (rd rs1 rs2 : Nat) (s : State) : Out := alu rd [rs1, rs2] ((s.x rs1).sshiftRight ((s.x rs2).toNat % 64)) s
/-- ANDN (R60). -/
def execAndn (rd rs1 rs2 : Nat) (s : State) : Out := alu rd [rs1, rs2] (s.x rs1 &&& ~~~(s.x rs2)) s
/-- MUL (R60). -/
def execMul (rd rs1 rs2 : Nat) (s : State) : Out := alu rd [rs1, rs2] (s.x rs1 * s.x rs2) s
/-- MULH (R60). -/
def execMulh (rd rs1 rs2 : Nat) (s : State) : Out := alu rd [rs1, rs2] (mulHigh (s.x rs1).toInt (s.x rs2).toInt) s
/-- MULHSU (R60). -/
def execMulhsu (rd rs1 rs2 : Nat) (s : State) : Out := alu rd [rs1, rs2] (mulHigh (s.x rs1).toInt (s.x rs2).toNat) s
/-- MULHU (R60). -/
def execMulhu (rd rs1 rs2 : Nat) (s : State) : Out := alu rd [rs1, rs2] (mulHigh (s.x rs1).toNat (s.x rs2).toNat) s
/-- DIV (R60, R61). -/
def execDiv (rd rs1 rs2 : Nat) (s : State) : Out := alu rd [rs1, rs2] (divS (s.x rs1) (s.x rs2)) s
/-- DIVU (R60, R61). -/
def execDivu (rd rs1 rs2 : Nat) (s : State) : Out := alu rd [rs1, rs2] (divU (s.x rs1) (s.x rs2)) s
/-- REM (R60, R61). -/
def execRem (rd rs1 rs2 : Nat) (s : State) : Out := alu rd [rs1, rs2] (remS (s.x rs1) (s.x rs2)) s
/-- REMU (R60, R61). -/
def execRemu (rd rs1 rs2 : Nat) (s : State) : Out := alu rd [rs1, rs2] (remU (s.x rs1) (s.x rs2)) s
/-- MIN (R60). -/
def execMinn (rd rs1 rs2 : Nat) (s : State) : Out := alu rd [rs1, rs2] (if (s.x rs1).slt (s.x rs2) then s.x rs1 else s.x rs2) s
/-- MINU (R60). -/
def execMinu (rd rs1 rs2 : Nat) (s : State) : Out := alu rd [rs1, rs2] (if (s.x rs1).ult (s.x rs2) then s.x rs1 else s.x rs2) s
/-- MAX (R60). -/
def execMaxx (rd rs1 rs2 : Nat) (s : State) : Out := alu rd [rs1, rs2] (if (s.x rs1).slt (s.x rs2) then s.x rs2 else s.x rs1) s
/-- MAXU (R60). -/
def execMaxu (rd rs1 rs2 : Nat) (s : State) : Out := alu rd [rs1, rs2] (if (s.x rs1).ult (s.x rs2) then s.x rs2 else s.x rs1) s
/-- SH1ADD (R60). -/
def execSh1add (rd rs1 rs2 : Nat) (s : State) : Out := alu rd [rs1, rs2] ((s.x rs1 <<< 1) + s.x rs2) s
/-- SH2ADD (R60). -/
def execSh2add (rd rs1 rs2 : Nat) (s : State) : Out := alu rd [rs1, rs2] ((s.x rs1 <<< 2) + s.x rs2) s
/-- SH3ADD (R60). -/
def execSh3add (rd rs1 rs2 : Nat) (s : State) : Out := alu rd [rs1, rs2] ((s.x rs1 <<< 3) + s.x rs2) s
/-- ROL (R60). -/
def execRol (rd rs1 rs2 : Nat) (s : State) : Out := alu rd [rs1, rs2] ((s.x rs1).rotateLeft ((s.x rs2).toNat % 64)) s
/-- ROR (R60). -/
def execRor (rd rs1 rs2 : Nat) (s : State) : Out := alu rd [rs1, rs2] ((s.x rs1).rotateRight ((s.x rs2).toNat % 64)) s
/-- LUI (R60). -/
def execLui (rd imm : Nat) (s : State) : Out := alu rd [] (sext64 (imm * 4096) 32) s
/-- ADDW (R60). -/
def execAddw (rd rs1 rs2 : Nat) (s : State) : Out := alu rd [rs1, rs2] (sxw (s.x rs1 + s.x rs2)) s
/-- SLLW (R60). -/
def execSllw (rd rs1 rs2 : Nat) (s : State) : Out := alu rd [rs1, rs2] ((((s.x rs1).setWidth 32) <<< ((s.x rs2).toNat % 32)).signExtend 64) s
/-- SRLW (R60). -/
def execSrlw (rd rs1 rs2 : Nat) (s : State) : Out := alu rd [rs1, rs2] ((((s.x rs1).setWidth 32) >>> ((s.x rs2).toNat % 32)).signExtend 64) s
/-- SUBW (R60). -/
def execSubw (rd rs1 rs2 : Nat) (s : State) : Out := alu rd [rs1, rs2] (sxw (s.x rs1 - s.x rs2)) s
/-- SRAW (R60). -/
def execSraw (rd rs1 rs2 : Nat) (s : State) : Out := alu rd [rs1, rs2] ((((s.x rs1).setWidth 32).sshiftRight ((s.x rs2).toNat % 32)).signExtend 64) s
/-- MULW (R60). -/
def execMulw (rd rs1 rs2 : Nat) (s : State) : Out := alu rd [rs1, rs2] (sxw (s.x rs1 * s.x rs2)) s
/-- DIVW (R60, R61). -/
def execDivw (rd rs1 rs2 : Nat) (s : State) : Out := alu rd [rs1, rs2] ((divS ((s.x rs1).setWidth 32) ((s.x rs2).setWidth 32)).signExtend 64) s
/-- DIVUW (R60, R61). -/
def execDivuw (rd rs1 rs2 : Nat) (s : State) : Out := alu rd [rs1, rs2] ((divU ((s.x rs1).setWidth 32) ((s.x rs2).setWidth 32)).signExtend 64) s
/-- REMW (R60, R61). -/
def execRemw (rd rs1 rs2 : Nat) (s : State) : Out := alu rd [rs1, rs2] ((remS ((s.x rs1).setWidth 32) ((s.x rs2).setWidth 32)).signExtend 64) s
/-- REMUW (R60, R61). -/
def execRemuw (rd rs1 rs2 : Nat) (s : State) : Out := alu rd [rs1, rs2] ((remU ((s.x rs1).setWidth 32) ((s.x rs2).setWidth 32)).signExtend 64) s
/-- ZEXT.H (R60). -/
def execZextH (rd rs1 : Nat) (s : State) : Out := alu rd [rs1] (((s.x rs1).setWidth 16).setWidth 64) s

end Sys2Proof.Machine
end

