-- ==== Sys2Proof/Machine/Control.lean ====
section
/-! DEFINITION. Branches, jumps, CALLT, ECALL, EBREAK (R42, R64–R69), the waits that the matrix unit puts on the end of a handler
(R94, R287, R288), and DONE (R94). A gang follower takes its leader's outcome (R66): the step sees to that (Machine/Cycle). -/

namespace Sys2Proof.Machine

/-- Control goes to a target, unless it is not a multiple of 4 (R42). -/
def goTo (s : State) (target : Word) (f : State → State) : Out :=
  if target.toNat % 4 ≠ 0 then trapNow s 0x20 target 0 else .next ((f s).jump target)

/-- A conditional branch (R64). -/
def branch (rs1 rs2 imm : Nat) (c : Word → Word → Bool) (s : State) : Out :=
  useX s [rs1, rs2] (if c (s.x rs1) (s.x rs2) then goTo s (s.rc.pc + sext64 imm 13) id else .next s.retire)

/-- BEQ (R64). -/
def execBeq (rs1 rs2 imm : Nat) (s : State) : Out := branch rs1 rs2 imm (fun a b => a == b) s
/-- BNE (R64). -/
def execBne (rs1 rs2 imm : Nat) (s : State) : Out := branch rs1 rs2 imm (fun a b => a != b) s
/-- BLT (R64). -/
def execBlt (rs1 rs2 imm : Nat) (s : State) : Out := branch rs1 rs2 imm (fun a b => a.slt b) s
/-- BGE (R64). -/
def execBge (rs1 rs2 imm : Nat) (s : State) : Out := branch rs1 rs2 imm (fun a b => !a.slt b) s
/-- BLTU (R64). -/
def execBltu (rs1 rs2 imm : Nat) (s : State) : Out := branch rs1 rs2 imm (fun a b => a.ult b) s
/-- BGEU (R64). -/
def execBgeu (rs1 rs2 imm : Nat) (s : State) : Out := branch rs1 rs2 imm (fun a b => !a.ult b) s

/-- JAL (R64): the link is not written when the target is misaligned. -/
def execJal (rd imm : Nat) (s : State) : Out :=
  useX s [rd] (goTo s (s.rc.pc + sext64 imm 21) fun t => t.setX rd (s.rc.pc + 4))

/-- JALR (R65): with rd ≠ x0 it raises INDIRECT_CALL. -/
def execJalr (rd rs1 imm : Nat) (s : State) : Out :=
  useX s [rs1] <|
    let target := (s.x rs1 + immS imm 12) &&& ~~~1
    if rd ≠ 0 then trapNow s 0x03 target 0 else goTo s target id

/-- CALLT (R67): a call through the context's function table. -/
def execCallt (rd rs1 rs2 : Nat) (s : State) : Out :=
  useX s [rd, rs1, rs2] <| orderly s <|
    let idx := (s.x rs1).toNat
    let sig := (s.x rs2).toNat % 2 ^ 32
    if s.tn.fnlen ≤ idx then trapNow s 0x05 (s.x rs1) 0
    else
      let a := s.tn.fntab + 16 * idx
      access s a 16 1 0 false <|
        (s.readRange s.cur a 16).then s fun s e =>
          if leAt e 8 4 ≠ sig then trapNow s 0x04 (BitVec.ofNat 64 (leAt e 8 4)) (BitVec.ofNat 64 sig)
          else
            let target := BitVec.ofNat 64 (leAt e 0 8)
            goTo s target fun t => t.setX rd (s.rc.pc + 4)

/-! ## The matrix unit and the end of a handler (R287, R288) -/

/-- An instruction of the normal context that would wait while HELD = 1 suspends its handler until HELD clears (R287). -/
def unheld (s : State) (body : Out) : Out :=
  if s.cur.rc = 0 ∧ s.tn.mx.held then .next (s.suspendFault s.cur .matrix s.rc.pc s.rc.pc [] 0) else body

/-- The deferred matrix fault of the context, raised by the instruction at pc (R288): it is no longer pending. -/
def raiseDeferred (s : State) (body : Out) : Out :=
  match s.tn.mx.deferred with
  | some d =>
    if s.cur.rc = 0 then
      let s := s.modTenant s.cur.core s.cur.ctx fun t => { t with mx := { t.mx with deferred := none } }
      trapNow s d.cause (BitVec.ofNat 64 d.addr) (BitVec.ofNat 64 (d.tile % 4 + d.k % 65536 * 65536))
    else body
  | none => body

/-- DONE (R94). -/
def execDone (s : State) : Out :=
  unheld s <| raiseDeferred s <| .next (s.retire.finish s.cur)

/-- ECALL (R68): the handler ends as by DONE and its record, with a0 and a1, goes to the trap channel; in the overflow context the
presented message is kept (R93). A speculative task holds the record with its messages. -/
def execEcall (s : State) : Out :=
  useX s [10, 11] <| unheld s <| raiseDeferred s <|
    let r := s.rc
    let t := s.tn
    let s1 := s.retire
    let f := s1.trapFlight s.cur.core s.cur.ctx (s.cur.rc * 256 + 0x07) r.pc (r.rx 10) (chanSlot r.chan) (r.task.getD 0) (r.rx 11) t.lcore
    match r.task with
    | some id =>
      if r.spec then
        let s2 := match s1.findTask t.partid id with
          | some k => s1.setTask { k with msgs := k.msgs ++ [markSpec f] }
          | none => s1
        .next ((s2.endOne s.cur true none).endGang s.cur 1)
      else .next (((s1.endOne s.cur true none).post f).endGang s.cur 1)
    | none => .next (((s1.endOne s.cur (s.cur.rc != 2) none).post f).endGang s.cur 1)

/-- EBREAK (R69): suspends under debugging, and posts its record to the owning function; otherwise it ends the handler. -/
def execEbreak (s : State) : Out :=
  let p := s.part s.tn.partid
  if bits (Tbl.get 0 p.trapcfg s.cur.ctx) 20 1 = 1 ∧ bits p.feat 11 1 = 0 then
    .next (s.suspend s.cur .ebreak s.rc.pc (s.rc.pc + 4) [(0, 0, 0x06)] 0)
  else trapNow s 0x06 0 0

end Sys2Proof.Machine
end

