-- ==== Sys2Proof/Machine/Memory.lean ====
section
/-! DEFINITION. Loads, stores, atomics, acquire loads and release stores, versioned accesses and fences (R60, R62, R63, R142–R155).
The address of an access is computed by `ea`; its checks are those of `access`, its effect is that of the operation it issues. -/

namespace Sys2Proof.Machine

/-- The address x[rs1] + sext(imm) of a load or a store. -/
def ea (s : State) (rs1 imm : Nat) : Nat := (s.x rs1 + immS imm 12).toNat

/-- A plain load of n bytes (R60, R62). -/
def plainLoad (rd rs1 imm n : Nat) (sx : Bool) (s : State) : Out :=
  useX s [rd, rs1] <| orderly s <| access s (ea s rs1 imm) n 1 aLoad false <| loadOp s (ea s rs1 imm) n (.x rd n sx) false

/-- A plain store of the low n bytes of x[rs2] (R60, R62). -/
def plainStore (rs1 rs2 imm n : Nat) (s : State) : Out :=
  useX s [rs1, rs2] <| orderly s <| access s (ea s rs1 imm) n 1 aStore true <|
    storeOp s (ea s rs1 imm) n ((s.x rs2).setWidth 128) false

/-- LB (R60). -/
def execLb (rd rs1 imm : Nat) (s : State) : Out := plainLoad rd rs1 imm 1 true s
/-- LH (R60). -/
def execLh (rd rs1 imm : Nat) (s : State) : Out := plainLoad rd rs1 imm 2 true s
/-- LW (R60). -/
def execLw (rd rs1 imm : Nat) (s : State) : Out := plainLoad rd rs1 imm 4 true s
/-- LD (R60). -/
def execLd (rd rs1 imm : Nat) (s : State) : Out := plainLoad rd rs1 imm 8 true s
/-- LBU (R60). -/
def execLbu (rd rs1 imm : Nat) (s : State) : Out := plainLoad rd rs1 imm 1 false s
/-- LHU (R60). -/
def execLhu (rd rs1 imm : Nat) (s : State) : Out := plainLoad rd rs1 imm 2 false s
/-- LWU (R60). -/
def execLwu (rd rs1 imm : Nat) (s : State) : Out := plainLoad rd rs1 imm 4 false s
/-- SB (R60). -/
def execSb (rs1 rs2 imm : Nat) (s : State) : Out := plainStore rs1 rs2 imm 1 s
/-- SH (R60). -/
def execSh (rs1 rs2 imm : Nat) (s : State) : Out := plainStore rs1 rs2 imm 2 s
/-- SW (R60). -/
def execSw (rs1 rs2 imm : Nat) (s : State) : Out := plainStore rs1 rs2 imm 4 s
/-- SD (R60). -/
def execSd (rs1 rs2 imm : Nat) (s : State) : Out := plainStore rs1 rs2 imm 8 s

/-! ## Atomic memory operations (R142) -/

/-- The registers that an operand of n bytes names: a pair for 16 (R142). -/
def pairRegs (n r : Nat) : List Nat := if n = 16 ∧ r ≠ 0 then [r, r + 1] else [r]
/-- The value of an operand of n bytes: x0 as a pair reads 128 zero bits (R142). -/
def pairVal (s : State) (n r : Nat) : Gran :=
  if n = 16 then (if r = 0 then 0 else s.x (r + 1) ++ s.x r) else (s.x r).setWidth 128

/-- A check that an instruction makes on its address: a multiple of n. -/
def aligned (s : State) (va n : Nat) (body : Out) : Out :=
  if va % n ≠ 0 then trapNow s 0x20 (BitVec.ofNat 64 va) 0 else body

/-- What a speculative task may not do (R123). -/
def notSpec (s : State) (va : Nat) (body : Out) : Out :=
  if s.rc.spec then trapNow s 0x85 (BitVec.ofNat 64 va) 0 else body

/-- An atomic memory operation of n bytes (R142): `op` as in `amoResult`. -/
def amo (op n rd rs1 rs2 aq rl : Nat) (s : State) : Out :=
  useX s (rs1 :: (pairRegs n rd ++ pairRegs n rs2)) <| orderly s <|
    let va := (s.x rs1).toNat
    aligned s va n <| notSpec s va <| access s va n n aAtomic true <|
      if s.rc.full (.amo op) then stall s
      else
        let dest := if n = 16 then Dest.pair rd else Dest.x rd n true
        .next (s.issue (mkOp (.amo op) va n (pairVal s n rs2) (if op = 9 then pairVal s n rd else 0) dest (aq == 1) (rl == 1)))

/-- AMOADD.W (R142). -/
def execAmoaddW (rd rs1 rs2 aq rl : Nat) (s : State) : Out := amo 0 4 rd rs1 rs2 aq rl s
/-- AMOSWAP.W (R142). -/
def execAmoswapW (rd rs1 rs2 aq rl : Nat) (s : State) : Out := amo 1 4 rd rs1 rs2 aq rl s
/-- AMOXOR.W (R142). -/
def execAmoxorW (rd rs1 rs2 aq rl : Nat) (s : State) : Out := amo 2 4 rd rs1 rs2 aq rl s
/-- AMOOR.W (R142). -/
def execAmoorW (rd rs1 rs2 aq rl : Nat) (s : State) : Out := amo 3 4 rd rs1 rs2 aq rl s
/-- AMOAND.W (R142). -/
def execAmoandW (rd rs1 rs2 aq rl : Nat) (s : State) : Out := amo 4 4 rd rs1 rs2 aq rl s
/-- AMOMIN.W (R142). -/
def execAmominW (rd rs1 rs2 aq rl : Nat) (s : State) : Out := amo 5 4 rd rs1 rs2 aq rl s
/-- AMOMAX.W (R142). -/
def execAmomaxW (rd rs1 rs2 aq rl : Nat) (s : State) : Out := amo 6 4 rd rs1 rs2 aq rl s
/-- AMOMINU.W (R142). -/
def execAmominuW (rd rs1 rs2 aq rl : Nat) (s : State) : Out := amo 7 4 rd rs1 rs2 aq rl s
/-- AMOMAXU.W (R142). -/
def execAmomaxuW (rd rs1 rs2 aq rl : Nat) (s : State) : Out := amo 8 4 rd rs1 rs2 aq rl s
/-- AMOCAS.W (R142). -/
def execAmocasW (rd rs1 rs2 aq rl : Nat) (s : State) : Out := amo 9 4 rd rs1 rs2 aq rl s
/-- AMOADD.D (R142). -/
def execAmoaddD (rd rs1 rs2 aq rl : Nat) (s : State) : Out := amo 0 8 rd rs1 rs2 aq rl s
/-- AMOSWAP.D (R142). -/
def execAmoswapD (rd rs1 rs2 aq rl : Nat) (s : State) : Out := amo 1 8 rd rs1 rs2 aq rl s
/-- AMOXOR.D (R142). -/
def execAmoxorD (rd rs1 rs2 aq rl : Nat) (s : State) : Out := amo 2 8 rd rs1 rs2 aq rl s
/-- AMOOR.D (R142). -/
def execAmoorD (rd rs1 rs2 aq rl : Nat) (s : State) : Out := amo 3 8 rd rs1 rs2 aq rl s
/-- AMOAND.D (R142). -/
def execAmoandD (rd rs1 rs2 aq rl : Nat) (s : State) : Out := amo 4 8 rd rs1 rs2 aq rl s
/-- AMOMIN.D (R142). -/
def execAmominD (rd rs1 rs2 aq rl : Nat) (s : State) : Out := amo 5 8 rd rs1 rs2 aq rl s
/-- AMOMAX.D (R142). -/
def execAmomaxD (rd rs1 rs2 aq rl : Nat) (s : State) : Out := amo 6 8 rd rs1 rs2 aq rl s
/-- AMOMINU.D (R142). -/
def execAmominuD (rd rs1 rs2 aq rl : Nat) (s : State) : Out := amo 7 8 rd rs1 rs2 aq rl s
/-- AMOMAXU.D (R142). -/
def execAmomaxuD (rd rs1 rs2 aq rl : Nat) (s : State) : Out := amo 8 8 rd rs1 rs2 aq rl s
/-- AMOCAS.D (R142). -/
def execAmocasD (rd rs1 rs2 aq rl : Nat) (s : State) : Out := amo 9 8 rd rs1 rs2 aq rl s
/-- AMOCAS.Q (R142). -/
def execAmocasQ (rd rs1 rs2 aq rl : Nat) (s : State) : Out := amo 9 16 rd rs1 rs2 aq rl s

/-! ## w-register loads and stores (R143–R145) -/

/-- The destination that a w field names: a register, a fresh place of the outbox, a port (R145). -/
def wDest (s : State) (rd : Nat) : State × Dest :=
  if rd < 24 then (s, .w rd)
  else if rd = 25 then (s.modRcx s.cur fun r => { r with outbox := r.outbox ++ [none] }, .outbox s.rc.outbox.length)
  else (s, .port (rd - 24))

/-- A 16-byte load into a w field (R143–R145, R148). -/
def loadW (k : OpK) (rd va align : Nat) (aq : Bool) (s : State) : Out :=
  dstW s rd <| access s va 16 align aLoad false <|
    if s.rc.full k then stall s
    else
      let d := wDest s rd
      .next (d.1.issue (mkOp k va 16 0 0 d.2 aq false))

/-- A 16-byte store from a w field (R143–R145). A speculative task keeps it in the speculation store (R123). -/
def storeW (rs2 va align : Nat) (rl : Bool) (s : State) : Out :=
  match s.readW rs2 with
  | .stall => stall s
  | .bad c => trapNow s c 0 0
  | .ok s' v =>
    access s va 16 align aStore true <|
      if s.rc.spec then
          specStore s [mkOp .store va 16 v 0 .none false rl] rl rl fun s1 => match s1.readW rs2 with | .ok s2 _ => s2 | _ => s1
      else if s.rc.full .store then stall s
      else .next (s'.issue (mkOp .store va 16 v 0 .none false rl))

/-- LDAQ.D (R143). -/
def execLdaqD (rd rs1 imm : Nat) (s : State) : Out :=
  useX s [rd, rs1] <| orderly s <| access s (ea s rs1 imm) 8 8 aLoad false <| loadOp s (ea s rs1 imm) 8 (.x rd 8 true) true
/-- LDAQ.Q (R143, R145). -/
def execLdaqQ (rd rs1 imm : Nat) (s : State) : Out :=
  useX s [rs1] <| orderly s <| loadW .load rd (ea s rs1 imm) 16 true s
/-- STRL.D (R143). -/
def execStrlD (rs1 rs2 imm : Nat) (s : State) : Out :=
  useX s [rs1, rs2] <| orderly s <| access s (ea s rs1 imm) 8 8 aStore true <|
    storeOp s (ea s rs1 imm) 8 ((s.x rs2).setWidth 128) true
/-- STRL.Q (R143, R145). -/
def execStrlQ (rs1 rs2 imm : Nat) (s : State) : Out :=
  useX s [rs1] <| orderly s <| storeW rs2 (ea s rs1 imm) 16 true s
/-- WLD (R144, R145). -/
def execWld (rd rs1 imm : Nat) (s : State) : Out :=
  useX s [rs1] <| orderly s <| loadW .load rd (ea s rs1 imm) 1 false s
/-- WST (R144, R145). -/
def execWst (rs1 rs2 imm : Nat) (s : State) : Out :=
  useX s [rs1] <| orderly s <| storeW rs2 (ea s rs1 imm) 1 false s

/-! ## Versions (R148–R150) -/

/-- LDV.D (R148). -/
def execLdvD (rd rs1 : Nat) (s : State) : Out :=
  feature (.ldvD rd rs1) [8] s <| useX s [rd, rs1] <| orderly s <|
    let va := (s.x rs1).toNat
    access s va 8 8 aLoad false <|
      if s.rc.full .ldv then stall s else .next (s.issue (mkOp .ldv va 8 0 0 (.x rd 8 true) false false))
/-- LDV.Q (R148). -/
def execLdvQ (rd rs1 : Nat) (s : State) : Out :=
  feature (.ldvQ rd rs1) [8] s <| useX s [rs1] <| orderly s <| loadW .ldv rd (s.x rs1).toNat 16 false s
/-- STV.D (R149). -/
def execStvD (rd rs1 rs2 : Nat) (s : State) : Out :=
  feature (.stvD rd rs1 rs2) [8] s <| useX s [rd, rs1, rs2] <| orderly s <|
    let va := (s.x rs1).toNat
    aligned s va 8 <| notSpec s va <| access s va 8 8 aStore true <|
      if s.rc.full .stv then stall s
      else .next (s.issue (mkOp .stv va 8 ((s.x rs2).setWidth 128) 0 (.x rd 8 true) false false))
/-- STV.Q (R149). -/
def execStvQ (rd rs1 rs2 : Nat) (s : State) : Out :=
  feature (.stvQ rd rs1 rs2) [8] s <| useX s [rd, rs1] <| orderly s <|
    let va := (s.x rs1).toNat
    match s.readW rs2 with
    | .stall => stall s
    | .bad c => trapNow s c 0 0
    | .ok s' v =>
      aligned s va 16 <| notSpec s va <| access s va 16 16 aStore true <|
        if s.rc.full .stv then stall s else .next (s'.issue (mkOp .stv va 16 v 0 (.x rd 8 true) false false))

/-- VWATCH (R150): the watch takes a place of the pool at issue; its home registers it once its address has translated. -/
def execVwatch (rd rs1 rs2 : Nat) (s : State) : Out :=
  feature (.vwatch rd rs1 rs2) [8] s <| useX s [rd, rs1, rs2] <| orderly s <|
    let va := (s.x rs1).toNat
    let g := va / 16 * 16
    notSpec s va <|
      if 32 ≤ s.tn.vwPend then .next (s.result rd 1)
      else access s g 16 16 aLoad false <|
        let n := bits (s.x rs2).toNat 16 6
        let c := Chan.at s.tn n
        let s1 := (s.modTenant s.cur.core s.cur.ctx fun t => { t with vwPend := t.vwPend + 1 }).setX rd 0
        .next (s1.issue (mkOp (.vwatch (bits (s.x rs2).toNat 0 16) n c.gen c.urg) g 16 0 0 .none false false))

/-! ## Fences (R151–R155) -/

/-- A fence retires at once; it stays behind as long as something that it puts first is outstanding (R152, R153). -/
def State.fence (s : State) (scope before after : Nat) : State :=
  let r := s.rc
  let f : Fence := { seq := r.seq, scope := scope, before := before, after := after }
  let open_ := s.pendingFences s.cur
  if s.fencePending s.cur open_ f then
    (s.setRcx s.cur { r with seq := r.seq + 1, fences := open_ ++ [f] }).retire
  else s.retire

/-- DFENCE (R152). -/
def execDfence (scope kinds : Nat) (s : State) : Out := .next (s.fence scope kinds kinds)

/-- The kinds that a pred or succ field names (R153). -/
def fenceKinds (p : Nat) : Nat :=
  (if bits p 3 1 = 1 ∨ bits p 1 1 = 1 then 1 else 0) + (if bits p 2 1 = 1 ∨ bits p 0 1 = 1 then 2 else 0)

/-- A FENCE (R153): a HINT with pred = 0 or succ = 0 (R49). -/
def fence (succ pred : Nat) (s : State) : Out :=
  if succ = 0 ∨ pred = 0 then .next s.retire else .next (s.fence 4 (fenceKinds pred) (fenceKinds succ))

/-- FENCE (R153); rd and rs1 are ignored (R49). -/
def execFence (_rd _rs1 succ pred : Nat) (s : State) : Out := fence succ pred s
/-- FENCE.TSO executes as FENCE RW,RW (R153). -/
def execFenceTso (_rd _rs1 : Nat) (s : State) : Out := fence 3 3 s
/-- FENCE with fm = 0b1000 and any other pred or succ executes as FENCE pred, succ (R48). -/
def execFenceFm8 (_rd _rs1 succ pred : Nat) (s : State) : Out := fence succ pred s

/-- TFENCE (R154). -/
def execTfence (s : State) : Out :=
  if s.storing then stall s
  else .next (State.retire (s.modTenant s.cur.core s.cur.ctx fun t => { t with tsrc := [] }))

/-- The key of a line of an instruction cache. -/
def lineKey (core ctx line : Nat) : Nat := tkey core ctx * 2 ^ 42 + line

/-- A line enters the instruction cache of a core: it holds 512, and a full one loses one (R13; which one is open, log 7). -/
def State.cacheLine (s : State) (w : Who) (line : Nat) (v : BitVec 512) : State :=
  let mine := fun (e : Nat × BitVec 512) => e.1 / 2 ^ 42 / 8 == w.core
  let l := if 512 ≤ (s.icache.filter mine).length then s.icache.eraseIdx ((s.icache.findIdx? mine).getD 0) else s.icache
  { s with icache := Tbl.set l (lineKey w.core w.ctx line) v }

/-- What fetching a line gives. -/
inductive Line where
  | ok (s : State) (v : BitVec 512)
  | wait
  | asked (s : State)
  | fault (s : State) (kind : Nat)

/-- Fetches the line of an address of global space from its home into the instruction cache (R128, R138); a peer module is asked for it. -/
def State.fetchLine (s : State) (w : Who) (va : Nat) : Line :=
  match keptBytes (s.rcx w).kept (va / 64 * 64) 64 with
  | some bs => let line := BitVec.ofNat 512 (leNat bs); .ok (s.cacheLine w (va / 64) line) line
  | none =>
  let l := s.locate w (va / 64 * 64) 4 false
  match l.res with
  | .wait => .wait
  | .asked => .asked l.s
  | .error k => .fault l.s k
  | .ok sp =>
    if s.heldLine sp.home then .wait
    else if l.s.poisoned sp.home 64 then .fault l.s 5
    else if space sp.home = .peer then
      if s.askedEarly w (va / 64 * 64) then .wait else .asked (l.s.askEarly w sp.home (va / 64 * 64) 64 3)
    else
      let rd := l.s.readAt sp 64
      let line := BitVec.ofNat 512 (leNat rd.2)
      .ok ((rd.1.chargeAt (s.tenant w.core w.ctx).partid w.ctx sp.home 64 false).cacheLine w (va / 64) line) line

/-- Line `line` overlaps the bytes [a, a + n), modulo 2^48 (R155). -/
def lineHit (line a n : Nat) : Bool :=
  n != 0 && (decide ((line * 64 + 2 ^ 48 - a) % 2 ^ 48 < n) || a / 64 == line)

/-- IFLUSH (R155). -/
def execIflush (rs1 rs2 : Nat) (s : State) : Out :=
  useX s [rs1, rs2] <|
    if s.storing then stall s
    else
      let a := (s.x rs1).toNat % 2 ^ 48
      let n := (s.x rs2).toNat
      let mine := tkey s.cur.core s.cur.ctx
      .next (State.retire { s with icache := s.icache.filter fun p => !(p.1 / 2 ^ 42 == mine && lineHit (p.1 % 2 ^ 42) a n) })

end Sys2Proof.Machine
end

