-- ==== Sys2Proof/Machine/Csr.lean ====
section
/-! DEFINITION. The CSR instructions and the CSR map (R70–R76). -/

namespace Sys2Proof.Machine

/-- Channel n of a tenant context is diverted (R75 ovfstat). -/
def Tenant.divert (t : Tenant) (n : Nat) : Bool := (Chan.at t n).divert

/-- ovfstat (R75). -/
def Tenant.ovfstat (t : Tenant) : Word :=
  BitVec.ofNat 64 ((List.range 64).foldl (fun v n => if t.divert n then v + 2 ^ n else v) 0)

/-- A write of ovfstat clears the bits that are 1 in its source, but for those that R92 refuses. -/
def Tenant.clearDivert (t : Tenant) (src : Word) : Tenant :=
  (List.range 64).foldl (fun (t : Tenant) n =>
    let c := Chan.at t n
    if src.getLsbD n && c.divert && !t.divertedHere n && c.dcnt == 0 then t.setChan n { c with divert := false } else t) t

/-- mxprog (R74): the completed k-steps of the oldest MMUL. -/
def MxUnit.prog (m : MxUnit) : Nat := match m.queue with | j :: _ => j.k | [] => 0
/-- mxstat.BUSY (R75): a bit for each tile with work in flight. -/
def MxUnit.busy (m : MxUnit) : Nat :=
  (List.range 4).foldl (fun v n => if m.queue.any (fun j => j.tile == n) then v + 2 ^ n else v) 0
/-- mxstat (R75). -/
def MxUnit.stat (m : MxUnit) : Nat :=
  m.cfg % 256 * 256 + (if m.held then 64 else 0) + min m.queue.length 3 * 16 + m.busy

/-- The value v of a CSR that the device keeps by itself (time, ctxid, netcap, mxprog, mxstat), after a soft error has zeroed it (R322): time counts on from 0; the
others read 0 as long as the unit has no new value for them. -/
def State.unlost (s : State) (n v : Nat) : Nat :=
  match s.lostCsr.find? fun e => e.1 == lostKey s.cur.core s.cur.ctx n with
  | none => v
  | some e => if n = 0xC01 then v + 2 ^ 64 - e.2 % 2 ^ 64 else if e.2 = v then 0 else v

/-- The value of a CSR (R74–R76) for the register context that acts. -/
def State.csr (s : State) (n : Nat) : Word :=
  let t := s.tn
  let r := s.rc
  let ovf := s.cur.rc == 2
  if n = 0xC00 then BitVec.ofNat 64 (s.aclk + Tbl.get 0 s.cyc s.cur.core)
  else if n = 0xC01 then BitVec.ofNat 64 (s.unlost n s.time)
  else if n = 0xC02 then BitVec.ofNat 64 t.instret
  else if n = 0xC10 then BitVec.ofNat 64 t.lcore
  else if n = 0xC11 then BitVec.ofNat 64 t.bandsz
  else if n = 0xC12 then BitVec.ofNat 64 (t.torusY % 65536 * 65536 + t.torusX % 65536)
  else if n = 0xC13 then BitVec.ofNat 64 t.gangidx
  else if n = 0xC14 then BitVec.ofNat 64 t.gangsz
  else if n = 0xC15 then BitVec.ofNat 64 (s.unlost n s.cur.ctx)
  else if n = 0xC16 then BitVec.ofNat 64 t.partid
  else if n = 0xC17 then BitVec.ofNat 64 (s.unlost n Config.netcap.toNat)
  else if n = 0xC20 then (if ovf then 0 else r.hdr)
  else if n = 0xC21 then (if ovf then 0 else r.tstamp)
  else if n = 0xC22 then (if ovf then 0 else BitVec.ofNat 64 r.tdomain)
  else if n = 0xC23 then
    (if ovf then 0 else match r.task with
      | some id => BitVec.ofNat 64 (id % 2 ^ 32 * 2 ^ 32 + (if r.spec then 2 else 0) + 1)
      | none => 0)
  else if n = 0xC30 then r.txstat
  else if n = 0xC31 then BitVec.ofNat 64 (r.vlast % 65536)
  else if n = 0xC40 then BitVec.ofNat 64 (s.unlost n t.mx.prog)
  else if n = 0xC41 then BitVec.ofNat 64 (s.unlost n t.mx.stat)
  else if n = 0xC50 then BitVec.ofNat 64 r.wdcnt
  else if n = 0xC51 then t.caplist
  else if n = 0x801 then r.fflags.setWidth 64
  else if n = 0x802 then BitVec.ofNat 64 r.frm
  else if n = 0x810 then r.txcomp
  else if 0x820 ≤ n ∧ n ≤ 0x82F then BitVec.ofNat 64 (Tbl.get 0 t.evc (n - 0x820))
  else if n = 0x830 then BitVec.ofNat 64 t.fntab
  else if n = 0x831 then BitVec.ofNat 64 t.fnlen
  else if n = 0x840 then BitVec.ofNat 64 t.ovfbase
  else if n = 0x841 then BitVec.ofNat 64 t.ovflen
  else if n = 0x842 then t.ovfstat
  else if n = 0x850 then BitVec.ofNat 64 t.wdlim
  else if n = 0x860 then BitVec.ofNat 64 t.liveimg
  else 0

/-- A value with the bits outside [hi:lo] cleared. -/
def keep (v : Word) (lo hi : Nat) : Nat := bits v.toNat lo (hi + 1 - lo) * 2 ^ lo

/-- A write of a CSR (R74–R76); `v` is the new value, for ovfstat the source. -/
def State.setCsr (s : State) (n : Nat) (v : Word) : State :=
  let onR := fun (f : RegCtx → RegCtx) => s.modRcx s.cur f
  let onT := fun (f : Tenant → Tenant) => s.modTenant s.cur.core s.cur.ctx f
  if n = 0x801 then onR fun r => { r with fflags := v.setWidth 5 }
  else if n = 0x802 then onR fun r => if bits v.toNat 0 3 < 4 then { r with frm := bits v.toNat 0 3 } else r
  else if n = 0x810 then onR fun r => { r with txcomp := BitVec.ofNat 64 (keep v 4 47) }
  else if 0x820 ≤ n ∧ n ≤ 0x82F then onT fun t => { t with evc := Tbl.put 0 t.evc (n - 0x820) (keep v 0 31) }
  else if n = 0x830 then onT fun t => { t with fntab := keep v 4 47 }
  else if n = 0x831 then onT fun t => { t with fnlen := keep v 0 31 }
  else if n = 0x840 then onT fun t => { t with ovfbase := keep v 4 17 }
  else if n = 0x841 then onT fun t => { t with ovflen := keep v 4 17 }
  else if n = 0x842 then onT fun t => t.clearDivert v
  else if n = 0x850 then onT fun t => { t with wdlim := min (max v.toNat 4096) (2 ^ 28) }
  else if n = 0x860 then onT fun t => { t with liveimg := keep v 6 47 }
  else s

/-- The three operations of the CSR instructions. -/
inductive CsrOp where
  | write | set | clear
  deriving DecidableEq, Repr

/-- A read of a CSR that waits (R72): of vlast, for the last LDV that was issued. One of a suspended handler goes with its image, and with the vlast there
(DEDUCED, log 63). -/
def State.csrWaits (s : State) (n : Nat) : Bool :=
  (n == 0xC30 && s.xfers.any fun x => x.who == s.cur && !x.accepted)
    || (n == 0xC31 && s.rc.ops.any fun o => o.k == .ldv && decide (s.rc.vseq ≤ o.seq))

/-- A CSR instruction (R70, R71): `f` is the register field or the constant that the write test looks at. A write of mxprog or mxstat from
another context than the normal one meets two traps of step 6 of R56, whose order the spec does not give: ILLEGAL_OP goes first
(DESIGN CHOICE, log 48). -/
def csrInstr (op : CsrOp) (rd f csr : Nat) (regs : List Nat) (src : Word) (s : State) : Out :=
  useX s (rd :: regs) <|
    let rd? := !(op == .write && rd == 0)
    let wr? := op == .write || f != 0
    if wr? && ((0xC00 ≤ csr && csr ≤ 0xCFF) || (csr == 0x842 && op == .set)) then trapNow s 0x00 (BitVec.ofNat 64 csr) 0
    else if (csr = 0xC40 ∨ csr = 0xC41) ∧ s.cur.rc ≠ 0 then trapNow s 0x08 0 0
    else if rd? && s.csrWaits csr then stall s
    else
      let old := if rd? then s.csr csr else 0
      let new := match op with
        | .write => src
        | .set => old ||| src
        | .clear => if csr = 0x842 then src else old &&& ~~~src
      let s1 := if wr? then s.setCsr csr new else s
      .next (s1.result rd old)

/-- CSRRW (R70). -/
def execCsrrw (rd rs1 csr : Nat) (s : State) : Out := csrInstr .write rd rs1 csr [rs1] (s.x rs1) s
/-- CSRRS (R70). -/
def execCsrrs (rd rs1 csr : Nat) (s : State) : Out := csrInstr .set rd rs1 csr [rs1] (s.x rs1) s
/-- CSRRC (R70). -/
def execCsrrc (rd rs1 csr : Nat) (s : State) : Out := csrInstr .clear rd rs1 csr [rs1] (s.x rs1) s
/-- CSRRWI (R70). -/
def execCsrrwi (rd uimm csr : Nat) (s : State) : Out := csrInstr .write rd uimm csr [] (BitVec.ofNat 64 uimm) s
/-- CSRRSI (R70). -/
def execCsrrsi (rd uimm csr : Nat) (s : State) : Out := csrInstr .set rd uimm csr [] (BitVec.ofNat 64 uimm) s
/-- CSRRCI (R70). -/
def execCsrrci (rd uimm csr : Nat) (s : State) : Out := csrInstr .clear rd uimm csr [] (BitVec.ofNat 64 uimm) s

end Sys2Proof.Machine
end

