-- ==== Sys2Proof/Machine/Handlers.lean ====
section
/-! DEFINITION. Channels, inboxes, dispatch, the overflow thread and the watchdog (R77–R98): BIND, UNBIND, SEND, LOOPB, and the events
by which messages arrive and handlers start. An event whose condition does not hold leaves the state as it is. -/

namespace Sys2Proof.Machine

/-- The outcome of an event: the state as it was where the event cannot take place. -/
def happens (s : State) (r : Option State) : Out := .next (r.getD s)

/-! ## The inbox (R80, R82, R83) -/

/-- The check of R82: the bounce cause of a message that is not kept. -/
def Tenant.check82 (t : Tenant) (m : Msg) : Option Nat :=
  let c := Chan.at t m.chan
  if !c.bound || c.urg != m.urg then some 0x83
  else if m.gen != 0 && m.gen != c.gen then some 0x82
  else none

/-- A trap record that a unit originates (R312, R315): register context 3; `at_` is the core that TDEST = 0 names, `src` the logical core
of the header and of a3. -/
def State.unitRec (s : State) (at_ ctx src a0 : Nat) (a2 : Word) (a4 task : Nat) (a6 : Word) : Flight :=
  let f := s.trapFlight at_ ctx (3 * 256 + a0) 0 a2 a4 task a6 src
  { f with msg := { f.msg with hdr := mkHdr 0 src 6 f.msg.urg false 0 7 f.msg.chan } }

/-- A message is discarded at a core (R82, R83, R119): evc5 counts it; it bounces if BNC = 1; a task whose dispatch it was ends as by a
trap. A bounce goes by the trap channel of the core that the header's SRC names, whose SEND was discarded, a replayed message's too (DESIGN
CHOICE, log 49). -/
def State.discard (s : State) (core ctx : Nat) (m : Msg) (cause : Nat) : State :=
  let t := s.tenant core ctx
  let s := s.count core ctx 5 1
  if m.kind = 1 then
    let id := ((m.pay[4]?).getD 0).toNat
    match s.findTask t.partid id with
    | some k =>
      let f := s.unitRec k.srcCore ctx t.lcore cause m.hdr m.chan id 0
      s.taskEnd t.partid id (some (if k.st = .spec then markSpec f else f))
    | none => s
  else if m.bnc then
    let back := t.ctab.getD m.src core
    s.post (s.unitRec back ctx t.lcore (0x400 + cause) m.hdr m.chan 0 ((m.pay[0]?).getD 0))
  else s

/-- A message joins its half (R80), after the checks of R82 and R106; `replay`: LOOPB injects it (R98). -/
def State.arrive (s : State) (core ctx : Nat) (m : Msg) (replay : Bool) : State :=
  let t := s.tenant core ctx
  let s := if m.kind = 6 ∧ bits ((m.pay[0]?).getD 0).toNat 10 1 = 1 ∧ !replay then s.count core ctx 13 1 else s
  let t := { t with evc := (s.tenant core ctx).evc }
  let keep := fun (d : Bool) => s.setTenant core ctx (Tenant.episodes (t.setHalf m.urg (t.half m.urg ++ [{ msg := m, div := d, no := t.nextNo }])))
  if t.follower && !m.urg then s.discard core ctx m 0x83
  else if t.divert m.chan && !replay then keep true
  else match t.check82 m with
    | some c => s.discard core ctx m c
    | none => keep false

/-- What a message's arrival releases: its place in a pool of watches (R150, R265), the arrival bit of its barrier (R110). -/
def State.landed_ (s : State) (core ctx : Nat) (m : Msg) : State :=
  s.modTenant core ctx fun t =>
    let t := if m.kind = 5 then { t with vwPend := t.vwPend - 1 } else if m.kind = 4 then { t with cwPend := t.cwPend - 1 } else t
    match m.bar with
    | some b => { t with arrived := Tbl.put false t.arrived b false }
    | none => t

/-- Message f waits for what a fence of its sender puts before it (R152). -/
def State.msgWaits (s : State) (f : Flight) : Bool :=
  match f.src with
  | some w => s.barred w f.seq 8 fun c => s.coreIn w c f.core
  | none => false

/-- The k-th message under way arrives (R80, R81, R328): in order with those of the same sender, channel and destination, and only where it
fits. For a context that is switched out it goes to the arrival log. -/
def State.evResident (s : State) (k : Nat) : Option State :=
  match s.flights[k]? with
  | none => none
  | some f =>
    let before := (s.flights.take k).any fun e =>
      e.src.isSome && e.src == f.src && e.core == f.core && e.ctx == f.ctx && e.msg.chan == f.msg.chan
    let t := s.tenant f.core f.ctx
    if before || s.msgWaits f then none
    else
      let s' := { s with flights := s.flights.eraseIdx k }
      if s.away f.core f.ctx then
        if (t.log.foldl (fun n e => n + e.msg.size) 0) + f.msg.size ≤ 65536 then
          some (s'.modTenant f.core f.ctx fun t => { t with log := t.log ++ [f] })
        else
          some ((s'.landed_ f.core f.ctx f.msg).discard f.core f.ctx f.msg 0x8D)
      else if !t.log.isEmpty then none
      else if t.occ f.msg.urg + f.msg.size ≤ 16384 then some ((s'.landed_ f.core f.ctx f.msg).arrive f.core f.ctx f.msg false)
      else none

/-- The oldest message of the arrival log of a core's resident context becomes resident, before any new arrival (R328). -/
def State.evReplay (s : State) (core : Nat) : Option State :=
  let ctx := s.live core
  let t := s.tenant core ctx
  match t.log with
  | [] => none
  | f :: rest =>
    if s.away core ctx ∨ 16384 < t.occ f.msg.urg + f.msg.size then none
    else some (((s.setTenant core ctx { t with log := rest }).landed_ core ctx f.msg).arrive core ctx f.msg false)

/-! ## Dispatch (R84–R86, R106, R119) -/

/-- A suspended slot of register context j that may be restored: every held part has returned (R317 step 5). -/
def Slot.ready (x : Slot) : Bool :=
  x.wait.need == 0 && (match x.wait.why with | .op o => o.parts.isEmpty | .matrix => true | _ => true)

/-- A slot is ready, with HELD clear where it waits for that and its gang ready where it has one (R108, R287). -/
def State.slotReady (s : State) (core ctx i : Nat) : Bool :=
  let one := fun (h : Nat) (x : Slot) => x.ready && !(x.wait.why == .matrix && (s.tenant h ctx).mx.held)
  match (s.tenant core ctx).slots.find? (fun p => p.1 == i) with
  | none => false
  | some (_, x) =>
    if x.wait.gang.isSome then
      (s.wholeGang core ctx).all fun h => (s.tenant h ctx).slots.any fun p => p.2.wait.gang == x.wait.gang && one h p.2
    else one core x

/-- Registers that a dispatch writes and that an earlier load of the context still has to fill: the dispatch waits for it (DESIGN CHOICE,
log 49). -/
def RegCtx.unsettled (r : RegCtx) : Bool := (5 :: (List.range 8).map (· + 10)).any r.busyX

/-- A partition runs handlers: a context is resident and not stopping at the end of a slice (R325). -/
def Part.runs (q : Part) : Bool := q.resident.isSome && q.stopping.isNone

/-- A partition starts handlers: it runs them, and no quota of category 0 or 1 whose action is to trap has reached its limit (R343). -/
def Part.starts (q : Part) : Bool := q.runs && !q.qhit.any fun c => bits q.qact c 1 == 0

/-- Suspended handlers of the core may go on. A core of no partition belongs to no slice. -/
def State.mayResume (s : State) (core : Nat) : Bool :=
  match s.owner core with
  | some p => (s.part p).runs
  | none => true

/-- The core may start new handlers: its partition does, and no thermal emergency has come (R323). -/
def State.mayStart (s : State) (core : Nat) : Bool :=
  !s.thermal && (match s.owner core with | some p => (s.part p).starts | none => true)

/-- A gang handler runs on the gang of a core (R84). -/
def State.gangRuns (s : State) (core ctx : Nat) : Bool :=
  decide (1 < (s.gang core ctx).length) && (s.gang core ctx).any fun h => (s.tenant h ctx).n.run != .idle

/-- The registers of a handler at its start (R86). -/
def RegCtx.begin_ (r : RegCtx) (m : Msg) (entry : Word) (hdr : Word) : RegCtx :=
  let r := r.wx 5 m.hdr
  let r := (List.range 8).foldl (fun (r : RegCtx) i => r.wx (10 + i) ((m.pay[i]?).getD 0)) r
  { r with pc := entry, run := .running, msg := some m, chan := some m.chan, kept := [], q0 := 0, outbox := [], hdr := hdr, wdcnt := 0, inv := r.inv + 1,
           tstamp := 0, tdomain := 0, task := none, spec := false }

/-- What a task message adds (R119). -/
def RegCtx.beginTask (r : RegCtx) (k : Task) : RegCtx :=
  { r with tstamp := BitVec.ofNat 64 k.ts, tdomain := k.dom, task := some k.id, spec := k.st == .spec, stackBase := r.rx 2 }

/-- start(m, n) (R86) in register context w; in the normal context the gang's followers start with their leader (R106). -/
def State.start (s : State) (w : Who) (m : Msg) (entry : Word) : State :=
  let p := (s.tenant w.core w.ctx).partid
  let k := if m.kind = 1 then s.findTask p ((m.pay[4]?).getD 0).toNat else none
  let go := fun (r : RegCtx) =>
    let r := r.begin_ m entry (if w.rc = 2 then 0 else m.hdr)
    match k with
    | some k => if w.rc = 0 then r.beginTask k else r
    | none => r
  if w.rc = 0 then (s.gang w.core w.ctx).foldl (fun s h => s.modRcx { w with core := h } go) s
  else s.modRcx w go

/-- The oldest undiverted message of a channel's queue, as its half and its place there. A change of class can leave some in each half
(R82). -/
def Tenant.oldest (t : Tenant) (n : Nat) : Option (Bool × Nat) :=
  let at_ := fun (l : List InMsg) => l.findIdx? fun m => !m.div && m.msg.chan == n
  let no := fun (l : List InMsg) (i : Nat) => (l[i]?.map (·.no)).getD 0
  match at_ t.inboxN, at_ t.inboxU with
  | some i, some j => if no t.inboxN i < no t.inboxU j then some (false, i) else some (true, j)
  | some i, none => some (false, i)
  | none, some j => some (true, j)
  | none, none => none

/-- The first channel of a class and priority that may be selected, scanning from the pointer (R85). A suspended overflow handler counts as a
suspended invocation of the channel of its message (DESIGN CHOICE, log 49). -/
def Tenant.scan (t : Tenant) (urg : Bool) (p : Nat) : Option Nat :=
  let from_ := Tbl.get 63 t.rr ((if urg then 16 else 0) + p)
  (List.range 64).map (fun i => (from_ + 1 + i) % 64) |>.find? fun n =>
    let c := Chan.at t n
    c.bound && c.urg == urg && c.prio == p && !t.slots.any (fun x => x.2.img.chan == some n)
      && (t.oldest n).isSome

/-- The selection of R85; the number bounds the messages that may be discarded on the way. -/
def State.select (s : State) (w : Who) : Nat → Option State
  | 0 => none
  | fuel + 1 =>
    let t := s.tenant w.core w.ctx
    let urg := w.rc == 1
    match ((List.range 16).map fun i => 15 - i).findSome? fun p => (t.scan urg p).map fun n => (p, n) with
    | none => none
    | some (p, n) =>
      let t := { t with rr := Tbl.put 63 t.rr ((if urg then 16 else 0) + p) n }
      match t.oldest n with
      | none => none
      | some (h, i) =>
        let m := ((t.half h)[i]?.map (·.msg)).getD { hdr := 0, pay := [], ext := [], bar := none }
        let t := t.setHalf h ((t.half h).eraseIdx i)
        match t.check82 m with
        | some c => let s := (s.setTenant w.core w.ctx t.episodes).discard w.core w.ctx m c; some ((s.select w fuel).getD s)
        | none =>
          let entry := (Chan.at t n).entry
          let s := s.setTenant w.core w.ctx t
          let s := if urg && t.n.run == .running then s.count w.core w.ctx 11 1 else s
          some (s.start w m (BitVec.ofNat 64 (entry * 4)))

/-- The first dispatch after a switch begins the slice of the resident context (R341). -/
def State.sliceBegins (s : State) (core : Nat) : State :=
  match s.owner core with
  | some p => if (s.part p).sliceStart.isNone then s.modPart p fun q => { q with sliceStart := some s.time } else s
  | none => s

/-- A dispatch on register context rc (0 or 1) of a core (R85). That of a gang's leader waits for every register context of every member to be idle,
urgent and overflow ones too (DESIGN CHOICE, log 11). -/
def State.evDispatch (s : State) (core rc : Nat) : Option State :=
  let ctx := s.live core
  let w : Who := { core := core, ctx := ctx, rc := rc }
  let t := s.tenant core ctx
  let members := if rc = 0 then s.gang core ctx else [core]
  if 2 ≤ rc ∨ !s.mayStart core ∨ (s.rcx w).run ≠ .idle ∨ (s.rcx w).unsettled then none
  else if rc = 0 ∧ (t.follower ∨ members.any fun h => (s.tenant h ctx).n.run != .idle || (s.tenant h ctx).n.unsettled
      || (s.tenant h ctx).u.run != .idle || (s.tenant h ctx).o.run != .idle) ∧ 1 < members.length then none
  else if rc = 1 ∧ s.gangRuns core ctx then none
  else if t.slots.any (fun x => x.2.rc == rc && s.slotReady core ctx x.1) then none
  else (s.select w (t.inboxN.length + t.inboxU.length + 1)).map fun s => s.sliceBegins core

/-- The next diverted message: the urgent half first (R90). -/
def Tenant.nextDiverted (t : Tenant) : Option (Bool × Nat) :=
  match t.inboxU.findIdx? (·.div) with
  | some i => some (true, i)
  | none => (t.inboxN.findIdx? (·.div)).map fun i => (false, i)

/-- A diverted message is presented to the overflow context (R89, R90, R93), none while an overflow handler is suspended in a slot (DESIGN CHOICE,
log 49). -/
def State.evOverflow (s : State) (core : Nat) : Option State :=
  let ctx := s.live core
  let t := s.tenant core ctx
  if !s.mayStart core ∨ t.o.run ≠ .idle ∨ t.o.unsettled ∨ s.gangRuns core ctx ∨ t.slots.any (fun x => x.2.rc == 2) then none
  else match t.ovfEntry, t.nextDiverted with
    | some e, some (urg, i) =>
      match (t.half urg)[i]? with
      | some m =>
        let w : Who := { core := core, ctx := ctx, rc := 2 }
        some (((s.setTenant core ctx (t.setHalf urg ((t.half urg).eraseIdx i))).start w m.msg e).modRcx w fun r => { r with msgNo := m.no })
      | none => none
    | _, _ => none

/-- The watchdog ends a handler whose wdcnt has reached wdlim (R88); in a gang the leader's counts (R108). -/
def State.evWatchdog (s : State) (core rc : Nat) : Option State :=
  let ctx := s.live core
  let w : Who := { core := core, ctx := ctx, rc := rc }
  let t := s.tenant core ctx
  let r := t.rcx rc
  if rc < 3 ∧ r.run = .running ∧ t.wdlim ≤ r.wdcnt ∧ !(rc = 0 ∧ t.follower) then
    some ((s.trap w 0x80 r.pc (BitVec.ofNat 64 r.wdcnt) (BitVec.ofNat 64 t.wdlim)).count core ctx 12 1)
  else none

/-- MESSAGE_RESIDENT (R80): the message at place a of those under way; with the flag, the oldest of the arrival log of core a (R328). -/
def execMessageResident (s : State) : Out := happens s (if s.inp.flag then s.evReplay s.inp.a else s.evResident s.inp.a)
/-- DISPATCH (R85): core a, register context b. -/
def execDispatch (s : State) : Out := happens s (s.evDispatch s.inp.a s.inp.b)
/-- OVERFLOW_PRESENT (R90): core a. -/
def execOverflowPresent (s : State) : Out := happens s (s.evOverflow s.inp.a)
/-- WATCHDOG (R88): core a, register context b. -/
def execWatchdog (s : State) : Out := happens s (s.evWatchdog s.inp.a s.inp.b)

/-! ## BIND, UNBIND, SEND, LOOPB (R95–R98) -/

/-- The generation of the next binding of a channel (R78). -/
def nextGen (g : Nat) : Nat := if (g + 1) % 65536 = 0 then 1 else (g + 1) % 65536

/-- Binds a channel (R78, R95). -/
def Tenant.bind (t : Tenant) (n entry prio : Nat) (urg : Bool) : Tenant :=
  let c := Chan.at t n
  t.setChan n { c with bound := true, gen := nextGen c.gen, entry := entry, prio := prio, urg := urg }

/-- BIND (R95). SPEC_FORBIDDEN has 0 in its address slot, which no rule fills (DESIGN CHOICE, log 49). -/
def execBind (rd rs1 rs2 : Nat) (s : State) : Out :=
  useX s [rd, rs1, rs2] <|
    let e := s.x rs1
    let v := (s.x rs2).toNat
    if s.rc.spec then trapNow s 0x85 0 0
    else if e.toNat % 4 ≠ 0 then trapNow s 0x20 e 0
    else if bits v 13 1 = 1 then
      .next (State.result (s.modTenant s.cur.core s.cur.ctx fun t => { t with ovfEntry := some e }) rd 0)
    else
      let n := bits v 0 6
      let s1 := s.modTenant s.cur.core s.cur.ctx fun t => t.bind n (bits e.toNat 2 46) (bits v 8 4) (bits v 12 1 == 1)
      .next (s1.result rd (BitVec.ofNat 64 (Chan.at s1.tn n).gen))

/-- Puts a message in its place in the order of residence. -/
def InMsg.insert (m : InMsg) : List InMsg → List InMsg
  | [] => [m]
  | x :: l => if x.no ≤ m.no then x :: m.insert l else m :: x :: l

/-- The messages of channel n, in the order of their residence over both halves (R80, R96). -/
def Tenant.resident (t : Tenant) (n : Nat) : List Msg :=
  (((t.inboxN ++ t.inboxU).filter fun m => m.msg.chan == n).foldl (fun l m => m.insert l) []).map (·.msg)

/-- UNBIND (R96). A diverted message that the overflow context is handling stays with its handler (DESIGN CHOICE, log 49); SPEC_FORBIDDEN as
for BIND. -/
def execUnbind (rd rs1 : Nat) (s : State) : Out :=
  useX s [rd, rs1] <|
    if s.rc.spec then trapNow s 0x85 0 0
    else
      let n := bits (s.x rs1).toNat 0 6
      let t := s.tn
      let c := Chan.at t n
      let t' : Tenant := { t.setChan n { c with bound := false, divert := false, dcnt := 0 } with
        inboxN := t.inboxN.filter (fun m => m.msg.chan != n), inboxU := t.inboxU.filter (fun m => m.msg.chan != n) }
      let s1 := s.setTenant s.cur.core s.cur.ctx t'.episodes
      let s2 := (t.resident n).foldl (fun (s : State) m => s.discard s.cur.core s.cur.ctx m 0x83) s1
      .next (s2.result rd (if c.bound then BitVec.ofNat 64 c.gen else 0))

/-- Messages of a core that have not left its outbox: the model keeps them in flight (log 14). -/
def State.unsent (s : State) (core ctx : Nat) : Nat :=
  (s.flights.filter fun f => match f.src with | some w => w.core == core && w.ctx == ctx | none => false).length

/-- The message of a SEND (R97). -/
def sendMsg (s : State) (d : Nat) (chan cnt : Nat) (urg bnc : Bool) : Msg :=
  let r := s.rc
  { hdr := mkHdr (bits d 48 16) s.tn.lcore 0 urg bnc r.outbox.length cnt chan, pay := (List.range cnt).map fun i => r.rx (10 + i),
    ext := r.outbox.map fun g => g.getD 0, bar := none }

/-- SEND (R97). -/
def execSend (rd rs1 chan cnt urg bnc : Nat) (s : State) : Out :=
  useX s (rd :: rs1 :: (List.range cnt).map (· + 10)) <| orderly s <|
    let r := s.rc
    let t := s.tn
    let d := (s.x rs1).toNat
    let empty := s.modRcx s.cur fun r => { r with outbox := [] }
    if r.outbox.any Option.isNone then stall s
    else if t.bandsz ≤ bits d 0 12 then .next (empty.result rd 2)
    else
      let dst := t.ctab.getD (bits d 0 12) s.cur.core
      let f : Flight := { msg := sendMsg s d chan cnt (urg == 1) (bnc == 1), core := dst, ctx := s.cur.ctx, src := some s.cur, seq := r.seq }
      match if r.spec then r.task.bind (s.findTask t.partid) else none with
      | some k => .next (State.result (empty.setTask { k with msgs := k.msgs ++ [f] }) rd 1)
      | none => if 4 ≤ s.unsent s.cur.core s.cur.ctx then stall s else .next ((empty.post f).result rd 0)

/-- LOOPB (R98). SPEC_FORBIDDEN has x[rs1] in its address slot, which no rule fills (DESIGN CHOICE, log 49). -/
def execLoopb (rd rs1 : Nat) (s : State) : Out :=
  useX s [rd, rs1] <| orderly s <|
    let a := (s.x rs1).toNat
    if s.rc.spec then trapNow s 0x85 (s.x rs1) 0
    else if a % 16 ≠ 0 then trapNow s 0x20 (s.x rs1) 0
    else if 0x3FFB0 < a then .next (s.result rd 2)
    else (s.readTcm s.cur a 16).then s fun s b =>
      let h := leAt b 0 8
      let xcnt := bits h 25 5
      let pcnt := bits h 21 4
      if 8 < pcnt ∨ 16 < xcnt ∨ 7 < bits h 32 4 ∨ bits h 6 15 ≠ 0 ∨ leAt b 8 8 ≠ 0 ∨ 0x40000 < a + 80 + 16 * xcnt then .next (s.result rd 2)
      else
        let urg := bits h 31 1 == 1
        if 16048 ≤ s.tn.occ urg + (16 + 16 * ((pcnt + 1) / 2) + 16 * xcnt) then .next (s.result rd 1)
        else (s.readTcm s.cur (a + 16) (64 + 16 * xcnt)).then s fun s c =>
          let m : Msg := { hdr := BitVec.ofNat 64 h, pay := (List.range pcnt).map (fun i => BitVec.ofNat 64 (leAt c (8 * i) 8)),
                           ext := (List.range xcnt).map (fun i => BitVec.ofNat 128 (leAt c (64 + 16 * i) 16)), bar := none }
          let s := s.modTenant s.cur.core s.cur.ctx fun t =>
            let e := Chan.at t m.chan
            t.setChan m.chan { e with dcnt := e.dcnt - 1 }
          .next (State.result (s.arrive s.cur.core s.cur.ctx m true) rd 0)

end Sys2Proof.Machine
end

