-- ==== Sys2Proof/Machine/OpEvents.lean ====
section
/-! DEFINITION. The events by which homes perform the operations of a core (R59, R142, R150, R151), and by which suspended handlers go on
(R316–R320). An operation is named by its register context and its number. -/

namespace Sys2Proof.Machine

def State.setWait (s : State) (w : Who) (x : Wait) : State :=
  if 3 ≤ w.rc then
    s.modTenant w.core w.ctx fun t => { t with slots := t.slots.map fun p => if p.1 = w.rc - 3 then (p.1, { p.2 with wait := x }) else p }
  else s.modRcx w fun r => { r with wait := some x }

/-- A suspended handler ends by a fault of its request, with the value of the extra slot: from its slot, or in place (R319). What it waited for ends
with it. -/
def State.endWaitWith (s : State) (w : Who) (cause va : Nat) (a6 : Word) : State :=
  match s.waitOf w with
  | none => s
  | some x =>
    let s := s.endWaiting w x (some va)
    if 3 ≤ w.rc then s.endSlot w.core w.ctx (w.rc - 3) cause (BitVec.ofNat 64 va) a6
    else s.endPlace w x x.pc cause (BitVec.ofNat 64 va) a6

/-- The same with the extra slot of an access. -/
def State.endWait (s : State) (w : Who) (cause va : Nat) : State := s.endWaitWith w cause va (s.extraOf w cause va)

/-- A request of a suspended handler meets a fault, again or in the memory of a peer module: a record is posted (R317 step 4), or the peer has it. -/
def State.holdAgain (s : State) (w : Who) (x : Wait) (p : Nat × Nat) (cause : Nat) : State :=
  s.postHeld (dieOf w.core) (s.coreRec w cause p.1 x.pc) (heldAs w p) (s.peerFault w p.1 (needAt x.pc cause p.1))

/-- Performs part p of the operation that a suspended handler waits for (R317 step 4); `o` has its other parts still to perform; d is 1 where
the part was held. One that reaches a narrow path only now is cut there, and its rest is performed later (R62). Where an edge of R158 or the host still
keeps it back, it is performed later. -/
def State.heldPart (s : State) (w : Who) (x : Wait) (o : Op) (p : Nat × Nat) (d : Nat) : State :=
  let all := { o with parts := p :: o.parts }
  let cut := s.cutParts w [p]
  let a := cut.headD p
  let rest := { o with parts := cut.tail ++ o.parts }
  if !s.ordered w all then s.setWait w { x with why := .op all, need := x.need - d }
  else match s.doPart w rest a.1 a.2 false with
  | .ok s' o' => s'.setWait w { x with why := .op o', need := x.need - d }
  | .wait => s.setWait w { x with why := .op all, need := x.need - d }
  | .again s' => s'.setWait w { x with why := .op all, need := x.need - d }
  | .peer s' => (s'.setWait w { x with why := .op { rest with parts := a :: rest.parts, peer := true }, need := x.need - d }).toPeer w o a.1 a.2
  | .bad s' c =>
    if suspends c then (s'.setWait w { x with need := x.need + 1 - d, why := .op all }).holdAgain w x p c else s'.endWait w c p.1

/-- The register context (live, or the image in a slot) and the operation that an event names. -/
def State.opAt (s : State) (core rc q : Nat) : Option (Who × Op) :=
  let w : Who := { core := core, ctx := s.live core, rc := rc }
  ((s.rcx w).findOp q).map fun o => (w, o)

/-- The operation that a suspended handler waits for, with a part still to be performed. -/
def State.waitOp (s : State) (core rc q : Nat) : Option (Who × Wait × Op) :=
  let w : Who := { core := core, ctx := s.live core, rc := rc }
  match s.waitOf w with
  | some x => match x.why with
    | .op o => if o.seq = q ∧ !o.peer ∧ !o.parts.isEmpty then some (w, x, o) else none
    | _ => none
  | none => none

/-- Part d of those that a suspended handler's operation still has to perform and that no station holds; the operation with its other parts. -/
def State.pickOpen (s : State) (w : Who) (o : Op) (d : Nat) : Option ((Nat × Nat) × Op) :=
  let kept := fun (p : Nat × Nat) => s.held.any fun h => h.by_ == heldAs w p
  let ps := s.cutParts w (o.parts.filter fun p => !kept p)
  (ps[d]?).map fun p => (p, { o with parts := ps.eraseIdx d ++ o.parts.filter kept })

/-- Part d of an operation of some kinds is performed, or ends in a fault; `sus` selects those that suspend. -/
def State.evPerform (s : State) (kinds : OpK → Bool) (core rc q d : Nat) (sus : Bool) : Option State :=
  let fits := fun (r : PartRes) => (match r with | .bad _ c => suspends c | _ => false) == sus
  match s.opAt core rc q with
  | some (w, o) =>
    if !kinds o.k || (match s.opFaults w o d with | some c => suspends c | none => false) != sus then none else s.perform w o d
  | none => match s.waitOp core rc q with
    | none => none
    | some (w, x, o) =>
      match s.pickOpen w o d with
      | none => none
      | some (p, o') =>
        let r := s.doPart w o' p.1 p.2 false
        if !kinds o.k || !fits r || !s.ordered w o then none
        else match r with
          | .wait => none
          | _ => some (s.heldPart w x o' p 0)

def OpK.returns : OpK → Bool | .load => true | .ldv => true | _ => false
def OpK.posted : OpK → Bool | .store => true | .stv => true | .cinit _ => true | .barrive .. => true | _ => false
def OpK.atomic : OpK → Bool | .amo _ => true | .carrive => true | .cexpect _ => true | _ => false
def OpK.watches : OpK → Bool | .vwatch .. => true | .cwatch .. => true | _ => false

/-- LOAD_RETURN (R59): core a, register context b, operation c, part d of it. -/
def execLoadReturn (s : State) : Out := happens s (s.evPerform OpK.returns s.inp.a s.inp.b s.inp.c s.inp.d false)
/-- AMO_AT_HOME (R142): core a, register context b, operation c, part d of it. -/
def execAmoAtHome (s : State) : Out := happens s (s.evPerform OpK.atomic s.inp.a s.inp.b s.inp.c s.inp.d false)
/-- VWATCH_REGISTER (R150): core a, register context b, operation c, part d of it. -/
def execVwatchRegister (s : State) : Out := happens s (s.evPerform OpK.watches s.inp.a s.inp.b s.inp.c s.inp.d false)
/-- TRANSLATION_FAULT (R317): core a, register context b, operation c, part d of it. -/
def execTranslationFault (s : State) : Out := happens s (s.evPerform (fun _ => true) s.inp.a s.inp.b s.inp.c s.inp.d true)

/-! ## Held in place (R320) -/

/-- What was held for a handler in place is now held for its slot. -/
def HeldBy.toSlot (w : Who) (i : Nat) (b : HeldBy) : HeldBy :=
  match b with
  | .place v p => if v = w then .slot w.core w.ctx i p else b
  | b => b

/-- A slot has become free: step 2 of R317 for a handler held in place. EBREAK is not counted, nor a member that its gang suspends. -/
def State.evSlotFree (s : State) (core rc : Nat) : Option State :=
  let w : Who := { core := core, ctx := s.live core, rc := rc }
  let t := s.tenant core w.ctx
  let r := t.rcx rc
  if 2 < rc ∨ r.run ≠ .held then none
  else match r.wait, t.freeSlot with
    | some x, some i =>
      let s1 : State := { s.setTenant core w.ctx (t.suspendTo rc i x) with held := s.held.map fun h => { h with by_ := h.by_.toSlot w i } }
      some (if x.why = .ebreak ∨ x.why = .gang then s1 else s1.count core w.ctx 10 1)
    | _, _ => none

/-- SUSPEND_ON_SLOT_FREE (R320): core a, register context b. -/
def execSuspendOnSlotFree (s : State) : Out := happens s (s.evSlotFree s.inp.a s.inp.b)

/-! ## Resumption (R316, R317) -/

/-- A destination in the registers that an image replaces. -/
def Op.unregister (o : Op) : Op :=
  match o.dest with
  | .x .. => { o with dest := .none }
  | .w _ => { o with dest := .none }
  | .pair _ => { o with dest := .none }
  | .fill _ => { o with dest := .none }
  | _ => o

/-- The image of slot i takes the place of its register context: the operations of the invocation stay its own, what handlers that ran
meanwhile still await goes nowhere. -/
def Tenant.restore (t : Tenant) (i : Nat) (x : Slot) : Tenant :=
  let live := t.rcx x.rc
  let n := live.inv + 1
  let own := fun (o : Op) => if o.inv = x.img.inv then { o with inv := n } else o
  let r := { x.img with run := .running, wait := none, inv := n, seq := max live.seq x.img.seq, pc := x.wait.cont,
                        fences := live.fences,
                        ops := live.ops.map (fun o => own o.unregister) ++ x.img.ops.map own }
  let t := (t.setRcx x.rc r)
  { t with slots := Tbl.del t.slots i, g := if x.rc = 0 then x.g else t.g }

/-- The faulting instruction completes with what was replayed, and the handler goes on. -/
def State.resumeSlot (s : State) (core ctx i : Nat) (x : Slot) : State :=
  let w : Who := { core := core, ctx := ctx, rc := x.rc }
  let n := (s.rcx w).inv + 1
  let s := s.setTenant core ctx ((s.tenant core ctx).restore i x)
  let s := { s with xfers := s.xfers.map (fun y => if y.who = w ∧ y.inv = x.img.inv then { y with inv := n } else y),
                    peerReqs := s.peerReqs.map fun y => if y.who = w ∧ y.by_ = .early x.img.inv then { y with by_ := .early n } else y }
  let retired := fun (s : State) => s.modTenant core ctx fun t => { t with instret := t.instret + 1 }
  match x.wait.why with
  | .op o => (retired s).complete w { o with inv := n }
  | .ebreak => retired s
  | _ => s

/-- The slot of a member in suspension `gid` of its gang. -/
def Tenant.gangSlot (t : Tenant) (gid : Nat) : Option (Nat × Slot) := t.slots.find? fun p => p.2.wait.gang == some gid

/-- A ready slot is restored once its register context is idle (R317 step 5), with its gang where it has one (R108). An urgent handler that
goes on while a normal one runs pre-empts it (R84). -/
def State.evResume (s : State) (core i : Nat) : Option State :=
  let ctx := s.live core
  let t := s.tenant core ctx
  match t.slots.find? (fun p => p.1 == i) with
  | none => none
  | some (_, x) =>
    if !s.slotReady core ctx i ∨ !s.mayResume core then none
    else match x.wait.gang with
      | some g =>
        let hs := s.wholeGang core ctx
        if hs.any fun h => let m := s.tenant h ctx; m.n.run != .idle || m.u.run != .idle || m.o.run != .idle then none
        else some (hs.foldl (fun s h => match (s.tenant h ctx).gangSlot g with
          | some (j, y) => s.resumeSlot h ctx j y
          | none => s) s)
      | none =>
        if (t.rcx x.rc).run ≠ .idle ∨ (x.rc ≠ 0 ∧ s.gangRuns core ctx) then none
        else
          let s := if x.rc = 1 ∧ t.n.run = .running then s.count core ctx 11 1 else s
          some (s.resumeSlot core ctx i x)

/-- HANDLER_RESUME (R317): core a, slot b. -/
def execHandlerResume (s : State) : Out := happens s (s.evResume s.inp.a s.inp.b)

/-- FAULT_RECORD_POST (R318): the oldest record that waits for function a. -/
def execFaultRecordPost (s : State) : Out := .next (s.flushRec s.inp.a).1

end Sys2Proof.Machine
end

