-- ==== Sys2Proof/Machine/Flags.lean ====
section
/-! DEFINITION. The floating-point conditions (R75, R180) and the events that an arithmetic lane counts (R76): what a lane raises, how
the lanes of an instruction join, and how they reach fflags and the event counters. -/

namespace Sys2Proof.Machine

/-- The conditions of fflags (R75): NV, DZ, OF, UF, NX at bits 4 to 0. -/
abbrev Conds := BitVec 5
def NV : Conds := 16
def DZ : Conds := 8
def OF : Conds := 4
def UF : Conds := 2
def NX : Conds := 1
/-- A condition that is raised where something holds. -/
def cond (b : Bool) (c : Conds) : Conds := if b then c else 0

/-- A value of a lane with what computing it raised: conditions, saturations to LNS6 (evc0), lanes saturated by VSADD and VSSUB (evc2)
or by a conversion to an integer (evc3). -/
structure Lane where
  v : Nat
  fl : Conds
  e0 : Nat
  e2 : Nat
  e3 : Nat
  deriving DecidableEq, Repr

/-- A value that raises and counts nothing. -/
def Lane.pure (v : Nat) : Lane := { v := v, fl := 0, e0 := 0, e2 := 0, e3 := 0 }
/-- A value with conditions. -/
def Lane.raise (v : Nat) (fl : Conds) : Lane := { Lane.pure v with fl := fl }

/-- The conditions of several lanes, joined (R180). -/
def joinFl (l : List Lane) : Conds := l.foldl (fun f x => f ||| x.fl) 0

/-- The conditions of an instruction go into fflags, its counts into the counters of the tenant context (R76, R180). -/
def State.raiseAll (s : State) (l : List Lane) : State :=
  let s := s.modRcx s.cur fun r => { r with fflags := r.fflags ||| joinFl l }
  let add := fun (s : State) (i n : Nat) => if n = 0 then s else s.count s.cur.core s.cur.ctx i n
  let s := add s 0 (l.foldl (fun n x => n + x.e0) 0)
  let s := add s 2 (l.foldl (fun n x => n + x.e2) 0)
  add s 3 (l.foldl (fun n x => n + x.e3) 0)

end Sys2Proof.Machine
end

