-- ==== Sys2Proof/Machine/Number.lean ====
section
/-! DEFINITION. Number formats and rounding (R175–R194): every finite value is an exact dyadic; an operation computes exactly and
rounds once. Special functions are computed in fixed point to 2^-256 or better before that rounding (DEDUCED, log 13). -/

namespace Sys2Proof.Machine

/-! ## Formats (R176) -/

/-- A binary interchange format: exponent bits and fraction bits. -/
structure FFmt where
  eb : Nat
  fb : Nat
  deriving DecidableEq, Repr

def FFmt.bias (f : FFmt) : Nat := 2 ^ (f.eb - 1) - 1
def FFmt.width (f : FFmt) : Nat := 1 + f.eb + f.fb
def FFmt.sign (f : FFmt) : Nat := 2 ^ (f.eb + f.fb)
/-- The least exponent of a normal number. -/
def FFmt.emin (f : FFmt) : Int := 1 - (f.bias : Int)
/-- The default NaN (R176). -/
def FFmt.nan (f : FFmt) : Nat := (2 ^ f.eb - 1) * 2 ^ f.fb + 2 ^ (f.fb - 1)
/-- Infinity of a sign. -/
def FFmt.inf (f : FFmt) (neg : Bool) : Nat := (2 ^ f.eb - 1) * 2 ^ f.fb + (if neg then f.sign else 0)
/-- Zero of a sign. -/
def FFmt.zero (f : FFmt) (neg : Bool) : Nat := if neg then f.sign else 0
/-- The largest finite number of a sign. -/
def FFmt.big (f : FFmt) (neg : Bool) : Nat := f.inf neg - 1

def bf16 : FFmt := { eb := 8, fb := 7 }
def fp16 : FFmt := { eb := 5, fb := 10 }
def fp32 : FFmt := { eb := 8, fb := 23 }
def fp64 : FFmt := { eb := 11, fb := 52 }

/-- What a floating pattern stands for: num is (-1)^neg · m · 2^e with m > 0. -/
inductive Fp where
  | nan (signal : Bool)
  | inf (neg : Bool)
  | zero (neg : Bool)
  | num (neg : Bool) (m : Nat) (e : Int)
  deriving DecidableEq, Repr

/-- The value of a pattern (R176, R177: subnormals at their value). -/
def FFmt.get (f : FFmt) (b : Nat) : Fp :=
  let neg := b / f.sign % 2 == 1
  let x := b / 2 ^ f.fb % 2 ^ f.eb
  let m := b % 2 ^ f.fb
  if x = 2 ^ f.eb - 1 then (if m = 0 then .inf neg else .nan (m / 2 ^ (f.fb - 1) % 2 == 0))
  else if x = 0 then (if m = 0 then .zero neg else .num neg m (f.emin - f.fb))
  else .num neg (2 ^ f.fb + m) ((x : Int) - f.bias - f.fb)

def Fp.isNan : Fp → Bool | .nan _ => true | _ => false
def Fp.signals : Fp → Bool | .nan b => b | _ => false
def Fp.neg? : Fp → Bool | .nan _ => false | .inf n => n | .zero n => n | .num n _ _ => n

/-! ## Rounding -/

/-- Rounding modes (R75 frm): 0 nearest even, 1 toward zero, 2 down, 3 up. Whether n + rem/2^d of a sign is rounded up in magnitude. -/
def roundsUp (rm : Nat) (neg : Bool) (n rem d : Nat) : Bool :=
  if rem = 0 then false
  else match rm with
    | 0 => decide (2 ^ d < 2 * rem) || (2 * rem == 2 ^ d && n % 2 == 1)
    | 1 => false
    | 2 => neg
    | _ => !neg

/-- m · 2^e rounded to a multiple of 2^q, as that multiple, and whether it is inexact. -/
def roundAt (rm : Nat) (neg : Bool) (m : Nat) (e q : Int) : Nat × Bool :=
  if q ≤ e then (m * 2 ^ (e - q).toNat, false)
  else
    let d := (q - e).toNat
    let n := m / 2 ^ d
    let r := m % 2 ^ d
    (if roundsUp rm neg n r d then n + 1 else n, r != 0)

/-- Rounds (-1)^neg · m · 2^e, m > 0, to a format under a mode, with overflow, underflow (tininess after rounding) and inexact
(R177). -/
def FFmt.round (f : FFmt) (rm : Nat) (neg : Bool) (m : Nat) (e : Int) : Lane :=
  let low := f.emin - f.fb
  let tiny? := decide ((m.log2 : Int) + e < low - 2)
  let (m, e) := if tiny? then (1, low - 3) else (m, e)
  let x := (m.log2 : Int) + e
  let q := max (x - f.fb) low
  let (n, inex) := roundAt rm neg m e q
  let s := if neg then f.sign else 0
  if f.bias < (n.log2 : Int) + q ∧ n ≠ 0 then
    let away := rm == 0 || (rm == 2 && neg) || (rm == 3 && !neg)
    Lane.raise (if away then f.inf neg else f.big neg) (OF ||| NX)
  else
    let u := roundAt rm neg m e (x - f.fb)
    let tiny := decide ((u.1.log2 : Int) + (x - f.fb) < f.emin)
    let bits := if n < 2 ^ f.fb then n else ((q + f.fb + f.bias).toNat) * 2 ^ f.fb + (n - 2 ^ f.fb)
    Lane.raise (s + bits) (cond inex NX ||| cond (inex && tiny) UF)

/-- The pattern of a value in a format, rounded. -/
def FFmt.put (f : FFmt) (rm : Nat) : Fp → Lane
  | .nan _ => Lane.pure f.nan
  | .inf n => Lane.pure (f.inf n)
  | .zero n => Lane.pure (f.zero n)
  | .num n m e => f.round rm n m e

/-! ## Exact sums and products -/

/-- A dyadic number: a · 2^e. -/
structure Dy where
  a : Int
  e : Int
  deriving DecidableEq, Repr

def Dy.add (x y : Dy) : Dy :=
  if x.e ≤ y.e then { a := x.a + y.a * 2 ^ (y.e - x.e).toNat, e := x.e }
  else { a := x.a * 2 ^ (x.e - y.e).toNat + y.a, e := y.e }

def Dy.mul (x y : Dy) : Dy := { a := x.a * y.a, e := x.e + y.e }

/-- A term of an exact sum: a finite value, with the sign of a zero, an infinity, a NaN; `bad` a product ∞ × 0. -/
inductive Term where
  | fin (x : Dy) (neg : Bool)
  | inf (neg : Bool)
  | nan (signal : Bool)
  | bad
  deriving DecidableEq, Repr

def Fp.term : Fp → Term
  | .nan b => .nan b
  | .inf n => .inf n
  | .zero n => .fin { a := 0, e := 0 } n
  | .num n m e => .fin { a := if n then -(m : Int) else m, e := e } n

/-- The exact product of two values as a term. -/
def Fp.times (a b : Fp) : Term :=
  match a, b with
  | .nan x, .nan y => .nan (x || y)
  | .nan x, _ => .nan x
  | _, .nan y => .nan y
  | .inf x, .zero _ => let _ := x; .bad
  | .zero _, .inf _ => .bad
  | .inf x, y => .inf (x != y.neg?)
  | x, .inf y => .inf (x.neg? != y)
  | x, y => match x.term, y.term with
    | .fin p _, .fin q _ => .fin (p.mul q) (x.neg? != y.neg?)
    | _, _ => .bad

/-- The rounded exact sum of terms (R177): invalid for a signalling NaN, for ∞ × 0 (R178), for ∞ − ∞. -/
def FFmt.sum (f : FFmt) (rm : Nat) (ts : List Term) : Lane :=
  let sig := ts.any fun t => match t with | .nan b => b | .bad => true | _ => false
  let nan := ts.any fun t => match t with | .nan _ => true | .bad => true | _ => false
  let pos := ts.any fun t => t == .inf false
  let neg := ts.any fun t => t == .inf true
  if nan then Lane.raise f.nan (cond sig NV)
  else if pos && neg then Lane.raise f.nan NV
  else if pos then Lane.pure (f.inf false)
  else if neg then Lane.pure (f.inf true)
  else
    let t : Dy := ts.foldl (fun (d : Dy) t => match t with | .fin x _ => d.add x | _ => d) { a := 0, e := 0 }
    if t.a = 0 then
      let allNeg := ts.all fun t => match t with | .fin _ n => n | _ => false
      Lane.pure (f.zero (allNeg || rm == 2))
    else f.round rm (decide (t.a < 0)) t.a.natAbs t.e

def Term.flip : Term → Term
  | .fin x n => .fin { x with a := -x.a } !n
  | .inf n => .inf !n
  | t => t

/-- VFADD, VFSUB, VFMA of a lane (R178, R203). -/
def FFmt.add (f : FFmt) (rm a b : Nat) : Lane := f.sum rm [(f.get a).term, (f.get b).term]
def FFmt.sub (f : FFmt) (rm a b : Nat) : Lane := f.sum rm [(f.get a).term, (f.get b).term.flip]
def FFmt.fma (f : FFmt) (rm a b c : Nat) : Lane := f.sum rm [(f.get a).times (f.get b), (f.get c).term]

/-- VFMUL of a lane: the sign of a zero product is the product of the signs. -/
def FFmt.mul (f : FFmt) (rm a b : Nat) : Lane :=
  match (f.get a).times (f.get b) with
  | .fin x n => if x.a = 0 then Lane.pure (f.zero n) else f.round rm n x.a.natAbs x.e
  | .inf n => Lane.pure (f.inf n)
  | .nan b => Lane.raise f.nan (cond b NV)
  | .bad => Lane.raise f.nan NV

/-- VFDIV of a lane: the quotient to more bits than any format has, its last bit marking a remainder. -/
def FFmt.div (f : FFmt) (rm a b : Nat) : Lane :=
  let x := f.get a
  let y := f.get b
  let neg := x.neg? != y.neg?
  match x, y with
  | .nan p, .nan q => Lane.raise f.nan (cond (p || q) NV)
  | .nan p, _ => Lane.raise f.nan (cond p NV)
  | _, .nan q => Lane.raise f.nan (cond q NV)
  | .inf _, .inf _ => Lane.raise f.nan NV
  | .zero _, .zero _ => Lane.raise f.nan NV
  | .inf _, _ => Lane.pure (f.inf neg)
  | _, .inf _ => Lane.pure (f.zero neg)
  | .zero _, _ => Lane.pure (f.zero neg)
  | _, .zero _ => Lane.raise (f.inf neg) DZ
  | .num _ m e, .num _ n k =>
    let p := m * 2 ^ 120
    f.round rm neg (2 * (p / n) + (if p % n = 0 then 0 else 1)) (e - k - 121)

/-- The integer square root, bit by bit. -/
def isqrtFrom (n : Nat) : Nat → Nat → Nat
  | 0, r => r
  | k + 1, r => isqrtFrom n k (if (r + 2 ^ k) * (r + 2 ^ k) ≤ n then r + 2 ^ k else r)
def isqrt (n : Nat) : Nat := isqrtFrom n (n.log2 / 2 + 1) 0

/-- VFSQRT of a lane (R203). -/
def FFmt.sqrt (f : FFmt) (rm a : Nat) : Lane :=
  match f.get a with
  | .nan p => Lane.raise f.nan (cond p NV)
  | .zero n => Lane.pure (f.zero n)
  | .inf false => Lane.pure (f.inf false)
  | .inf true => Lane.raise f.nan NV
  | .num true _ _ => Lane.raise f.nan NV
  | .num false m e =>
    let (m, e) := if e % 2 = 0 then (m, e) else (2 * m, e - 1)
    let p := m * 2 ^ 240
    let r := isqrt p
    f.round rm false (2 * r + (if r * r = p then 0 else 1)) (e / 2 - 121)

/-! ## Comparison (R201, R204) -/

/-- The order of two values that are not NaNs; −0 equals +0. -/
def Fp.cmp (x y : Fp) : Ordering :=
  let key := fun (p : Fp) => match p with | .inf true => (-1 : Int) | .inf false => 1 | _ => 0
  if key x ≠ key y then compare (key x) (key y)
  else match x.term, y.term with
    | .fin p _, .fin q _ => compare (p.add { q with a := -q.a }).a 0
    | _, _ => .eq

/-- minimumNumber and maximumNumber (R204). -/
def FFmt.minmax (f : FFmt) (max : Bool) (a b : Nat) : Lane :=
  let x := f.get a
  let y := f.get b
  let fl := cond (x.signals || y.signals) NV
  if x.isNan && y.isNan then Lane.raise f.nan fl
  else if x.isNan then Lane.raise b fl
  else if y.isNan then Lane.raise a fl
  else
    let less := match x.cmp y with | .lt => true | .gt => false | .eq => x.neg? && !y.neg?
    Lane.raise (if less != max then a else b) fl

/-! ## Integers -/

/-- An integer rounded to a floating format: it raises inexact alone (R184). -/
def FFmt.ofInt (f : FFmt) (rm : Nat) (i : Int) : Lane :=
  if i = 0 then Lane.pure 0
  else let r := f.round rm (decide (i < 0)) i.natAbs 0; { r with fl := r.fl &&& NX }

/-- A floating value rounded to a signed integer of w bits (R184). -/
def Fp.toInt (x : Fp) (rm w : Nat) : Lane :=
  let hi : Int := 2 ^ (w - 1) - 1
  let lo : Int := -(2 ^ (w - 1))
  let sat := fun (v : Int) => { Lane.raise ((v % 2 ^ w).toNat) NV with e3 := 1 }
  match x with
  | .nan _ => sat 0
  | .inf n => sat (if n then lo else hi)
  | .zero _ => Lane.pure 0
  | .num n m e =>
    if 200 < (m.log2 : Int) + e then sat (if n then lo else hi)
    else
      let (m, e) := if (m.log2 : Int) + e < -8 then (1, (-8 : Int)) else (m, e)
      let (k, inex) := roundAt rm n m e 0
      let v : Int := if n then -(k : Int) else k
      if hi < v then sat hi else if v < lo then sat lo else Lane.raise ((v % 2 ^ w).toNat) (cond inex NX)

/-! ## LNS6 (R181–R183, R187) -/

/-- The logarithm of a code, in quarters; none for zero. -/
def lnsLog (c : Nat) : Option Int :=
  let l := c % 32
  if l = 16 then none else some (if l < 16 then (l : Int) else (l : Int) - 32)
def lnsNeg (c : Nat) : Bool := c / 32 % 2 == 1
/-- T[f] of R181. -/
def lnsT (f : Nat) : Nat := match f with | 0 => 4096 | 1 => 4871 | 2 => 5793 | _ => 6889

/-- The exact value of a code (R181). -/
def lnsGet (c : Nat) : Fp :=
  match lnsLog c with
  | none => .zero (lnsNeg c)
  | some l => .num (lnsNeg c) (lnsT (l % 4).toNat) (l / 4 - 12)

/-- The code of an FP32 pattern's value (R182), with evc0; BF16 and FP16 values are FP32 values. -/
def lnsPut (x : Fp) : Lane :=
  match x with
  | .nan _ => { Lane.pure 0x10 with e0 := 1 }
  | .zero n => Lane.pure ((if n then 0x20 else 0) + 0x10)
  | .inf n => { Lane.pure ((if n then 0x20 else 0) + 15) with e0 := 1 }
  | .num n m e =>
    let k := m.log2
    let e' := (k : Int) + e
    let m' := if k ≤ 23 then m * 2 ^ (23 - k) else m / 2 ^ (k - 23)
    let q := 4 * e' + (if m' < 9147842 then 0 else if m' < 10878679 then 1 else if m' < 12937003 then 2 else if m' < 15384775 then 3 else 4)
    let s := if n then 0x20 else 0
    if 15 < q then { Lane.pure (s + 15) with e0 := 1 }
    else if q < -15 then Lane.pure (s + 16)
    else Lane.pure (s + (q % 32).toNat)

/-! ## Conversions (R184). Formats: 0 INT8, 1 INT16, 2 INT32, 3 INT64, 4 BF16, 5 FP16, 6 FP32, 7 FP64, 8 LNS6 -/

/-- The bits of an element of a format. -/
def fmtWidth (f : Nat) : Nat := match f with | 0 => 8 | 1 => 16 | 2 => 32 | 3 => 64 | 4 => 16 | 5 => 16 | 6 => 32 | 7 => 64 | _ => 8
/-- The bytes of an element of a format. -/
def fmtBytes (f : Nat) : Nat := fmtWidth f / 8
/-- The floating format of a code 4 to 7. -/
def ffmt (f : Nat) : FFmt := match f with | 4 => bf16 | 5 => fp16 | 7 => fp64 | _ => fp32

/-- Drops the conditions of a lane. -/
def Lane.quiet (l : Lane) : Lane := { l with fl := 0 }

/-- A value of one format converted to another (R184). -/
def convert (src dst rm v : Nat) : Lane :=
  if src = dst then Lane.pure v
  else if src < 4 then
    let i := sextI v (fmtWidth src)
    if dst < 4 then Lane.pure ((i % 2 ^ fmtWidth dst).toNat)
    else if dst < 8 then (ffmt dst).ofInt rm i
    else lnsPut (fp32.get (fp32.ofInt 0 i).v)
  else if src < 8 then
    let x := (ffmt src).get v
    if dst < 4 then x.toInt rm (fmtWidth dst)
    else if dst < 8 then
      let l := (ffmt dst).put rm x
      { l with fl := l.fl ||| cond x.signals NV }
    else lnsPut (if src = 7 then fp32.get (fp32.put 0 x).v else x)
  else
    if dst < 4 then (fp32.get (fp32.put 0 (lnsGet v)).v).toInt 0 (fmtWidth dst) |>.quiet
    else ((ffmt dst).put 0 (lnsGet v)).quiet

/-! ## Special functions (R191, R192) -/

/-- The bits of fixed point after the point. -/
def fixN : Nat := 320
/-- ln 2 and pi, times 2^320. -/
def ln2Fix : Nat := 1480553391661173448385607439722553250922680800745876974795605978609098082859138712941075737848984
def piFix : Nat := 6710401180212168915155840974220003240804194089427148950727106424351713218671805380099500388914039

/-- The sum of k terms of exp(y): term · y^j / (i + 1) … (i + j). -/
def expSum (y : Nat) : Nat → Nat → Nat → Nat
  | 0, _, _ => 0
  | k + 1, i, term => term + expSum y k (i + 1) (term * y / 2 ^ fixN / (i + 1))

/-- 2^f for 0 ≤ f < 1, in fixed point. -/
def exp2Fix (f : Nat) : Nat := expSum (f * ln2Fix / 2 ^ fixN) 72 0 (2 ^ fixN)

/-- 2^x of an exact dyadic, rounded to nearest even. -/
def exp2Dy (x : Dy) : Lane :=
  if x.a = 0 then Lane.pure (fp32.ofInt 0 1).v
  else if 200 < (x.a.natAbs.log2 : Int) + x.e then
    (if x.a < 0 then fp32.round 0 false 3 (-1000) else fp32.round 0 false 3 1000)
  else
    let n : Int := if 0 ≤ x.e then x.a * 2 ^ x.e.toNat else x.a / 2 ^ (-x.e).toNat
    let r : Int := if 0 ≤ x.e then 0 else x.a % 2 ^ (-x.e).toNat
    if r = 0 then fp32.round 0 false 1 n
    else
      let k := (-x.e).toNat
      let f := if k ≤ fixN then r.toNat * 2 ^ (fixN - k) else r.toNat / 2 ^ (k - fixN)
      fp32.round 0 false (2 * exp2Fix f + 1) (n - fixN - 1)

/-- VEXP2 (R191). -/
def fexp2 (b : Nat) : Lane :=
  match fp32.get b with
  | .nan s => Lane.raise fp32.nan (cond s NV)
  | .inf n => Lane.pure (if n then 0 else fp32.inf false)
  | .zero _ => exp2Dy { a := 0, e := 0 }
  | .num n m e => exp2Dy { a := if n then -(m : Int) else m, e := e }

/-- The sum of k terms of the series of atanh: z^(2i+1) / (2i+1). -/
def atanhSum (z2 : Nat) : Nat → Nat → Nat → Nat
  | 0, _, _ => 0
  | k + 1, i, pw => pw / (2 * i + 1) + atanhSum z2 k (i + 1) (pw * z2 / 2 ^ fixN)

/-- log2 of M / 2^23, 1 ≤ M / 2^23 < 2, in fixed point. -/
def log2Fix (m : Nat) : Nat :=
  let z := (m - 2 ^ 23) * 2 ^ fixN / (m + 2 ^ 23)
  2 * atanhSum (z * z / 2 ^ fixN) 110 0 z * 2 ^ fixN / ln2Fix

/-- VLOG2 (R191). -/
def flog2 (b : Nat) : Lane :=
  match fp32.get b with
  | .nan s => Lane.raise fp32.nan (cond s NV)
  | .zero _ => Lane.raise (fp32.inf true) DZ
  | .inf false => Lane.pure (fp32.inf false)
  | .inf true => Lane.raise fp32.nan NV
  | .num true _ _ => Lane.raise fp32.nan NV
  | .num false m e =>
    let k := m.log2
    let m' := m * 2 ^ (23 - k)
    let i : Int := k + e
    if m' = 2 ^ 23 then fp32.ofInt 0 i
    else
      let v : Int := i * 2 ^ fixN + log2Fix m'
      fp32.round 0 (decide (v < 0)) (2 * v.natAbs + 1) (-fixN - 1)

/-- VRCP (R191): division of 1 by x. -/
def frcp (b : Nat) : Lane := fp32.div 0 (fp32.ofInt 0 1).v b

/-- VRSQRT (R191). -/
def frsqrt (b : Nat) : Lane :=
  match fp32.get b with
  | .nan s => Lane.raise fp32.nan (cond s NV)
  | .zero n => Lane.raise (fp32.inf n) DZ
  | .inf false => Lane.pure 0
  | .inf true => Lane.raise fp32.nan NV
  | .num true _ _ => Lane.raise fp32.nan NV
  | .num false m e =>
    let (m, e) := if e % 2 = 0 then (m, e) else (2 * m, e - 1)
    let r := isqrt (2 ^ 240 / m)
    fp32.round 0 false (2 * r + (if r * r * m = 2 ^ 240 then 0 else 1)) (-(e / 2) - 121)

/-- The alternating sum of k terms of the series of sin or cos: term · y2^j / ((i+1)(i+2)) …. -/
def sinSum (y2 : Nat) : Nat → Nat → Nat → Nat
  | 0, _, _ => 0
  | k + 1, i, term => term - sinSum y2 k (i + 2) (term * y2 / 2 ^ fixN / ((i + 1) * (i + 2)))

/-- sin(pi·t) for 0 < t < 1/2, t = a / 2^k, in fixed point. -/
def sinFix (a k : Nat) : Nat :=
  let y := piFix * a / 2 ^ k
  sinSum (y * y / 2 ^ fixN) 50 1 y

/-- The sine of pi times r = a / 2^k, 0 ≤ r < 2, as a rounded FP32; an exact zero has the given sign. -/
def sinTurn (a k : Nat) (zneg : Bool) : Lane :=
  let one := 2 ^ k
  let neg := decide (one ≤ a)
  let t := a % one
  let t := if one < 2 * t then one - t else t
  if t = 0 then Lane.pure (fp32.zero zneg)
  else if 2 * t = one then fp32.round 0 neg 1 0
  else fp32.round 0 neg (2 * sinFix t k + 1) (-fixN - 1)

/-- r = x − 2·floor(x / 2) of R192 as a / 2^k, k at least 1. -/
def halfTurn (n : Bool) (m : Nat) (e : Int) : Nat × Nat :=
  if 0 ≤ e then ((m * 2 ^ (min e.toNat 2) * 2) % 4, 1)
  else
    let k := (-e).toNat
    let v : Int := if n then -(m : Int) else m
    ((v % 2 ^ (k + 1)).toNat, k)

/-- VSINPI (R191, R192). -/
def fsinpi (b : Nat) : Lane :=
  match fp32.get b with
  | .nan s => Lane.raise fp32.nan (cond s NV)
  | .inf _ => Lane.raise fp32.nan NV
  | .zero n => Lane.pure (fp32.zero n)
  | .num n m e => let (a, k) := halfTurn n m e; sinTurn a k n

/-- VCOSPI (R191, R192): the sine of a quarter turn more. -/
def fcospi (b : Nat) : Lane :=
  match fp32.get b with
  | .nan s => Lane.raise fp32.nan (cond s NV)
  | .inf _ => Lane.raise fp32.nan NV
  | .zero _ => sinTurn 1 1 false
  | .num n m e =>
    let (a, k) := halfTurn n m e
    sinTurn ((a + 2 ^ (k - 1)) % 2 ^ (k + 1)) k false

/-! ## Soft-maximum partials (R193) -/

/-- The factors and the merged partial of two partials (m, s), as FP32 patterns. -/
structure Merged where
  m : Nat
  f1 : Lane
  f2 : Lane
  s : Lane
  deriving DecidableEq, Repr

/-- R193, R215: the merged partial and its factors. The sum raises invalid for its own invalid operations too (a signalling NaN s, inf x 0, inf - inf), as
every operation of R179 does; R215 names invalid for a NaN m. m of two zeros of opposite sign is +0, whichever partial holds it: R193 does not say
(DESIGN CHOICE, log 58). -/
def softMerge (m1 s1 m2 s2 : Nat) : Merged :=
  let x := fp32.get m1
  let y := fp32.get m2
  if x.isNan || y.isNan then
    let n := Lane.raise fp32.nan NV
    { m := fp32.nan, f1 := n, f2 := n, s := n }
  else
    let m := (fp32.minmax true m1 m2).v
    let z := fp32.get m
    if z = .inf true then
      { m := fp32.inf true, f1 := Lane.pure 0x3F800000, f2 := Lane.pure 0, s := Lane.pure 0 }
    else
      let fac := fun (p : Fp) =>
        if p.cmp z = .eq then Lane.pure 0x3F800000
        else match p.term, z.term with
          | .fin a _, .fin c _ => exp2Dy (a.add { c with a := -c.a })
          | _, _ => Lane.pure 0
      let f1 := fac x
      let f2 := fac y
      { m := m, f1 := f1, f2 := f2,
        s := fp32.sum 0 [(fp32.get s1).times (fp32.get f1.v), (fp32.get s2).times (fp32.get f2.v)] }

end Sys2Proof.Machine
end

