-- ==== Sys2Proof/Machine/Simd.lean ====
section
/-! DEFINITION. The packed vector instructions (R195–R216): lanes, the order in which w fields are checked and moved (R196), and one
function on lanes for each instruction. -/

namespace Sys2Proof.Machine

/-! ## Lanes (R195) -/

/-- The width of an element type. -/
def tyWidth (ty : Nat) : Nat := fmtWidth ty
/-- The lanes of a type. -/
def tyLanes (ty : Nat) : Nat := 128 / tyWidth ty
/-- Lane i of width w. -/
def lane (v : Gran) (w i : Nat) : Nat := v.toNat / 2 ^ (w * i) % 2 ^ w
/-- All lanes of width w. -/
def lanes (v : Gran) (w : Nat) : List Nat := (List.range (128 / w)).map (lane v w)
/-- Lanes of width w, lane 0 first, put together. -/
def packNat (w : Nat) : List Nat → Nat
  | [] => 0
  | x :: t => x % 2 ^ w + 2 ^ w * packNat w t
def pack (w : Nat) (l : List Nat) : Gran := BitVec.ofNat 128 (packNat w l)

/-- What a vector instruction computes: the value, the lanes that raised something, and the empty rows that it counts (evc1). -/
structure VRes where
  v : Gran
  ls : List Lane
  rows : Nat

/-- A value that raises nothing. -/
def VRes.quiet (v : Gran) : VRes := { v := v, ls := [], rows := 0 }
/-- Lanes of width w, put together. -/
def VRes.of (w : Nat) (ls : List Lane) : VRes := { v := pack w (ls.map (·.v)), ls := ls, rows := 0 }

/-! ## The checks of R196 -/

/-- The step of R196 at which a cause is raised. R196 places neither 0x38 nor 0x39 of R260: they are checked in the last step, with 0x28 and 0x2E, in field
order (DESIGN CHOICE, log 54). -/
def portStage (c : Nat) : Nat := if c = 0x08 then 1 else if c = 0x29 ∨ c = 0x2F then 2 else 3

/-- The cause raised among those of the fields, in field order: the earliest step, then the first field. -/
def firstCause (cs : List Nat) : Option Nat :=
  cs.foldl (fun b c => match b with | none => some c | some d => if portStage c < portStage d then some c else b) none

def WRead.cause : WRead → List Nat | .bad c => [c] | _ => []
def WCheck.cause : WCheck → List Nat | .bad c => [c] | _ => []

/-- A w field that is read and written names no port (R196). -/
def State.inoutW (s : State) (i : Nat) : WCheck :=
  if i < 24 then (if s.rc.busyW i then .stall else .ok)
  else if 26 ≤ i ∧ s.cur.rc ≠ 0 then .bad 0x08
  else .bad 0x2F

/-- A destination: a push into a port waits for the pushes that earlier loads owe it. -/
def State.outW (s : State) (i : Nat) : WCheck :=
  match s.checkW i with
  | .ok => if 26 ≤ i && s.rc.ops.any (fun o => o.dest == .port (i - 24)) then .stall else .ok
  | c => c

/-- The end of a vector instruction: the value goes to its destination, conditions and counts are recorded. -/
def State.vdone (s : State) (wd : Nat) (r : VRes) : State :=
  let s := (s.writeW wd r.v).raiseAll r.ls
  State.retire (if r.rows = 0 then s else s.count s.cur.core s.cur.ctx 1 r.rows)

/-- An instruction with two w sources; `inout`: wd is also read, and its old value is the third argument. A cause of a port is raised although another
register of the instruction is still busy: R59 and R197 give the stall no place among the checks of R196 (DESIGN CHOICE, log 54). -/
def vec2 (inout : Bool) (wd ws1 ws2 : Nat) (s : State) (f : Gran → Gran → Gran → VRes) : Out :=
  let a := s.readW ws1
  let s1 := match a with | .ok t _ => t | _ => s
  let b := s1.readW ws2
  let d := if inout then s.inoutW wd else s.outW wd
  match firstCause (a.cause ++ b.cause ++ d.cause) with
  | some c => trapNow s c 0 0
  | none => match a, b, d with
    | .ok _ x, .ok t y, .ok => .next (t.vdone wd (f x y (s.rc.rw wd)))
    | _, _, _ => stall s

/-- An instruction with one w source. -/
def vec1 (inout : Bool) (wd ws1 : Nat) (s : State) (f : Gran → Gran → VRes) : Out :=
  let a := s.readW ws1
  let d := if inout then s.inoutW wd else s.outW wd
  match firstCause (a.cause ++ d.cause) with
  | some c => trapNow s c 0 0
  | none => match a, d with
    | .ok t x, .ok => .next (t.vdone wd (f x (s.rc.rw wd)))
    | _, _ => stall s

/-- An instruction from an x register into w. -/
def vecX (inout : Bool) (wd xs : Nat) (s : State) (f : Word → Gran → VRes) : Out :=
  let d := if inout then s.inoutW wd else s.outW wd
  match d with
  | .bad c => trapNow s c 0 0
  | .stall => stall s
  | .ok => useX s [xs] (.next (s.vdone wd (f (s.x xs) (s.rc.rw wd))))

/-- An instruction from w into an x register. -/
def vecToX (xd ws1 : Nat) (s : State) (f : Gran → Word) : Out :=
  match s.readW ws1 with
  | .bad c => trapNow s c 0 0
  | .stall => stall s
  | .ok t x => useX s [xd] (.next (t.result xd (f x)))

/-! ## Integer lanes (R200) -/

/-- A lane-wise function of two values of width w. -/
def zip2 (w : Nat) (f : Nat → Nat → Lane) (a b : Gran) : VRes := .of w ((lanes a w).zipWith f (lanes b w))
/-- An integer as a pattern of width w. -/
def wrapI (w : Nat) (i : Int) : Nat := (i % 2 ^ w).toNat
/-- A lane that raises nothing. -/
def ilane (w : Nat) (i : Int) : Lane := Lane.pure (wrapI w i)
/-- A clamp that counts (R200). -/
def clampI (w : Nat) (lo hi i : Int) : Lane :=
  if i < lo then { ilane w lo with e2 := 1 } else if hi < i then { ilane w hi with e2 := 1 } else ilane w i
def satS (w : Nat) (i : Int) : Lane := clampI w (-(2 ^ (w - 1))) (2 ^ (w - 1) - 1) i
def satZ (w : Nat) (i : Int) : Lane := clampI w 0 (2 ^ w - 1) i

/-- An integer instruction on two sources. -/
def vint (wd ws1 ws2 ty : Nat) (s : State) (f : Nat → Nat → Nat → Lane) : Out :=
  vec2 false wd ws1 ws2 s fun a b _ => zip2 (tyWidth ty) (f (tyWidth ty)) a b

/-! ## Comparison (R201) -/

/-- All ones where a relation holds. -/
def mask (w : Nat) (b : Bool) : Nat := if b then 2 ^ w - 1 else 0

/-- A floating comparison: `rel` on the order of numbers, `un` for unordered operands; `quiet`: only a signalling NaN is invalid. -/
def fcmp (ty : Nat) (rel : Ordering → Bool) (un quiet : Bool) (a b : Nat) : Lane :=
  let x := (ffmt ty).get a
  let y := (ffmt ty).get b
  if x.isNan || y.isNan then Lane.raise (mask (tyWidth ty) un) (cond (!quiet || x.signals || y.signals) NV)
  else Lane.pure (mask (tyWidth ty) (rel (x.cmp y)))

/-- A comparison of lanes of a type, signed for integers. -/
def vcmp (i : Instr) (wd ws1 ws2 ty : Nat) (s : State) (rel : Ordering → Bool) (un quiet : Bool) : Out :=
  feature i (if 4 ≤ ty then [0] else []) s <|
    vec2 false wd ws1 ws2 s fun a b _ =>
      zip2 (tyWidth ty) (fun p q =>
        if 4 ≤ ty then fcmp ty rel un quiet p q
        else Lane.pure (mask (tyWidth ty) (rel (compare (sextI p (tyWidth ty)) (sextI q (tyWidth ty)))))) a b

/-! ## Floating lanes (R203, R206) -/

/-- A floating instruction on two sources, and the old value for VFMA. -/
def vflt (i : Instr) (inout : Bool) (wd ws1 ws2 ty : Nat) (s : State) (f : FFmt → Nat → Nat → Nat → Nat → Lane) : Out :=
  feature i [0] s <|
    vec2 inout wd ws1 ws2 s fun a b d =>
      let w := tyWidth ty
      .of w (((lanes a w).zip ((lanes b w).zip (lanes d w))).map fun x => f (ffmt ty) s.rc.frm x.1 x.2.1 x.2.2)

/-- A special function (R205). -/
def vspecial (i : Instr) (wd ws1 : Nat) (s : State) (f : Nat → Lane) : Out :=
  feature i [0, 1] s <| vec1 false wd ws1 s fun a _ => .of 32 ((lanes a 32).map f)

/-- One level of a reduction tree. -/
def pairUp (f : Nat → Nat → Lane) : List Lane → List Lane
  | a :: b :: t => f a.v b.v :: pairUp f t
  | t => t
/-- The levels of the tree of R206: the last value, and every lane that raised something. -/
def treeUp (f : Nat → Nat → Lane) : Nat → List Lane → List Lane → List Lane
  | 0, l, acc => l ++ acc
  | n + 1, l, acc => treeUp f n (pairUp f l) (acc ++ l)

/-- A reduction (R206). -/
def vred (i : Instr) (wd ws1 ty : Nat) (s : State) (fi : Int → Int → Int) (ff : FFmt → Nat → Nat → Nat → Lane) : Out :=
  feature i (if 4 ≤ ty then [0] else []) s <|
    vec1 false wd ws1 s fun a _ =>
      let w := tyWidth ty
      let f := fun p q => if 4 ≤ ty then ff (ffmt ty) s.rc.frm p q else ilane w (fi (sextI p w) (sextI q w))
      let r := treeUp f 4 ((lanes a w).map Lane.pure) []
      { v := pack w [((r[0]?).map (·.v)).getD 0], ls := r, rows := 0 }

/-! ## Conversions (R207, R208) -/

/-- Conversion of the lanes of ws1 from type `sty` to `ty`: `base` the first lane converted, `at_` the first lane written, `old` kept
below. -/
def cvtLanes (sty ty rm base at_ : Nat) (a old : Gran) : VRes :=
  let nd := tyLanes ty
  let k := min (tyLanes sty) nd
  let ls := (List.range k).map fun i => convert sty ty rm (lane a (tyWidth sty) (base + i))
  let v := (List.range nd).map fun i =>
    if at_ ≤ i ∧ i < at_ + k then ((ls[i - at_]?).map (·.v)).getD 0 else if i < at_ then lane old (tyWidth ty) i else 0
  { v := pack (tyWidth ty) v, ls := ls, rows := 0 }

/-- A conversion instruction: feature SIMD floating point where a type is floating (R350). -/
def vcvtI (i : Instr) (inout : Bool) (wd ws1 sty ty : Nat) (s : State) (base at_ : Nat) : Out :=
  feature i (if 4 ≤ ty || 4 ≤ sty then [0] else []) s <|
    vec1 inout wd ws1 s fun a old => cvtLanes sty ty s.rc.frm base at_ a old

/-! ## Key-value pairs (R211–R214) -/

/-- A pair (key, value) of a register. -/
structure KV where
  k : Nat
  v : Nat
  deriving DecidableEq, Repr

/-- The pairs of a register. -/
def pairsOf (w : Nat) (v : Gran) : List KV := (List.range (128 / w / 2)).map fun j => { k := lane v w (2 * j), v := lane v w (2 * j + 1) }
def unpairs (w : Nat) (l : List KV) : Gran := pack w (l.flatMap fun p => [p.k, p.v])
/-- The empty key and the empty pair of a type. -/
def emptyKey (ty : Nat) : Nat := if ty = 6 then 0x7FFFFFFF else 2 ^ tyWidth ty - 1
def emptyKV (ty : Nat) : KV := { k := emptyKey ty, v := 0 }
/-- The place of a key in its order: unsigned, or totalOrder for FP32 (R211). -/
def keyRank (ty k : Nat) : Nat := if ty = 6 then (if k < 2 ^ 31 then 2 ^ 31 + k else 2 ^ 32 - 1 - k) else k

/-- Inserts a pair behind those that do not come after it. -/
def insertKV (after : KV → KV → Bool) (x : KV) : List KV → List KV
  | [] => [x]
  | y :: t => if after y x then x :: y :: t else y :: insertKV after x t
/-- A stable sort. -/
def sortKV (after : KV → KV → Bool) (l : List KV) : List KV := l.foldl (fun s x => insertKV after x s) []
def ascKV (ty : Nat) (l : List KV) : List KV := sortKV (fun y x => decide (keyRank ty x.k < keyRank ty y.k)) l
def descKV (ty : Nat) (l : List KV) : List KV := sortKV (fun y x => decide (keyRank ty y.k < keyRank ty x.k)) l

/-- The runs of R213: `run` the place of the first pair of the current run. -/
def combKV (ty : Nat) (add : Bool) : List (KV × Bool) → Nat → Option Nat → List KV → List KV
  | [], _, _, out => out
  | (p, act) :: t, j, run, out =>
    if act then
      match run.bind fun r => (out[r]?).bind fun q => if q.k = p.k then some (r, q) else none with
      | some (r, q) =>
        let out := if add then out.set r { q with v := (q.v + p.v) % 2 ^ tyWidth ty } else out
        combKV ty add t (j + 1) run (out ++ [emptyKV ty])
      | none => combKV ty add t (j + 1) (some j) (out ++ [p])
    else combKV ty add t (j + 1) run (out ++ [emptyKV ty])

/-- An instruction of the family (R350: feature 2, and SIMD floating point for FP32 keys). -/
def vkey (i : Instr) (wd ws1 ws2 ty : Nat) (s : State) (f : List KV → List KV → Gran → List KV) : Out :=
  feature i (if ty = 6 then [0, 2] else [2]) s <|
    vec2 false wd ws1 ws2 s fun a b _ => .quiet (unpairs (tyWidth ty) (f (pairsOf (tyWidth ty) a) (pairsOf (tyWidth ty) b) b))

/-- VKCOMB (R213). -/
def vkcomb (ty : Nat) (add : Bool) (a b : List KV) : List KV :=
  combKV ty add (a.zipWith (fun p q => (p, q.v != 0 && p.k != emptyKey ty)) b) 0 none []

/-- VKMATCH (R214). -/
def vkmatchKV (ty : Nat) (a b : List KV) : List KV :=
  a.map fun p => if p.k = emptyKey ty then emptyKV ty
    else match b.find? (fun q => q.k == p.k) with
      | some q => { p with v := q.v }
      | none => emptyKV ty

/-- A soft-maximum instruction (R215), on both partials. -/
def vsoft (i : Instr) (wd ws1 ws2 : Nat) (s : State) (f : Merged → List Lane × List Lane) : Out :=
  feature i [0, 3] s <|
    vec2 false wd ws1 ws2 s fun a b _ =>
      let r := (List.range 2).map fun j => f (softMerge (lane a 32 (2 * j)) (lane a 32 (2 * j + 1)) (lane b 32 (2 * j)) (lane b 32 (2 * j + 1)))
      { v := pack 32 (r.flatMap fun x => x.1.map (·.v)), ls := r.flatMap (fun x => x.2), rows := 0 }

/-! ## The instructions -/

/-- VADD (R200). -/
def execVadd (wd ws1 ws2 ty : Nat) (s : State) : Out :=
  vint wd ws1 ws2 ty s fun w a b => ilane w (sextI a w + sextI b w)

/-- VSUB (R200). -/
def execVsub (wd ws1 ws2 ty : Nat) (s : State) : Out :=
  vint wd ws1 ws2 ty s fun w a b => ilane w (sextI a w - sextI b w)

/-- VMUL (R200). -/
def execVmul (wd ws1 ws2 ty : Nat) (s : State) : Out :=
  vint wd ws1 ws2 ty s fun w a b => ilane w (sextI a w * sextI b w)

/-- VMULH.S (R200). -/
def execVmulhS (wd ws1 ws2 ty : Nat) (s : State) : Out :=
  vint wd ws1 ws2 ty s fun w a b => ilane w (sextI a w * sextI b w / 2 ^ w)

/-- VMULH.Z (R200). -/
def execVmulhZ (wd ws1 ws2 ty : Nat) (s : State) : Out :=
  vint wd ws1 ws2 ty s fun w a b => ilane w ((a : Int) * b / 2 ^ w)

/-- VMIN.S (R200). -/
def execVminS (wd ws1 ws2 ty : Nat) (s : State) : Out :=
  vint wd ws1 ws2 ty s fun w a b => ilane w (min (sextI a w) (sextI b w))

/-- VMIN.Z (R200). -/
def execVminZ (wd ws1 ws2 ty : Nat) (s : State) : Out :=
  vint wd ws1 ws2 ty s fun _w a b => Lane.pure (min a b)

/-- VMAX.S (R200). -/
def execVmaxS (wd ws1 ws2 ty : Nat) (s : State) : Out :=
  vint wd ws1 ws2 ty s fun w a b => ilane w (max (sextI a w) (sextI b w))

/-- VMAX.Z (R200). -/
def execVmaxZ (wd ws1 ws2 ty : Nat) (s : State) : Out :=
  vint wd ws1 ws2 ty s fun _w a b => Lane.pure (max a b)

/-- VSADD.S (R200). -/
def execVsaddS (wd ws1 ws2 ty : Nat) (s : State) : Out :=
  vint wd ws1 ws2 ty s fun w a b => satS w (sextI a w + sextI b w)

/-- VSADD.Z (R200). -/
def execVsaddZ (wd ws1 ws2 ty : Nat) (s : State) : Out :=
  vint wd ws1 ws2 ty s fun w a b => satZ w ((a : Int) + b)

/-- VSSUB.S (R200). -/
def execVssubS (wd ws1 ws2 ty : Nat) (s : State) : Out :=
  vint wd ws1 ws2 ty s fun w a b => satS w (sextI a w - sextI b w)

/-- VSSUB.Z (R200). -/
def execVssubZ (wd ws1 ws2 ty : Nat) (s : State) : Out :=
  vint wd ws1 ws2 ty s fun w a b => satZ w ((a : Int) - b)

/-- VSHL (R200). -/
def execVshl (wd ws1 ws2 ty : Nat) (s : State) : Out :=
  vint wd ws1 ws2 ty s fun w a b => ilane w ((a : Int) * 2 ^ (b % w))

/-- VSHR.S (R200). -/
def execVshrS (wd ws1 ws2 ty : Nat) (s : State) : Out :=
  vint wd ws1 ws2 ty s fun w a b => ilane w (sextI a w / 2 ^ (b % w))

/-- VSHR.Z (R200). -/
def execVshrZ (wd ws1 ws2 ty : Nat) (s : State) : Out :=
  vint wd ws1 ws2 ty s fun w a b => Lane.pure (a / 2 ^ (b % w))

/-- VAND (R200). -/
def execVand (wd ws1 ws2 ty : Nat) (s : State) : Out :=
  vint wd ws1 ws2 ty s fun _w a b => Lane.pure (a &&& b)

/-- VOR (R200). -/
def execVor (wd ws1 ws2 ty : Nat) (s : State) : Out :=
  vint wd ws1 ws2 ty s fun _w a b => Lane.pure (a ||| b)

/-- VXOR (R200). -/
def execVxor (wd ws1 ws2 ty : Nat) (s : State) : Out :=
  vint wd ws1 ws2 ty s fun _w a b => Lane.pure (a ^^^ b)

/-- VANDN (R200). -/
def execVandn (wd ws1 ws2 ty : Nat) (s : State) : Out :=
  vint wd ws1 ws2 ty s fun w a b => Lane.pure (a &&& (b ^^^ (2 ^ w - 1)))

/-- VCMP.EQ (R201). -/
def execVcmpEq (wd ws1 ws2 ty : Nat) (s : State) : Out :=
  vcmp (.vcmpEq wd ws1 ws2 ty) wd ws1 ws2 ty s (· == .eq) false true

/-- VCMP.NE (R201). -/
def execVcmpNe (wd ws1 ws2 ty : Nat) (s : State) : Out :=
  vcmp (.vcmpNe wd ws1 ws2 ty) wd ws1 ws2 ty s (· != .eq) true true

/-- VCMP.LT (R201). -/
def execVcmpLt (wd ws1 ws2 ty : Nat) (s : State) : Out :=
  vcmp (.vcmpLt wd ws1 ws2 ty) wd ws1 ws2 ty s (· == .lt) false false

/-- VCMP.LE (R201). -/
def execVcmpLe (wd ws1 ws2 ty : Nat) (s : State) : Out :=
  vcmp (.vcmpLe wd ws1 ws2 ty) wd ws1 ws2 ty s (· != .gt) false false

/-- VCMP.LT.Z (R201). -/
def execVcmpLtZ (wd ws1 ws2 ty : Nat) (s : State) : Out :=
  vint wd ws1 ws2 ty s fun w a b => Lane.pure (mask w (decide (a < b)))

/-- VCMP.LE.Z (R201). -/
def execVcmpLeZ (wd ws1 ws2 ty : Nat) (s : State) : Out :=
  vint wd ws1 ws2 ty s fun w a b => Lane.pure (mask w (decide (a ≤ b)))

/-- VSEL (R202): the top bit of each lane of the old wd selects. -/
def execVsel (wd ws1 ws2 ty : Nat) (s : State) : Out :=
  feature (.vsel wd ws1 ws2 ty) (if 4 ≤ ty then [0] else []) s <|
    vec2 true wd ws1 ws2 s fun a b d =>
      let w := tyWidth ty
      .quiet (pack w ((List.range (tyLanes ty)).map fun i => if 2 ^ (w - 1) ≤ lane d w i then lane a w i else lane b w i))

/-- VFADD (R203, R204). -/
def execVfadd (wd ws1 ws2 ty : Nat) (s : State) : Out :=
  vflt (.vfadd wd ws1 ws2 ty) false wd ws1 ws2 ty s fun f rm a b _ => f.add rm a b

/-- VFSUB (R203, R204). -/
def execVfsub (wd ws1 ws2 ty : Nat) (s : State) : Out :=
  vflt (.vfsub wd ws1 ws2 ty) false wd ws1 ws2 ty s fun f rm a b _ => f.sub rm a b

/-- VFMUL (R203, R204). -/
def execVfmul (wd ws1 ws2 ty : Nat) (s : State) : Out :=
  vflt (.vfmul wd ws1 ws2 ty) false wd ws1 ws2 ty s fun f rm a b _ => f.mul rm a b

/-- VFMA (R203, R204). -/
def execVfma (wd ws1 ws2 ty : Nat) (s : State) : Out :=
  vflt (.vfma wd ws1 ws2 ty) true wd ws1 ws2 ty s fun f rm a b d => f.fma rm a b d

/-- VFMIN (R203, R204). -/
def execVfmin (wd ws1 ws2 ty : Nat) (s : State) : Out :=
  vflt (.vfmin wd ws1 ws2 ty) false wd ws1 ws2 ty s fun f _ a b _ => f.minmax false a b

/-- VFMAX (R203, R204). -/
def execVfmax (wd ws1 ws2 ty : Nat) (s : State) : Out :=
  vflt (.vfmax wd ws1 ws2 ty) false wd ws1 ws2 ty s fun f _ a b _ => f.minmax true a b

/-- VFDIV (R203, R204). -/
def execVfdiv (wd ws1 ws2 ty : Nat) (s : State) : Out :=
  vflt (.vfdiv wd ws1 ws2 ty) false wd ws1 ws2 ty s fun f rm a b _ => f.div rm a b

/-- VFSQRT (R203). -/
def execVfsqrt (wd ws1 ty : Nat) (s : State) : Out :=
  feature (.vfsqrt wd ws1 ty) [0] s <|
    vec1 false wd ws1 s fun a _ => .of (tyWidth ty) ((lanes a (tyWidth ty)).map fun x => (ffmt ty).sqrt s.rc.frm x)

/-- VEXP2 (R191, R205). -/
def execVexp2 (wd ws1 : Nat) (s : State) : Out :=
  vspecial (.vexp2 wd ws1) wd ws1 s fexp2

/-- VLOG2 (R191, R205). -/
def execVlog2 (wd ws1 : Nat) (s : State) : Out :=
  vspecial (.vlog2 wd ws1) wd ws1 s flog2

/-- VRCP (R191, R205). -/
def execVrcp (wd ws1 : Nat) (s : State) : Out :=
  vspecial (.vrcp wd ws1) wd ws1 s frcp

/-- VRSQRT (R191, R205). -/
def execVrsqrt (wd ws1 : Nat) (s : State) : Out :=
  vspecial (.vrsqrt wd ws1) wd ws1 s frsqrt

/-- VSINPI (R191, R205). -/
def execVsinpi (wd ws1 : Nat) (s : State) : Out :=
  vspecial (.vsinpi wd ws1) wd ws1 s fsinpi

/-- VCOSPI (R191, R205). -/
def execVcospi (wd ws1 : Nat) (s : State) : Out :=
  vspecial (.vcospi wd ws1) wd ws1 s fcospi

/-- VRSUM (R206). -/
def execVrsum (wd ws1 ty : Nat) (s : State) : Out :=
  vred (.vrsum wd ws1 ty) wd ws1 ty s (· + ·) fun f rm a b => f.add rm a b

/-- VRMAX (R206). -/
def execVrmax (wd ws1 ty : Nat) (s : State) : Out :=
  vred (.vrmax wd ws1 ty) wd ws1 ty s max fun f _ a b => f.minmax true a b

/-- VRMIN (R206). -/
def execVrmin (wd ws1 ty : Nat) (s : State) : Out :=
  vred (.vrmin wd ws1 ty) wd ws1 ty s min fun f _ a b => f.minmax false a b

/-- VCVT (R207). -/
def execVcvt (wd ws1 sty ty : Nat) (s : State) : Out :=
  vcvtI (.vcvt wd ws1 sty ty) false wd ws1 sty ty s 0 0

/-- VCVT.HI (R207). -/
def execVcvtHi (wd ws1 sty ty : Nat) (s : State) : Out :=
  vcvtI (.vcvtHi wd ws1 sty ty) false wd ws1 sty ty s (tyLanes sty - tyLanes ty) 0

/-- VCVT.PK (R207). -/
def execVcvtPk (wd ws1 sty ty : Nat) (s : State) : Out :=
  vcvtI (.vcvtPk wd ws1 sty ty) true wd ws1 sty ty s 0 (tyLanes ty - tyLanes sty)

/-- VCVTL (R208). -/
def execVcvtl (wd ws1 ty : Nat) (s : State) : Out :=
  feature (.vcvtl wd ws1 ty) [4] s <|
    vec1 false wd ws1 s fun a _ =>
      let ls := (lanes a (tyWidth ty)).map fun x => convert ty 8 0 x
      { v := pack 8 (ls.map (·.v)), ls := ls, rows := 0 }

/-- VCVTLF (R208). -/
def execVcvtlf (wd ws1 ty : Nat) (s : State) : Out :=
  feature (.vcvtlf wd ws1 ty) [4] s <|
    vec1 false wd ws1 s fun a _ => .of (tyWidth ty) ((List.range (tyLanes ty)).map fun i => convert 8 ty 0 (lane a 8 i))

/-- VSHUF (R209). -/
def execVshuf (wd ws1 ws2 ty : Nat) (s : State) : Out :=
  feature (.vshuf wd ws1 ws2 ty) (if 4 ≤ ty then [0] else []) s <|
    vec2 false wd ws1 ws2 s fun a b _ =>
      let w := tyWidth ty
      .quiet (pack w ((lanes b w).map fun j => if j < tyLanes ty then lane a w j else 0))

/-- VBCAST (R210). -/
def execVbcast (wd xs ty : Nat) (s : State) : Out :=
  feature (.vbcast wd xs ty) (if 4 ≤ ty then [0] else []) s <|
    vecX false wd xs s fun x _ => .quiet (pack (tyWidth ty) (List.replicate (tyLanes ty) x.toNat))

/-- VINS (R210). -/
def execVins (wd xs lane ty : Nat) (s : State) : Out :=
  feature (.vins wd xs lane ty) (if 4 ≤ ty then [0] else []) s <|
    vecX true wd xs s fun x d => .quiet (pack (tyWidth ty) ((lanes d (tyWidth ty)).set lane x.toNat))

/-- VEXT (R210). -/
def execVext (xd ws1 lane ty : Nat) (s : State) : Out :=
  feature (.vext xd ws1 lane ty) (if 4 ≤ ty then [0] else []) s <|
    vecToX xd ws1 s fun a => sext64 (Sys2Proof.Machine.lane a (tyWidth ty) lane) (tyWidth ty)

/-- VEXTZ (R210). -/
def execVextz (xd ws1 lane ty : Nat) (s : State) : Out :=
  feature (.vextz xd ws1 lane ty) (if 4 ≤ ty then [0] else []) s <|
    vecToX xd ws1 s fun a => BitVec.ofNat 64 (Sys2Proof.Machine.lane a (tyWidth ty) lane)

/-- VKSORT (R212). -/
def execVksort (wd ws1 ws2 ty : Nat) (s : State) : Out :=
  vkey (.vksort wd ws1 ws2 ty) wd ws1 ws2 ty s fun a _ b => if b.getLsbD 0 then descKV ty a else ascKV ty a

/-- VKMERGE.LO (R212). -/
def execVkmergeLo (wd ws1 ws2 ty : Nat) (s : State) : Out :=
  vkey (.vkmergeLo wd ws1 ws2 ty) wd ws1 ws2 ty s fun a b _ => (ascKV ty (a ++ b)).take a.length

/-- VKMERGE.HI (R212). -/
def execVkmergeHi (wd ws1 ws2 ty : Nat) (s : State) : Out :=
  vkey (.vkmergeHi wd ws1 ws2 ty) wd ws1 ws2 ty s fun a b _ => (ascKV ty (a ++ b)).drop a.length

/-- VKCOMB.ADD (R213). -/
def execVkcombAdd (wd ws1 ws2 ty : Nat) (s : State) : Out :=
  vkey (.vkcombAdd wd ws1 ws2 ty) wd ws1 ws2 ty s fun a b _ => vkcomb ty true a b

/-- VKCOMB.FIRST (R213). -/
def execVkcombFirst (wd ws1 ws2 ty : Nat) (s : State) : Out :=
  vkey (.vkcombFirst wd ws1 ws2 ty) wd ws1 ws2 ty s fun a b _ => vkcomb ty false a b

/-- VKMATCH (R214). -/
def execVkmatch (wd ws1 ws2 ty : Nat) (s : State) : Out :=
  vkey (.vkmatch wd ws1 ws2 ty) wd ws1 ws2 ty s fun a b _ => vkmatchKV ty a b

/-- VSMMERGE (R193, R215). -/
def execVsmmerge (wd ws1 ws2 : Nat) (s : State) : Out :=
  vsoft (.vsmmerge wd ws1 ws2) wd ws1 ws2 s fun m => ([Lane.pure m.m, m.s], [m.f1, m.f2, m.s])

/-- VSMSCALE (R193, R215): the conditions are those of VSMMERGE, of the factors and of the sum, which is not delivered. -/
def execVsmscale (wd ws1 ws2 : Nat) (s : State) : Out :=
  vsoft (.vsmscale wd ws1 ws2) wd ws1 ws2 s fun m => ([m.f1, m.f2], [m.f1, m.f2, m.s])

/-- VSMNORM (R194, R216): the divisor is lane 1 of ws2, bit 0 of lane 2 marks the first segment of a row. -/
def execVsmnorm (wd ws1 ws2 : Nat) (s : State) : Out :=
  feature (.vsmnorm wd ws1 ws2) [0, 3] s <|
    vec2 false wd ws1 ws2 s fun a b _ =>
      if lane b 32 1 % 2 ^ 31 = 0 then { VRes.quiet 0 with rows := bits (lane b 32 2) 0 1 }
      else .of 32 ((lanes a 32).map fun x => fp32.div 0 x (lane b 32 1))

end Sys2Proof.Machine
end

