-- ==== Sys2Proof/Machine/Tensor.lean ====
section
/-! DEFINITION. Tensor shape records (R226–R230), region images (R222, R223), the rows of ragged regions (R220), bed format registers
(R188, R189), layouts (R248). Reads are made at issue, as relaxed loads. -/

namespace Sys2Proof.Machine

/-! ## Beds (R188) -/

/-- What a cluster holds for each tenant context of each partition (R125, R188). -/
def clusterKey (part cluster ctx : Nat) : Nat := (part * 8 + ctx) * 256 + cluster
/-- The format registers of a cluster's beds. -/
def bedKey (part cluster ctx bed : Nat) : Nat := clusterKey part cluster ctx * 16 + bed
def State.bed (s : State) (w : Who) (bed : Nat) : Bed :=
  Tbl.get Bed.reset s.beds (bedKey (s.tenant w.core w.ctx).partid (w.core / 16) w.ctx bed)

/-! ## Records (R226–R229) -/

/-- The bytes of an element of a tensor format (R226); LNS6 takes one. -/
def elemBytes (f : Nat) : Nat := fmtSize f

/-- The record in 192 bytes (R226). -/
def Tsr.ofBytes (bs : List Byte) : Tsr :=
  let rank := leAt bs 1 1
  let five := fun (o : Nat) => (List.range (min rank 5)).map fun d => leAt bs (o + 4 * d) 4
  { fmt := leAt bs 0 1, rank := rank, wrap := leAt bs 2 1, layout := leAt bs 3 1,
    bed := if bits (leAt bs 4 1) 7 1 = 1 then some (bits (leAt bs 4 1) 0 4) else none,
    rights := leAt bs 5 1, rot := leAt bs 6 1, base := leAt bs 8 8, ext := five 16, origin := five 40,
    rotbase := BitVec.ofNat 32 (leAt bs 60 4), stride := (List.range (min rank 5)).map fun d => sextI (leAt bs (64 + 8 * d) 8) 64,
    grant := leAt bs 104 8 }

/-- R227, but for the location: `fmt` is the governing format (R189). -/
def Tsr.valid (bs : List Byte) (fmt : Nat) : Bool :=
  let t := Tsr.ofBytes bs
  let beyond := (List.range 5).filter fun d => t.rank ≤ d
  t.fmt ≤ 8 && 1 ≤ t.rank && t.rank ≤ 5 && t.ext.all (1 ≤ ·)
    && bits t.wrap t.rank 8 == 0 && bits (leAt bs 4 1) 4 3 == 0 && bits t.rights 2 6 == 0 && bits t.rot 7 1 == 0
    && zeroAt bs 7 1 && zeroAt bs 36 4 && zeroAt bs 112 80
    && beyond.all (fun d => zeroAt bs (16 + 4 * d) 4 && zeroAt bs (40 + 4 * d) 4 && zeroAt bs (64 + 8 * d) 8)
    && t.base < 2 ^ 48 && t.base % elemBytes fmt == 0
    && (bits t.rot 0 1 == 0 || (bits t.rot 1 3 < t.rank && bits t.rot 4 3 < t.rank && bits t.rot 1 3 != bits t.rot 4 3
          && t.ext.getD (bits t.rot 1 3) 1 % 2 == 0))

/-- The flat tensor at a base (R229). -/
def Tsr.flat (base : Nat) : Tsr :=
  { fmt := 0, rank := 1, wrap := 0, layout := 0, bed := none, rights := 3, rot := 0, base := base, ext := [0xFFFFFFFF], origin := [0],
    rotbase := 0, stride := [1], grant := 0 }

/-- The domain of a record (R228). -/
def Tsr.domain (t : Tsr) : Box :=
  (List.range t.rank).map fun d =>
    if bits t.wrap d 1 = 1 then { lo := 0, hi := 2 ^ 32 - 1, step := 1 }
    else { lo := t.origin.getD d 0, hi := min (t.origin.getD d 0 + t.ext.getD d 1 - 1) (2 ^ 32 - 1), step := 1 }

/-- The index of a coordinate in dimension d (R228); none outside the tensor. -/
def Tsr.index (t : Tsr) (d c : Nat) : Option Int :=
  let k : Int := (c : Int) - (t.origin.getD d 0 : Int)
  let e : Int := (t.ext.getD d 1 : Int)
  if bits t.wrap d 1 = 1 then some (k % e) else if k < 0 ∨ e ≤ k then none else some k

/-- A layout's permutation of granules within 1 KiB blocks (R248). -/
def swizzle (l a : Nat) : Nat :=
  let k := min (bits l 0 3) 6
  let r := bits l 3 5
  if k = 0 then a else a ^^^ (bits a (r + 10) k * 16)

/-- The address of a cell's element under the record's layout (R228, R248). -/
def Tsr.addr (t : Tsr) (c : List Nat) : Option Nat :=
  match allSome (fun d => t.index d (c.getD d 0)) (List.range t.rank) with
  | none => none
  | some ks =>
    let a : Int := (ks.zipIdx.foldl (fun (n : Int) p => n + p.1 * t.stride.getD p.2 0) (t.base : Int)) % (2 ^ 64 : Int)
    some (swizzle t.layout a.toNat)

/-- The format that governs a record, and its scale, as the bed's register now stands (R189). -/
def State.sample (s : State) (w : Who) (t : Tsr) : Operand :=
  match t.bed with
  | some b => let d := s.bed w b; { tsr := t, fmt := d.fmt, scale := d.scale }
  | none => { tsr := t, fmt := t.fmt, scale := 0x3F800000 }

/-- Where a record may lie (the last point of R227): own TCM, own Pan, a V page of HBM at an offset of at most 0xF40. Its offset in a V page is the
address modulo 4096, whatever the size of the leaf (DESIGN CHOICE, log 41). -/
def State.tsrPlace (s : State) (w : Who) (a : Nat) : Bool :=
  if a < 0x40000 then a + 192 ≤ 0x40000
  else if 0x1000000 ≤ a ∧ a < 0x1400000 then a + 192 ≤ 0x1400000
  else match s.window w a with
    | .global => match (s.locate w a 1 false).res with
      | .ok sp => sp.v && a % 4096 ≤ 0xF40
      | _ => true
    | _ => false

/-- The bytes of a record: from the record cache, or fetched whole (R154, R230), a task's within its footprints (R114). The cache holds 16, the last used
first. -/
def State.fetchTsr (s : State) (w : Who) (a : Nat) : Acc (List Byte) :=
  let keep := fun (s : State) (bs : List Byte) =>
    s.modTenant w.core w.ctx fun t => { t with tsrc := ((a, bs) :: t.tsrc.filter fun e => e.1 != a).take 16 }
  match (s.tenant w.core w.ctx).tsrc.find? fun e => e.1 == a with
  | some e => .ok (keep s e.2) e.2
  | none =>
    if !s.tsrPlace w a then .fault s 0x2B a 1
    else if !s.footOk w a 192 false then .fault s 0x26 a 192
    else (s.readWhole w a 192).bind fun s bs => .ok (keep s bs) bs

/-- The tensor that an operand names (R227, R229), sampled as it stands now. -/
def State.tensor (s : State) (w : Who) (a : Nat) : Acc Operand :=
  if a % 64 = 1 then .ok s (s.sample w (Tsr.flat (a / 64 * 64)))
  else if a % 64 ≠ 0 then .fault s 0x20 a 1
  else (s.fetchTsr w a).bind fun s bs =>
    let o := s.sample w (Tsr.ofBytes bs)
    if Tsr.valid bs o.fmt then .ok s o else .fault s 0x2B a 1

/-! ## Region images (R222, R223) -/

/-- The cause that the granules of a range raise before they are read or written: no window, a footprint, speculation (R63, R114, R123). -/
def State.rangeBad (s : State) (w : Who) (va n acc : Nat) (write : Bool) : Option (Nat × Nat) :=
  (rangeParts va n).findSome? fun p => s.accessBad w p.1 p.2 1 acc write

/-- Reads an image at an address as RLD does (R237). -/
def State.readImage (s : State) (w : Who) (a : Nat) : Acc Region :=
  if a % 16 ≠ 0 then .fault s 0x20 a 1
  else match s.rangeBad w a 512 aLoad false with
    | some (c, va) => .fault s c va 1
    | none => (s.readRange w a 512).bind fun s bs =>
      match regionOfImage bs with
      | .ok g => .ok s g
      | .error c => .fault s c a 1

/-! ## Ragged regions (R220) -/

/-- The cells of a region as boxes: its own, or the rows of a ragged one, whose entries are read (R220). -/
def State.cellBoxes (s : State) (w : Who) (g : Region) : Acc (List Box) :=
  if !g.ragged then .ok s g.boxes
  else (s.readRange w g.rowsAt.1 g.rowsAt.2).bind fun s bs => .ok s (g.rowBoxes bs)

/-- The rows of a ragged region as an engine of core w reads them when it accepts an operation (R220): the entries lie in own TCM or the own
cluster's Pan; none where one of them is poisoned. -/
def State.rowsNow (s : State) (w : Who) (g : Region) : Option (List Box) :=
  match s.window w g.rowsAt.1 with
  | .local_ h => if s.poisoned h g.rowsAt.2 then none else some (g.rowBoxes (s.bytes h g.rowsAt.2))
  | _ => none

end Sys2Proof.Machine
end

