-- ==== Sys2Proof/Machine/RegionOps.lean ====
section
/-! DEFINITION. The region instructions (R231–R240) and the work queues of a cluster (R125–R127). Each checks its register context first
(R221); the algebra is that of Machine/Region.lean. -/

namespace Sys2Proof.Machine

/-- A region register of the context that acts. -/
def State.g (s : State) (i : Nat) : Region := s.tn.rg i
def State.setG (s : State) (i : Nat) (g : Region) : State := s.modTenant s.cur.core s.cur.ctx fun t => t.wg i g

/-- An instruction that writes g[rd] and retires. -/
def State.resultG (s : State) (rd : Nat) (g : Region) : State := (s.setG rd g).retire

/-- The result of a region instruction that has read nothing; an approximation counts in evc4 (R221). -/
def fillNow (s : State) (f : FillRes) : Out :=
  match f with
  | .bad c va => trapNow s c (BitVec.ofNat 64 va) 0
  | .x rd v => .next (s.result rd (BitVec.ofNat 64 v))
  | .g rd v ap =>
    let s' := s.resultG rd v
    .next (if ap then s'.count s.cur.core s.cur.ctx 4 1 else s')

/-- The end of an instruction that computes a set of cells (R221). -/
def regionOut (s : State) (rd rank : Nat) (inexact : Bool) (r : RRes) : Out := fillNow s (r.fills rd rank inexact)

/-- A ragged operand that an instruction does not accept (R231). -/
def noRagged (s : State) (gs : List Region) (body : Out) : Out := if gs.any (·.ragged) then trapNow s 0x22 0 0 else body

/-- RUNION, RSUB, and RINTER of two regions that are not ragged (R232). -/
def setOp (s : State) (rd : Nat) (a b : Region) (f : Nat → List Box → List Box → RRes) : Out :=
  match rank2 a b with
  | none => trapNow s 0x24 0 0
  | some rank => regionOut s rd rank (a.inexact || b.inexact) (f rank a.boxes b.boxes)

/-- RINTER of a ragged region with one that is not (R232). -/
def interRagged (s : State) (rd : Nat) (q d : Region) : Out :=
  if 1 < d.boxes.length ∨ !isDense d.boxes then trapNow s 0x22 0 0
  else match rank2 q d with
    | none => trapNow s 0x24 0 0
    | some rank =>
      let x := q.inexact || d.inexact
      match d.boxes with
      | [b] => .next (s.resultG rd { q.clipTo b with inexact := x })
      | _ => .next (s.resultG rd { Region.empty rank with inexact := x })

/-- RINTER (R232). -/
def inter (pol : Policy) (rd rs1 rs2 : Nat) (s : State) : Out :=
  normalOnly s <| useG s [rd, rs1, rs2] <|
    let a := s.g rs1
    let b := s.g rs2
    match a.ragged, b.ragged with
    | true, true => trapNow s 0x22 0 0
    | true, false => interRagged s rd a b
    | false, true => interRagged s rd b a
    | false, false => setOp s rd a b (interR pol)

/-- RUNION (R232). -/
def union (pol : Policy) (rd rs1 rs2 : Nat) (s : State) : Out :=
  normalOnly s <| useG s [rd, rs1, rs2] <| noRagged s [s.g rs1, s.g rs2] <| setOp s rd (s.g rs1) (s.g rs2) (unionR pol)
/-- RSUB (R232). -/
def subtract (pol : Policy) (rd rs1 rs2 : Nat) (s : State) : Out :=
  normalOnly s <| useG s [rd, rs1, rs2] <| noRagged s [s.g rs1, s.g rs2] <| setOp s rd (s.g rs1) (s.g rs2) (subR pol)

/-- RUNION.EX (R232). -/
def execRunionEx (rd rs1 rs2 : Nat) (s : State) : Out := union .ex rd rs1 rs2 s
/-- RUNION.SUP (R232). -/
def execRunionSup (rd rs1 rs2 : Nat) (s : State) : Out := union .sup rd rs1 rs2 s
/-- RINTER.EX (R232). -/
def execRinterEx (rd rs1 rs2 : Nat) (s : State) : Out := inter .ex rd rs1 rs2 s
/-- RINTER.SUP (R232). -/
def execRinterSup (rd rs1 rs2 : Nat) (s : State) : Out := inter .sup rd rs1 rs2 s
/-- RSUB.EX (R232). -/
def execRsubEx (rd rs1 rs2 : Nat) (s : State) : Out := subtract .ex rd rs1 rs2 s
/-- RSUB.SUP (R232). -/
def execRsubSup (rd rs1 rs2 : Nat) (s : State) : Out := subtract .sup rd rs1 rs2 s
/-- RSUB.SUB (R232). -/
def execRsubSub (rd rs1 rs2 : Nat) (s : State) : Out := subtract .sub rd rs1 rs2 s

/-! ## RDIL, RSHIFT, RPROJ, RSPLIT, RCLIP (R233) -/

/-- A range grown by an amount; of a strided one, its dense closure (R233). -/
def Rng.grow (r : Rng) (a : Nat) : Rng :=
  if a = 0 then r else { lo := r.lo - a, hi := min (r.hi + a) (2 ^ 32 - 1), step := 1 }

/-- The box holds a strided dimension whose dilation is not exact (R233). -/
def combed (b : Box) (a : Nat → Nat) : Bool :=
  b.zipIdx.any fun p => p.1.lo != p.1.hi && decide (1 < p.1.step) && decide (0 < a p.2) && decide (2 * a p.2 + 1 < p.1.step)

/-- The boxes of a dilation: such a box is replaced by its dense closure. Each such closure adds cells (between two cells of the
lattice, which all boxes share, some coordinate lies farther than the amount from both). -/
def dilate (bs : List Box) (a : Nat → Nat) : List Box :=
  bs.map fun b => ((if combed b a then b.map Rng.dense else b).zipIdx).map fun p => p.1.grow (a p.2)

/-- RDIL (R233). -/
def execRdil (rd rs1 rs2 : Nat) (s : State) : Out :=
  useX s [rs2] <| normalOnly s <| useG s [rd, rs1] <| noRagged s [s.g rs1] <|
    let g := s.g rs1
    let v := (s.x rs2).toNat
    let a := fun (d : Nat) => bits v (12 * d) 12
    let sup := bits v 63 1 == 1
    let closed := g.boxes.any fun b => combed b a
    if closed && !sup then trapNow s 0x23 0 0
    else match plainR sup g.rank (dilate g.boxes a) with
      | .bad c => regionOut s rd g.rank g.inexact (.bad c)
      | .ok bs ap => regionOut s rd g.rank g.inexact (.ok bs (ap || closed))

/-- RSHIFT (R233). -/
def execRshift (rd rs1 rs2 : Nat) (s : State) : Out :=
  useX s [rs2] <| normalOnly s <| useG s [rd, rs1] <| noRagged s [s.g rs1] <|
    let g := s.g rs1
    let v := (s.x rs2).toNat
    let move := fun (r : Rng) (d : Nat) =>
      let t := sextI (bits v (12 * d) 12) 12
      if t < 0 then (r.clip t.natAbs (2 ^ 32 - 1)).map fun r => { r with lo := r.lo - t.natAbs, hi := r.hi - t.natAbs }
      else (r.clip 0 (2 ^ 32 - 1 - t.natAbs)).map fun r => { r with lo := r.lo + t.natAbs, hi := r.hi + t.natAbs }
    let bs := g.boxes.filterMap fun b => allSome (fun (p : Rng × Nat) => move p.1 p.2) b.zipIdx
    .next (s.resultG rd (mkRegion g.rank ((canonU noLim g.rank bs).getD []) g.inexact))

/-- A relaxed load that a region instruction makes (R231): of n bytes at va, in these parts; it retires as other loads do, and what the bytes give is
written once they have all returned. -/
def fillOp (s : State) (va n : Nat) (parts : List (Nat × Nat)) (f : Fill) : Out :=
  if s.rc.full .load then stall s else .next (s.issue { mkOp .load va n 0 0 (.fill f) false false with parts := parts })

/-- The parts of the entries of the rows of two regions, those of a granule that both have only once. -/
def rowParts (gs : List Region) : List (Nat × Nat) :=
  (gs.filter (·.ragged)).foldl (fun l g =>
    l ++ ((granules g.rowsAt.1 g.rowsAt.2).map fun k => (k * 16, 16)).filter fun p => !l.contains p) []

/-- A region instruction that needs the cells of some operands: the entries of the rows of ragged ones are read (R220, R231). -/
def cellFill (s : State) (gs : List Region) (f : Fill) : Out :=
  if gs.any (·.ragged) then fillOp s 0 0 (rowParts gs) f else fillNow s (f.result 0 0 fun _ _ => [])

/-- RPROJ (R233). -/
def execRproj (rd rs1 rs2 : Nat) (s : State) : Out :=
  useX s [rs2] <| normalOnly s <| useG s [rd, rs1] <| orderly s <|
    let g := s.g rs1
    let v := (s.x rs2).toNat
    let mask := bits v 0 5
    if mask = 0 ∨ (!g.boxes.isEmpty && decide (2 ^ g.rank ≤ mask)) then trapNow s 0x24 (s.x rs2) 0
    else if g.ragged && mask == 3 then .next (s.resultG rd g)
    else cellFill s [g] (.proj rd v g)

/-- RSPLIT (R233). -/
def execRsplit (rd rs1 rs2 : Nat) (s : State) : Out :=
  useX s [rs2] <| normalOnly s <| useG s [rd, rs1] <| noRagged s [s.g rs1] <|
    let g := s.g rs1
    let v := (s.x rs2).toNat
    let d := bits v 0 3
    let c := bits v 32 32
    if !g.boxes.isEmpty && decide (g.rank ≤ d) then trapNow s 0x24 (s.x rs2) 0
    else
      let cut := fun (r : Rng) =>
        if bits v 3 1 = 1 then r.clip c (2 ^ 32 - 1) else if c = 0 then none else r.clip 0 (c - 1)
      let bs := g.boxes.filterMap fun b => allSome (fun (p : Rng × Nat) => if p.2 = d then cut p.1 else some p.1) b.zipIdx
      .next (s.resultG rd (mkRegion g.rank ((canonU noLim g.rank bs).getD []) g.inexact))

/-- RCLIP (R233). -/
def execRclip (rd rs1 rs2 : Nat) (s : State) : Out :=
  useX s [rs2] <| normalOnly s <| useG s [rd, rs1] <| orderly s <|
    let g := s.g rs1
    (s.tensor s.cur (s.x rs2).toNat).then s fun s o =>
      if !g.boxes.isEmpty && g.rank != o.tsr.rank then trapNow s 0x24 (s.x rs2) 0
      else if g.ragged then .next (s.resultG rd (g.clipTo o.tsr.domain))
      else .next (s.resultG rd (mkRegion g.rank ((canonU noLim g.rank (meetAll g.boxes [o.tsr.domain])).getD []) g.inexact))

/-! ## RCOUNT, RTEST, RGETB (R234–R236) -/

/-- RCOUNT (R234). -/
def execRcount (rd rs1 : Nat) (s : State) : Out :=
  useX s [rd] <| normalOnly s <| useG s [rs1] <| orderly s <| cellFill s [s.g rs1] (.count rd (s.g rs1))

/-- RTEST (R235). -/
def execRtest (rd rs1 rs2 : Nat) (s : State) : Out :=
  useX s [rd] <| normalOnly s <| useG s [rs1, rs2] <| orderly s <|
    match rank2 (s.g rs1) (s.g rs2) with
    | none => trapNow s 0x24 0 0
    | some _ => cellFill s [s.g rs1, s.g rs2] (.test rd (s.g rs1) (s.g rs2))

/-- The field of a region that RGETB selects (R236). -/
def Region.field (g : Region) (sel : Nat) : Nat :=
  let r := (g.boxes.getD (bits sel 0 3) []).getD (bits sel 4 3) { lo := 0, hi := 0, step := 0 }
  match bits sel 8 3 with
  | 0 => r.lo
  | 1 => r.hi
  | 2 => r.step
  | 3 => g.boxes.length + g.rank * 2 ^ 8 + (if g.ragged then 2 ^ 16 else 0) + (if g.inexact then 2 ^ 17 else 0)
  | 4 => g.row0
  | 5 => g.rbase
  | 6 => g.lenvec
  | _ => 0

/-- RGETB (R236). -/
def execRgetb (rd rs1 rs2 : Nat) (s : State) : Out :=
  useX s [rd, rs2] <| normalOnly s <| useG s [rs1] <| .next (s.result rd (BitVec.ofNat 64 ((s.g rs1).field (s.x rs2).toNat)))

/-! ## RLD, RST, RB2, RMASK (R237–R240) -/

/-- RLD (R237). -/
def execRld (rd rs1 : Nat) (s : State) : Out :=
  useX s [rs1] <| normalOnly s <| useG s [rd] <| orderly s <|
    let a := (s.x rs1).toNat
    if a % 16 ≠ 0 then trapNow s 0x20 (s.x rs1) 0
    else match s.rangeBad s.cur a 512 aLoad false with
      | some (c, va) => trapNow s c (BitVec.ofNat 64 va) 0
      | none => fillOp s a 512 (rangeParts a 512) (.image rd)

/-- The stores of an instruction that makes several, issued together; it retires once (R238). -/
def State.issueAll (s : State) (os : List Op) : State :=
  let r := s.rc
  let os := os.zipIdx.map fun p => { p.1 with seq := r.seq + p.2, pc := r.pc, inv := r.inv, task := r.task }
  let s := (s.setRcx s.cur { r with ops := r.ops ++ os, seq := r.seq + os.length }).retire
  if s.eager then os.foldl (fun s o => s.settle s.cur o.seq o.acts) s else s

/-- RST (R238). -/
def execRst (rs1 rs2 : Nat) (s : State) : Out :=
  useX s [rs1] <| normalOnly s <| useG s [rs2] <| orderly s <|
    let a := (s.x rs1).toNat
    let img := (s.g rs2).image
    if a % 16 ≠ 0 then trapNow s 0x20 (s.x rs1) 0
    else match s.rangeBad s.cur a 512 aStore true with
      | some (c, va) => trapNow s c (BitVec.ofNat 64 va) 0
      | none =>
        let os := (List.range 32).map fun i => mkOp .store (a + 16 * i) 16 (BitVec.ofNat 128 (leAt img (16 * i) 16)) 0 .none false false
        if s.rc.spec then specStore s os false false id
        else if s.rc.full .store then stall s
        else .next (s.issueAll os)

/-- RB2 (R239). -/
def execRb2 (rd rs1 rs2 : Nat) (s : State) : Out :=
  useX s [rs1, rs2] <| normalOnly s <| useG s [rd] <|
    let lo := (s.x rs1).toNat
    let hi := (s.x rs2).toNat
    let r := fun (d : Nat) => ({ lo := bits lo (32 * d) 32, hi := bits hi (32 * d) 32, step := 1 } : Rng)
    .next (s.resultG rd (mkRegion 2 (if (r 0).hi < (r 0).lo ∨ (r 1).hi < (r 1).lo then [] else [[r 0, r 1]]) false))

/-- RMASK (R240). REGION_BASE has 0 in its address slot (DESIGN CHOICE, log 24). -/
def execRmask (rd rs1 rs2 : Nat) (s : State) : Out :=
  useX s [rs1] <| normalOnly s <| useG s [rd, rs2] <| noRagged s [s.g rs2] <| orderly s <|
    let g := s.g rs2
    let v := (s.x rs1).toNat
    let a := bits v 0 48
    match g.boxes with
    | [r :: _] =>
      let n := r.hi + 1 - r.lo
      if !isDense g.boxes ∨ 65536 < n then trapNow s 0x31 0 0
      else match s.rangeBad s.cur a ((n + 7) / 8) aLoad false with
        | some (c, va) => trapNow s c (BitVec.ofNat 64 va) 0
        | none => fillOp s a ((n + 7) / 8) (rangeParts a ((n + 7) / 8)) (.mask rd (bits v 63 1 == 1) g)
    | _ => trapNow s 0x31 0 0

/-! ## Work queues (R125–R127) -/

def wqKey (part cluster ctx q : Nat) : Nat := clusterKey part cluster ctx * 8 + q
def State.wq (s : State) (q : Nat) : WorkQ := Tbl.get WorkQ.reset s.workq (wqKey s.tn.partid (s.cur.core / 16) s.cur.ctx q)
def State.setWq (s : State) (q : Nat) (v : WorkQ) : State :=
  { s with workq := Tbl.put WorkQ.reset s.workq (wqKey s.tn.partid (s.cur.core / 16) s.cur.ctx q) v }

/-- The ranges of a region's bounding box. -/
def Region.bbox (g : Region) : Box := bboxAll g.boxes

/-- The counts of grid positions in each dimension. -/
def gridCounts (b : Box) (ext : List Nat) : List Nat := b.zipWith (fun r e => (r.hi - r.lo) / e + 1) ext

/-- The least index of a grid of extent e from `lo`, at or after t, whose cells meet a range. -/
def Rng.tileFrom (r : Rng) (lo e t : Nat) : Option Nat := (r.clip (lo + t * e) (2 ^ 33)).map fun x => (x.lo - lo) / e

/-- The first grid position, at or after a position, whose tile meets a box. -/
def nextTile : Box → List (Nat × Nat) → List Nat → Option (List Nat)
  | r :: b, (lo, e) :: g, c :: cs =>
    match r.tileFrom lo e c with
    | none => none
    | some t =>
      if t = c then
        match nextTile b g cs with
        | some l => some (t :: l)
        | none => match r.tileFrom lo e (c + 1) with
          | none => none
          | some u => (nextTile b g (cs.map fun _ => 0)).map (u :: ·)
      else (nextTile b g (cs.map fun _ => 0)).map (t :: ·)
  | _, _, _ => some []

/-- Lexicographic order. -/
def lexLe : List Nat → List Nat → Bool
  | a :: s, b :: t => decide (a < b) || (a == b && lexLe s t)
  | _, _ => true

/-- A grid position as a number and back, dimension 0 first. -/
def posNum (counts p : List Nat) : Nat := (counts.zip p).foldl (fun n c => n * c.1 + c.2) 0
def numPos : List Nat → Nat → List Nat
  | [], _ => []
  | _ :: cs, n => let m := cs.foldl (· * ·) 1; n / m :: numPos cs (n % m)

/-- The first position at or after a cursor whose tile is not empty. -/
def WorkQ.next (q : WorkQ) (cursor : Nat) : Option (List Nat) :=
  let bb := q.region.bbox
  let counts := gridCounts bb q.ext
  if counts.foldl (· * ·) 1 ≤ cursor then none
  else
    let at_ := numPos counts cursor
    let grid := bb.zipWith (fun r e => (r.lo, e)) q.ext
    (q.region.boxes.filterMap fun b => nextTile b grid at_).foldl (fun m p => match m with
      | none => some p
      | some o => if lexLe o p then m else some p) none

/-- The tile at a position (R125). -/
def WorkQ.tile (q : WorkQ) (p : List Nat) : Region :=
  let bb := q.region.bbox
  let box : Box := (bb.zip (q.ext.zip p)).map fun x => { lo := x.1.lo + x.2.2 * x.2.1, hi := x.1.lo + (x.2.2 + 1) * x.2.1 - 1, step := 1 }
  if q.region.ragged then q.region.clipTo box
  else mkRegion q.region.rank ((canonU noLim q.region.rank (meetAll q.region.boxes [box])).getD []) q.region.inexact

/-- TILEPOST (R126). -/
def execTilepost (rd rs1 rs2 : Nat) (s : State) : Out :=
  useX s [rd, rs2] <| normalOnly s <| useG s [rs1] <|
    let g := s.g rs1
    let v := (s.x rs2).toNat
    let q := bits v 61 3
    let ext := (List.range g.rank).map fun d => bits v (12 * d) 12 + 1
    if s.rc.spec then trapNow s 0x85 0 0
    else if bits v (12 * g.rank) (60 - 12 * g.rank) ≠ 0 then trapNow s 0x2A (s.x rs2) 0
    else if !g.boxes.isEmpty && decide (2 ^ 32 < (gridCounts g.bbox ext).foldl (· * ·) 1) then trapNow s 0x2A (s.x rs2) 0
    else if (s.wq q).live then .next (s.result rd 1)
    else .next ((s.setWq q { region := g, ext := ext, cursor := 0, live := !g.boxes.isEmpty, rank := g.rank }).result rd 0)

/-- TILENEXT (R127). -/
def execTilenext (rd rs1 : Nat) (s : State) : Out :=
  useX s [rs1] <| normalOnly s <| useG s [rd] <|
    if s.rc.spec then trapNow s 0x85 0 0
    else
      let n := bits (s.x rs1).toNat 0 3
      let q := s.wq n
      let none_ := .next (s.resultG rd (Region.empty q.rank))
      if !q.live then none_
      else match q.next q.cursor with
        | none => none_
        | some p =>
          let c := posNum (gridCounts q.region.bbox q.ext) p + 1
          let q' : WorkQ := if (q.next c).isSome then { q with cursor := c } else { WorkQ.reset with rank := q.rank }
          .next ((s.setWq n q').resultG rd (q.tile p))

end Sys2Proof.Machine
end

