-- ==== Sys2Proof/Machine/Tasks.lean ====
section
/-! DEFINITION. Tasks (R113–R124): TENQ, TCANCEL, selection, conflict, abort, commit; barriers (R109–R112): BARRIVE and the combining
tree. -/

namespace Sys2Proof.Machine

/-! ## TENQ (R113–R116) -/

/-- The task descriptor of 32 bytes is in order (R113). -/
def descOk (bs : List Byte) (bandsz : Nat) : Bool :=
  leAt bs 8 1 < 64 && leAt bs 9 1 < 64 && leAt bs 10 1 < 16 && leAt bs 11 1 < 2 && leAt bs 12 2 < 4096 && zeroAt bs 14 2
    && !(leAt bs 11 1 == 1 && decide (bandsz ≤ leAt bs 12 2))

/-- Dispatched and not yet committed. -/
def Task.dispatched (t : Task) : Bool := t.st != .held && t.st != .queued

/-- horizon(D) (R116): the timestamp of the oldest dispatched task, or of the last to commit. -/
def State.horizon (s : State) (p dom : Nat) : Nat :=
  match ((s.tasks.filter fun t => t.part == p && t.dom == dom && t.dispatched).map (·.ts)) with
  | [] => Tbl.get 0 (s.part p).lastTs dom
  | t :: ts => ts.foldl min t

/-- Is this the dispatch message of a task? -/
def Msg.ofTask (m : Msg) (id : Nat) : Bool := m.kind == 1 && ((m.pay[4]?).getD 0).toNat == id

/-- The running or suspended handler of a task on a core ends, with no record; its dispatch message, if it waits there, is dropped (R122). What it has
outstanding is still performed, for nobody (R151). -/
def State.cutTask (s : State) (h ctx id : Nat) : State :=
  let mine := fun (r : RegCtx) => r.task == some id
  let t := s.tenant h ctx
  let w : Who := { core := h, ctx := ctx, rc := 0 }
  let s := if mine t.n ∧ t.n.run ≠ .idle then
      ((match t.n.wait with | some x => s.endWaiting w x none | none => s).endRc w true).dropHeld (HeldBy.atPlace w)
    else s
  let slots := t.slots.filter fun p => mine p.2.img
  let lost := fun (o : Op) => o.spec && o.task == some id
  let qs := ((s.opsOf w).filter lost).map (·.seq)
  let gone := fun (b : HeldBy) => slots.any (fun p => b.atSlot h ctx p.1) || qs.any fun q => b == .op w q
  let s := slots.foldl (fun s p => s.endWaiting { core := h, ctx := ctx, rc := 3 + p.1 } p.2.wait none) s
  let s := s.modTenant h ctx fun t =>
    let t := slots.foldl (fun t p => t.giveBack p.2) t
    let t := { t with n := { t.n with ops := t.n.ops.filter fun o => !lost o } }
    Tenant.episodes { t with slots := t.slots.filter (fun p => !mine p.2.img), inboxN := t.inboxN.filter (fun m => !m.msg.ofTask id),
                             log := t.log.filter (fun f => !f.msg.ofTask id) }
  s.dropHeld gone

/-- Adds to an event counter of a core, or to its credit while the context is switched out (R348). -/
def State.countAway (s : State) (core ctx i n : Nat) : State :=
  if s.away core ctx then s.modTenant core ctx fun t => { t with evcCredit := Tbl.put 0 t.evcCredit i (Tbl.get 0 t.evcCredit i + n) }
  else s.count core ctx i n

/-- An abort abandons the walks of the task and takes their elements out of the ports of its gang (R306). -/
def State.cutWalks (s : State) (t : Task) : State :=
  let walk := fun (k : Walk) => k.task == some t.id && k.part == t.part
  let gone := (s.walks.filter walk).map (·.id)
  let s := State.dropHeld { s with walks := s.walks.filter fun k => !walk k } fun b => match b with | .walk k => gone.contains k | _ => false
  let cut := fun (p : Nat × Port) =>
    if p.2.kind = 3 then
      let keep := ((p.2.buf ++ p.2.stage).zip p.2.tasks).filter fun x => x.2 != some t.id
      (p.1, { p.2 with buf := (keep.map (·.1)).take 8, stage := (keep.map (·.1)).drop 8, tasks := keep.map (·.2) })
    else p
  (s.wholeGang t.core t.ctx).foldl (fun s h => s.modTenant h t.ctx fun n => { n with ports := n.ports.map cut }) s

/-- An abort (R122). -/
def State.abort (s : State) (t : Task) : State :=
  let s := s.cutWalks t
  let s := { s with flights := s.flights.filter fun f => !(f.ctx == t.ctx && f.core == t.core && f.msg.ofTask t.id) }
  let s := (s.wholeGang t.core t.ctx).foldl (fun s h => s.cutTask h t.ctx t.id) s
  let s := { s with tasks := dropHeldChildren t.part s.tasks.length t.id s.tasks }
  let s := s.countAway t.core t.ctx 8 1
  s.setTask { t with st := .queued, stores := [], msgs := [], traps := [] }

/-- Aborts the dispatched later tasks that a new task conflicts with (R120). -/
def State.conflicts (s : State) (e : Task) : State :=
  if e.dom = 0 then s
  else (s.tasks.filter fun l => l.dispatched && l.st != .oldest && e.before l && e.write.meets l.read).foldl (fun s l => s.abort l) s

/-- The number of tasks that wait in a partition's queue; a HELD one has its place there too (DESIGN CHOICE, log 20). -/
def State.queuedTasks (s : State) (p : Nat) : Nat := (s.tasks.filter fun t => t.part == p && !t.dispatched).length

/-- A quota category whose usage has reached its limit (R343). -/
def Part.spent (q : Part) (cat : Nat) : Bool := Tbl.get 0 q.qlim cat != 0 && decide (Tbl.get 0 q.qlim cat ≤ Tbl.get 0 q.quse cat)

/-- The Crystallizer accepts a task. -/
def State.enqueue (s : State) (bs : List Byte) (r w : Region) : State × Nat :=
  let t := s.tn
  let p := t.partid
  let dom := leAt bs 9 1
  let n := Tbl.get 0 (s.part p).nextSeq dom
  let id := dom * 2 ^ 58 + n % 2 ^ 58
  let k : Task :=
    { id := id, part := p, ctx := s.cur.ctx, ts := leAt bs 0 8, dom := dom, chan := leAt bs 8 1, prio := leAt bs 10 1,
      aff := if leAt bs 11 1 = 1 then some (leAt bs 12 2) else none, args := (List.range 4).map (fun i => leAt bs (16 + 4 * i) 4),
      src := t.lcore, srcCore := s.cur.core, read := r, write := w, parent := s.rc.task, st := if s.rc.spec then .held else .queued,
      core := s.cur.core, stores := [], msgs := [], traps := [], after := if s.rc.spec then none else some (s.party s.cur, s.rc.seq) }
  let s := s.modPart p fun q => { q with nextSeq := Tbl.put 0 q.nextSeq dom (n + 1) }
  let s := (State.charge { s with tasks := s.tasks ++ [k] } p 6 1).conflicts k
  (s, id)

/-- TENQ (R116). The dispatch message alone waits for the earlier stores (R158). -/
def execTenq (rd rs1 gr gw : Nat) (s : State) : Out :=
  feature (.tenq rd rs1 gr gw) [7] s <| useX s [rd, rs1] <| normalOnly s <| useG s [gr, gw] <| orderly s <|
    let a := (s.x rs1).toNat
    if a % 32 ≠ 0 then trapNow s 0x20 (s.x rs1) 0
    else if 0x3FFE0 < a then trapNow s 0x8A (s.x rs1) 0
    else (s.readTcm s.cur a 32).then s fun s bs =>
      let dom := leAt bs 9 1
      let r := s.g gr
      let w := s.g gw
      let p := s.tn.partid
      let q := s.part p
      if !descOk bs s.tn.bandsz then trapNow s 0x8A (BitVec.ofNat 64 a) 0
      else if dom ≠ 0 ∧ (r.ragged || w.ragged) then trapNow s 0x22 0 0
      else if dom ≠ 0 ∧ ((!r.boxes.isEmpty && r.rank != 2) || (!w.boxes.isEmpty && w.rank != 2)) then trapNow s 0x24 0 0
      else if dom ≠ 0 ∧ ((s.rc.task.isSome && s.rc.tdomain == dom && decide (leAt bs 0 8 < s.rc.tstamp.toNat))
          || decide (leAt bs 0 8 < s.horizon p dom)) then trapNow s 0x2C (BitVec.ofNat 64 (leAt bs 0 8)) 0
      else if q.spent 6 then trapNow s 0x84 0 0
      else if Config.taskQueueExtra + 1 ≤ s.queuedTasks p then trapNow s 0x86 0 0
      else
        let (s', id) := s.enqueue bs (if dom = 0 then .empty 0 else r) (if dom = 0 then .empty 0 else w)
        .next (s'.result rd (BitVec.ofNat 64 id))

/-- TCANCEL (R124). -/
def execTcancel (rd rs1 : Nat) (s : State) : Out :=
  feature (.tcancel rd rs1) [7] s <| useX s [rd, rs1] <|
    if s.rc.spec then trapNow s 0x85 0 0
    else
      let p := s.tn.partid
      let id := (s.x rs1).toNat
      match s.findTask p id with
      | none => .next (s.result rd 2)
      | some t =>
        if t.ctx ≠ s.cur.ctx then .next (s.result rd 2)
        else if t.dispatched then .next (s.result rd 1)
        else .next (((s.dropTask p id).promoteAll p).result rd 0)

/-! ## Selection and commit (R117–R121) -/

/-- The effective priority (R333). -/
def State.effPrio (s : State) (t : Task) : Nat := min (t.prio + Tbl.get 0 (s.part t.part).dboost t.dom % 16) 15

/-- Eligible (R117). -/
def State.eligible (s : State) (t : Task) : Bool :=
  t.st == .queued && (t.dom == 0 || !s.tasks.any fun e => e.before t && e.write.meets t.read)

/-- The band of a task, and the cores it may go to. -/
def State.taskCores (s : State) (t : Task) : List Nat :=
  match s.bands.find? fun b => b.part == t.part && b.ctx == t.ctx && b.members.contains t.srcCore with
  | some b => b.members
  | none => [t.srcCore]

/-- The leader of a core's gang, where an affinity is placed (R106). -/
def State.leader (s : State) (h ctx : Nat) : Nat := let t := s.tenant h ctx; if t.follower then h - t.gangidx else h

/-- The core a task goes to (R117): the band member with the fewest dispatched, unended tasks, followers of gangs among them, where it has no
affinity. -/
def State.taskCore (s : State) (t : Task) : Nat :=
  match t.aff with
  | some l => s.leader ((s.tenant t.srcCore t.ctx).ctab.getD l t.srcCore) t.ctx
  | none =>
    let load := fun (h : Nat) => (s.tasks.filter fun u => u.part == t.part && u.ctx == t.ctx && u.core == h && (u.st == .spec || u.st == .oldest)).length
    let hs := s.taskCores t
    hs.foldl (fun b h => if load h < load b then h else b) (hs.headD t.srcCore)

/-- An earlier task of the domain is uncommitted. -/
def State.behind (s : State) (t : Task) : Bool := t.dom != 0 && s.tasks.any fun e => e.before t

/-- The die tracks 4,096 speculative tasks (R117). -/
def State.specFull (s : State) (die : Nat) : Bool :=
  decide (4096 ≤ (s.tasks.filter fun t => dieOf t.core == die && (t.st == .spec || t.st == .ended || t.st == .failed)).length)

/-- A store before the TENQ of a task is still to be performed: its dispatch message goes after it (R116, R158). -/
def State.afterStores (s : State) (t : Task) : Bool :=
  match t.after with
  | some (w, q) => (s.opsOf w).any fun e => e.k.isStore && decide (e.seq < q)
  | none => false

/-- May be selected now. -/
def State.selectable (s : State) (t : Task) : Bool :=
  s.eligible t && !s.afterStores t && !(s.behind t && s.specFull (dieOf (s.taskCore t)))

/-- The task that the Distributor selects (R117): its priority, domain and itself. -/
def State.pickTask (s : State) (p : Nat) : Option Task :=
  let ts := s.tasks.filter fun t => t.part == p && s.selectable t
  let top := ts.foldl (fun m t => max m (s.effPrio t)) 0
  let ts := ts.filter fun t => s.effPrio t == top
  let from_ := Tbl.get 63 (s.part p).lastDom top
  match ((List.range 64).map fun i => (from_ + 1 + i) % 64).find? (fun d => ts.any fun t => t.dom == d) with
  | none => none
  | some d =>
    let q := ts.filter fun t => t.dom == d
    q.find? fun t => !q.any fun u => if d = 0 then decide (u.id < t.id) else u.before t

/-- TASK_DISPATCH (R117, R119). -/
def State.evTaskDispatch (s : State) (p : Nat) : Option State :=
  if s.thermal then none
  else (s.pickTask p).map fun t =>
    let h := s.taskCore t
    let st : TState := if s.behind t then .spec else .oldest
    let m : Msg := { hdr := mkHdr 0 t.src 1 false false 0 5 t.chan,
                     pay := t.args.map (BitVec.ofNat 64) ++ [BitVec.ofNat 64 t.id], ext := [], bar := none }
    let s := s.modPart p fun q => { q with lastDom := Tbl.put 63 q.lastDom (s.effPrio t) t.dom }
    (s.setTask { t with st := st, core := h }).post { msg := m, core := h, ctx := t.ctx, src := none }

/-- TASK_DISPATCH (R117): partition a. -/
def execTaskDispatch (s : State) : Out := happens s (s.evTaskDispatch s.inp.a)

/-- No edge of R158 keeps a buffered store of a task back at the core that issued it. -/
def State.drainable (s : State) (t : Task) (m : MxStore) : Bool :=
  s.ordered { core := m.core, ctx := t.ctx, rc := 0 } { mkOp .store m.va m.bytes.length 0 0 .none false m.rl with seq := m.seq }

/-- The first n buffered stores of a task whose turn has come are performed, all of them for n = 0, up to the first that goes to a peer module: what comes
after that waits until it has been performed (R157). With the last, one that has ended commits, one that runs becomes the oldest (R120, R121). -/
def State.evCommit (s : State) (t : Task) (n : Nat) : Option State :=
  let away := fun (m : MxStore) => space m.home == .peer
  let want := if n = 0 then t.stores else t.stores.take n
  let now := want.takeWhile (fun m => !away m) ++ (want.dropWhile fun m => !away m).take 1
  let left := t.stores.drop now.length
  if s.behind t || !s.commits t then none
  else if t.st = .failed then some (s.commit t)
  else if (t.st ≠ .ended ∧ (t.st ≠ .spec ∨ t.dom = 0)) ∨ !s.canDrain t.part now ∨ !now.all (s.drainable t) then none
  else if !left.isEmpty || now.any away then some ((s.drain t now).setTask { t with stores := left })
  else if t.st = .ended then some (s.commit t)
  else some (s.promote t)

/-- TASK_COMMIT (R121): partition a, task b, c buffered stores or all. -/
def execTaskCommit (s : State) : Out :=
  happens s <| match s.findTask s.inp.a s.inp.b with
    | some t => s.evCommit t s.inp.c
    | none => none

/-! ## Barriers (R109–R112) -/

/-- BARRIVE (R110): the arrival leaves once every earlier load and store of the register context has been performed. -/
def execBarrive (rs1 bar op chan : Nat) (s : State) : Out :=
  useX s [rs1] <| normalOnly s <|
    if s.rc.task.isSome then trapNow s 0x89 0 0
    else if Tbl.get false s.tn.arrived bar then trapNow s 0x88 0 0
    else
      let s1 := s.modTenant s.cur.core s.cur.ctx fun t => { t with arrived := Tbl.put false t.arrived bar true }
      let o := mkOp (.barrive bar op chan (Chan.at s.tn chan).gen) 0 0 ((s.x rs1).setWidth 128) 0 .none false true
      .next (s1.issue { o with parts := [] })

/-- combine(a, b) of operations 1–6 (R111). -/
def combine (op : Nat) (a b : Word) : Word :=
  match op with
  | 1 => a + b
  | 2 => BitVec.ofNat 64 (fp32.add 0 (a.toNat % 2 ^ 32) (b.toNat % 2 ^ 32)).v
  | 3 => BitVec.ofNat 64 (fp64.add 0 a.toNat b.toNat).v
  | 4 => if b.slt a then a else b
  | 5 => if a.slt b then a else b
  | 6 => a ||| b
  | _ => 0

/-- One level of the fixed reduction (R111). -/
def level {α : Type} (f : α → α → α) : List α → List α
  | a :: b :: t => f a b :: level f t
  | l => l

/-- The fixed pairwise reduction (R111); the number bounds the levels. -/
def reduce {α : Type} (f : α → α → α) : Nat → List α → List α
  | 0, l => l
  | n + 1, l => if l.length ≤ 1 then l else reduce f n (level f l)

/-- Insertion by logical core number. -/
def insertArr (a : Arrival) : List Arrival → List Arrival
  | [] => [a]
  | b :: t => if a.lcore < b.lcore then a :: b :: t else b :: insertArr a t

/-- The counters of two members, added with saturation (R111, stats). -/
def addStats (a b : List Nat) : List Nat := a.zipWith (fun x y => min (x + y) 0xFFFFFFFF) b

/-- The payload of a result message (R112). -/
def barPay (op bar phases : Nat) (arr : List Arrival) : List Word :=
  if op = 7 then
    let e := ((reduce addStats arr.length (arr.map (·.evc))).headD [])
    (List.range 8).map fun i => BitVec.ofNat 64 (e.getD (2 * i) 0 + e.getD (2 * i + 1) 0 * 2 ^ 32)
  else
    let v := if op = 0 then 0 else (reduce (combine op) arr.length (arr.map (·.v))).headD 0
    [v, BitVec.ofNat 64 (phases % 2 ^ 32 * 2 ^ 32 + op * 8 + bar)]

/-- The end of a phase: a result to every member (R112), or a mismatch record to each (R109). -/
def State.phaseEnd (s : State) (b : Bar) (arr : List Arrival) : State :=
  let op := (arr.map (·.op)).headD 0
  let ph := b.phases + 1
  arr.foldl (fun s a =>
    if arr.all (fun x => x.op == op) then
      let pay := barPay op b.bar ph arr
      s.post { msg := { hdr := mkHdr a.gen 0xFFF 3 false false 0 pay.length a.chan, pay := pay, ext := [], bar := some b.bar },
               core := a.core, ctx := a.ctx, src := none }
    else
      let s := s.modTenant a.core a.ctx fun t => { t with arrived := Tbl.put false t.arrived b.bar false }
      s.post (s.unitRec a.core a.ctx a.lcore 0x88 (BitVec.ofNat 64 (a.op + a.chan * 2 ^ 8)) 64 0 (BitVec.ofNat 64 b.bar))) s

/-- BARRIER_ARRIVAL (R111): the k-th arrival under way reaches the tree of the die of logical core 0. -/
def State.evBarrier (s : State) (k : Nat) : Option State :=
  match s.arrivals[k]? with
  | none => none
  | some a =>
    let t := s.tenant a.core a.ctx
    let mine := fun (b : Bar) => b.part == a.part && b.ticket == a.ticket && b.bar == a.bar
    let b := (s.bars.find? mine).getD
      { part := a.part, ticket := a.ticket, bar := a.bar, phases := 0, arr := [], die := dieOf (t.ctab.getD 0 a.core) }
    let arr := insertArr a b.arr
    let s := { s with arrivals := s.arrivals.eraseIdx k, bars := s.bars.filter fun x => !mine x }
    if max 1 t.bandsz ≤ arr.length then
      some (State.phaseEnd { s with bars := s.bars ++ [{ b with arr := [], phases := b.phases + 1 }] } b arr)
    else some { s with bars := s.bars ++ [{ b with arr := arr }] }

/-- BARRIER_ARRIVAL (R111): the arrival at place a of those under way. -/
def execBarrierArrival (s : State) : Out := happens s (s.evBarrier s.inp.a)

/-- Posts the informational record of a hung engine to the functions of some partitions (R321). -/
def State.hung (s : State) (cause source : Nat) (ps : List Nat) : State :=
  (ps.foldl (fun l p => insertNat p l) []).foldl (fun s p =>
    s.postInfo { fn := p, fid := 0, cause := cause, source := source, ctx := 0, rc := 3, resumable := false, addr := 0, pc := 0, lcore := 0xFFF,
                 part := p, info := 0 }) s

/-- CT_HUNG (R321): the tree of the next die takes over the arrivals that the tree of die a holds. -/
def execCtHung (s : State) : Out :=
  let d := s.inp.a
  let hit := s.bars.filter fun (b : Bar) => b.die == d && !b.arr.isEmpty
  happens s <| if hit.isEmpty then none
    else some (State.hung { s with bars := s.bars.map fun (x : Bar) => if x.die = d then { x with die := (d + 1) % 8 } else x } 0x78 4
      (hit.map fun (b : Bar) => b.part))

end Sys2Proof.Machine
end

