-- ==== Sys2Proof/Machine/Bands.lean ====
section
/-! DEFINITION. Bands (R99–R105, R332): placing a launch, starting its band, the end of the band, the completion of the launch and its
status entry. -/

namespace Sys2Proof.Machine

/-! ## Addresses of a tenant context that the device itself reads or writes (R384) -/

/-- Reads bytes of global space in context (p, ctx), 16 at most at a time; none where something fails. Of those in a peer module's memory `got` holds what
has been sent. -/
def State.readV (s : State) (got : List (Nat × Byte)) (p ctx : Nat) : List (Nat × Nat) → Option (List Byte)
  | [] => some []
  | (va, n) :: t =>
    if va < 0x10000000000 ∨ 0x1000000000000 ≤ va then none
    else
      let l := s.locateG (entryStation 0 va) p ctx va 1 false
      match l.res, s.readV got p ctx t with
      | .ok sp, some rest =>
        if space sp.home = .peer then (keptBytes got va n).map (· ++ rest)
        else if s.poisoned sp.home n then none else some ((s.readAt sp n).2 ++ rest)
      | _, _ => none

/-- The arrival of a launch at a completion object at a virtual address (R332, R384), or the cause that stops it; none where it waits for a line that the
host holds. One in a peer module's memory leaves as a request, with the ticket. -/
def State.compAt (s : State) (p ctx va ticket : Nat) : Option (State × Option Nat) :=
  if va < 0x10000000000 ∨ 0x1000000000000 ≤ va then some (s, some 0x56)
  else
    let st := entryStation 0 va
    let l := s.locateG st p ctx va 3 true
    match l.res with
    | .wait => none
    | .asked => none
    | .error k => some (if k < 4 then l.clean.countMiss s st p ctx va 3 else l.clean, some (0x50 + k))
    | .ok sp =>
      if s.heldLine sp.home then none
      else if va % 16 ≠ 0 then some (l.clean, some 0x20)
      else if space sp.home = .host ∨ space sp.home = .tier2 then some (l.clean, some 0x57)
      else if s.poisoned sp.home 16 then some (l.clean, some 0x55)
      else if space sp.home = .peer then some (l.clean.deviceAsks p ctx sp.home va 16 .carrive 0 .other ticket l.leaves, none)
      else some (l.s.compEvent sp .arrive, none)

/-! ## Placement (R100–R102) -/

/-- A launch as its record gives it (R99). -/
def launchOf (p ctx ticket now : Nat) (rec : Option (List Byte)) : Launch :=
  match rec with
  | none => { part := p, ctx := ctx, ticket := ticket, submitted := now, bad := true, rsv := false, mtype := 0, cores := 0, tx := 0, ty := 0, gang := 0,
              prio := 0, args := [], comp := 0, routes := 0, resv := none }
  | some b => { part := p, ctx := ctx, ticket := ticket, submitted := now, bad := false,
                rsv := bits (leAt b 9 1) 4 4 != 0 || !zeroAt b 10 6, mtype := leAt b 0 2, cores := leAt b 2 2, tx := leAt b 4 2, ty := leAt b 6 2,
                gang := leAt b 8 1, prio := bits (leAt b 9 1) 0 4, args := (List.range 4).map (fun i => BitVec.ofNat 64 (leAt b (16 + 8 * i) 8)),
                comp := leAt b 48 8, routes := leAt b 56 8, resv := none }

/-- The length of a band's sub-interval (R101). -/
def bandLen (cores gang : Nat) : Nat := if gang ≤ 1 then cores else 16 * ((cores / gang + 16 / gang - 1) / (16 / gang))

/-- The Hilbert index of member i (R101). -/
def memberAt (h0 gang i : Nat) : Nat :=
  if gang ≤ 1 then h0 + i
  else
    let p := 16 / gang
    let k := i / gang
    h0 + 16 * (k / p) + gang * (k % p) + i % gang

/-- The image of a tenant context. -/
def State.imageOf (s : State) (p ctx : Nat) : Option Image := s.images.find? fun m => m.part == p && m.ctx == ctx

/-- The regions of a route table (R353): none where the table is not accepted. -/
def State.routesOf (s : State) (l : Launch) (n : Nat) : Option (List Region) :=
  if l.routes = 0 then some []
  else if l.routes % 16 ≠ 0 then none
  else match s.readV l.got l.part l.ctx (rangeParts l.routes (512 * n)) with
    | none => none
    | some bs => allSome (fun i => match regionOfImage ((bs.drop (512 * i)).take 512) with
        | .ok g => if g.rank = 1 then some g else none
        | .error _ => none) (List.range n)

/-- The bytes of the route table of a launch, where there is one to be read. -/
def State.routeBytes (s : State) (l : Launch) : Nat :=
  match s.imageOf l.part l.ctx with
  | some im => if l.routes = 0 ∨ l.routes % 16 ≠ 0 then 0 else 512 * im.handlers.length
  | none => 0

/-- Reads of the route table of a launch that are to be made at a peer module: address, length and home. -/
def State.routesAway (s : State) (l : Launch) : List (Nat × Nat × Nat) :=
  (rangeParts l.routes (s.routeBytes l)).filterMap fun x =>
    match (s.locateG (entryStation 0 x.1) l.part l.ctx x.1 1 false).res with
    | .ok sp => if space sp.home == .peer && (keptBytes l.got x.1 x.2).isNone then some (x.1, x.2, sp.home) else none
    | _ => none

/-- What keeps the route table of a launch from being read: lines that the host holds, reads and entries of tables that peer modules have still to answer
(R356, R358); the state with the requests for those out. -/
def State.routesWait (s : State) (l : Launch) : Option State :=
  let n := s.routeBytes l
  if 0 < n ∧ s.heldV l.part l.ctx l.routes n then some (s.askV l.part l.ctx l.routes n)
  else match s.routesAway l with
    | [] => none
    | rs => some (rs.foldl (fun (s : State) x =>
        if s.peerReqs.any fun r => r.by_ == .routes l.ticket && r.who.rc == l.part && r.va == x.1 then s
        else s.deviceAsks l.part l.ctx x.2.2 x.1 x.2.1 .load 0 (.routes l.ticket)) s)

/-- The translations made in reading the route table of a launch (R133). -/
def State.readRoutes (s : State) (l : Launch) (n : Nat) : State :=
  if l.routes = 0 then s
  else (rangeParts l.routes (512 * n)).foldl (fun (s : State) x => (s.locateG (entryStation 0 x.1) l.part l.ctx x.1 1 false).s) s

/-- The starts that meet the alignment of R101 inside the partition's interval and hold no failed core. -/
def State.starts (s : State) (l : Launch) : List Nat :=
  let q := s.part l.part
  let len := bandLen l.cores l.gang
  ((List.range (q.clen + 1 - len)).map (· + q.cbase)).filter fun h =>
    (l.gang ≤ 1 || h % 16 == 0) && !s.cfail.any fun c => decide (h ≤ c) && decide (c < h + len)

/-- No core of [h, h + len) belongs to a band. -/
def State.freeAt (s : State) (h len : Nat) : Bool := !s.bands.any fun b => decide (h < b.h0 + b.len) && decide (b.h0 < h + len)

/-- The status with which a launch is refused (R100), if it is. -/
def State.refusal (s : State) (l : Launch) : Option Nat :=
  let q := s.part l.part
  if l.bad then some 0x87
  else match s.imageOf l.part l.ctx with
    | none => some 0x87
    | some im =>
      if bits q.ctxen l.ctx 1 = 0 ∨ l.rsv ∨ l.cores = 0 ∨ l.tx * l.ty ≠ l.cores ∨ l.gang = 0 ∨ 16 < l.gang ∨ (1 < l.gang ∧ l.cores % l.gang ≠ 0)
          ∨ 4095 < l.cores ∨ im.handlers.length ≤ l.mtype ∨ (s.routesOf l im.handlers.length).isNone
          ∨ q.clen < bandLen l.cores l.gang ∨ (s.starts l).isEmpty then some 0x87
      else if q.spent 7 ∧ bits q.qact 7 1 = 0 then some 0x84
      else none

/-- A launch comes before another in the queue of its partition (R102). -/
def Launch.before (a b : Launch) : Bool := decide (b.prio < a.prio) || (a.prio == b.prio && decide (a.ticket < b.ticket))

/-- The queue of a partition, the head first; a launch whose record is still being read is not in it. -/
def insertLaunch (a : Launch) : List Launch → List Launch
  | [] => [a]
  | b :: t => if a.before b then a :: b :: t else b :: insertLaunch a t
def State.launchQ (s : State) (p : Nat) : List Launch :=
  (s.launches.filter fun l => l.part == p && l.at_.isNone).foldl (fun q l => insertLaunch l q) []

def State.dropLaunch (s : State) (l : Launch) : State :=
  { s with launches := s.launches.filter fun x => !(x.part == l.part && x.ticket == l.ticket) }

/-! ## Starting a band (R103) -/

/-- Writes a long run of bytes at a home, granule by granule. -/
def State.fill (s : State) (home : Nat) (bs : List Byte) : State :=
  (rangeParts home bs.length).foldl (fun s p => s.writeAt { home := p.1, gen := 0, v := false } ((bs.drop (p.1 - home)).take p.2) 256) s

/-- Step 1 of R103 on member i, with what the loader sets (R352, R353). -/
def Tenant.join (t : Tenant) (l : Launch) (im : Image) (members : List Nat) (i : Nat) : Tenant :=
  let sp := fun (r : RegCtx) (v : Nat) => r.wx 2 (BitVec.ofNat 64 v)
  { t with ctab := members, lcore := i, bandsz := l.cores, torusX := l.tx, torusY := l.ty, gangidx := if 1 < l.gang then i % l.gang else 0,
           gangsz := l.gang, partid := l.part, fntab := im.fntab, fnlen := im.fnlen, n := sp t.n 0x40000, u := sp t.u 0x3C000, o := sp t.o 0x38000 }

/-- Binds the handlers of an image that the route table assigns to member i (step 2 of R103). -/
def Tenant.bindAll (t : Tenant) (im : Image) (routes : List Region) (i : Nat) : Tenant :=
  im.handlers.zipIdx.foldl (fun (t : Tenant) h =>
    if (match routes[h.2]? with | some g => g.has [i] | none => true) then t.bind h.1.chan (h.1.entry / 4 % 2 ^ 46) h.1.prio h.1.urg else t) t

/-- The start message of a band (step 3 of R103). -/
def startMsg (l : Launch) (h : HEntry) : Msg := { hdr := mkHdr 0 0xFFF 2 h.urg false 0 4 h.chan, pay := l.args, ext := [], bar := none }

/-- Places a launch at h0 and starts its band (R103). -/
def State.startBand (s : State) (l : Launch) (im : Image) (routes : List Region) (h0 : Nat) : State :=
  let ms := (List.range l.cores).map (memberAt h0 l.gang)
  let s := ((s.readRoutes l im.handlers.length).dropLaunch l).charge l.part 7 1
  let s := { s with bands := s.bands ++ [{ part := l.part, ctx := l.ctx, ticket := l.ticket, h0 := h0, len := bandLen l.cores l.gang, members := ms,
                                           comp := l.comp, submitted := l.submitted, ended := false, killed := false }] }
  let s := ms.zipIdx.foldl (fun (s : State) m =>
    let late := s.away m.1 l.ctx
    (s.modTenant m.1 l.ctx fun t => { (t.join l im ms m.2).bindAll im routes m.2 with fresh := late }).fill (tcmHome m.1 l.ctx) im.tcm) s
  let away := ms.any fun h => s.away h l.ctx
  let s := ((ms.map (· / 16)).foldl (fun l c => insertNat c l) []).foldl (fun s c =>
    im.pans.foldl (fun (s : State) b => s.fill ((if away then panSaved l.part c l.ctx else panHome c) + b.1 * 2 ^ 18) b.2) s) s
  match im.handlers[l.mtype]? with
  | some h => { s with flights := s.flights ++ ms.map fun c => { msg := startMsg l h, core := c, ctx := l.ctx, src := none } }
  | none => s

/-- A launch leaves the queue with a status (R332). -/
def State.endLaunch (s : State) (l : Launch) (status : Nat) : State :=
  let x : LStatus := { part := l.part, ctx := l.ctx, ticket := l.ticket, status := status, comp := if l.bad then 0 else l.comp,
                       submitted := l.submitted, completed := s.time }
  { s.dropLaunch l with lstats := s.lstats ++ [x] }

/-- The first launch of a queue that can be refused or placed. `keep` is the reservation of the waiting head, as a sub-interval. -/
def State.placeFrom (s : State) : List Launch → Option (Nat × Nat) → Option State
  | [], _ => none
  | l :: rest, keep =>
    match s.routesWait l with
    | some t => s.waiting t
    | none => match s.refusal l, s.imageOf l.part l.ctx with
    | some st, _ => some (s.endLaunch l st)
    | none, none => none
    | none, some im =>
      let q := s.part l.part
      let len := bandLen l.cores l.gang
      let outside := fun (h : Nat) => match keep with | none => true | some r => decide (h + len ≤ r.1) || decide (r.1 + r.2 ≤ h)
      if q.spent 7 then none
      else match (s.starts l).find? (fun h => s.freeAt h len && outside h) with
        | some h => some (s.startBand l im ((s.routesOf l im.handlers.length).getD []) h)
        | none =>
          match keep with
          | some _ => s.placeFrom rest keep
          | none =>
            let r := l.resv.getD ((s.starts l).headD 0)
            let s1 := { s with launches := s.launches.map fun (x : Launch) =>
              if x.part = l.part then (if x.ticket = l.ticket then { x with resv := some r } else { x with resv := none }) else x }
            match s1.placeFrom rest (some (r, len)) with
            | some s2 => some s2
            | none => some s1

/-- LAUNCH_PLACE (R102): partition a, not while it is being reset (R361). -/
def execLaunchPlace (s : State) : Out := happens s (if s.thermal || (s.part s.inp.a).flr then none else s.placeFrom (s.launchQ s.inp.a) none)

/-! ## The end of a band (R105) -/

def State.findBand (s : State) (p ticket : Nat) : Option Band := s.bands.find? fun b => b.part == p && b.ticket == ticket
def State.setBand (s : State) (b : Band) : State :=
  { s with bands := s.bands.map fun (x : Band) => if x.part = b.part ∧ x.ticket = b.ticket then b else x }

/-- Member h is quiet (the points of R105 that concern one member). A member whose handlers have ended by traps is quiet as any other, and its band ends with
status 0: R105 names no trap, where R381 has a band whose token was lost to one never end (DESIGN CHOICE, log 62). -/
def State.quiet (s : State) (h ctx : Nat) : Bool :=
  let t := s.tenant h ctx
  t.n.run == .idle && t.u.run == .idle && t.o.run == .idle && t.slots.isEmpty && t.inboxN.isEmpty && t.inboxU.isEmpty && t.log.isEmpty
    && t.chans.all (fun c => c.2.dcnt == 0) && t.vwPend == 0 && t.cwPend == 0
    && !s.flights.any (fun f => f.core == h && f.ctx == ctx)
    && !s.tasks.any (fun k => (k.srcCore == h && k.ctx == ctx) || k.msgs.any fun f => f.core == h && f.ctx == ctx)
    && !s.arrivals.any (fun a => a.core == h && a.ctx == ctx) && !s.bars.any (fun b => b.arr.any fun a => a.core == h && a.ctx == ctx)
    && !(t.n.ops.any fun o => match o.k with | .barrive .. => true | _ => false)

/-- BAND_END (R105): partition a, ticket b. -/
def execBandEnd (s : State) : Out :=
  happens s <| match s.findBand s.inp.a s.inp.b with
    | some b => if !b.ended ∧ b.members.all (fun h => s.quiet h b.ctx) then some (s.setBand { b with ended := true }) else none
    | none => none

/-- Every transfer, store, atomic, walk and matrix command of member h has landed or has been reported failed (R105). -/
def State.landed? (s : State) (h ctx : Nat) : Bool :=
  let t := s.tenant h ctx
  let mine := fun (w : Who) => w.core == h && w.ctx == ctx
  t.n.ops.isEmpty && t.u.ops.isEmpty && t.o.ops.isEmpty && !s.xfers.any (fun x => mine x.who) && !s.walks.any (fun k => mine k.who && k.ready.isNone)
    && !s.rkloads.any (fun k => mine k.who) && !s.mcmds.any (fun m => mine m.src) && t.mx.queue.isEmpty && t.mx.recv.isEmpty
    && t.mx.stores.isEmpty && (match t.mx.pre with | some p => p.cells.isSome || p.failed | none => true)

/-- LAUNCH_COMPLETE (R105): partition a, ticket b: the sub-interval is freed, and the status waits to be written. -/
def execLaunchComplete (s : State) : Out :=
  happens s <| match s.findBand s.inp.a s.inp.b with
    | some b =>
      if b.ended ∧ b.members.all (fun h => s.landed? h b.ctx) then
        let x : LStatus := { part := b.part, ctx := b.ctx, ticket := b.ticket, status := if b.killed then 0x8C else 0, comp := b.comp,
                             submitted := b.submitted, completed := s.time }
        some { s with bands := s.bands.filter (fun y => !(y.part == b.part && y.ticket == b.ticket)),
                      bars := s.bars.filter (fun y => !(y.part == b.part && y.ticket == b.ticket)), lstats := s.lstats ++ [x] }
      else none
    | none => none

/-- LAUNCH_STATUS_WRITE (R332): the oldest entry that waits in partition p, with the arrival on COMP and the usage record (R345). -/
def State.evStatus (s : State) (p : Nat) : Option State :=
  match s.lstats.find? fun x => x.part == p with
  | none => none
  | some x =>
    let q := s.part p
    if q.lstatbase = 0 ∨ (q.lstathead + 1) % 256 = q.lstattail % 256 ∨ q.logFull then none
    else if s.held2 p (q.lstatbase + q.lstathead * 16) 16 then s.waiting (s.ask2 p (q.lstatbase + q.lstathead * 16) 16)
    else if x.comp ≠ 0 ∧ s.heldV p x.ctx x.comp 1 then s.waiting (s.askV p x.ctx x.comp 1)
    else
      let e := leBytes x.ticket 4 ++ leBytes x.status 1 ++ leBytes 0 3 ++ leBytes s.time 8
      let (s1, ok) := s.write2 p (q.lstatbase + q.lstathead * 16) e
      if !ok then some (s.pbound p (q.lstatbase + q.lstathead * 16))
      else
        let s2 := State.modPart { s1 with lstats := s1.lstats.erase x } p fun q => { q with lstathead := (q.lstathead + 1) % 256 }
        let told := fun (s3 : State) => s3.usage p 2 x.ctx x.ticket [x.status, x.submitted, x.completed]
        if x.comp = 0 then some (told s2)
        else match s2.compAt p x.ctx x.comp x.ticket with
          | none => none
          | some (s3, none) => some (told s3)
          | some (s3, some c) =>
            some (told (s3.postInfo { fn := p, fid := 0, cause := c, source := 6, ctx := x.ctx, rc := 3, resumable := false, addr := x.comp, pc := 0,
                                      lcore := 0xFFF, part := p, info := x.ticket }))

/-- LAUNCH_STATUS_WRITE (R332): partition a. -/
def execLaunchStatusWrite (s : State) : Out := happens s (s.evStatus s.inp.a)

end Sys2Proof.Machine
end

