-- ==== Sys2Proof/Machine/Sluice.lean ====
section
/-! DEFINITION. Issuing transfers (R241–R243, R248–R258, R266): the checks of R242, made at issue, RCOPY, RSTREAM, RSINK, RGATHER,
RSCATTER, RWAIT and RCAPMK; admission (R244–R246). -/

namespace Sys2Proof.Machine

/-! ## Distinct sets -/

/-- Insertion into a list of distinct numbers, the largest first. -/
def insertDesc (x : Nat) : List Nat → List Nat
  | [] => [x]
  | y :: t => if y < x then x :: y :: t else if x = y then y :: t else y :: insertDesc x t
/-- The distinct numbers of a list. -/
def distinct (l : List Nat) : List Nat := l.foldl (fun d x => insertDesc x d) []
/-- How many of the distinct numbers, the largest first, fall into each block of 2^k. -/
def perBlock (k : Nat) : List Nat → List (Nat × Nat)
  | [] => []
  | x :: t => match perBlock k t with
    | (b, n) :: r => if b = x / 2 ^ k then (b, n + 1) :: r else (x / 2 ^ k, 1) :: (b, n) :: r
    | [] => [(x / 2 ^ k, 1)]

/-! ## The cells of a transfer -/

/-- The size of the elements read, and of those written. -/
def Xfer.srcSize (x : Xfer) : Nat := match x.src with | some o => elemBytes o.fmt | none => 1
def Xfer.dstSize (x : Xfer) : Nat := match x.dst with | some o => elemBytes o.fmt | none => 1

/-- Cells in one element of 16 bytes of a stream (R254). -/
def Xfer.perElem (x : Xfer) : Nat := 16 / (if x.kind = .sink then x.dstSize else x.srcSize)

/-- A stream: its elements go to a port (R255, R257). -/
def Xfer.streams (x : Xfer) : Bool := x.port != 0 && x.kind != .sink

/-- The cells that a transfer has still to move, and those that it has moved. -/
def Xfer.rest (x : Xfer) : Xfer := { x with moves := if x.streams then x.moves.drop (x.done * x.perElem) else x.moves.filter fun m => !m.done }
def Xfer.past (x : Xfer) : Xfer := { x with moves := if x.streams then x.moves.take (x.done * x.perElem) else x.moves.filter (·.done) }

/-- The addresses read and written, with their sizes. -/
def Xfer.reads (x : Xfer) : List (Nat × Nat) := x.moves.filterMap fun m => m.src.map fun a => (a, x.srcSize)
def Xfer.writes (x : Xfer) : List (Nat × Nat) := x.moves.filterMap fun m => m.dst.map fun a => (a, x.dstSize)

/-- An address in its home, by the windows and by the translations that a transfer keeps. -/
def State.homeX (s : State) (w : Who) (xl : List (Nat × Leaf)) (va : Nat) : Option Nat :=
  match s.window w va with
  | .local_ h => some h
  | .nowhere => none
  | .global => (xl.find? fun p => p.1 == va / 4096).map fun p => p.2.home + va % 2 ^ p.2.bits

/-- The homes of the bytes of some accesses. -/
def State.homesX (s : State) (w : Who) (xl : List (Nat × Leaf)) (l : List (Nat × Nat)) : List Nat :=
  distinct (l.flatMap fun p => (List.range p.2).filterMap fun i => s.homeX w xl (p.1 + i))

/-- All that it reads: RSCATTER.ADD reads what it writes too (R257). -/
def Xfer.readsAll (x : Xfer) : List (Nat × Nat) := if x.kind = .scatterAdd then x.reads ++ x.writes else x.reads

/-- The source of cell c has been read, or a peer module has been asked for it. -/
def State.hasRead (s : State) (x : Xfer) (c : Nat) : Bool :=
  x.got.any (fun g => g.1 == c) || s.peerReqs.any fun r => r.xfer == some (x.id, c + 1) && r.k == .load

/-- What a transfer has read (`past`) or has still to read. -/
def State.readsOf (s : State) (x : Xfer) (past : Bool) : List (Nat × Nat) :=
  let i := if x.streams then x.done * x.perElem else 0
  let mv := (x.moves.zipIdx.filter fun m => (m.1.done || decide (m.2 < i) || s.hasRead x m.2) == past).map (·.1)
  ({ x with moves := mv } : Xfer).reads ++ (if x.kind = .scatterAdd then (if past then x.past.writes else x.rest.writes) else [])

/-- An address in its home now: as a page that an invalidation has dropped would be translated again (R243). -/
def State.homeNow (s : State) (x : Xfer) (va : Nat) : Option Nat :=
  if x.stale.contains (va / 4096) && s.window x.who va == .global then s.peek x.who va else s.homeX x.who x.xl va

/-- The granules of some accesses of a transfer, in their homes now. -/
def State.gransNow (s : State) (x : Xfer) (l : List (Nat × Nat)) : List Nat :=
  distinct (l.flatMap fun p => (List.range p.2).filterMap fun i => (s.homeNow x (p.1 + i)).map (· / 16))

/-- The accesses of a cell, by their first and last bytes: address, permissions. -/
def Xfer.touches (x : Xfer) (m : Mv) : List (Nat × Nat) :=
  let ends := fun (a : Option Nat) (n : Nat) => match a with | some a => [a, a + n - 1] | none => []
  (ends m.dst x.dstSize).map (fun a => (a, if x.kind = .scatterAdd then 3 else 2)) ++ (ends m.src x.srcSize).map fun a => (a, 1)

/-- The permissions that the accesses of a transfer still to come need of a page. -/
def Xfer.pageNeed (x : Xfer) (page : Nat) : Nat :=
  ((x.rest.moves.flatMap x.touches) ++ (if x.comp = 0 then [] else [(x.comp, 3)])).foldl (fun (n : Nat) (a : Nat × Nat) => if a.1 / 4096 = page then n ||| a.2 else n) 0

/-- A place in TCM or in a Pan. -/
def isLocalRam (h : Nat) : Bool := space h == .tcm || space h == .pan

/-! ## Steps 3–10 of R242 -/

/-- A tensor operand, or none. -/
def State.tensor? (s : State) (w : Who) (a : Option Nat) : Acc (Option Operand) :=
  match a with
  | none => .ok s none
  | some a => (s.tensor w a).bind fun s o => .ok s (some o)

/-- Step 6 for one tensor: every cell lies in its domain. -/
def inDomain (o : Operand) (bs : List Box) : Bool :=
  bs.all fun b => (b.zip o.tsr.domain).all fun p => decide (p.2.lo ≤ p.1.lo) && decide (p.1.hi ≤ p.2.hi)

/-- The boxes of a record's GRANT, if it has one (step 7). -/
def State.grantOf (s : State) (w : Who) (o : Operand) : Acc (Option (Nat × List Box)) :=
  if o.tsr.grant = 0 then .ok s none
  else (s.readImage w o.tsr.grant).bind fun s g => (s.cellBoxes w g).bind fun s bs => .ok s (some (g.rank, bs))

/-- Step 7 for one tensor: the region is contained in its GRANT. -/
def grantOk (rank : Nat) (bs : List Box) (g : Option (Nat × List Box)) : Bool :=
  match g with
  | none => true
  | some g => bs.isEmpty || (g.1 == rank && subsetOf rank bs g.2)

/-- The first dimension of a region as a region of rank 1, and its rest. -/
def projFirst (bs : List Box) : List Box := bs.map fun b => b.take 1

/-- The pair partner of a cell (R253): the cell of the region with the same other coordinates whose index in the pair dimension is k XOR 1, the
next one where several have it. -/
def mateOf (t : Tsr) (cells : List (List Nat)) (c : List Nat) : Option (List Nat) :=
  let p := bits t.rot 1 3
  match t.index p (c.getD p 0) with
  | none => none
  | some k =>
    let m := if k % 2 = 0 then k + 1 else k - 1
    let near := c.set p (if k % 2 = 0 then c.getD p 0 + 1 else c.getD p 0 - 1)
    let ok := fun (d : List Nat) => d.set p 0 == c.set p 0 && t.index p (d.getD p 0) == some m
    if ok near && cells.contains near then some near else cells.find? ok

/-- Step 8: the rotary rules (R253). -/
def rotaryOk (g : Region) (dst : Operand) : Bool :=
  if bits dst.tsr.rot 0 1 = 0 then true
  else
    let cells := g.boxes.flatMap boxCells
    (dst.fmt == 4 || dst.fmt == 5 || dst.fmt == 6) && !g.ragged && cells.all fun c => (mateOf dst.tsr cells c).isSome

/-- Step 9 for one tensor read: no block of TCM or Pan carries another layout (R249). -/
def State.layoutOk (s : State) (w : Who) (o : Operand) (reads : List (Nat × Nat)) : Bool :=
  let blocks := distinct (((reads.flatMap fun p => [p.1, p.1 + p.2 - 1]).filterMap fun a => match s.window w a with
    | .local_ h => if isLocalRam h then some (h / 1024) else none
    | _ => none))
  let later := (s.xfers.filter fun x => x.who.core / 16 == w.core / 16 && x.accepted).reverse
  blocks.all fun b =>
    let writes := fun (x : Xfer) => x.writes.any fun p => (s.homeX x.who x.xl p.1).any (fun h => h / 1024 == b) || (s.homeX x.who x.xl (p.1 + p.2 - 1)).any (fun h => h / 1024 == b)
    let tag := match later.find? writes with
      | some x => (match x.dst with | some d => d.tsr.layout | none => 256)
      | none => Tbl.get 256 s.tags b
    tag == 256 || tag == o.tsr.layout

/-- Step 10: the first granule outside the footprints (R114). -/
def State.footBad (s : State) (w : Who) (reads writes : List (Nat × Nat)) : Option Nat :=
  if (s.orderedTask w).isNone then none
  else match reads.find? (fun p => !s.footOk w p.1 p.2 false) with
    | some p => some p.1
    | none => (writes.find? fun p => !s.footOk w p.1 p.2 true).map (·.1)

/-! ## Step 11: translation (R243) -/

/-- Translates one address for an engine, at its entry station (R130, R133, R138, R243), and keeps the translation by page. D is set as the page is
written (R133). -/
def State.pageX (s : State) (w : Who) (xl : List (Nat × Leaf)) (va need : Nat) : Acc (List (Nat × Leaf)) :=
  match s.window w va with
  | .local_ _ => .ok s xl
  | .nowhere => .fault s 0x5E va 0
  | .global =>
    if xl.any fun p => p.1 == va / 4096 then .ok s xl
    else
      let l := s.locate w va need false
      match l.res with
      | .wait => .stall
      | .asked => .again l.s
      | .error k => .fault l.s (0x58 + k) va 0
      | .ok _ => match s.leafOf w va with
        | some f => .ok l.s ((va / 4096, f) :: xl)
        | none => .ok l.s xl

/-- Every page of some accesses. -/
def State.pagesX (s : State) (w : Who) (xl : List (Nat × Leaf)) (need : Nat) : List (Nat × Nat) → Acc (List (Nat × Leaf))
  | [] => .ok s xl
  | (a, n) :: t => (s.pageX w xl a need).bind fun s xl => (s.pageX w xl (a + n - 1) need).bind fun s xl => s.pagesX w xl need t

/-- The pages that are written, then those that are read only: a page of both must grant both. -/
def State.allPages (s : State) (w : Who) (reads writes : List (Nat × Nat)) : Acc (List (Nat × Leaf)) :=
  (s.pagesX w [] 1 reads).bind fun s r => (s.pagesX w [] 2 writes).bind fun s xl => .ok s (xl ++ r)

/-- Step 12: the completion object in txcomp (R383). -/
def State.compPage (s : State) (w : Who) (comp : Nat) : Acc (Option (Nat × Leaf)) :=
  if comp = 0 then .ok s none
  else if comp % 16 ≠ 0 then .fault s 0x20 comp 1
  else match s.window w comp with
    | .local_ _ => .ok s none
    | .nowhere => .fault s 0x56 comp 1
    | .global =>
      let l := s.locate w comp 3 false
      if l.tier = some .host ∨ l.tier = some .tier2 then .fault l.s 0x57 comp 1
      else match l.res with
        | .wait => .stall
        | .asked => .again l.s
        | .error k => .fault l.s (0x50 + k) comp 1
        | .ok _ => .ok l.s ((s.leafOf w comp).map fun f => (comp / 4096, f))

/-! ## Index entries (R257) -/

/-- The element of the index tensor for coordinate j, as a relaxed engine read. -/
def State.indexAt (s : State) (w : Who) (o : Operand) (j : Nat) : Acc Int :=
  let n := elemBytes o.fmt
  match o.tsr.addr [j] with
  | none => .ok s (-1)
  | some a => (s.readParts w 3 (splitParts a n)).bind fun s bs => .ok s (sextI (leNat bs) (8 * n))

def State.indexAll (s : State) (w : Who) (o : Operand) : List Nat → Acc (List (Nat × Int))
  | [] => .ok s []
  | j :: t => (s.indexAt w o j).bind fun s v => (s.indexAll w o t).bind fun s l => .ok s ((j, v) :: l)

/-- The cell that an entry names in place of the first coordinate, where it lies in the tensor and its GRANT. -/
def named (o : Operand) (grant : Option (Nat × List Box)) (v : Int) (rest : List Nat) : Option Nat :=
  if v < 0 ∨ 2 ^ 32 - 1 < v then none
  else
    let c := v.toNat :: rest
    let inGrant := match grant with | none => true | some g => g.2.any fun b => boxHas b c
    if inGrant then o.tsr.addr c else none

/-- The moves of a transfer; an entry of a scatter that names no cell moves nothing, and adds nothing to its accesses (R257). Of a gather, such an entry's
destination cell, which is written with zero, is translated and costs as the others do: R257's "adds no cost and no translation" is taken of the cell
that is not named (DESIGN CHOICE, log 56). -/
def movesOf (kind : XK) (cells : List (List Nat)) (src dst : Option Operand) (gs gd : Option (Nat × List Box)) (ent : List (Nat × Int)) :
    List Mv :=
  cells.map fun c =>
    let at_ := fun (o : Option Operand) => o.bind fun o => o.tsr.addr c
    let via := fun (o : Option Operand) (g : Option (Nat × List Box)) => o.bind fun o => named o g (Tbl.get (-1) ent (c.headD 0)) (c.drop 1)
    match kind with
    | .gather => { cell := c, src := via src gs, dst := at_ dst, bad := false }
    | .copy => { cell := c, src := at_ src, dst := at_ dst, bad := false }
    | .stream => { cell := c, src := at_ src, dst := at_ dst, bad := false }
    | .sink => { cell := c, src := at_ src, dst := at_ dst, bad := false }
    | _ => { cell := c, src := if (via dst gd).isSome then at_ src else none, dst := via dst gd, bad := false }

/-! ## The checks together -/

/-- An operand's RIGHTS bit (step 5): 0 read, 1 write. -/
def rightsOk (o : Option Operand) (b : Nat) : Bool := match o with | some o => bits o.tsr.rights b 1 == 1 | none => true

/-- Steps 3–12 of R242 for a transfer with a source, a destination and an index tensor at these operand addresses. none: the region is
empty. Step 8 is made for RCOPY alone, the transfer whose store the rotary transform is defined for. At step 3 the destination is checked first, then the
source, then the index tensor; INDEX_TENSOR (0x3A) is raised between steps 3 and 4, for an empty region too (DESIGN CHOICE, log 56). -/
def State.prep (s : State) (w : Who) (kind : XK) (g : Region) (sa da ia : Option Nat) (port comp : Nat) : Acc (Option Xfer) :=
  let indexed := kind == .gather || kind == .scatterSet || kind == .scatterAdd
  (s.tensor? w da).bind fun s dst => (s.tensor? w sa).bind fun s src => (s.tensor? w ia).bind fun s idx =>
  let rankBad := fun (o : Option Operand) => match o with | some o => !g.boxes.isEmpty && g.rank != o.tsr.rank | none => false
  (Acc.guard s (match idx with | some o => o.tsr.rank == 1 && (o.fmt == 2 || o.fmt == 3) | none => true) 0x3A (ia.getD 0)).bind fun s _ =>
  (Acc.guard s (!(indexed && g.ragged)) 0x22 0).bind fun s _ =>
  (Acc.guard s (!(rankBad src || rankBad dst)) 0x24 0).bind fun s _ =>
  if g.boxes.isEmpty then .ok s none
  else
    (Acc.guard s (rightsOk src 0) 0x33 (sa.getD 0)).bind fun s _ => (Acc.guard s (rightsOk idx 0) 0x33 (ia.getD 0)).bind fun s _ =>
    (Acc.guard s (rightsOk dst 1) 0x33 (da.getD 0)).bind fun s _ =>
    (s.cellBoxes w g).bind fun s bs =>
    let inD := fun (o : Option Operand) => match o with | some o => inDomain o bs | none => true
    (Acc.guard s (kind == .gather || inD src) 0x35 (sa.getD 0)).bind fun s _ =>
    (Acc.guard s (kind == .scatterSet || kind == .scatterAdd || inD dst) 0x35 (da.getD 0)).bind fun s _ =>
    (Acc.guard s (match idx with | some o => inDomain o (projFirst bs) | none => true) 0x35 (ia.getD 0)).bind fun s _ =>
    let grant := fun (s : State) (o : Option Operand) => match o with | some o => s.grantOf w o | none => Acc.ok s none
    (grant s src).bind fun s gs => (grant s dst).bind fun s gd => (grant s idx).bind fun s gi =>
    (Acc.guard s (kind == .gather || grantOk g.rank bs gs) 0x34 (sa.getD 0)).bind fun s _ =>
    (Acc.guard s (kind == .scatterSet || kind == .scatterAdd || grantOk g.rank bs gd) 0x34 (da.getD 0)).bind fun s _ =>
    (Acc.guard s (grantOk 1 (((canonU noLim 1 (projFirst bs))).getD []) gi) 0x34 (ia.getD 0)).bind fun s _ =>
    (Acc.guard s (match dst with | some d => kind != .copy || rotaryOk g d | none => true) 0x32 (da.getD 0)).bind fun s _ =>
    let cells := bs.flatMap boxCells
    (match idx with | some o => s.indexAll w o (distinct (cells.map fun (c : List Nat) => c.headD 0)) | none => Acc.ok s []).bind fun s ent =>
    let x : Xfer :=
      { id := s.nextId, recno := 0, who := w, part := (s.tenant w.core w.ctx).partid, cluster := w.core / 16, pc := (s.rcx w).pc, kind := kind,
        moves := movesOf kind cells src dst gs gd ent, src := src, dst := dst, port := port, comp := comp, accepted := false, done := 0,
        deadline := 0, xl := [], fault := none, takeovers := 0, heldAt := 0, inv := (s.rcx w).inv, seq := (s.rcx w).seq,
        rag := if g.ragged then some g else none, gsrc := gs, gdst := gd }
    let ireads := match idx with | some o => ent.filterMap fun (p : Nat × Int) => (o.tsr.addr [p.1]).map fun a => (a, elemBytes o.fmt) | none => []
    (Acc.guard s (match src with | some o => s.layoutOk w o x.reads | none => true) 0x25 (sa.getD 0)).bind fun s _ =>
    (Acc.guard s (match dst with | some o => kind != XK.scatterAdd || s.layoutOk w o x.writes | none => true) 0x25 (da.getD 0)).bind fun s _ =>
    (Acc.guard s (match idx with | some o => s.layoutOk w o ireads | none => true) 0x25 (ia.getD 0)).bind fun s _ =>
    (match s.footBad w (x.reads ++ ireads) x.writes with | some a => Acc.fault s 0x26 a 1 | none => Acc.ok s ()).bind fun s _ =>
    (s.allPages w x.reads x.writes).bind fun s xl => (s.compPage w comp).bind fun s c =>
    .ok s (some { x with xl := match c with | some c => c :: xl | none => xl })

/-! ## Admission (R244–R246) -/

/-- The resource that an access to a home costs, but for stations (R244). -/
def tierRes (h : Nat) : Option Nat :=
  match space h with
  | .peer => some (385 + (h - 2 ^ 55) / 2 ^ 52)
  | .tier2 => some 401
  | .host => some 402
  | _ => none

/-- The home lies inside a cluster (R244, "Mesh"). -/
def inCluster (cluster h : Nat) : Bool :=
  match space h with
  | .tcm => h / 2 ^ 18 % 4096 / 16 == cluster
  | .pan => (h - 2 ^ 34) / 2 ^ 22 % 256 == cluster
  | _ => false

/-- An intermediate address lies in an enabled host-shared range of a partition (R338, R356). -/
def State.hostShared (s : State) (p ipa : Nat) : Bool :=
  s.hdec.any fun e => e.2.en && e.2.part == p && decide (e.2.ipaBase * 2 ^ 30 ≤ ipa) && decide (ipa < (e.2.ipaBase + e.2.count) * 2 ^ 30)

/-- Granules of an access list that lie in a host-shared range. -/
def State.sharedGrans (s : State) (x : Xfer) (l : List (Nat × Nat)) : Nat :=
  (distinct (l.flatMap fun p => (granules p.1 p.2).filterMap fun g => match s.window x.who (g * 16) with
    | .global => match x.xl.find? fun q => q.1 == g * 16 / 4096 with
      | some q => if s.hostShared x.part (q.2.ipa + g * 16 % 2 ^ q.2.bits) then some ((q.2.home + g * 16 % 2 ^ q.2.bits) / 16) else none
      | none => none
    | _ => none)).length

/-- Adds to the cost of a resource. -/
def addCost (l : Tbl Nat) (r n : Nat) : Tbl Nat := Tbl.put 0 l r (Tbl.get 0 l r + n)

/-- The costs of a transfer, by resource: stations 0–383, the mesh 384, Tideway ports 385–400, tier 2 401, the host 402 (R244). -/
def State.costs (s : State) (x : Xfer) : Tbl Nat :=
  let rd := s.homesX x.who x.xl x.readsAll
  let wr := s.homesX x.who x.xl x.writes
  let hbm := fun (l : List Nat) => perBlock 6 (l.filter fun h => space h == .hbm)
  let c := (hbm rd).foldl (fun c b => addCost c (stationOf (b.1 * 64)) 64) []
  let c := (hbm wr).foldl (fun c b => addCost c (stationOf (b.1 * 64)) (if b.2 = 64 then 64 else 128)) c
  let gr := (perBlock 4 rd).map (·.1 * 16) ++ (perBlock 4 wr).map (·.1 * 16)
  let c := gr.foldl (fun c h => if inCluster x.cluster h then c else addCost c 384 16) c
  let c := gr.foldl (fun c h => match tierRes h with | some r => addCost c r 16 | none => c) c
  let n := s.sharedGrans x x.reads + s.sharedGrans x x.writes
  if n = 0 then c else addCost c 402 (16 * n)

/-- The key of a partition's reservation on a resource: one for all stations. -/
def resKey (r : Nat) : Nat := if r < 384 then 0 else r
/-- The reservation of a partition on a resource in a frame (R340): the last written that applies. -/
def Part.reserved (q : Part) (r f : Nat) : Nat :=
  (q.resv.foldl (fun (b : Nat × Nat) v => if v.r = resKey r ∧ v.from_ ≤ f ∧ b.1 ≤ v.from_ then (v.from_, v.n) else b) (0, 0)).2

/-- free[r][f] (R245). -/
def State.freeRes (s : State) (p r f : Nat) : Nat :=
  (s.part p).reserved r f - s.taken.foldl (fun n t => if t.part = p ∧ t.r = r ∧ t.f = f then n + t.n else n) 0

/-- The plan of one resource from frame f on; none where 64 frames do not carry it (R245). -/
def State.planRes (s : State) (p r : Nat) : Nat → Nat → Nat → Option (List Taken)
  | _, _, 0 => some []
  | 0, _, _ + 1 => none
  | n + 1, f, left + 1 =>
    let k := min (left + 1) (s.freeRes p r f)
    (s.planRes p r n (f + 1) (left + 1 - k)).map fun l => if k = 0 then l else { part := p, r := r, f := f, n := k } :: l

/-- The reason that a resource refuses with (R246). -/
def reasonOf (r : Nat) : Nat := if r < 384 then 1 else if r = 384 then 2 else if r ≤ 400 then 3 else if r = 401 then 4 else 5

/-- The plan of all resources in their order, or the reason of the first that refuses. -/
def State.planAll (s : State) (p f0 : Nat) : List (Nat × Nat) → Except Nat (List Taken)
  | [] => .ok []
  | (r, c) :: t => match s.planRes p r 64 (f0 + 1) c with
    | none => .error (reasonOf r)
    | some l => match s.planAll p f0 t with
      | .error k => .error k
      | .ok m => .ok (l ++ m)

/-- The bytes of granules in a quota category, 16 for each (R343). -/
def catBytes (cat : Nat) (grans : List Nat) : Nat :=
  16 * (grans.filter fun g => (match space (g * 16) with | .hbm => 2 | .tier2 => 3 | .host => 4 | .peer => 5 | _ => 0) == cat).length

/-- The granules of some accesses of a transfer. -/
def State.gransX (s : State) (x : Xfer) (l : List (Nat × Nat)) : List Nat := (perBlock 4 (s.homesX x.who x.xl l)).map (·.1)

/-- The bytes that a transfer has still to perform in a category: a granule is counted once, with the first of its cells (R343). -/
def State.catLeft (s : State) (x : Xfer) (cat : Nat) : Nat :=
  let left := fun (now was : List (Nat × Nat)) => let old := s.gransX x was; (s.gransX x now).filter fun g => !old.contains g
  catBytes cat (left (s.readsOf x false) (s.readsOf x true)) + catBytes cat (left x.rest.writes x.past.writes)

/-- quota_exceeded() (R245). -/
def State.quotaExceeded (s : State) (x : Xfer) : Bool :=
  let q := s.part x.part
  [2, 3, 4, 5].any fun cat =>
    let mine := s.catLeft x cat
    Tbl.get 0 q.qlim cat != 0 && mine != 0
      && decide (Tbl.get 0 q.qlim cat < Tbl.get 0 q.quse cat + mine
          + (s.xfers.filter fun y => y.part == x.part && y.accepted).foldl (fun n y => n + s.catLeft y cat) 0)

/-- The lowest free record of a cluster's Sluice (R241). -/
def State.freeRecord (s : State) (cluster : Nat) : Option Nat :=
  (List.range 128).find? fun i => !s.xfers.any fun x => x.cluster == cluster && x.accepted && x.recno == i

/-- Elements that later transfers of its port delivered. -/
def State.laterDone (s : State) (x : Xfer) : Nat :=
  ((s.xfers.dropWhile fun y => y.id != x.id).drop 1).foldl (fun n y =>
    if y.accepted && y.port == x.port && y.who.core == x.who.core && y.who.ctx == x.who.ctx then n + y.done else n) 0

/-- Elements of a stream, or of one before it, wait in the staging of its port (R255). -/
def State.staged (s : State) (x : Xfer) : Bool :=
  x.streams && decide (s.laterDone x < ((s.tenant x.who.core x.who.ctx).port x.port).stage.length)

/-- Accepted transfers owed to or by a port: those with elements still to put into its buffer or to take (R245, R247, R255). -/
def State.owedTo (s : State) (w : Who) (q : Nat) : Nat :=
  (s.xfers.filter fun x => x.accepted && x.port == q && x.who.core == w.core && x.who.ctx == w.ctx && (decide (x.done < x.elems) || s.staged x)).length

/-- R245: the plan, or the reason of a refusal. -/
def State.admission (s : State) (x : Xfer) : Except Nat (List Taken × Nat) :=
  match s.planAll x.part (s.time / 100) (s.costs x) with
  | .error k => .error k
  | .ok plan => match s.freeRecord x.cluster with
    | none => .error 6
    | some r =>
      if x.port ≠ 0 ∧ 4 ≤ s.owedTo x.who x.port then .error 7
      else if s.quotaExceeded x then .error 8
      else .ok (plan, r)

/-- The place of an access of a transfer, by the translation that it keeps (R243, R383). -/
def State.spotX (s : State) (x : Xfer) (va need : Nat) (write : Bool) : Located :=
  match s.window x.who va with
  | .local_ h => .stop s (.ok { home := h, gen := 0, v := false }) (some (space h))
  | .nowhere => .stop s (.error 6) none
  | .global => match x.xl.find? fun p => p.1 == va / 4096 with
    | some p => match s.frameKind x.part (p.2.home + va % 2 ^ p.2.bits) with
      | some k => .stop s (.error k) none
      | none => match s.spotOf x.part va p.2 with
        | .ok sp => .stop s (.ok sp) (some (space sp.home))
        | .error k => .stop s (.error k) none
    | none => s.locate x.who va need write

/-- The leaves by which a page that a transfer writes was translated. -/
def State.leavesX (s : State) (x : Xfer) (va : Nat) : List Nat :=
  match s.window x.who va with
  | .global => match x.xl.find? fun p => p.1 == va / 4096 with
    | some p => p.2.leaves
    | none => match s.leafOf x.who va with
      | some f => f.leaves
      | none => []
  | _ => []

/-- D is set in the leaves of a page that a transfer writes (R133); the host may hold their line (R356). -/
def State.dirtyX (s : State) (x : Xfer) (va : Nat) : State := s.mark x.part 0x80 (s.leavesX x va)
def State.dirtyWaits (s : State) (x : Xfer) (va : Nat) : Bool := s.markWaits x.part 0x80 (s.leavesX x va)

/-- Translates again those pages of some addresses that an invalidation has dropped, for all that the transfer has still to do there (R243): the
transfer with the new translations, or the cause of a failure, a kind above `base`. -/
def State.renew (s : State) (x : Xfer) (base : Nat) : List Nat → Acc Xfer
  | [] => .ok s x
  | va :: t =>
    if x.stale.contains (va / 4096) && s.window x.who va == .global then
      let l := s.locate x.who va (x.pageNeed (va / 4096)) false
      match l.res with
      | .wait => .stall
      | .asked => .again l.s
      | .error k => .fault l.s (base + k) va 1
      | .ok _ =>
        let xl := x.xl.filter fun p => p.1 != va / 4096
        let y := { x with stale := x.stale.filter (· != va / 4096), xl := match s.leafOf x.who va with | some f => (va / 4096, f) :: xl | none => xl }
        State.renew l.s y base t
    else s.renew x base t

/-- An address of own TCM or of the Pan, whose granules have landed bits that RWAIT reads (R250, R258); remote TCM is a space of its own (R140). -/
def ownRam (va : Nat) : Bool := va < 0x40000 || (0x1000000 ≤ va && va < 0x1400000)

/-- Clears the landed bits of the destination granules in the cluster's TCMs and Pan (R250); remote TCM keeps its bits. -/
def State.unland (s : State) (x : Xfer) : State :=
  (s.homesX x.who [] (x.writes.filter fun p => ownRam p.1)).foldl (fun s h => { s with landed := Tbl.put false s.landed (h / 16) false }) s

def State.setXfer (s : State) (x : Xfer) : State := { s with xfers := s.xfers.map fun y => if y.id = x.id then x else y }
def State.dropXfer (s : State) (id : Nat) : State := { s with xfers := s.xfers.filter fun y => y.id != id }

/-- What the port of a transfer has waited with its staging full (R247). -/
def State.waited (s : State) (x : Xfer) : Nat :=
  if x.port = 0 then 0 else ((s.tenant x.who.core x.who.ctx).port x.port).waitedBy s.time

/-- The end of a promise: a stream's is later by the time in which its staging was full, a sink's by the time until its last element was
pushed, which is added when that element is taken (R247). -/
def State.due (s : State) (x : Xfer) : Nat :=
  if x.kind = .sink then (if x.done < x.elems then x.deadline + (s.time - x.since) else x.deadline)
  else x.deadline + (s.waited x - x.since)

/-- The transfer's decision reaches txstat: in the register context, and in the image of the handler that issued it, where that is suspended. -/
def State.setTxstat (s : State) (x : Xfer) (v : Word) : State :=
  s.modTenant x.who.core x.who.ctx fun t =>
    let t := t.setRcx x.who.rc { t.rcx x.who.rc with txstat := v }
    { t with slots := t.slots.map fun p => if p.2.rc = x.who.rc ∧ p.2.img.inv = x.inv then (p.1, { p.2 with img := { p.2.img with txstat := v } }) else p }

/-- A request to a peer module for a transfer: for the cell at a place of it plus 1, or for its completion object (0). -/
def State.askX (s : State) (x : Xfer) (c : Nat) (k : OpK) (home va n : Nat) (data : Gran) (fmt : Nat := 0) : State :=
  { s with peerReqs := s.peerReqs ++ [{ port := peerPort home, rpart := s.rpart (peerPort home) x.part, ipa := home % 2 ^ 52, k := k, data := data,
                                        xfer := some (x.id, c), who := x.who, seq := x.seq, va := va, n := n, issued := s.time, fmt := fmt,
                                        leaves := if k == .load then [] else s.leavesX x va }] }

/-- An informational record of a transfer. -/
def State.infoXfer (s : State) (x : Xfer) (cause va : Nat) : State :=
  s.postInfo { fn := x.part, fid := 0, cause := cause, source := 1, ctx := x.who.ctx, rc := 3, resumable := false, addr := va, pc := x.pc,
               lcore := (s.tenant x.who.core x.who.ctx).lcore, part := x.part, info := x.recno }

/-- An event of the transfer's completion object at its place: here, or in the memory of a peer module, as a request that adds or takes away
a transaction. One that meets poison is refused, and an informational record says so, as for a completion event (R322, R383; DESIGN CHOICE, log 57). -/
def State.compX (s : State) (x : Xfer) (sp : Spot) (e : CEv) : State :=
  if space sp.home = .peer then
    s.askX x 0 (match e with | .accepted => .cexpect (BitVec.ofNat 64 (2 ^ 63 + 1)) | _ => .carrive) sp.home x.comp 16
      (match e with | .completed (some c) => BitVec.ofNat 128 (256 + c) | _ => 0)
  else if s.poisoned sp.home 16 then s.infoXfer x (poisonCause sp.home 2) x.comp
  else (s.dirtyX x x.comp).compEvent sp e

/-- The cells of a transfer over a ragged region, by the entries of its rows as they stand at acceptance (R220, R255). One that lies outside a tensor or
its grant is not moved and 0x35 is recorded; where an entry is poisoned, nothing moves (DESIGN CHOICE, log 57). -/
def State.rowsX (s : State) (x : Xfer) : Xfer :=
  match x.rag with
  | none => x
  | some g => match s.rowsNow x.who g with
    | none => { x with moves := [], fault := x.fault.or (some 0xA8) }
    | some bs =>
      let inG := fun (gr : Option (Nat × List Box)) (c : List Nat) => match gr with | some gr => gr.2.any fun b => boxHas b c | none => true
      let miss := fun (o : Option Operand) (a : Option Nat) => o.isSome && a.isNone
      let moves := (movesOf x.kind (bs.flatMap boxCells) x.src x.dst x.gsrc x.gdst []).map fun m =>
        if miss x.src m.src || miss x.dst m.dst || !inG x.gsrc m.cell || !inG x.gdst m.cell then { m with src := none, dst := none, bad := true } else m
      { x with moves := moves, fault := if moves.any (·.bad) then x.fault.or (some 0x35) else x.fault }

/-- The decision on a transfer (R245, R246): the moment at which the command is performed. The acceptance event goes through the translation
that was kept at issue (R383); none: the host holds a line. -/
def State.decide_ (s : State) (x : Xfer) : Option State :=
  let x := s.rowsX x
  match s.admission x with
  | .error k =>
    some (((s.dropXfer x.id).setTxstat x (BitVec.ofNat 64 (2 ^ 63 + k * 2 ^ 56))).count x.who.core x.who.ctx 7 1)
  | .ok (plan, rec) =>
    let f0 := s.time / 100
    let last := plan.foldl (fun (m : Nat) (k : Taken) => max m k.f) f0
    let deadline := 100 * (last + 1) + 200
    let place := if x.comp = 0 then none else some (s.spotX x x.comp 3 false).res
    if place.any fun r => match r with
        | .ok sp => s.heldLine sp.home || s.dirtyWaits x x.comp
        | .error _ => false
        | _ => true
    then none
    else
      let s := { s with taken := (s.taken.filter fun (k : Taken) => decide (f0 ≤ k.f)) ++ plan }
      let s := s.setXfer { x with accepted := true, recno := rec, deadline := deadline, since := if x.kind = .sink then s.time else s.waited x }
      let s := ((s.setTxstat x (BitVec.ofNat 64 (deadline - s.time))).unland x).su x.part x.who.ctx 12 1
      some (match place with
        | some (.ok sp) => s.compX { x with recno := rec } sp .accepted
        | some (.error k) => s.infoXfer { x with recno := rec } (0x50 + k) x.comp
        | _ => s)

/-- TRANSFER_DECISION (R245): transfer a, in the order in which its Sluice received them, once what its acceptance must follow has been performed
(R143, R152, R158). -/
def State.evDecision (s : State) (id : Nat) : Option State :=
  match s.xfers.find? fun x => x.id == id with
  | none => none
  | some x =>
    let first := s.xfers.find? fun y => y.cluster == x.cluster && !y.accepted
    if x.accepted ∨ s.thermal ∨ first.map (·.id) ≠ some id ∨ s.cmdWaits x.who x.seq 2 then none else s.decide_ x

/-- TRANSFER_DECISION (R245): transfer a. -/
def execTransferDecision (s : State) : Out := happens s (s.evDecision s.inp.a)

/-! ## The instructions -/

/-- The state of a port as step 1 checks it: bound with the kind that a stream needs (R255–R257). -/
def portBad (t : Tenant) (q kind : Nat) : Option Nat :=
  let p := t.port q
  if p.kind = kind then none else if p.kind = 0 then some 0x29 else some 0x2F

/-- A transfer of a register context is still to be decided (R246). -/
def State.undecided (s : State) (w : Who) : Bool := s.xfers.any fun x => x.who == w && !x.accepted

/-- Issues a transfer that has passed steps 1 and 2: an empty region is accepted and moves nothing, once every earlier transfer has been
decided, since txstat tells of the last one issued (R75). -/
def transfer (s : State) (kind : XK) (g : Region) (sa da ia : Option Nat) (port : Nat) : Out :=
  (s.prep s.cur kind g sa da ia port s.rc.txcomp.toNat).then s fun s x =>
    match x with
    | none =>
      if s.undecided s.cur then stall s else .next (State.retire (s.modRcx s.cur fun r => { r with txstat := 0 }))
    | some x =>
      let s1 := State.retire { s with xfers := s.xfers ++ [x], nextId := s.nextId + 1 }
      .next (if s1.eager then (s1.evDecision x.id).getD s1 else s1)

/-- Step 2 of R242. -/
def specXfer (s : State) (writes : Bool) (body : Out) : Out :=
  if s.rc.spec && (writes || s.rc.txcomp != 0) then trapNow s 0x85 0 0 else body

/-- RCOPY (R251). -/
def execRcopy (rd rs1 rs2 : Nat) (s : State) : Out :=
  useX s [rd, rs1] <| normalOnly s <| useG s [rs2] <| orderly s <| specXfer s true <|
    transfer s .copy (s.g rs2) (some (s.x rd).toNat) (some (s.x rs1).toNat) none 0

/-- RSTREAM (R255). -/
def execRstream (qd rs1 gs : Nat) (s : State) : Out :=
  useX s [rs1] <| normalOnly s <| useG s [gs] <| orderly s <|
    match portBad s.tn (qd - 24) 1 with
    | some c => trapNow s c 0 0
    | none => specXfer s false <| transfer s .stream (s.g gs) (some (s.x rs1).toNat) none none (qd - 24)

/-- RSINK (R256). -/
def execRsink (rd qs gs : Nat) (s : State) : Out :=
  useX s [rd] <| normalOnly s <| useG s [gs] <| orderly s <|
    match portBad s.tn (qs - 24) 2 with
    | some c => trapNow s c 0 0
    | none => specXfer s true <| transfer s .sink (s.g gs) none (some (s.x rd).toNat) none (qs - 24)

/-- The stream form of RGATHER's destination (R257): well-formed, and its port. -/
def streamForm (v : Nat) : Option Nat :=
  let q := bits v 56 3
  if v = 2 ^ 63 + q * 2 ^ 56 ∧ 2 ≤ q then some q else none

/-- RGATHER (R257). -/
def execRgather (rd rs1 rs2 gs : Nat) (s : State) : Out :=
  useX s [rd, rs1, rs2] <| normalOnly s <| useG s [gs] <| orderly s <|
    let d := (s.x rd).toNat
    if d < 2 ^ 63 then
      specXfer s true <| transfer s .gather (s.g gs) (some (s.x rs1).toNat) (some d) (some (s.x rs2).toNat) 0
    else match streamForm d with
      | none => specXfer s false <| trapNow s 0x2B (s.x rd) 0
      | some q => match portBad s.tn q 1 with
        | some c => trapNow s c 0 0
        | none => specXfer s false <| transfer s .gather (s.g gs) (some (s.x rs1).toNat) none (some (s.x rs2).toNat) q

/-- RSCATTER (R257). -/
def scatter (kind : XK) (rd rs1 rs2 gs : Nat) (s : State) : Out :=
  useX s [rd, rs1, rs2] <| normalOnly s <| useG s [gs] <| orderly s <| specXfer s true <|
    transfer s kind (s.g gs) (some (s.x rs1).toNat) (some (s.x rd).toNat) (some (s.x rs2).toNat) 0
/-- RSCATTER.SET (R257). -/
def execRscatterSet (rd rs1 rs2 gs : Nat) (s : State) : Out := scatter .scatterSet rd rs1 rs2 gs s
/-- RSCATTER.ADD (R257). -/
def execRscatterAdd (rd rs1 rs2 gs : Nat) (s : State) : Out := scatter .scatterAdd rd rs1 rs2 gs s

/-! ## RWAIT (R258) -/

/-- A cell is covered: an accepted transfer of the cluster's Sluice, for the context, writes one of its bytes, at the same home or, in global
space, at the same address: RWAIT translates nothing (R258). -/
def State.covered (s : State) (w : Who) (va n : Nat) : Bool :=
  let homes := (List.range n).filterMap fun i => s.peek w (va + i)
  let global := s.window w va == .global
  let p := (s.tenant w.core w.ctx).partid
  s.xfers.any fun x => x.accepted && x.who.core / 16 == w.core / 16 && x.who.ctx == w.ctx && x.part == p
    && x.writes.any fun q => (global && decide (q.1 < va + n) && decide (va < q.1 + q.2)) || (List.range q.2).any fun i =>
      match s.homeX x.who x.xl (q.1 + i) with
      | some h => homes.contains h
      | none => false

/-- Some granule of a cell in own TCM or the Pan has not landed (R258). -/
def State.unlanded (s : State) (w : Who) (va n : Nat) : Bool :=
  (List.range n).any fun i => ownRam (va + i) && match s.window w (va + i) with
    | .local_ h => !Tbl.get false s.landed (h / 16)
    | _ => false

/-- RWAIT (R258). -/
def execRwait (rs1 rs2 : Nat) (s : State) : Out :=
  useX s [rs1] <| normalOnly s <| useG s [rs2] <| orderly s <|
    let a := (s.x rs1).toNat
    let g := s.g rs2
    (s.tensor s.cur a).then s fun s o =>
      if !g.boxes.isEmpty && g.rank != o.tsr.rank then trapNow s 0x24 0 0
      else (s.cellBoxes s.cur g).then s fun s bs =>
        if !inDomain o bs then trapNow s 0x35 (BitVec.ofNat 64 a) 0
        else
          let n := elemBytes o.fmt
          let cells := (bs.flatMap boxCells).filterMap fun c => o.tsr.addr c
          let open_ := cells.filter fun va => !s.covered s.cur va n
          if s.undecided s.cur then stall s
          else match open_.find? fun va => s.unlanded s.cur va n with
          | some va => trapNow s 0x27 (BitVec.ofNat 64 va) 0
          | none => if open_.length = cells.length then .next s.retire else stall s

/-! ## RCAPMK (R266) -/

/-- A capability's low dword, and its MAC over that and the region's image. -/
def capLow (addr want part : Nat) : Nat := addr % 2 ^ 48 + want * 2 ^ 48 + part % 256 * 2 ^ 56
def capMac (gen low : Nat) (image : List Byte) : Nat :=
  leNat (kmac256 (leBytes (Config.capKey gen).toNat 32) (leBytes low 8 ++ shake256 image 32) 8 "GNOPOR-CAP")

/-- RCAPMK (R266): `want` is 1 read, 2 write, 3 both. -/
def rcapmk (want rd rs1 rs2 : Nat) (s : State) : Out :=
  useX s [rs1] <| normalOnly s <| useG s [rs2] <| orderly s <|
    if s.rc.busyW rd then stall s
    else
      let a := (s.x rs1).toNat
      let g := s.g rs2
      (s.tensor s.cur a).then s fun s o =>
        if g.ragged then trapNow s 0x22 0 0
        else if !g.boxes.isEmpty && g.rank != o.tsr.rank then trapNow s 0x24 0 0
        else if !inDomain o g.boxes then trapNow s 0x35 (BitVec.ofNat 64 a) 0
        else (s.grantOf s.cur o).then s fun s gr =>
          if !grantOk g.rank g.boxes gr then trapNow s 0x34 (BitVec.ofNat 64 a) 0
          else if want &&& o.tsr.rights ≠ want then trapNow s 0x33 (BitVec.ofNat 64 a) 0
          else
            let p := s.tn.partid
            let low := capLow a want p
            .next (State.retire (s.modRcx s.cur fun r => r.ww rd (BitVec.ofNat 128 (low + capMac (s.part p).capkey low g.image * 2 ^ 64))))

/-- RCAPMK.R (R266). -/
def execRcapmkR (rd rs1 rs2 : Nat) (s : State) : Out := feature (.rcapmkR rd rs1 rs2) [10] s <| rcapmk 1 rd rs1 rs2 s
/-- RCAPMK.W (R266). -/
def execRcapmkW (rd rs1 rs2 : Nat) (s : State) : Out := feature (.rcapmkW rd rs1 rs2) [10] s <| rcapmk 2 rd rs1 rs2 s
/-- RCAPMK.RW (R266). -/
def execRcapmkRw (rd rs1 rs2 : Nat) (s : State) : Out := feature (.rcapmkRw rd rs1 rs2) [10] s <| rcapmk 3 rd rs1 rs2 s

end Sys2Proof.Machine
end

