-- ==== Sys2Proof/Machine/SluiceRun.lean ====
section
/-! DEFINITION. Carrying transfers out (R247–R257, R321): copies, gathers and scatters cell by cell, streams and sinks element by element,
the rotary transform, completion (R262, R383); ports and the elements between neighbours (R259, R260); completion objects (R263–R265);
beds (R267). -/

namespace Sys2Proof.Machine

/-! ## Reading and writing cells through the translations that a transfer keeps (R243) -/

/-- The places of some parts, for an access that needs the permissions `need`. It stalls where the host holds a line, of the place or of a leaf
whose D bit a write is to set (R356). -/
def State.placesX (s : State) (x : Xfer) (need : Nat) (write : Bool) : List (Nat × Nat) → Acc (List (Spot × Nat))
  | [] => .ok s []
  | (va, n) :: t =>
    let l := s.spotX x va need false
    match l.res with
    | .wait => .stall
    | .asked => .again l.s
    | .error k => .fault l.s (0x58 + k) va n
    | .ok sp =>
      if l.s.heldLine sp.home || (write && l.s.dirtyWaits x va) then .stall
      else (l.s.placesX x need write t).bind fun s r => .ok s ((sp, n) :: r)

/-- Reads bytes at places, free values where the key is another. -/
def State.readPlaces (s : State) : List (Spot × Nat) → State × List Byte
  | [] => (s, [])
  | (sp, n) :: t =>
    let r := s.readAt sp n
    let q := r.1.readPlaces t
    (q.1, r.2 ++ q.2)

/-- Writes the bytes of cell c at va to its places, with the layout tag of the tensor (R249), and sets D in their leaves (R133); what lies in the memory
of a peer module leaves as requests. -/
def State.writePlaces (s : State) (x : Xfer) (c va : Nat) (bs : List Byte) (tag : Nat) : List (Spot × Nat) → State
  | [] => s
  | (sp, n) :: t =>
    let s := if space sp.home = .peer then s.askX x (c + 1) .store sp.home va n (BitVec.ofNat 128 (leNat (bs.take n)))
      else (s.dirtyX x va).writeAt sp (bs.take n) tag
    s.writePlaces x c (va + n) (bs.drop n) tag t

/-- The granules of some places. -/
def granulesOf (l : List (Spot × Nat)) : List Nat := l.flatMap fun p => granules p.1.home p.2

/-- Some of the places lie in the memory of a peer module. -/
def anyPeer (l : List (Spot × Nat)) : Bool := l.any fun p => space p.1.home == .peer

/-- An address of the remote-TCM window: a transfer leaves the landed bits there as they are (R250). -/
def remoteTcm (va : Nat) : Bool := 0x100000000 ≤ va && va < 0x140000000

/-- The first and the last byte of an element. -/
def endsOf (va n : Nat) : List Nat := [va, va + n - 1]

/-- Reads the element of cell c at an address, at an instant of its own (R156): the transfer with the translation renewed, the value, none where a
peer module has been asked for it, and the granules. Poison is not read (R322). -/
def State.readX (s : State) (x : Xfer) (c va n : Nat) : Acc (Xfer × Option Nat × List Nat) :=
  (s.renew x 0x58 (endsOf va n)).bind fun s x => (s.placesX x 1 false (splitParts va n)).bind fun s l =>
    match l.find? fun p => s.poisoned p.1.home p.2 with
    | some p => .fault s (poisonCause p.1.home 3) va n
    | none =>
      if anyPeer l then .ok (s.askX x (c + 1) .load ((l.headD ({ home := 0, gen := 0, v := false }, 0)).1.home) va n 0) (x, none, granulesOf l)
      else let r := s.readPlaces l; .ok r.1 (x, some (leNat r.2), granulesOf l)

/-! ## Values -/

/-- Zero in a format: LNS6 has a code for it (R181). -/
def zeroOf (fmt : Nat) : Nat := if fmt = 8 then 16 else 0

/-- Counts what an engine's conversion counts (R184, R191), for the issuing core. -/
def State.countLane (s : State) (w : Who) (l : Lane) : State :=
  let s := if l.e0 = 0 then s else s.countAway w.core w.ctx 0 l.e0
  if l.e3 = 0 then s else s.countAway w.core w.ctx 3 l.e3

/-- old + x of RSCATTER.ADD (R257). -/
def addElem (fmt old v : Nat) : Lane :=
  if fmt < 4 then Lane.pure ((old + v) % 2 ^ fmtWidth fmt)
  else if fmt < 8 then ((ffmt fmt).add 0 old v).quiet
  else (lnsPut (fp32.get (fp32.add 0 (convert 8 6 0 old).v (convert 8 6 0 v).v).v)).quiet

/-- t of R253: 2·i·ROTBASE / EXT, one rounding. -/
def rotT (i ext : Nat) (rotbase : Nat) : Nat :=
  match fp32.get rotbase with
  | .nan _ => fp32.nan
  | .inf n => if i = 0 then fp32.nan else fp32.inf n
  | .zero n => fp32.zero n
  | .num n m e =>
    let p := 2 * i * m
    if p = 0 then fp32.zero n
    else
      let q := p * 2 ^ 64
      (fp32.round 0 n (2 * (q / ext) + (if q % ext = 0 then 0 else 1)) (e - 65)).v

/-- The pair (y0, y1) of R253, as FP32 patterns. -/
def rotate (i ext rotbase pos x0 x1 : Nat) : Nat × Nat :=
  let f := (fexp2 (rotT i ext rotbase ^^^ 2 ^ 31)).v
  let a := (fp32.mul 0 (fp32.ofInt 0 pos).v f).v
  let c := fp32.get (fcospi a).v
  let n := fp32.get (fsinpi a).v
  let u := fp32.get x0
  let v := fp32.get x1
  ((fp32.sum 0 [u.times c, (v.times n).flip]).v, (fp32.sum 0 [u.times n, v.times c]).v)

/-! ## One cell -/

/-- The pair partner of a cell of a rotary copy (R253): its place among the moves. -/
def Xfer.mate (x : Xfer) (m : Mv) : Option Nat :=
  match x.dst with
  | some d =>
    if x.kind = .copy ∧ bits d.tsr.rot 0 1 = 1 then
      (mateOf d.tsr (x.moves.map (·.cell)) m.cell).bind fun c => x.moves.findIdx? fun o => o.cell == c
    else none
  | none => none

/-- The value of cell c, where it has been read, or taken from the port of a sink. -/
def Xfer.value (x : Xfer) (c : Nat) : Option Nat := (x.got.find? fun g => g.1 == c).map (·.2)

/-- The cells whose values cell c is written from: itself and its pair partner. -/
def Xfer.sources (x : Xfer) (c : Nat) (m : Mv) : List Nat := c :: (x.mate m).toList

/-- A cell cannot be written: a source of it cannot be read. -/
def Xfer.lost (x : Xfer) (c : Nat) (m : Mv) : Bool :=
  (x.sources c m).any fun j => (x.value j).isNone && (x.moves[j]?).any (·.bad)

/-- What is written to a cell, where its sources are at hand (R251, R253, R257). A cell of a gather whose entry names none is zero. -/
def Xfer.out (x : Xfer) (c : Nat) (m : Mv) (d : Operand) : Option Lane :=
  if x.kind = .sink then (x.value c).map Lane.pure
  else match m.src, x.src with
    | some _, some so => match x.mate m with
      | none => (x.value c).map (convert so.fmt d.fmt 0)
      | some j => (x.value c).bind fun g => (x.value j).map fun h =>
        let p := bits d.tsr.rot 1 3
        let k := ((d.tsr.index p (m.cell.getD p 0)).getD 0).toNat
        let even := k % 2 = 0
        let mine := (convert so.fmt 6 0 g).v
        let other := (convert so.fmt 6 0 h).v
        let y := rotate (k / 2) (d.tsr.ext.getD p 1) d.tsr.rotbase.toNat (m.cell.getD (bits d.tsr.rot 4 3) 0)
          (if even then mine else other) (if even then other else mine)
        Lane.pure (convert 6 d.fmt 0 (if even then y.1 else y.2)).v
    | _, _ => some (Lane.pure (zeroOf d.fmt))

/-- Writes a value to cell c at its address b (R250–R252), or adds it there in one act at its home (R257), which a peer module does itself: the
transfer with the translation renewed, and the granules written. A granule that is poisoned and not wholly written refuses it (R322). -/
def State.storeX (s : State) (x : Xfer) (c : Nat) (d : Operand) (b : Nat) (v : Lane) : Acc (Xfer × List Nat) :=
  let n := elemBytes d.fmt
  let add := x.kind == .scatterAdd
  (s.renew x 0x58 (endsOf b n)).bind fun s x => (s.placesX x 2 true (splitParts b n)).bind fun s l =>
    match l.find? fun p => if add then s.poisoned p.1.home p.2 else s.poisonedPart p.1.home p.2 with
    | some p => .fault s (poisonCause p.1.home 3) b n
    | none =>
      let s := s.countLane x.who v
      if add && anyPeer l then
        .ok (s.askX x (c + 1) (.amo 0) ((l.headD ({ home := 0, gen := 0, v := false }, 0)).1.home) b n (BitVec.ofNat 128 v.v) (d.fmt + 1)) (x, granulesOf l)
      else
        let old := if add then s.readPlaces l else (s, [])
        let r := if add then addElem d.fmt (leNat old.2) v.v else Lane.pure v.v
        let s1 := (old.1.countLane x.who r).writePlaces x c b (leBytes r.v n) d.tsr.layout l
        .ok (if remoteTcm b then { s1 with landed := old.1.landed } else s1) (x, granulesOf l)

/-- The bytes that requests of a transfer to peer modules have still to write (R358). -/
def State.sentX (s : State) (x : Xfer) : List (Nat × Nat) :=
  (s.peerReqs.filter fun r => r.k != .load && (match r.xfer with | some q => q.1 == x.id && q.2 != 0 | none => false)).map fun r => (r.va, r.n)

/-- A request of the transfer to a peer module is out. -/
def State.asking (s : State) (x : Xfer) : Bool := s.peerReqs.any fun r => match r.xfer with | some q => q.1 == x.id | none => false

/-! ## Charges (R343) -/

/-- Charges granules that a transfer had not touched before, each once. -/
def State.chargeGranules (s : State) (x : Xfer) (gs old : List Nat) (write : Bool) : State :=
  ((distinct gs).filter fun g => !old.contains g).foldl (fun s g => s.chargeAt x.part x.who.ctx (g * 16) 16 write) s

/-! ## Held parts and completion (R243, R262, R383) -/

/-- The page of an address is held on fault service, since now where nothing else of the transfer is. -/
def Xfer.hold (x : Xfer) (time va : Nat) : Xfer :=
  { x with heldPg := (va / 4096) :: x.heldPg.filter (· != va / 4096), heldAt := if x.held then x.heldAt else time }

/-- A part of a transfer is held on fault service: the record names the transfer (R243). -/
def State.holdXfer (s : State) (x : Xfer) (cause va : Nat) (by_ : HeldBy) : State :=
  let r : FRec := { fn := faultFn x.part cause, fid := 0, cause := cause, source := 1, ctx := x.who.ctx, rc := 3, resumable := true, addr := va, pc := x.pc,
                    lcore := (s.tenant x.who.core x.who.ctx).lcore, part := x.part, info := x.recno }
  (s.setXfer (x.hold s.time va)).postHeld (dieOf x.who.core) r by_ false

/-- Some byte of an element lies in a page. -/
def inPage (page n : Nat) (a : Option Nat) : Bool := a.any fun a => (endsOf a n).any fun b => b / 4096 == page

/-- The cells of a transfer that lie in the page of a failed request are given up, with the cause to record: those still to be read there cannot be
read, and those to be written there are not. -/
def Xfer.giveUp (x : Xfer) (va cause : Nat) : Xfer :=
  { x with fault := x.fault.or (some cause),
           moves := x.moves.zipIdx.map fun m =>
             if inPage (va / 4096) x.srcSize m.1.src && (x.value m.2).isNone then { m.1 with bad := true }
             else if inPage (va / 4096) x.dstSize m.1.dst then { m.1 with done := true } else m.1 }

/-- A transfer whose cells have all moved completes (R247), once every peer module has answered: SL_LATE where it is due (R321), the completion
event (R262, R383). none: it waits for a peer, or the host holds the object's line. -/
def State.finishXfer (s : State) (x : Xfer) : Option State :=
  let late := fun (s : State) => if decide (3 ≤ x.takeovers) && decide (s.due x < s.time) then s.infoXfer x 0x61 0 else s
  let without := fun (s : State) (c : Nat) => some (((late s).dropXfer x.id).infoXfer x c x.comp)
  if s.asking x then none
  else if x.comp = 0 then some ((late s).dropXfer x.id)
  else match s.renew x 0x50 [x.comp] with
    | .stall => none
    | .again s => some s
    | .fault s c _ _ => if suspends c then some (s.holdXfer x c x.comp (.comp x.id)) else without s c
    | .ok s x =>
      let l := s.spotX x x.comp 3 false
      match l.res with
      | .wait => none
      | .asked => some l.s
      | .error k => without l.s (0x50 + k)
      | .ok sp =>
        if l.tier = some .host ∨ l.tier = some .tier2 then without s 0x57
        else if s.heldLine sp.home || s.dirtyWaits x x.comp then none
        else if l.s.poisoned sp.home 16 then without l.s (poisonCause sp.home 2)
        else if space sp.home = .peer then some (((late l.s).setXfer x).compX x sp (.completed x.fault))
        else some (((late l.s).dropXfer x.id).compX x sp (.completed x.fault))

/-! ## TRANSFER_COMPLETE (R247) -/

/-- How far the cells of a transfer have been moved, and the granules read and written. -/
structure Work where
  s : State
  x : Xfer
  rd : List Nat
  wr : List Nat

/-- Cell c has been moved, or will not be. -/
def Xfer.mark (x : Xfer) (c : Nat) : Xfer := { x with moves := x.moves.zipIdx.map fun p => if p.2 = c then { p.1 with done := true } else p.1 }

/-- Cell c of a copy may be moved before the cells ahead of it: none of them has still to write what it writes, here or at a peer module (R257). -/
def State.mayMove (s : State) (x : Xfer) (c : Nat) : Bool :=
  match (x.moves[c]?).bind (·.dst) with
  | some b =>
    let meets := fun (d n : Nat) => decide (d < b + x.dstSize) && decide (b < d + n)
    !(x.moves.take c).any (fun m => !m.done && (match m.dst with | some d => meets d x.dstSize | none => false))
      && !(s.sentX x).any fun p => meets p.1 p.2
  | none => true

/-- Its source cannot be read. -/
def Xfer.spoil (x : Xfer) (c : Nat) : Xfer := { x with moves := x.moves.zipIdx.map fun p => if p.2 = c then { p.1 with bad := true } else p.1 }

/-- An access of cell c fails: the part of the transfer in its page is held (R243), or the fault is recorded and the cell given up. -/
def Work.fails (k : Work) (s : State) (cause va : Nat) (give : Xfer → Xfer) : Work :=
  if suspends cause then { k with s := s.holdXfer k.x cause va (.xfer k.x.id), x := k.x.hold s.time va }
  else { k with s := s, x := { give k.x with fault := k.x.fault.or (some cause) } }

/-- The page of an element is held on fault service. -/
def Xfer.holds (x : Xfer) (n : Nat) (a : Option Nat) : Bool := x.heldPg.any fun p => inPage p n a

/-- Reads the source of cell c, unless that has been done or asked for, or its page is held. -/
def Work.read (k : Work) (c : Nat) : Work :=
  match k.x.moves[c]? with
  | none => k
  | some m => match if m.bad || k.s.hasRead k.x c || k.x.holds k.x.srcSize m.src then none else m.src with
    | none => k
    | some a => match k.s.readX k.x c a k.x.srcSize with
      | .stall => k
      | .again s => { k with s := s }
      | .fault s cause va _ => k.fails s cause va (Xfer.spoil · c)
      | .ok s r => { k with s := s, rd := k.rd ++ r.2.2, x := match r.2.1 with | some v => { r.1 with got := r.1.got ++ [(c, v)] } | none => r.1 }

/-- Writes cell c, where its sources are at hand. -/
def Work.write (k : Work) (c : Nat) : Work :=
  match k.x.moves[c]?, k.x.dst with
  | some m, some d =>
    if m.done || !k.s.mayMove k.x c || k.x.holds k.x.dstSize m.dst then k
    else if k.x.lost c m then { k with x := k.x.mark c }
    else match m.dst, k.x.out c m d with
      | none, _ => { k with x := { k.x.mark c with fault := k.x.fault.or (if m.bad then none else some 0x35) } }
      | some _, none => k
      | some b, some v => match k.s.storeX k.x c d b v with
        | .stall => k
        | .again s => { k with s := s }
        | .fault s cause va _ => k.fails s cause va (Xfer.mark · c)
        | .ok s r =>
          { k with s := s, wr := k.wr ++ r.2, x := { r.1.mark c with fault := r.1.fault.or (if k.x.kind = .gather ∧ m.src = none then some 0x35 else none) } }
  | _, _ => k

/-- Cell c, unless it has been moved or must wait: its sources are read, both of a pair before either is written (R253), then it is written. -/
def Work.cell (k : Work) (c : Nat) : Work :=
  match k.x.moves[c]? with
  | some m => if m.done then k else ((k.x.sources c m).foldl Work.read k).write c
  | none => k

/-- Transfers of one Sluice write a granule in the order of their acceptance (R252): an earlier one, accepted there or working there, still has a
granule to write among those of some accesses of x, as their pages are mapped now (R243). -/
def State.writesBehind (s : State) (x : Xfer) (writes : List (Nat × Nat)) : Bool :=
  let mine := s.gransNow x writes
  (s.xfers.takeWhile fun y => y.id != x.id).any fun y =>
    y.accepted && (y.cluster == x.cluster || y.who.core / 16 == x.who.core / 16)
      && (s.gransNow y (y.rest.writes ++ s.sentX y)).any fun g => mine.contains g

/-- Some work on the cells of a transfer, with its charges; none where nothing comes of it. -/
def State.work (s : State) (x : Xfer) (f : Work → Work) : State × Xfer × Bool :=
  let k := f { s := s, x := x, rd := [], wr := [] }
  let was := fun (l : List (Nat × Nat)) => (s.homesX x.who x.xl l).map (· / 16)
  (((k.s.setXfer k.x).chargeGranules x k.rd (was (s.readsOf x true)) false).chargeGranules x k.wr (was x.past.writes) true, k.x,
    k.x != x || k.s.peerReqs.length != s.peerReqs.length)

/-- Carries out some cells of a transfer that writes, and completes it where `last` says so and nothing is left. -/
def State.runCells (s : State) (x : Xfer) (cells : List Nat) (last new : Bool) : Option State :=
  let r := s.work x (cells.foldl Work.cell)
  let some_ := if new || r.2.2 then some r.1 else none
  if last && r.2.1.rest.moves.isEmpty && !r.2.1.held then (r.1.finishXfer r.2.1).or some_ else some_

/-- The first transfer of its port that still owes or is owed elements. -/
def State.portTurn (s : State) (x : Xfer) : Bool :=
  !(s.xfers.takeWhile fun y => y.id != x.id).any fun y =>
    y.accepted && y.port == x.port && y.who.core == x.who.core && y.who.ctx == x.who.ctx && decide (y.done < y.elems)

/-- The elements pushed to the port of a sink are taken, in order, as many as it is still to have (R256); with the last, the time until it was pushed
is added to the deadline (R247). -/
def State.takeElems (s : State) (x : Xfer) : State × Xfer :=
  let p := (s.tenant x.who.core x.who.ctx).port x.port
  let n := min (x.elems - x.done) p.buf.length
  let cell := fun (e i : Nat) (v : Gran) => ((x.done + e) * x.perElem + i, v.toNat / 2 ^ (8 * x.dstSize * i) % 2 ^ (8 * x.dstSize))
  let vals := (p.buf.take n).zipIdx.flatMap fun q => (List.range x.perElem).map fun i => cell q.2 i q.1
  let wait := if n ≠ 0 ∧ x.done + n = x.elems then (p.pushed.drop (n - 1)).headD 0 - x.since else 0
  let y := { x with done := x.done + n, got := x.got ++ vals.filter (fun g => decide (g.1 < x.moves.length)), deadline := x.deadline + wait }
  ((s.modTenant x.who.core x.who.ctx fun t => t.setPort x.port { p with buf := p.buf.drop n, pushed := p.pushed.drop n }).setXfer y, y)

/-- TRANSFER_COMPLETE (R247): transfer a. For b = 0, all the cells that are left of a copy, a gather, a scatter or a sink are moved, and it completes;
for another b one cell is, b - 1; and above the number of its cells, the source of one is read, at an instant of its own (R156). A stream completes once
its last element is in the port's buffer. -/
def State.evComplete (s : State) (id b : Nat) : Option State :=
  match s.xfers.find? fun x => x.id == id with
  | none => none
  | some x =>
    let n := x.moves.length
    if !x.accepted then none
    else if x.streams then (if x.done < x.elems || s.staged x || x.held then none else s.finishXfer x)
    else if n < b then (let r := s.work x (Work.read · (b - 1 - n)); if r.2.2 then some r.1 else none)
    else
      let cells := if b = 0 then x.rest.writes else ({ x with moves := (x.moves.drop (b - 1)).take 1 } : Xfer).writes
      if (x.kind == .sink && !s.portTurn x) || s.writesBehind x cells then none
      else
        let t := if x.kind = .sink then s.takeElems x else (s, x)
        t.1.runCells t.2 (if b = 0 then List.range n else [b - 1]) (b == 0) (decide (x.done < t.2.done))

/-- TRANSFER_COMPLETE (R247): transfer a; all of it for b = 0, else a cell, or the source of one. -/
def execTransferComplete (s : State) : Out := happens s (s.evComplete s.inp.a s.inp.b)

/-! ## STREAM_DELIVER (R255, R257) -/

/-- The bytes of cell c of a stream, where they are at hand; those of a cell that cannot be read are free values, and a cell of a gather whose entry names
none is zero. -/
def Xfer.streamBytes (x : Xfer) (fresh n fmt c : Nat) (m : Mv) : Option (List Byte) :=
  if m.bad then some (freeBytes (fresh + 16 * c) n)
  else match m.src with
    | none => some (leBytes (zeroOf fmt) n)
    | some _ => (x.value c).map (leBytes · n)

/-- Reads cell c of a stream once those before it have been read (R255). -/
def Work.next (k : Work) (first c : Nat) : Work :=
  let ready := fun (i : Nat) => (k.x.value i).isSome || (k.x.moves[i]?).all fun m => m.bad || m.src.isNone
  if (List.range (c - first)).all (fun i => ready (first + i)) then k.read c else k

/-- The next element of transfer id is read and delivered to its port, where the buffer or the staging has room; with b, the next cell of it is
read, at an instant of its own (R255). -/
def State.evDeliver (s : State) (id b : Nat) : Option State :=
  match s.xfers.find? fun x => x.id == id with
  | none => none
  | some x => match x.src with
    | none => none
    | some o =>
      let p := (s.tenant x.who.core x.who.ctx).port x.port
      if !x.accepted || !x.streams || decide (x.elems ≤ x.done) || !s.portTurn x || decide (64 ≤ p.stage.length) then none
      else
        let n := elemBytes o.fmt
        let base := x.done * x.perElem
        let cells := (List.range (min x.perElem (x.moves.length - base))).map (base + ·)
        let open_ := cells.filter fun c => (x.value c).isNone && (x.moves[c]?).any fun m => !m.bad && m.src.isSome
        let r := s.work x fun k => (if b = 0 then open_ else open_.take 1).foldl (fun k c => k.next base c) k
        let bytes := cells.map fun c => (r.2.1.moves[c]?).bind fun m => r.2.1.streamBytes r.1.fresh n o.fmt c m
        if b ≠ 0 ∨ bytes.any (·.isNone) then (if r.2.2 then some r.1 else none)
        else
          let v : Gran := BitVec.ofNat 128 (leNat (bytes.flatMap fun l => l.getD []))
          let q : Port := if p.buf.length < 8 ∧ p.stage = [] then { p with buf := p.buf ++ [v] } else { p with stage := p.stage ++ [v], fullAt := s.time }
          let lost := (cells.filter fun c => (r.2.1.moves[c]?).any (·.bad)).length
          let unnamed := cells.any fun c => (r.2.1.moves[c]?).any fun m => !m.bad && m.src.isNone
          let s1 := r.1.modTenant x.who.core x.who.ctx fun t => t.setPort x.port q
          some (State.setXfer { s1 with fresh := s1.fresh + (if lost = 0 then 0 else 16 * (base + x.perElem)) }
            { r.2.1 with done := x.done + 1, fault := r.2.1.fault.or (if unnamed then some 0x35 else none), got := r.2.1.got.filter fun g => !cells.contains g.1 })

/-- STREAM_DELIVER (R255): transfer a; with b, one cell of its next element is read. -/
def execStreamDeliver (s : State) : Out := happens s (s.evDeliver s.inp.a s.inp.b)

/-! ## Ports (R259, R260) -/

/-- The transfers that an end of a port's binding ends. -/
def Xfer.ofPort (w : Who) (q : Nat) (x : Xfer) : Bool := x.port == q && x.who.core == w.core && x.who.ctx == w.ctx

/-- Ends one accepted stream at once (step 2 of R259): it completes without a fault. none: its object's line is held by the host. -/
def State.endStream (s : State) (id : Nat) : Option State :=
  match s.xfers.find? fun x => x.id == id with
  | none => some s
  | some x => (State.dropHeld { s with peerReqs := s.peerReqs.filter fun r => match r.xfer with | some q => q.1 != id | none => true } fun b => b == .xfer id).finishXfer { x with port := 0, fault := none, heldPg := [], moves := [], done := 0 }

/-- QFREE of port q (R259, R306), and then what follows it; it stalls where it must wait, with the requests out that it needs (R358). -/
def State.unbind (s : State) (q : Nat) (f : State → Out) : Out :=
  let mine := s.xfers.filter (Xfer.ofPort s.cur q)
  if mine.any fun x => !x.accepted then stall s
  else
    let walk := fun (k : Walk) => k.port == q && k.who.core == s.cur.core && k.who.ctx == s.cur.ctx
    let gone := (s.walks.filter walk).map (·.id)
    let t := State.dropHeld { s with walks := s.walks.filter fun k => !walk k } fun b => match b with | .walk k => gone.contains k | _ => false
    let t := mine.foldl (fun s x => s.setXfer { x with deadline := s.due x, since := 0 }) t
    let t := t.modTenant s.cur.core s.cur.ctx fun u => u.setPort q .reset
    match (mine.map (·.id)).foldl (fun r id => r.bind fun s => s.endStream id) (some t) with
    | none => stall s
    | some t =>
      if t.xfers.any (Xfer.ofPort s.cur q) then stall { s with peerReqs := s.peerReqs ++ t.peerReqs.filter fun r => !s.peerReqs.contains r }
      else f t

/-- The port that a binding makes (R259). -/
def bindPort (kind peer bandsz : Nat) : Port :=
  let who := bits peer 0 12
  let q := bits peer 16 3
  if kind = 4 ∨ kind = 5 then
    if bandsz ≤ who ∨ q < 2 then .reset
    else { kind := kind, peer := who, peerPort := q, buf := [], stage := [], tasks := [], credits := if kind = 5 then 8 else 0 }
  else if 1 ≤ kind ∧ kind ≤ 3 then { kind := kind, peer := 0, peerPort := 0, buf := [], stage := [], tasks := [], credits := 0 }
  else .reset

/-- QBIND (R259). -/
def execQbind (rd rs1 rs2 : Nat) (s : State) : Out :=
  useX s [rs1, rs2] <| normalOnly s <|
    s.unbind (rd - 24) fun s1 =>
      let p := bindPort (bits (s.x rs1).toNat 0 3) (s.x rs2).toNat s.tn.bandsz
      .next (State.retire (s1.modTenant s.cur.core s.cur.ctx fun t => t.setPort (rd - 24) p))

/-- QFREE (R259). -/
def execQfree (rd : Nat) (s : State) : Out :=
  normalOnly s <| s.unbind (rd - 24) fun s1 => .next s1.retire

/-- The port q of a core is bound to port `pq` of core `peer` with a kind. -/
def State.bound (s : State) (core ctx q kind peer pq : Nat) : Bool :=
  let t := s.tenant core ctx
  let p := t.port q
  p.kind == kind && t.ctab.getD p.peer 4096 == peer && p.peerPort == pq

/-- An element reaches the input port of its peer (R260); one that finds no such binding is lost, and its credit returns. -/
def State.evElement (s : State) (k : Nat) : Option State :=
  match s.nelems[k]? with
  | none => none
  | some e =>
    let before := (s.nelems.take k).any fun f => f.fromCore == e.fromCore && f.fromQ == e.fromQ && f.ctx == e.ctx
    let p := (s.tenant e.core e.ctx).port e.q
    if before ∨ s.away e.core e.ctx then none
    else
      let s1 := { s with nelems := s.nelems.eraseIdx k }
      if s.bound e.core e.ctx e.q 4 e.fromCore e.fromQ then
        if 8 ≤ p.buf.length then none
        else some (s1.modTenant e.core e.ctx fun t => t.setPort e.q { p with buf := p.buf ++ [e.v] })
      else some { s1 with ncredits := s1.ncredits ++ [{ core := e.fromCore, ctx := e.ctx, q := e.fromQ, fromCore := e.core, fromQ := e.q, v := 0 }] }

/-- NEIGHBOUR_ELEMENT_ARRIVE (R260): the element at place a of those under way. -/
def execNeighbourElementArrive (s : State) : Out := happens s (s.evElement s.inp.a)

/-- A credit returns to the output port it came from (R260); it goes to nobody where that port is bound otherwise (R259). -/
def State.evCredit (s : State) (k : Nat) : Option State :=
  match s.ncredits[k]? with
  | none => none
  | some e =>
    let p := (s.tenant e.core e.ctx).port e.q
    if s.away e.core e.ctx then none
    else
      let s1 := { s with ncredits := s.ncredits.eraseIdx k }
      if s.bound e.core e.ctx e.q 5 e.fromCore e.fromQ then
        some (s1.modTenant e.core e.ctx fun t => t.setPort e.q { p with credits := min (p.credits + 1) 8 })
      else some s1

/-- NEIGHBOUR_CREDIT_RETURN (R260): the credit at place a of those under way. -/
def execNeighbourCreditReturn (s : State) : Out := happens s (s.evCredit s.inp.a)

/-! ## Completion objects (R263–R265) -/

/-- CINIT (R263). -/
def execCinit (rs1 rs2 : Nat) (s : State) : Out :=
  useX s [rs1, rs2] <| orderly s <|
    let va := (s.x rs1).toNat
    let v := (s.x rs2).toNat
    let o : CObj := { fcode := 0, fcount := 0, fault := false, mode := bits v 20 2, pt := 0, exp := bits v 0 20, pa := bits v 0 20, phase := 0 }
    aligned s va 16 <| notSpec s va <|
      if 2 ≤ o.mode ∨ (o.mode = 1 ∧ o.exp = 0) then trapNow s 0x37 (BitVec.ofNat 64 v) 0
      else access s va 16 16 aAtomic true <|
        if s.rc.full (.cinit o.toGran) then stall s else .next (s.issue (mkOp (.cinit o.toGran) va 16 o.toGran 0 .none false false))

/-- CARRIVE (R264). -/
def execCarrive (rs1 : Nat) (s : State) : Out :=
  useX s [rs1] <| orderly s <|
    let va := (s.x rs1).toNat
    aligned s va 16 <| notSpec s va <| access s va 16 16 aAtomic true <|
      if s.rc.full .carrive then stall s else .next (s.issue (mkOp .carrive va 16 0 0 .none false false))

/-- CEXPECT (R264). -/
def execCexpect (rs1 rs2 : Nat) (s : State) : Out :=
  useX s [rs1, rs2] <| orderly s <|
    let va := (s.x rs1).toNat
    aligned s va 16 <| notSpec s va <| access s va 16 16 aAtomic true <|
      if s.rc.full (.cexpect (s.x rs2)) then stall s else .next (s.issue (mkOp (.cexpect (s.x rs2)) va 16 0 0 .none false false))

/-- CWATCH (R265). -/
def execCwatch (rs1 rs2 : Nat) (s : State) : Out :=
  useX s [rs1, rs2] <| orderly s <|
    let va := (s.x rs1).toNat
    aligned s va 16 <| notSpec s va <|
      if 32 ≤ s.tn.cwPend then trapNow s 0x8B (s.x rs1) 0
      else access s va 16 16 aAtomic false <|
        let n := bits (s.x rs2).toNat 0 6
        let c := Chan.at s.tn n
        let s1 := s.modTenant s.cur.core s.cur.ctx fun t => { t with cwPend := t.cwPend + 1 }
        .next (s1.issue (mkOp (.cwatch n c.gen c.urg) va 16 0 0 .none false false))

/-! ## Beds (R188, R267) -/

/-- BEDSET (R267). It takes its place among the commands of the cluster: it waits for the decision on the context's transfers that were issued
before it, which sample the registers when they are accepted (R189), unless no decision will come (DESIGN CHOICE, log 51). -/
def execBedset (rs1 rs2 : Nat) (s : State) : Out :=
  useX s [rs1, rs2] <|
    if s.rc.spec then trapNow s 0x85 0 0
    else
      let v := (s.x rs2).toNat
      let k := bedKey s.tn.partid (s.cur.core / 16) s.cur.ctx (bits (s.x rs1).toNat 0 4)
      if 8 < bits v 0 4 then .next s.retire
      else if !s.thermal && s.xfers.any fun x => !x.accepted && x.part == s.tn.partid && x.who.ctx == s.cur.ctx && x.who.core / 16 == s.cur.core / 16 then stall s
      else .next (State.retire { s with beds := Tbl.put Bed.reset s.beds k { scale := BitVec.ofNat 32 (bits v 32 32), fmt := bits v 0 4 } })

/-! ## SL_HUNG (R321) -/

/-- The next cluster of the same die, in ascending cluster number with wrap. -/
def nextCluster (c : Nat) : Nat :=
  let d := dieOf (c * 16)
  let n := (clusterOf (c * 16) + 1) % 32
  ((List.range 256).find? fun k => dieOf (k * 16) == d && clusterOf (k * 16) == n).getD c

/-- One transfer's record is taken over by another Sluice. -/
def State.takeOver (s : State) (x : Xfer) : State :=
  let c := nextCluster x.cluster
  s.setXfer { x with cluster := c, recno := (s.freeRecord c).getD x.recno, takeovers := x.takeovers + 1 }

/-- The Sluice of cluster c is hung: it holds accepted work, none of it held on fault service. -/
def State.evSlHung (s : State) (c : Nat) : Option State :=
  let mine := s.xfers.filter fun x => x.cluster == c && x.accepted
  if mine.isEmpty ∨ mine.any Xfer.held then none
  else some ((mine.foldl State.takeOver s).hung 0x60 1 (mine.map (·.part)))

/-- SL_HUNG (R321): cluster a. -/
def execSlHung (s : State) : Out := happens s (s.evSlHung s.inp.a)

end Sys2Proof.Machine
end

