-- ==== Sys2Proof/Machine/Matrix.lean ====
section
/-! DEFINITION. The matrix unit (R269–R293): tiles, operand descriptors, MCFG, MZERO, MMUL, MLDS, MSTC, MWAIT, MCMD, the k-steps, preloads,
faults, commands received. -/

namespace Sys2Proof.Machine

/-! ## Tiles (R271) -/

def MxUnit.count (m : MxUnit) : Nat := 2 ^ m.cfg
def MxUnit.tile (m : MxUnit) (t : Nat) : Tile := Tbl.get Tile.reset m.tiles t
def MxUnit.setTile (m : MxUnit) (t : Nat) (v : Tile) : MxUnit := { m with tiles := Tbl.put Tile.reset m.tiles t v }
def MxUnit.tileBusy (m : MxUnit) (t : Nat) : Bool := m.queue.any fun j => j.tile == t
def State.modMx (s : State) (core ctx : Nat) (f : MxUnit → MxUnit) : State := s.modTenant core ctx fun t => { t with mx := f t.mx }

/-- The terms of a k-step for a format (R273). -/
def termsOf (fmt : Nat) : Nat := match fmt with | 0 => 32 | 8 => 32 | 6 => 8 | _ => 16
/-- The kind of a product, for the pairs of R185. -/
def kindOf (a b : Nat) : Option Nat :=
  if a = 0 ∧ b = 0 then some 0
  else if (a = 4 ∨ a = 5) ∧ (b = 4 ∨ b = 5) then some 1
  else if a = 6 ∧ b = 6 then some 1
  else if a = 8 ∧ b = 8 then some 2
  else none
def slotBytes (kind : Nat) : Nat := if kind = 2 then 8 else 4

/-- The tile accepts an MMUL of this shape, kind and scales (step 9 of R276). -/
def MxUnit.tileOk (u : MxUnit) (t m n kind : Nat) (sA sB : BitVec 32) : Bool :=
  let x := u.tile t
  (x.shape.isNone || (x.shape == some (m, n) && x.kind == kind && x.sA == sA && x.sB == sB))
    && decide (m * n * slotBytes kind * u.count ≤ 131072)

/-- The first MMUL on a tile that has no shape sets its shape, kind and scales. -/
def MxUnit.claimTile (u : MxUnit) (t m n kind : Nat) (sA sB : BitVec 32) : MxUnit :=
  let x := u.tile t
  if x.shape.isSome then u else u.setTile t { x with shape := some (m, n), kind := kind, sA := sA, sB := sB }

/-! ## Waiting (R287) -/

/-- A matrix instruction waits at issue; while HELD = 1 it suspends its handler instead. -/
def waitMx (s : State) (ready : Bool) (body : Out) : Out :=
  if ready then body
  else if s.tn.mx.held then .next (s.suspendFault s.cur .matrix s.rc.pc s.rc.pc [] 0)
  else stall s

/-! ## Operand descriptors (R273) -/

/-- A descriptor: its fields, and the address it was read from. -/
structure Desc where
  at_ : Nat
  tsr : Nat
  orgr : Nat
  orgc : Nat
  ksteps : Nat
  flags : Nat
  pnc : Nat
  rsv : Nat
  spix : Nat
  deriving DecidableEq, Repr

def Desc.ofBytes (a : Nat) (bs : List Byte) : Desc :=
  { at_ := a, tsr := leAt bs 0 8, orgr := leAt bs 8 4, orgc := leAt bs 12 4, ksteps := leAt bs 16 4, flags := leAt bs 20 2, pnc := leAt bs 22 1,
    rsv := leAt bs 23 1, spix := leAt bs 24 8 }
def Desc.sparse (d : Desc) : Bool := bits d.flags 0 1 == 1
def Desc.ncode (d : Desc) : Nat := bits d.pnc 0 6

/-- Step 5 of R276. -/
def Desc.ok (d : Desc) : Bool :=
  bits d.flags 1 15 == 0 && bits d.pnc 6 2 == 0 && d.rsv == 0 && (if d.sparse then d.spix % 4 == 0 else d.spix == 0)

/-- Step 4 of R276: a descriptor in own TCM. -/
def State.readDesc (s : State) (w : Who) (a : Nat) : Acc Desc :=
  (Acc.guard s (decide (a % 32 = 0)) 0x20 a).bind fun s _ =>
  (Acc.guard s (decide (a + 32 ≤ 0x40000)) 0x6B a).bind fun s _ =>
  (s.readTcm w a 32).bind fun s bs => .ok s (Desc.ofBytes a bs)

/-- Step 7 of R276: the operand of a descriptor, as its TSR and bed now stand. -/
def State.operandOf (s : State) (w : Who) (d : Desc) : Acc MOperand :=
  (s.tensor w d.tsr).bind fun s o =>
  (Acc.guard s (o.tsr.rank == (if d.sparse then 1 else 2)) 0x6B d.at_).bind fun s _ =>
    .ok s { tsrAt := d.tsr, op := o, orgr := d.orgr, orgc := d.orgc, ksteps := d.ksteps, sparse := d.sparse, spix := d.spix }

/-- A box of rows and columns of an operand from its origin (R274). -/
def MOperand.box (m : MOperand) (rows cols : Nat) : Box :=
  [{ lo := m.orgr, hi := m.orgr + rows - 1, step := 1 }, { lo := m.orgc, hi := m.orgc + cols - 1, step := 1 }]

/-- The elements of a dense operand, as (address, size). -/
def MOperand.cells (m : MOperand) (rows cols : Nat) : List (Nat × Nat) :=
  (boxCells (m.box rows cols)).filterMap fun c => (m.op.tsr.addr c).map fun a => (a, elemBytes m.op.fmt)

/-- An operand's RIGHTS allow it to be read (step 10). -/
def MOperand.readable (m : MOperand) : Bool := bits m.op.tsr.rights 0 1 == 1
/-- Every element of a dense operand lies in its tensor (step 11). -/
def MOperand.inside (m : MOperand) (rows cols : Nat) : Bool := m.sparse || inDomain m.op [m.box rows cols]

/-- Step 12 for one operand. -/
def State.grantCheck (s : State) (w : Who) (m : MOperand) (rows cols : Nat) : Acc Unit :=
  if m.sparse then .ok s ()
  else (s.grantOf w m.op).bind fun s g => Acc.guard s (grantOk 2 [m.box rows cols] g) 0x34 m.op.tsr.base

/-- Steps 10–13 of R276 for a list of operands, each with its rows and columns. -/
def State.operandChecks (s : State) (w : Who) (l : List (MOperand × Nat × Nat)) : Acc Unit :=
  let each := fun (s : State) (f : State → MOperand × Nat × Nat → Acc Unit) =>
    l.foldl (fun (r : Acc Unit) x => r.bind fun s _ => f s x) (Acc.ok s ())
  (each s fun s x => Acc.guard s x.1.readable 0x33 x.1.op.tsr.base).bind fun s _ =>
  (each s fun s x => Acc.guard s (x.1.inside x.2.1 x.2.2) 0x35 x.1.op.tsr.base).bind fun s _ =>
  (each s fun s x => s.grantCheck w x.1 x.2.1 x.2.2).bind fun s _ =>
  each s fun s x => Acc.guard s (x.1.sparse || s.layoutOk w x.1.op (x.1.cells x.2.1 x.2.2)) 0x25 x.1.op.tsr.base

/-- Steps 6–13 of R276 on two operands. -/
def State.pairChecks (s : State) (w : Who) (tile m n : Nat) (da db : Desc) : Acc (MOperand × MOperand) :=
  (Acc.guard s (decide (1 ≤ da.ksteps) && decide (da.ksteps ≤ 65535) && (db.ksteps == 0 || db.ksteps == da.ksteps)) 0x6A da.ksteps).bind fun s _ =>
  (s.operandOf w da).bind fun s a => (s.operandOf w db).bind fun s b =>
  match kindOf a.op.fmt b.op.fmt with
  | none => .fault s 0x6C da.at_ 1
  | some kind =>
    (Acc.guard s ((s.tenant w.core w.ctx).mx.tileOk tile m n kind a.op.scale b.op.scale) 0x6D tile).bind fun s _ =>
    let k := da.ksteps * termsOf a.op.fmt
    (s.operandChecks w [(a, m, k), (b, k, n)]).bind fun s _ => .ok s (a, b)

/-! ## MCFG, MZERO, MWAIT -/

/-- An MCFG of a core waits at issue: the commands it receives stay in the receive buffer (R272). -/
def State.setAtCfg (s : State) (v : Bool) : State := s.modMx s.cur.core s.cur.ctx fun m => { m with atCfg := v }

/-- MCFG (R272). -/
def execMcfg (rs1 : Nat) (s : State) : Out :=
  feature (.mcfg rs1) [5] s <| useX s [rs1] <| normalOnly s <|
    if s.rc.spec then trapNow s 0x85 0 0
    else raiseDeferred s <|
      let c := bits (s.x rs1).toNat 0 2
      if c = 3 then trapNow s 0x6D (s.x rs1) 0
      else
        let m := s.tn.mx
        let ready := m.queue.isEmpty && !(m.pre.any (·.claimed))
        waitMx (s.setAtCfg (!ready && !m.held)) ready <|
          .next (State.retire (s.modMx s.cur.core s.cur.ctx fun m => { m with cfg := c, tiles := [], pre := none, atCfg := false }))

/-- MZERO (R283). -/
def execMzero (tile : Nat) (s : State) : Out :=
  feature (.mzero tile) [5] s <| normalOnly s <| raiseDeferred s <|
    if s.tn.mx.count ≤ tile then trapNow s 0x6D (BitVec.ofNat 64 tile) 0
    else waitMx s (!s.tn.mx.tileBusy tile) <|
      .next (State.retire (s.modMx s.cur.core s.cur.ctx fun m => m.setTile tile .reset))

/-- A write of an MSTC to a peer module is still out, or held there (R358): a store of no instruction, and of no task. -/
def State.mxAway (s : State) : Bool := (s.opsOf s.cur).any fun o => o.k == .store && o.pc == 0 && o.task.isNone

/-- MWAIT (R285). -/
def execMwait (s : State) : Out :=
  feature .mwait [5] s <| normalOnly s <|
    waitMx s (s.tn.mx.queue.isEmpty && s.tn.mx.recv.isEmpty && s.tn.mx.stores.isEmpty && !s.mxAway) <| raiseDeferred s <| .next s.retire

/-! ## MMUL and MLDS -/

/-- M of a code (R54). -/
def mOf (mcode : Nat) : Nat := 8 * 2 ^ mcode

/-- What becomes of the preload when an INNER MMUL is issued (R282): the unit after it, and whether the MMUL takes its first k-step from
the preload. -/
def MxUnit.claim (u : MxUnit) (mode addr ncode : Nat) (b : MOperand) : MxUnit × Bool :=
  match u.pre with
  | none => (u, false)
  | some p =>
    if mode ≠ 0 ∨ p.claimed then (u, false)
    else if p.addr = addr ∧ p.ncode = ncode ∧ p.b = b ∧ !p.failed then ({ u with pre := some { p with claimed := true } }, true)
    else ({ u with pre := none }, false)

/-- MMUL (R276). It takes its place in the queue at issue, and its work waits for what its acceptance must follow (R158, log 18). -/
def execMmul (rsB rsA ctile mode mcode ncode : Nat) (s : State) : Out :=
  feature (.mmul rsB rsA ctile mode mcode ncode) [5] s <| useX s [rsA, rsB] <| normalOnly s <| orderly s <| raiseDeferred s <|
    let m := mOf mcode
    let n := 16 * (ncode + 1)
    if s.tn.mx.count ≤ ctile then trapNow s 0x6D (BitVec.ofNat 64 ctile) 0
    else
      let xa := (s.x rsA).toNat
      let xb := (s.x rsB).toNat
      ((Acc.guard s (decide (xa % 32 = 0)) 0x20 xa).bind fun s _ => (Acc.guard s (decide (xb % 32 = 0)) 0x20 xb).bind fun s _ =>
        (s.readDesc s.cur xa).bind fun s da => (s.readDesc s.cur xb).bind fun s db =>
        (Acc.guard s da.ok 0x6B xa).bind fun s _ => (Acc.guard s db.ok 0x6B xb).bind fun s _ =>
        s.pairChecks s.cur ctile m n da db).then s fun s ab =>
          if 3 ≤ s.tn.mx.queue.length then waitMx s false (stall s)
          else
            let u := s.tn.mx.claimTile ctile m n ((kindOf ab.1.op.fmt ab.2.op.fmt).getD 0) ab.1.op.scale ab.2.op.scale
            let c := u.claim mode xb ncode ab.2
            let j : MJob := { tile := ctile, mode := mode, m := m, n := n, a := ab.1, b := ab.2, k := 0, src := none, word0 := 0, pre := c.2,
                              held := false, pc := s.rc.pc, seq := s.rc.seq }
            .next (State.retire (s.modMx s.cur.core s.cur.ctx fun _ => { c.1 with queue := c.1.queue ++ [j] }))

/-- MLDS (R281). Its reads wait for what its acceptance must follow (R158, log 18). -/
def execMlds (rs1 : Nat) (s : State) : Out :=
  feature (.mlds rs1) [5] s <| useX s [rs1] <| normalOnly s <| orderly s <| raiseDeferred s <|
    let xb := (s.x rs1).toNat
    ((s.readDesc s.cur xb).bind fun s d => (Acc.guard s d.ok 0x6B xb).bind fun s _ =>
      (s.operandOf s.cur d).bind fun s b =>
      (Acc.guard s (b.op.fmt == 0 || b.op.fmt == 4 || b.op.fmt == 5 || b.op.fmt == 6 || b.op.fmt == 8) 0x6C xb).bind fun s _ =>
      (s.operandChecks s.cur [(b, termsOf b.op.fmt, 16 * (d.ncode + 1))]).bind fun s _ => .ok s (d, b)).then s fun s db =>
        waitMx s (!(s.tn.mx.pre.any (·.claimed))) <|
          let p : Preload := { addr := xb, ncode := db.1.ncode, b := db.2, cells := none, failed := false, claimed := false, pc := s.rc.pc,
                                seq := s.rc.seq }
          .next (State.retire (s.modMx s.cur.core s.cur.ctx fun m => { m with pre := some p }))

/-! ## Operand fetches (R275, R277, R287) -/

/-- What a fetch gave: elements, present or absent, and the granules read. -/
structure Fetch where
  v : List (Option Nat)
  rd : List Nat
  deriving DecidableEq, Repr

/-- Counts the granules that the unit read, each once (R348); quotas charge core accesses and transfers only (R343). -/
def State.countReads (s : State) (w : Who) (gs : List Nat) : State :=
  (distinct gs).foldl (fun s g => s.suAt (s.tenant w.core w.ctx).partid w.ctx (g * 16) 16 false) s

/-- The bytes that fetches for the MMUL, or for the preload, have returned. -/
def MxUnit.kept (u : MxUnit) (by_ : AskedBy) : List (Nat × Byte) :=
  match by_ with
  | .mmul => u.fetched
  | _ => (u.pre.map (·.got)).getD []

/-- Bytes that a fetch has returned are kept for its k-step, or for the preload. -/
def State.mxKeep (s : State) (w : Who) (by_ : AskedBy) (va : Nat) (bs : List Byte) : State :=
  s.modMx w.core w.ctx fun u => match by_ with
    | .mmul => { u with fetched := u.fetched ++ byAddr va bs }
    | _ => { u with pre := u.pre.map fun p => { p with got := p.got ++ byAddr va bs } }

/-- The number by which a request for the preload is known. -/
def MxUnit.askNo (u : MxUnit) (by_ : AskedBy) : Nat :=
  match by_ with
  | .mmul => 0
  | _ => (u.pre.map (·.seq)).getD 0

/-- A fetch at a peer module is out (R358). -/
def State.mxAsked (s : State) (w : Who) (by_ : AskedBy) (va : Nat) : Bool :=
  s.peerReqs.any fun r => r.by_ == by_ && r.who == w && r.va == va && r.seq == (s.tenant w.core w.ctx).mx.askNo by_

/-- A fetch leaves for a peer module (R358, R359). -/
def State.mxAsk (s : State) (w : Who) (by_ : AskedBy) (home va n : Nat) : State :=
  let t := s.tenant w.core w.ctx
  { s with peerReqs := s.peerReqs ++ [{ port := peerPort home, rpart := s.rpart (peerPort home) t.partid, ipa := home % 2 ^ 52, k := .load, data := 0,
                                        xfer := none, who := w, seq := t.mx.askNo by_, va := va, n := n, issued := s.time, by_ := by_ }] }

/-- What fetches of the MMUL's k-step have returned is given up, and what is still out for it is nobody's (R287, R288). -/
def State.unfetch (s : State) (core ctx : Nat) : State :=
  let s := s.modMx core ctx fun u => { u with fetched := [] }
  { s with peerReqs := s.peerReqs.map fun r => if r.by_ == .mmul && r.who.core == core && r.who.ctx == ctx then { r with by_ := .nobody } else r }

/-- Reads the bytes of some parts as a relaxed engine read (R138); a peer module is asked, and what has been returned before is used as it is. With the
granules read. -/
def State.mxRead (s : State) (w : Who) (by_ : AskedBy) : List (Nat × Nat) → Acc (List Byte × List Nat)
  | [] => .ok s ([], [])
  | (va, n) :: t =>
    let kept := (s.tenant w.core w.ctx).mx.kept by_
    match keptBytes kept va n with
    | some bs => (s.mxRead w by_ t).bind fun s q => .ok s (bs ++ q.1, q.2)
    | none =>
      let l := s.locate w va 1 false
      match l.res with
      | .wait => .stall
      | .asked => .again l.s
      | .error k => .fault l.s (0x58 + k) va n
      | .ok sp =>
        if s.heldLine sp.home then .stall
        else if l.s.poisoned sp.home n then .fault l.s (poisonCause sp.home 3) va n
        else if space sp.home = .peer then (if s.mxAsked w by_ va then .stall else .again (l.s.mxAsk w by_ sp.home va n))
        else
          let r := l.s.readAt sp n
          let gs := if kept.any fun q => q.1 / 16 == va / 16 then [] else granules sp.home n
          (r.1.mxRead w by_ t).bind fun s q => .ok s (r.2 ++ q.1, gs ++ q.2)

/-- Reads elements at some addresses, absent where there is none. -/
def State.mxElems (s : State) (w : Who) (by_ : AskedBy) (n : Nat) : List (Option Nat) → Acc Fetch
  | [] => .ok s { v := [], rd := [] }
  | none :: t => (s.mxElems w by_ n t).bind fun s f => .ok s { f with v := none :: f.v }
  | some a :: t => (s.mxRead w by_ (splitParts a n)).bind fun s r => (s.mxElems w by_ n t).bind fun s f =>
      .ok s { v := some (leNat r.1) :: f.v, rd := r.2 ++ f.rd }

/-- Words of an index block, from word i on. -/
def State.mxWords (s : State) (w : Who) (by_ : AskedBy) (spix i n : Nat) : Acc (List Nat × List Nat) :=
  (s.mxElems w by_ 4 ((List.range n).map fun j => some (spix + 4 * (i + j)))).bind fun s f => .ok s (f.v.map (·.getD 0), f.rd)

/-- Strictly ascending. -/
def ascending : List Nat → Bool
  | a :: b :: t => decide (a < b) && ascending (b :: t)
  | _ => true

/-- Elements (r, c0), …, (r, c0 + n − 1) of a compressed operand, counted from its origin (R275). -/
def State.sparseRow (s : State) (w : Who) (by_ : AskedBy) (m : MOperand) (r c0 n : Nat) : Acc Fetch :=
  let row := m.orgr + r
  (s.mxWords w by_ m.spix 0 2).bind fun s h =>
    let nrows := h.1.getD 0 0
    if nrows ≤ row then .ok s { v := List.replicate n none, rd := h.2 }
    else (s.mxWords w by_ m.spix (2 + row) 2).bind fun s p =>
      let a := p.1.getD 0 0
      let b := p.1.getD 1 0
      if (row = 0 ∧ a ≠ 0) ∨ b < a ∨ (row + 1 = nrows ∧ b ≠ h.1.getD 1 0) then .fault s 0x6E 0 1
      else (s.mxWords w by_ m.spix (nrows + 3 + a) (b - a)).bind fun s cs =>
        if !ascending cs.1 then .fault s 0x6E 0 1
        else
          let lo := m.orgc + c0
          let used := (cs.1.zipIdx).filter fun c => decide (lo ≤ c.1) && decide (c.1 < lo + n)
          if used.any fun c => (m.op.tsr.addr [a + c.2]).isNone then .fault s 0x35 0 1
          else (s.mxElems w by_ (elemBytes m.op.fmt) ((List.range n).map fun j =>
                (used.find? fun c => c.1 == lo + j).bind fun c => m.op.tsr.addr [a + c.2])).bind fun s f =>
            .ok s { f with rd := h.2 ++ p.2 ++ cs.2 ++ f.rd }

/-- A row of an operand from its origin: elements (r, c0), …, (r, c0 + n − 1). -/
def State.mxRow (s : State) (w : Who) (by_ : AskedBy) (m : MOperand) (r c0 n : Nat) : Acc Fetch :=
  if m.sparse then s.sparseRow w by_ m r c0 n
  else s.mxElems w by_ (elemBytes m.op.fmt) ((List.range n).map fun j => m.op.tsr.addr [m.orgr + r, m.orgc + c0 + j])

/-- Several rows of n elements, each from its (row, first column). -/
def State.mxRows (s : State) (w : Who) (by_ : AskedBy) (m : MOperand) (n : Nat) : List (Nat × Nat) → Acc (List (List (Option Nat)) × List Nat)
  | [] => .ok s ([], [])
  | (r, c) :: t => (s.mxRow w by_ m r c n).bind fun s f => (s.mxRows w by_ m n t).bind fun s q => .ok s (f.v :: q.1, f.rd ++ q.2)

/-- The rows of B of k-step j: the row and the first column of each. -/
def rowsOfB (b : MOperand) (j : Nat) : List (Nat × Nat) := (List.range (termsOf b.op.fmt)).map fun i => (j * termsOf b.op.fmt + i, 0)
/-- The rows of A of the next k-step of an MMUL. -/
def MJob.rowsOfA (j : MJob) : List (Nat × Nat) := (List.range j.m).map fun i => (i, j.k * termsOf j.a.op.fmt)

/-- The rows of B of k-step j. -/
def State.mxB (s : State) (w : Who) (by_ : AskedBy) (b : MOperand) (n j : Nat) : Acc (List (List (Option Nat)) × List Nat) := s.mxRows w by_ b n (rowsOfB b j)

/-- The parts that a row of an operand is read from, as far as what has been returned says: of a compressed one, each word after those that
lead to it (R275). -/
def MOperand.rowParts (m : MOperand) (k : List (Nat × Byte)) (n : Nat) (rc : Nat × Nat) : List (Nat × Nat) :=
  let size := elemBytes m.op.fmt
  let elem := fun (c : List Nat) => match m.op.tsr.addr c with | some a => splitParts a size | none => []
  if !m.sparse then (List.range n).flatMap fun j => elem [m.orgr + rc.1, m.orgc + rc.2 + j]
  else
    let row := m.orgr + rc.1
    let word := fun (i : Nat) => (m.spix + 4 * i, 4)
    let val := fun (i : Nat) => (keptBytes k (m.spix + 4 * i) 4).map leNat
    [word 0, word 1] ++ match val 0 with
      | none => []
      | some nrows =>
        if nrows ≤ row then []
        else [word (2 + row), word (3 + row)] ++ match val (2 + row), val (3 + row) with
          | some a, some b => (List.range (b - a)).flatMap fun e =>
              word (nrows + 3 + a + e) :: match val (nrows + 3 + a + e) with
                | some c => if m.orgc + rc.2 ≤ c ∧ c < m.orgc + rc.2 + n then elem [a + e] else []
                | none => []
          | _, _ => []

/-- The parts that the next k-step of an MMUL is read from (R277). -/
def MxUnit.stepParts (u : MxUnit) (j : MJob) : List (Nat × Nat) :=
  j.rowsOfA.flatMap (j.a.rowParts u.fetched (termsOf j.a.op.fmt))
    ++ if j.pre && j.k == 0 && u.pre.any (!·.failed) then [] else (rowsOfB j.b j.k).flatMap (j.b.rowParts u.fetched j.n)

/-- The parts that the preload is read from (R281). -/
def Preload.parts (p : Preload) : List (Nat × Nat) := (rowsOfB p.b 0).flatMap (p.b.rowParts p.got (16 * (p.ncode + 1)))

/-- The d-th of some parts that have not been read is read by itself, at an instant of its own (R156); a peer module is asked. -/
def State.mxEarly (s : State) (w : Who) (by_ : AskedBy) (l : List (Nat × Nat)) (d : Nat) : Option State :=
  match (l.filter fun (p : Nat × Nat) => (keptBytes ((s.tenant w.core w.ctx).mx.kept by_) p.1 p.2).isNone)[d]? with
  | none => none
  | some p => match s.mxRead w by_ [p] with
    | .ok s r => some ((s.countReads w r.2).mxKeep w by_ p.1 r.1)
    | .again s => some s
    | _ => none

/-- Cuts a list into rows of n. -/
def rowsOf (n : Nat) : Nat → List (Option Word) → List (List (Option Nat))
  | 0, _ => []
  | k + 1, l => (l.take n).map (·.map (·.toNat)) :: rowsOf n k (l.drop n)

/-- The operands of the next k-step of an MMUL; none: its preload is still being read. -/
def State.mxFetch (s : State) (w : Who) (j : MJob) : Acc (Option (List (List (Option Nat)) × List (List (Option Nat)) × List Nat)) :=
  let k := termsOf j.a.op.fmt
  let fetch := fun (s : State) => (s.mxRows w .mmul j.a k j.rowsOfA).bind fun s a =>
    (s.mxB w .mmul j.b j.n j.k).bind fun s b => Acc.ok s (some (a.1, b.1, a.2 ++ b.2))
  match if j.pre && j.k == 0 then (s.tenant w.core w.ctx).mx.pre else none with
  | none => fetch s
  | some p =>
    if p.failed then fetch s
    else match p.cells with
      | none => .ok s none
      | some c => (s.mxRows w .mmul j.a k j.rowsOfA).bind fun s a => .ok s (some (a.1, rowsOf j.n k c, a.2))

/-! ## The k-step (R186, R187, R277) -/

/-- One LNS6 product, in units of 2^-20 (R187). -/
def lnsProd (a b : Nat) : Int :=
  match lnsLog a, lnsLog b with
  | some x, some y =>
    let l := x + y
    let p : Int := lnsT (l % 4).toNat * 2 ^ (l / 4 + 8).toNat
    if lnsNeg a != lnsNeg b then -p else p
  | _, _ => 0

/-- step(acc, T) of R277. -/
def accStep (kind fa fb acc : Nat) (ts : List (Nat × Nat)) : Nat :=
  match kind with
  | 0 => ((ts.foldl (fun (n : Int) (x : Nat × Nat) => n + sextI x.1 8 * sextI x.2 8) (acc : Int)) % 2 ^ 32).toNat
  | 1 => (fp32.sum 0 ((fp32.get acc).term :: ts.map fun t => ((ffmt fa).get t.1).times ((ffmt fb).get t.2))).v
  | _ => (sext64 ((ts.foldl (fun (n : Int) (x : Nat × Nat) => n + lnsProd x.1 x.2) (acc : Int)) % 2 ^ 48).toNat 48).toNat

/-- The present pairs of a row of A and a column of B. -/
def presentPairs (a : List (Option Nat)) (b : List (List (Option Nat))) (n : Nat) : List (Nat × Nat) :=
  (a.zip b).filterMap fun x => match x.1, x.2.getD n none with
    | some u, some v => some (u, v)
    | _, _ => none

/-- A k-step applied to every slot of a tile. -/
def Tile.step (t : Tile) (fa fb m n : Nat) (a b : List (List (Option Nat))) : Tile :=
  ((List.range m).flatMap fun i => (List.range n).map fun c => (i, c)).foldl (fun (t : Tile) x =>
    let ts := presentPairs (a.getD x.1 []) b x.2
    if ts.isEmpty then t
    else
      let i := x.1 * n + x.2
      { t with slot := Tbl.put 0 t.slot i (BitVec.ofNat 64 (accStep t.kind fa fb (Tbl.get 0 t.slot i).toNat ts)), pres := Tbl.put false t.pres i true }) t

/-- The oldest MMUL leaves the queue, with the preload that it claimed. -/
def MxUnit.pop (u : MxUnit) : MxUnit :=
  match u.queue with
  | [] => u
  | j :: t => { u with queue := t, pre := if j.pre && j.k == 0 then none else u.pre }

/-- INFO and the extra slot: the tile and the completed k-steps (R288). -/
def tileInfo (tile k : Nat) : Nat := tile % 4 + k % 65536 * 65536

/-- A record of the unit about an MMUL: the tile and the completed k-steps stand in INFO (R287–R289). -/
def State.mxRec (s : State) (core ctx : Nat) (j : MJob) (fn cause va : Nat) : FRec :=
  let t := s.tenant core ctx
  { fn := fn, fid := 0, cause := cause, source := 2, ctx := ctx, rc := 0, resumable := false, addr := va, pc := j.pc, lcore := t.lcore,
    part := t.partid, info := tileInfo j.tile j.k }

/-- The oldest MMUL ends with a fault (R288): deferred, or posted where one is pending; of a remote command, sent to its sender. -/
def State.mxFail (s : State) (core ctx : Nat) (j : MJob) (cause addr : Nat) : State :=
  let t := s.tenant core ctx
  let s := (s.modMx core ctx fun m => { m.pop with held := false }).unfetch core ctx
  match j.src with
  | some w => s.post (s.unitRec w.core ctx t.lcore cause (BitVec.ofNat 64 addr) 64 0 (BitVec.ofNat 64 (tileInfo j.tile j.k)))
  | none =>
    if t.mx.deferred.isNone then s.modMx core ctx fun m => { m with deferred := some { cause := cause, addr := addr, tile := j.tile, k := j.k } }
    else s.postInfo (s.mxRec core ctx j t.partid cause addr)

/-! ## Commands received (R291, R292) -/

/-- WORD of a command block is as R291 lays it out. -/
def wordOk (v : Nat) : Bool :=
  bits v 0 7 == 0x7B && bits v 12 3 == 3 && bits v 7 5 == 0 && bits v 15 5 == 0 && bits v 22 2 != 3 && bits v 24 2 != 3

/-- The descriptor of a block's operand. -/
def blockDesc (bs : List Byte) (o : Nat) : Desc :=
  { at_ := leAt bs 0 8, tsr := leAt bs o 8, orgr := leAt bs (o + 8) 4, orgc := leAt bs (o + 12) 4, ksteps := leAt bs 4 4, flags := 0, pnc := 0, rsv := 0,
    spix := 0 }

/-- The capability of a command (steps 3 and 4 of R292): the cause that refuses it. The region is known once B's format is. -/
def State.capBad (s : State) (p : Nat) (c : MCmd) : Option Nat :=
  let cap := c.block.drop 40
  let low := leAt cap 0 8
  let mac := leAt cap 8 8
  let key := (s.part p).capkey
  if bits low 56 8 ≠ p ∨ bits low 48 1 = 0 ∨ bits low 0 48 ≠ leAt c.block 24 8 then some 0x69
  else if capMac key low c.image = mac then none
  else if (List.range s.keyGen).any fun g => g != 0 && g != key && capMac g low c.image == mac then some 0xA2
  else some 0xA0

/-- A command refused: its sender's trap channel is told, and the sender counts it (R292). -/
def State.refuseCmd (s : State) (c : MCmd) (cause : Nat) : State :=
  let t := s.tenant c.core c.ctx
  let r : FRec := { fn := 0, fid := 0, cause := 0xA0, source := 2, ctx := c.ctx, rc := 3, resumable := false, addr := leAt c.block 24 8, pc := 0,
                    lcore := t.lcore, part := t.partid, info := 0 }
  let s := if cause = 0xA0 then s.postInfo r else s
  let code := if cause = 0xA0 then 0x69 else cause
  (s.countAway c.src.core c.ctx 14 1).post
    (s.unitRec c.src.core c.ctx t.lcore code (BitVec.ofNat 64 (leAt c.block 0 8)) 64 0 0)

/-- Step 4 of R292: every cell of B lies in the sealed region; no cell where there is no k-step. -/
def cmdInRegion (image : List Byte) (b : MOperand) (ksteps n : Nat) : Bool :=
  match regionOfImage image with
  | .ok g => g.rank == 2 && !g.ragged && subsetOf 2 [b.box (ksteps * termsOf b.op.fmt) n] g.boxes
  | .error _ => false

/-- Steps 3–6 of R292 on a command: the MMUL it becomes. The checks are those of the receiver's context; the command belongs to no task, so the
footprints and the speculation store of a task that runs there do not count (the overflow context runs none). -/
def State.cmdChecks (s : State) (c : MCmd) : Acc MJob :=
  let w : Who := { core := c.core, ctx := c.ctx, rc := 2 }
  let p := (s.tenant c.core c.ctx).partid
  let v := leAt c.block 0 4
  let tile := bits v 20 2
  let m := mOf (bits v 24 2)
  let n := 16 * (bits v 26 6 + 1)
  let da := blockDesc c.block 8
  let db := blockDesc c.block 24
  match s.capBad p c with
  | some k => .fault s k 0 1
  | none =>
    (if da.ksteps = 0 then Acc.ok s () else
      (s.operandOf w db).bind fun s b => Acc.guard s (cmdInRegion c.image b da.ksteps n) 0x69 0).bind fun s _ =>
    (Acc.guard s (ownVector da.tsr) 0x6B 0).bind fun s _ =>
    (Acc.guard s (decide (tile < (s.tenant c.core c.ctx).mx.count)) 0x6D 0).bind fun s _ =>
    (s.pairChecks w tile m n da db).bind fun s ab =>
      .ok s { tile := tile, mode := bits v 22 2, m := m, n := n, a := ab.1, b := ab.2, k := 0, src := some c.src, word0 := BitVec.ofNat 64 (leAt c.block 0 8),
              pre := false, held := false, pc := 0 }

/-- The same, with what peer modules have sent for the checks of the command; it waits while a read of theirs is out (R358). A translation fault refuses the
command, and its miss and walk are counted, since it is never replayed (R348). -/
def State.cmdRead (s : State) (c : MCmd) : Acc MJob :=
  let w : Who := { core := c.core, ctx := c.ctx, rc := 2 }
  let back := fun (t : State) => t.modRcx w fun r => { r with kept := (s.rcx w).kept }
  if s.peerReqs.any fun r => r.by_ == .mcmd && r.who == w then .stall
  else match (s.modRcx w fun r => { r with kept := (s.tenant c.core c.ctx).mx.cmdGot }).cmdChecks c with
    | .ok t j => .ok (back t) j
    | .stall => .stall
    | .again t => .again (back { t with peerReqs := t.peerReqs.zipIdx.map fun q => if s.peerReqs.length ≤ q.2 then { q.1 with by_ := .mcmd } else q.1 })
    | .fault t k va n =>
      .fault (back (if suspends k then t.countMiss s (entryStation (dieOf c.core) va) (s.tenant c.core c.ctx).partid c.ctx va 1 else t)) k va n

/-- The oldest command in the receive buffer is refused. -/
def State.dropCmd (s : State) (c : MCmd) (cause : Nat) : State :=
  (s.modMx c.core c.ctx fun m => { m with recv := m.recv.drop 1, cmdGot := [] }).refuseCmd c cause

/-- Commands enter the queue from the receive buffer, in arrival order, while it has room; at most n. -/
def State.mxAdmit (s : State) (core ctx : Nat) : Nat → State
  | 0 => s
  | n + 1 =>
    let m := (s.tenant core ctx).mx
    match m.recv with
    | [] => s
    | c :: rest =>
      if 3 ≤ m.queue.length ∨ m.atCfg then s
      else match s.cmdRead c with
        | .stall => s
        | .again s => s
        | .fault s k _ _ => (s.dropCmd c k).mxAdmit core ctx n
        | .ok s j =>
          let kind := (kindOf j.a.op.fmt j.b.op.fmt).getD 0
          (s.modMx core ctx fun m =>
            let m := m.claimTile j.tile j.m j.n kind j.a.op.scale j.b.op.scale
            { m with queue := m.queue ++ [j], recv := rest, cmdGot := [] }).mxAdmit core ctx n

/-- A command waits for what its acceptance must follow in the order of its sender (R152, R158, log 18). -/
def State.mcmdWaits (s : State) (c : MCmd) : Bool :=
  (s.opsOf c.src).any (fun e => decide (e.seq < c.seq) && (e.k.isStore || e.aq)) || s.barred c.src c.seq 4 fun k => s.coreIn c.src k c.core

/-- The k-th command under way arrives (R292). -/
def State.evMcmd (s : State) (k : Nat) : Option State :=
  match s.mcmds[k]? with
  | none => none
  | some c =>
    if s.away c.core c.ctx ∨ s.mcmdWaits c then none
    else
      let s1 := { s with mcmds := s.mcmds.eraseIdx k }
      if !wordOk (leAt c.block 0 4) then some (s1.refuseCmd c 0x6B)
      else if 4 ≤ (s.tenant c.core c.ctx).mx.recv.length then some (s1.refuseCmd c 0x6F)
      else some ((s1.modMx c.core c.ctx fun m => { m with recv := m.recv ++ [c] }).mxAdmit c.core c.ctx 4)

/-- MCMD_RECEIVE (R292): the command at place a of those under way. -/
def execMcmdReceive (s : State) : Out := happens s (s.evMcmd s.inp.a)

/-- MCMD (R291). -/
def execMcmd (rd rs1 rs2 : Nat) (s : State) : Out :=
  feature (.mcmd rd rs1 rs2) [5, 9] s <| useX s [rd, rs1, rs2] <| orderly s <|
    let a := (s.x rs1).toNat
    let d := bits (s.x rs2).toNat 0 12
    if s.rc.spec then trapNow s 0x85 0 0
    else if a % 64 ≠ 0 ∨ 0x3FFC0 < a then trapNow s 0x20 (s.x rs1) 0
    else if s.tn.bandsz ≤ d then .next (s.result rd 2)
    else (s.readTcm s.cur a 64).then s fun s b =>
      let g := leAt b 56 8
      if g % 16 ≠ 0 ∨ 0x40000 < g + 512 then trapNow s 0x6B (BitVec.ofNat 64 g) 0
      else (s.readTcm s.cur g 512).then s fun s im =>
        let c : MCmd := { core := s.tn.ctab.getD d s.cur.core, ctx := s.cur.ctx, src := s.cur, seq := s.rc.seq, block := b, image := im }
        .next (State.result { s with mcmds := s.mcmds ++ [c] } rd 0)

/-! ## The events of the unit -/

/-- The oldest MMUL waits for what its acceptance must follow (R158): an own one; a received one has waited on its way. -/
def State.jobWaits (s : State) (w : Who) (j : MJob) : Bool := j.src.isNone && s.cmdWaits w j.seq 0

/-- mxprog and mxstat have a new value: what a soft error took from them is past (R322). -/
def State.mxNews (s : State) (core ctx : Nat) : State :=
  { s with lostCsr := s.lostCsr.filter fun e => e.1 != lostKey core ctx 0xC40 && e.1 != lostKey core ctx 0xC41 }

/-- MMUL_KSTEP (R277): one k-step of the oldest MMUL of core h, or its end by a fault that does not hold it (R288); commands waiting in
the receive buffer enter the queue. With b ≠ 0 one part of the k-step is read, the b-th of those still to be. -/
def State.evKstep (s : State) (h b : Nat) : Option State :=
  let ctx := s.live h
  let w : Who := { core := h, ctx := ctx, rc := 0 }
  let u := (s.tenant h ctx).mx
  match u.queue with
  | [] => if u.recv.isEmpty then none else some (s.mxAdmit h ctx 4)
  | j :: t =>
    if j.held || s.jobWaits w j then none
    else if 0 < b then s.mxEarly w .mmul (u.stepParts j) (b - 1)
    else match s.mxFetch w j with
      | .stall => none
      | .again s => some s
      | .ok _ none => none
      | .fault s c va _ => if suspends c then none else some ((s.mxFail h ctx j c va).mxAdmit h ctx 4)
      | .ok s (some (a, b, gs)) =>
        let s := ((s.countReads w gs).charge (s.tenant h ctx).partid 1 1).mxNews h ctx
        some ((s.modMx h ctx fun m =>
          let m := m.setTile j.tile ((m.tile j.tile).step j.a.op.fmt j.b.op.fmt j.m j.n a b)
          let m := if j.pre && j.k == 0 then { m with pre := none, fetched := [] } else { m with fetched := [] }
          if j.k + 1 = j.a.ksteps then { m with queue := t } else { m with queue := { j with k := j.k + 1 } :: t }).mxAdmit h ctx 4)

/-- MMUL_KSTEP (R277): core a, part b of the k-step, or 0 for all of it. -/
def execMmulKstep (s : State) : Out := happens s (s.evKstep s.inp.a s.inp.b)

/-- The record of a held MMUL (R287), or a peer module's hold of its read (R358). -/
def State.holdMx (s : State) (core ctx : Nat) (j : MJob) (cause va : Nat) : State :=
  s.postHeld (dieOf core) (s.mxRec core ctx j (faultFn (s.tenant core ctx).partid cause) cause va) (.matrix core ctx)
    (s.peerFault { core := core, ctx := ctx, rc := 0 } va 1)

/-- The oldest MMUL is held: what it has fetched of its k-step is discarded (R287). -/
def State.holdJob (s : State) (h ctx : Nat) (j : MJob) (at_ cause va : Nat) : State :=
  ((s.unfetch h ctx).modMx h ctx fun m => { m with queue := { j with held := true, at_ := at_ } :: m.queue.drop 1, held := true }).holdMx h ctx j cause va

/-- OPERAND_FETCH_FAULT (R287): an operand fetch of the oldest MMUL meets a translation fault of kinds 0–3: the unit holds it. The fetch is that
of its next k-step, or one of those ahead of it by `ahead`, as far as the unit fetches (R375). -/
def State.evFetchFault (s : State) (h ahead : Nat) : Option State :=
  let ctx := s.live h
  match (s.tenant h ctx).mx.queue with
  | [] => none
  | j :: _ =>
    let w : Who := { core := h, ctx := ctx, rc := 0 }
    if j.held || s.jobWaits w j || decide (j.a.ksteps ≤ j.k + ahead) then none
    else match s.mxFetch w { j with k := j.k + ahead } with
      | .fault s c va _ =>
        if suspends c then
          some (s.holdJob h ctx j (j.k + ahead) c va)
        else none
      | _ => none

/-- OPERAND_FETCH_FAULT (R287): core a, the fetch of the k-step that lies b ahead. -/
def execOperandFetchFault (s : State) : Out := happens s (s.evFetchFault s.inp.a s.inp.b)

/-- PRELOAD_READ (R281, R282): the preload's elements are read; any fault marks it failed, with no record. With b ≠ 0 one part is read, the b-th of
those still to be. -/
def State.evPreload (s : State) (h b : Nat) : Option State :=
  let ctx := s.live h
  let w : Who := { core := h, ctx := ctx, rc := 0 }
  match (s.tenant h ctx).mx.pre with
  | none => none
  | some p =>
    if p.cells.isSome || p.failed || s.cmdWaits w p.seq 0 then none
    else if 0 < b then s.mxEarly w .preload p.parts (b - 1)
    else match s.mxB w .preload p.b (16 * (p.ncode + 1)) 0 with
      | .stall => none
      | .again s => some s
      | .fault s' c va _ =>
        let s1 := if suspends c then s'.countMiss s (entryStation (dieOf h) va) (s.tenant h ctx).partid ctx va 1 else s'
        some (s1.modMx h ctx fun m => { m with pre := some { p with failed := true } })
      | .ok s r => some ((s.countReads w r.2).modMx h ctx fun m =>
          { m with pre := some { p with cells := some (r.1.flatMap fun l => l.map fun v => v.map (BitVec.ofNat 64)), got := [] } })

/-- PRELOAD_READ (R282): core a, part b of the reads, or 0 for all of them. -/
def execPreloadRead (s : State) : Out := happens s (s.evPreload s.inp.a s.inp.b)

/-- MX_HUNG (R289): the array is reset, and its oldest MMUL restarts at mxprog; the record alone is seen. -/
def State.evMxHung (s : State) (h : Nat) : Option State :=
  let ctx := s.live h
  match (s.tenant h ctx).mx.queue with
  | [] => none
  | j :: _ => if j.held then none else some (s.postInfo (s.mxRec h ctx j (s.tenant h ctx).partid 0x68 0))

/-- MX_HUNG (R289): core a. -/
def execMxHung (s : State) : Out := happens s (s.evMxHung s.inp.a)

/-! ## MSTC (R284, R190) -/

/-- The exact product of values, rounded once to FP32; ∞ × 0 gives the default NaN. A zero product has the product of the signs, an accumulator of 0 of
an INT32 or an LNS64 tile counting as +0: R190 does not say (DESIGN CHOICE, log 61). -/
def prodRound (l : List Fp) : Nat :=
  let neg := l.foldl (fun b x => b != x.neg?) false
  let isInf := fun (x : Fp) => match x with | .inf _ => true | _ => false
  let isZero := fun (x : Fp) => match x with | .zero _ => true | _ => false
  if l.any Fp.isNan || (l.any isInf && l.any isZero) then fp32.nan
  else if l.any isInf then fp32.inf neg
  else if l.any isZero then fp32.zero neg
  else
    let d : Dy := l.foldl (fun (d : Dy) x => match x with | .num _ m e => d.mul { a := m, e := e } | _ => d) { a := 1, e := 0 }
    (fp32.round 0 neg d.a.natAbs d.e).v

/-- sA · sB is 1.0 exactly. -/
def unitScale (a b : BitVec 32) : Bool :=
  match fp32.get a.toNat, fp32.get b.toNat with
  | .num n m e, .num k p f => n == k && ((Dy.mul { a := m, e := e } { a := p, e := f }).add { a := -1, e := 0 }).a == 0
  | _, _ => false

/-- An integer saturated to w bits: its pattern, and whether it saturated. -/
def satInt (v : Int) (w : Nat) : Lane :=
  let hi : Int := 2 ^ (w - 1) - 1
  let lo : Int := -(2 ^ (w - 1))
  let c := max lo (min hi v)
  { Lane.pure (c % 2 ^ w).toNat with e3 := if c = v then 0 else 1 }

/-- R190: the stored value of a slot. -/
def mstcValue (t : Tile) (v : Word) (fmt : Nat) : Lane :=
  let fp := fun (i : Int) (e : Int) => if i = 0 then Fp.zero false else Fp.num (decide (i < 0)) i.natAbs e
  if t.kind = 0 ∧ unitScale t.sA t.sB ∧ fmt < 4 then satInt (sextI v.toNat 32) (fmtWidth fmt)
  else
    let x := match t.kind with
      | 0 => fp (sextI v.toNat 32) 0
      | 1 => fp32.get (v.toNat % 2 ^ 32)
      | _ => fp (sextI v.toNat 48) (-20)
    convert 6 fmt 0 (prodRound [x, fp32.get t.sA.toNat, fp32.get t.sB.toNat])

/-- The slots that an MSTC stores, in ascending index. -/
def Tile.stored (t : Tile) (m n : Nat) (sparse : Bool) : List Nat :=
  (List.range (m * n)).filter fun i => !sparse || Tbl.get false t.pres i

/-- The index block of a compressed tile (R275). -/
def Tile.indexWords (t : Tile) (m n : Nat) : List Nat :=
  let on := t.stored m n true
  [m, on.length] ++ (List.range (m + 1)).map (fun i => (on.filter fun x => decide (x / n < i)).length) ++ on.map (· % n)

/-- The places of some writes, all translated before any is made (R284). -/
def State.mstcPlaces (s : State) (w : Who) : List (Nat × List Byte × Nat) → Acc (List MxStore)
  | [] => .ok s []
  | (va, bs, tag) :: t =>
    let parts := splitParts va bs.length
    let one := parts.foldl (fun (r : Acc (List MxStore)) p => r.bind fun s l =>
      let q := s.locate w p.1 2 false
      match q.res with
      | .wait => .stall
      | .asked => .again q.s
      | .error k => .fault q.s (0x58 + k) p.1 0
      | .ok sp =>
        if s.heldLine sp.home then .stall
        else if q.s.poisonedPart sp.home p.2 then .fault q.s (poisonCause sp.home 3) p.1 p.2
        else .ok q.s (l ++ [{ home := sp.home, gen := sp.gen, tag := tag, bytes := (bs.drop (p.1 - va)).take p.2, va := p.1, core := w.core,
                              seq := (s.rcx w).seq,
                              leaves := if s.window w p.1 = .global then ((q.s.leafOf w p.1).map (·.leaves)).getD [] else [] }])) (Acc.ok s [])
    one.bind fun s l => (s.mstcPlaces w t).bind fun s r => .ok s (l ++ r)

/-- A write of an MSTC is performed at its home, once the host does not hold the line, and sets D in the leaves that its page was translated by (R133);
poison refuses it (R322), and no D is set. One to a peer module leaves as a store of the core, whose completion MWAIT awaits (R359). -/
def State.mxStore (s : State) (core ctx : Nat) (m : MxStore) : State :=
  let p := (s.tenant core ctx).partid
  if space m.home = .peer then s.storeToPeer core ctx none m
  else if s.poisonedPart m.home m.bytes.length then
    s.postInfo { fn := p, fid := 0, cause := poisonCause m.home 3, source := 2, ctx := ctx, rc := 0, resumable := false, addr := 0, pc := 0,
                 lcore := (s.tenant core ctx).lcore, part := p, info := 0 }
  else (s.mark p 0x80 m.leaves).writeAt { home := m.home, gen := m.gen, v := false } m.bytes m.tag

/-- A write of an MSTC waits for the host, or for what the MSTC's acceptance must follow (R158). -/
def State.storeWaits (s : State) (core ctx : Nat) (m : MxStore) : Bool :=
  s.heldLine m.home || s.markWaits (s.tenant core ctx).partid 0x80 m.leaves || s.cmdWaits { core := core, ctx := ctx, rc := 0 } m.seq 0

/-- Write i of those an MSTC of core h left (R284): a posted store of the matrix unit is performed. -/
def State.evMxStore (s : State) (h i : Nat) : Option State :=
  let ctx := s.live h
  match (s.tenant h ctx).mx.stores[i]? with
  | none => none
  | some m =>
    if s.storeWaits h ctx m then none
    else some ((s.modMx h ctx fun u => { u with stores := u.stores.eraseIdx i }).mxStore h ctx m)

/-- STORE_PERFORMED (R151): core a, register context b, operation c, part d of it; with b = 7, write c of those an MSTC left. -/
def execStorePerformed (s : State) : Out :=
  happens s (if s.inp.b = 7 then s.evMxStore s.inp.a s.inp.c else s.evPerform OpK.posted s.inp.a s.inp.b s.inp.c s.inp.d false)

/-- The tile, the destination and the cells of an MSTC after its checks: what is written, as (address, bytes, tag), and the counts of
evc0 and evc3. -/
def mstcWrites (t : Tile) (m n : Nat) (d : MOperand) : List (Nat × List Byte × Nat) × Nat × Nat :=
  let size := elemBytes d.op.fmt
  let on := t.stored m n d.sparse
  let outs := on.map fun i => (i, mstcValue t (Tbl.get 0 t.slot i) d.op.fmt)
  let data := outs.zipIdx.filterMap fun x =>
    let c := if d.sparse then [d.orgr + x.2] else [d.orgr + x.1.1 / n, d.orgc + x.1.1 % n]
    (d.op.tsr.addr c).map fun a => (a, leBytes x.1.2.v size, d.op.tsr.layout)
  let idx := if d.sparse then (t.indexWords m n).zipIdx.map fun x => (d.spix + 4 * x.2, leBytes x.1 4, 256) else []
  (data ++ idx, outs.foldl (fun c x => c + x.2.e0) 0, outs.foldl (fun c x => c + x.2.e3) 0)

/-- MSTC (R284). -/
def execMstc (rs1 tile : Nat) (s : State) : Out :=
  feature (.mstc rs1 tile) [5] s <| useX s [rs1] <| normalOnly s <| orderly s <|
    if s.rc.spec then trapNow s 0x85 0 0
    else raiseDeferred s <|
      if s.tn.mx.count ≤ tile then trapNow s 0x6D (BitVec.ofNat 64 tile) 0
      else waitMx s (!s.tn.mx.tileBusy tile) <|
        let t := s.tn.mx.tile tile
        match t.shape with
        | none => trapNow s 0x6D (BitVec.ofNat 64 tile) 0
        | some (m, n) =>
          let xd := (s.x rs1).toNat
          ((s.readDesc s.cur xd).bind fun s d => (Acc.guard s d.ok 0x6B xd).bind fun s _ => (s.operandOf s.cur d).bind fun s o =>
            (Acc.guard s (bits o.op.tsr.rights 1 1 == 1) 0x33 o.op.tsr.base).bind fun s _ =>
            let count := (t.stored m n true).length
            (Acc.guard s (!o.sparse || decide (count ≤ o.ksteps)) 0x6B xd).bind fun s _ =>
            let bs : List Box := if o.sparse then (if count = 0 then [] else [[{ lo := o.orgr, hi := o.orgr + count - 1, step := 1 }]]) else [o.box m n]
            (Acc.guard s (inDomain o.op bs) 0x35 o.op.tsr.base).bind fun s _ =>
            (s.grantOf s.cur o.op).bind fun s g => (Acc.guard s (grantOk o.op.tsr.rank bs g) 0x34 o.op.tsr.base).bind fun s _ =>
            let ws := mstcWrites t m n o
            (match s.footBad s.cur [] (ws.1.map fun (x : Nat × List Byte × Nat) => (x.1, x.2.1.length)) with | some a => Acc.fault s 0x26 a 1 | none => Acc.ok s ()).bind fun s _ =>
            (s.mstcPlaces s.cur ws.1).bind fun s l => .ok s (l, ws.2)).then s fun s r =>
              let p := s.tn.partid
              let s := (s.count s.cur.core s.cur.ctx 0 r.2.1).count s.cur.core s.cur.ctx 3 r.2.2
              let s := (distinct (r.1.flatMap fun (x : MxStore) => granules x.home x.bytes.length)).foldl (fun (s : State) g => s.suAt p s.cur.ctx (g * 16) 16 true) s
              let s := if s.eager && !r.1.any (s.storeWaits s.cur.core s.cur.ctx) then r.1.foldl (fun (s : State) x => s.mxStore s.cur.core s.cur.ctx x) s
                else s.modMx s.cur.core s.cur.ctx fun m => { m with stores := m.stores ++ r.1 }
              .next s.retire

end Sys2Proof.Machine
end

