-- ==== Sys2Proof/Machine/Rake.lean ====
section
/-! DEFINITION. The Rake (R294–R309): programs, RKLOAD, RKWALK, the steps of a walk, its result, handoffs between stations, RK_HUNG. -/

namespace Sys2Proof.Machine

/-! ## Programs (R296–R300) -/

def progRules (h : Word) : Nat := bits h.toNat 20 4 + 1
def progPolicy (h : Word) : Nat := bits h.toNat 16 2
def progLimit (h : Word) : Nat := bits h.toNat 0 16

/-- A rule (R297). -/
structure Rule where
  tact : Nat
  targ : Nat
  fact : Nat
  farg : Nat
  cmp : Nat
  cdw : Nat
  csh : Nat
  clen : Nat
  rlen : Nat
  vs : Bool
  stride : Nat
  wrap : Nat
  deriving DecidableEq, Repr

def Rule.ofWord (w : Word) : Rule :=
  let v := w.toNat
  { tact := bits v 61 3, targ := bits v 57 4, fact := bits v 54 3, farg := bits v 50 4, cmp := bits v 48 2, cdw := bits v 45 3, csh := bits v 39 6,
    clen := bits v 33 6, rlen := bits v 31 2, vs := bits v 30 1 == 1, stride := bits v 24 6, wrap := bits v 19 5 }

/-- An action with its argument, in a program whose last rule is n (R298, R300). -/
def Rule.actOk (r : Rule) (n act arg : Nat) : Bool :=
  match act with
  | 0 => arg == 0
  | 1 => arg == 0
  | 2 => decide (arg < 8)
  | 3 => decide (arg ≤ n) && decide (4 ≤ r.wrap) && decide (16 * (r.stride + 1) ≤ 2 ^ r.wrap)
  | 4 => decide (arg ≤ n)
  | 5 => arg == 0
  | _ => false

/-- A program that RKLOAD accepts (R300): the header and its rules. -/
def progOk (h : Word) (rules : List Word) : Bool :=
  decide (1 ≤ progLimit h) && progPolicy h != 3 && bits h.toNat 24 40 == 0 && bits h.toNat 18 2 == 0
    && rules.all fun w =>
      let r := Rule.ofWord w
      bits w.toNat 0 19 == 0 && decide (r.csh + r.clen ≤ 63) && r.actOk (progRules h - 1) r.tact r.targ && r.actOk (progRules h - 1) r.fact r.farg

/-! ## RKLOAD (R307) -/

/-- The register context of a core and the operation that an RKLOAD is. -/
def Tenant.loadOf (t : Tenant) (id : Nat) : Option (Nat × Op) :=
  (List.range 7).findSome? fun j => ((t.rcx j).ops.find? fun o => match o.k with | .rkload _ n => n == id | _ => false).map fun o => (j, o)

/-- Every station has acknowledged a load: x[rd] holds how many (R307). -/
def State.loadDone (s : State) (k : RkLoad) : State :=
  let s := { s with rkloads := s.rkloads.filter fun x => x.id != k.id }
  match (s.tenant k.who.core k.who.ctx).loadOf k.id with
  | some (j, o) => s.complete { k.who with rc := j } { o with got := (leBytes k.total 8).zipIdx.map fun p => (p.2, p.1) }
  | none => s

/-- One station replaces the slot of a load that is under way. -/
def State.evSlotLoad (s : State) (id station : Nat) : Option State :=
  match s.rkloads.find? fun k => k.id == id with
  | none => none
  | some k =>
    if !k.todo.contains station then none
    else
      let same := fun (x : RkSlot) => x.part == k.part && x.ctx == k.who.ctx && x.slot == k.slot && x.station == station
      let k' := { k with todo := k.todo.erase station }
      let s1 := { s with
        rkslots := s.rkslots.filter (fun x => !same x) ++ [{ part := k.part, ctx := k.who.ctx, slot := k.slot, station := station, prog := k.prog }],
        rkloads := s.rkloads.map fun x => if x.id = id then k' else x }
      some (if k'.todo.isEmpty then s1.loadDone k' else s1)

/-- RAKE_SLOT_LOAD (R307): load a at station b. -/
def execRakeSlotLoad (s : State) : Out := happens s (s.evSlotLoad s.inp.a s.inp.b)

/-- The image of a program in TCM: its words, or the cause that refuses it. -/
def State.readProg (s : State) (w : Who) (a : Nat) : Acc (List Word) :=
  (Acc.guard s (decide (a + 8 ≤ 0x40000)) 0x73 a).bind fun s _ => (s.readTcm w a 8).bind fun s hb =>
  let h : Word := BitVec.ofNat 64 (leNat hb)
  (Acc.guard s (decide (a + 8 + 8 * progRules h ≤ 0x40000)) 0x73 a).bind fun s _ => (s.readTcm w (a + 8) (8 * progRules h)).bind fun s rb =>
  let rules := (List.range (progRules h)).map fun i => BitVec.ofNat 64 (leAt rb (8 * i) 8)
  (Acc.guard s (progOk h rules) 0x73 a).bind fun s _ => .ok s (h :: rules)

/-- RKLOAD (R307). -/
def execRkload (rd rs1 rs2 : Nat) (s : State) : Out :=
  feature (.rkload rd rs1 rs2) [6] s <| useX s [rd, rs1, rs2] <| orderly s <|
    let a := (s.x rs1).toNat
    if s.rc.spec then trapNow s 0x85 0 0
    else if a % 8 ≠ 0 then trapNow s 0x20 (s.x rs1) 0
    else (s.readProg s.cur a).then s fun s prog =>
      let p := s.tn.partid
      let st := (s.part p).slice.foldl (fun l x => insertNat x l) []
      let k : RkLoad := { id := s.nextId, who := s.cur, part := p, slot := bits (s.x rs2).toNat 0 4, prog := prog, todo := st, total := st.length }
      let o := mkOp (.rkload k.slot k.id) 0 8 0 0 (.x rd 8 false) false false
      let s1 := { s with rkloads := s.rkloads ++ [k], nextId := s.nextId + 1 }
      let s2 := s1.issue { o with parts := [] }
      .next (if st.isEmpty then s2.loadDone k
        else if s.eager then st.foldl (fun (s : State) x => (s.evSlotLoad k.id x).getD s) s2 else s2)

/-! ## RKWALK (R308) -/

/-- The program of a slot as the Rake of a station holds it; as another of the partition holds it, where that one has none (DESIGN CHOICE, log 64). -/
def State.slotProg (s : State) (p ctx slot station : Nat) : Option (List Word) :=
  let mine := s.rkslots.filter fun x => x.part == p && x.ctx == ctx && x.slot == slot
  match mine.find? fun x => x.station == station with
  | some x => some x.prog
  | none => mine.head?.map (·.prog)

/-- Walks owed to a port. -/
def State.walksOwed (s : State) (core ctx q : Nat) : Nat :=
  (s.walks.filter fun k => k.who.core == core && k.who.ctx == ctx && k.port == q).length

/-- RKWALK (R308). It waits for the loads of its register context (R307); the walk is accepted, and takes the program of its slot, once what its acceptance
must follow has been performed (R158, R294, log 18). -/
def execRkwalk (qd rs1 rs2 slot : Nat) (s : State) : Out :=
  feature (.rkwalk qd rs1 rs2 slot) [6] s <| useX s [rs1, rs2] <| normalOnly s <|
    let q := qd - 24
    let a := (s.x rs1).toNat
    let st := match s.peek s.cur a with
      | some h => if space h = .hbm then stationOf h else 384
      | none => 384
    match portBad s.tn q 3 with
    | some c => trapNow s c 0 0
    | none =>
      if s.rkloads.any fun k => k.who == s.cur then stall s
      else match s.slotProg s.tn.partid s.cur.ctx slot st with
        | none => trapNow s 0x74 (BitVec.ofNat 64 slot) 0
        | some prog =>
          if 16 ≤ s.walksOwed s.cur.core s.cur.ctx q then trapNow s 0x71 (BitVec.ofNat 64 q) 0
          else if a % 16 ≠ 0 then trapNow s 0x20 (s.x rs1) 0
          else if s.window s.cur a ≠ .global then trapNow s 0x5E (s.x rs1) 0
          else orderly s <|
            let k : Walk := { id := s.nextId, who := s.cur, part := s.tn.partid, port := q, ptr := a, key := s.x rs2, prog := prog, cur := 0, rule := 0,
                              steps := 0, need := true, data := [], vers := [], station := 384, held := false, ready := none, task := s.rc.task, pc := s.rc.pc,
                              seq := s.rc.seq, slot := some slot }
            .next (State.retire { s with walks := s.walks ++ [k], nextId := s.nextId + 1 })

/-! ## Walks -/

def State.setWalk (s : State) (k : Walk) : State := { s with walks := s.walks.map fun x => if x.id = k.id then k else x }

/-- Delivers the elements of the walks of a port that have ended, in issue order, while the port has room (R301); at most n elements. -/
def State.deliverWalks (s : State) (core ctx q : Nat) : Nat → State
  | 0 => s
  | n + 1 =>
    let mine := s.walks.filter fun k => k.who.core == core && k.who.ctx == ctx && k.port == q
    match mine.find? fun k => !mine.any fun j => decide (j.id < k.id) with
    | none => s
    | some k => match k.ready with
      | some (v :: rest) =>
        let p := (s.tenant core ctx).port q
        if 72 ≤ p.buf.length + p.stage.length then s
        else
          let all := p.buf ++ p.stage ++ [v]
          let s := s.modTenant core ctx fun t => t.setPort q { p with buf := all.take 8, stage := all.drop 8, tasks := p.tasks ++ [k.task] }
          let s := if rest.isEmpty then { s with walks := s.walks.filter fun x => x.id != k.id } else s.setWalk { k with ready := some rest }
          s.deliverWalks core ctx q n
      | _ => s

/-- The dword d of the data last read; 0 beyond it (R299). -/
def Walk.dword (k : Walk) (d : Nat) : Nat := bits (k.data.getD (d / 2) 0).toNat (64 * (d % 2)) 64
def Walk.ruleAt (k : Walk) (i : Nat) : Rule := Rule.ofWord (k.prog.getD (i + 1) 0)
def Walk.header (k : Walk) : Word := k.prog.headD 0

/-- The status granule (R301). -/
def Walk.status (k : Walk) (st fcode : Nat) : Gran :=
  BitVec.ofNat 128 (k.vers.getD ((k.ruleAt k.rule).cdw / 2) 0 * 2 ^ 112 + k.ptr % 2 ^ 48 * 2 ^ 64 + k.steps % 2 ^ 16 * 2 ^ 48 + fcode * 2 ^ 40
    + k.rule % 16 * 2 ^ 36 + st)

/-- The versions as a walk has last read them, where it ends in a step: of what the read of the step has looked at, and of the attempt before it (R301). -/
def Walk.lastVers (k : Walk) : List Nat :=
  if !k.begun || !k.need || decide ((k.ruleAt k.cur).rlen < k.look.length) then k.vers
  else k.look.map (·.2) ++ (if k.attempt = 0 then [] else k.vers).drop k.look.length

/-- A walk ends (R301, R302): its five elements are ready. A step that it has begun counts (R348). -/
def State.endWalk (s : State) (k : Walk) (st fcode : Nat) : State :=
  let rec_ := if st = 0 ∨ st = 2 then (List.range 4).map fun i => k.data.getD i 0 else List.replicate 4 0
  let s := if k.begun then s.su k.part k.who.ctx 5 1 else s
  let s := s.setWalk { k with ready := some (k.status st fcode :: rec_), held := false, begun := false, look := [], seen := 0, attempt := 0 }
  let s := s.su k.part k.who.ctx 6 1
  let s := if st = 3 then s.countAway k.who.core k.who.ctx 9 1 else s
  s.deliverWalks k.who.core k.who.ctx k.port 80

/-- A step ends and the walk goes on: its Rake turns to the next one (R294). -/
def State.goWalk (s : State) (k : Walk) : State :=
  ({ s with rakeTurn := s.rakeTurn + 1 }.su k.part k.who.ctx 5 1).setWalk
    { k with begun := false, look := [], seen := 0, attempt := 0, turn := s.rakeTurn }

/-- The station that translates for a walk (R295). -/
def Walk.at_ (k : Walk) (va : Nat) : Nat := if k.station = 384 then entryStation (dieOf k.who.core) va else k.station

/-- A pointer as the Rake that has the walk translates it (R295). -/
def State.walkAt (s : State) (k : Walk) (va : Nat) : Located := s.locateAt (k.at_ va) k.who va 1 false

/-- What one look at a granule gives: its value and version, a wait for a line that the host holds, a request for an entry of a table at a peer module,
or a cause. -/
inductive Look where
  | ok (s : State) (d : Gran) (v : Nat)
  | wait
  | again (s : State)
  | bad (s : State) (cause : Nat)

/-- One act at the home of a granule (R295, R303): only HBM is read. -/
def State.walkLook (s : State) (k : Walk) (va : Nat) : Look :=
  let l := s.walkAt k va
  if l.tier.any (· != .hbm) then .bad l.s 0x5F
  else match l.res with
    | .wait => .wait
    | .asked => .again l.s
    | .error c =>
      .bad (if c < 4 ∧ progPolicy k.header ≠ 2 then l.s.countMiss s (k.at_ va) k.part k.who.ctx va 1 else l.s) (0x58 + c)
    | .ok sp =>
      if s.heldLine sp.home then .wait
      else if l.s.poisoned sp.home 16 then .bad l.s (poisonCause sp.home 3)
      else
        let r := l.s.readAt sp 16
        .ok r.1 (BitVec.ofNat 128 (leNat r.2)) (if sp.v then Tbl.get 0 l.s.vers (sp.home / 16) else 0)

/-- The granule that the next act of a read looks at: the next one of the attempt, then the first whose version is still to be read again. -/
def Walk.lookAt (k : Walk) : Nat := k.ptr + 16 * (if k.look.length ≤ (k.ruleAt k.cur).rlen then k.look.length else k.seen)

/-- Evaluates the current rule on the data read (R298, R299). -/
def State.evalRule (s : State) (k : Walk) : State :=
  let r := k.ruleAt k.cur
  let m := 2 ^ (r.clen + 1)
  let f := k.dword r.cdw / 2 ^ r.csh % m
  let key := k.key.toNat % m
  let hold := match r.cmp with | 0 => f == key | 1 => f == 0 | 2 => decide (key < f) | _ => true
  let act := if hold then r.tact else r.fact
  let arg := if hold then r.targ else r.farg
  match act with
  | 0 => s.endWalk k 0 0
  | 1 => s.endWalk k 1 0
  | 2 =>
    let p := bits (k.dword arg) 4 44 * 16
    if p = 0 then s.endWalk k 1 0
    else if p < 0x10000000000 then s.endWalk k 4 0x5E
    else s.goWalk { k with ptr := p, cur := 0, need := true }
  | 3 =>
    let w := 2 ^ r.wrap
    s.goWalk { k with ptr := k.ptr / w * w + (k.ptr + 16 * (r.stride + 1)) % w, cur := arg, need := true }
  | 4 => s.goWalk { k with cur := arg, need := false }
  | _ => s.endWalk k 2 0

/-- The read of a step is done: its data and versions are the walk's last, and the rule is evaluated. -/
def State.readDone (s : State) (k : Walk) : State :=
  s.evalRule { k with data := k.look.map (·.1), vers := k.look.map (·.2), need := false }

/-- A walk is held on fault service (R304). -/
def State.holdWalk (s : State) (k : Walk) (cause va : Nat) : State :=
  (s.setWalk { k with held := true }).postHeld (if k.station = 384 then dieOf k.who.core else k.station / 48)
    { fn := faultFn k.part cause, fid := 0, cause := cause, source := 3, ctx := k.who.ctx, rc := 0, resumable := true, addr := va, pc := k.pc,
      lcore := (s.tenant k.who.core k.who.ctx).lcore, part := k.part, info := k.id } (.walk k.id) false

/-- A fault of a walk's read (R304). A held walk goes on in the same step, with what it has read of it; VERSION of one that ends is of what its step has
read (R301). -/
def State.walkFault (s : State) (k : Walk) (cause va : Nat) : State :=
  let pol := progPolicy k.header
  if suspends cause ∧ pol = 2 then (s.su k.part k.who.ctx 13 1).holdWalk k cause va
  else s.endWalk { k with vers := k.lastVers } (if suspends cause ∧ pol = 1 then 1 else 4) cause

/-- A granule of the read has been looked at: R303. Every version is read again before they are compared; `vers` holds them as last read. The bytes are
counted at the station (R348). -/
def State.looked (s : State) (k : Walk) (d : Gran) (v : Nat) : State :=
  let r := k.ruleAt k.cur
  if k.look.length ≤ r.rlen then
    let s := s.su k.part k.who.ctx 1 16
    let k := { k with look := k.look ++ [(d, v)] }
    if k.look.length ≤ r.rlen then s.setWalk k
    else if r.vs then s.setWalk { k with vers := k.look.map (·.2) } else s.readDone k
  else
    let k := { k with vers := k.vers.set k.seen v }
    if k.seen < r.rlen then s.setWalk { k with seen := k.seen + 1 }
    else if k.vers = k.look.map (·.2) then s.readDone k
    else if 4 ≤ k.attempt then s.endWalk k 5 0
    else s.setWalk { k with look := [], seen := 0, attempt := k.attempt + 1 }

/-- A walk waits for what its acceptance must follow in the order of its register context (R143, R152, R158). -/
def State.walkWaits (s : State) (k : Walk) : Bool := k.slot.isSome && s.cmdWaits k.who k.seq (s.rakeScope k)

/-- A walk is accepted: it takes the program that its slot holds at its Rake (R294, R308). -/
def State.acceptWalk (s : State) (k : Walk) (slot : Nat) : State :=
  s.setWalk { k with slot := none, prog := (s.slotProg k.part k.who.ctx slot k.station).getD k.prog }

/-- One act of a walk (R299): it is accepted, its step begins, a granule is looked at, or the rule is evaluated on the data kept. none: the host holds a
line. -/
def State.walkAct (s : State) (k : Walk) : Option State :=
  match k.slot with
  | some n => some (s.acceptWalk k n)
  | none =>
  if !k.begun then
    if progLimit k.header ≤ k.steps then some (s.endWalk k 3 0x72)
    else some (s.setWalk { k with begun := true, steps := k.steps + 1, rule := k.cur })
  else if !k.need then some (s.evalRule k)
  else match s.walkLook k k.lookAt with
    | .wait => none
    | .again s => some s
    | .bad s c => some (s.walkFault k c k.lookAt)
    | .ok s d v => some (s.looked k d v)

def State.walkOf (s : State) (id : Nat) : Option Walk := s.walks.find? fun k => k.id == id

/-- The acts of a walk up to the end of its step, or as far as it goes; at most n. -/
def State.walkStep (s : State) (id : Nat) : Nat → State
  | 0 => s
  | n + 1 => match s.walkOf id with
    | none => s
    | some k =>
      if k.ready.isSome || k.held then s
      else match s.walkAct k with
        | none => s
        | some s' => if k.slot.isSome || (s'.walkOf id).any (·.begun) then s'.walkStep id n else s'

/-- The station at which a walk's next read lies, where its address translates. -/
def State.nextStation (s : State) (k : Walk) : Option Nat :=
  match (s.walkAt k k.ptr).res with
  | .ok sp => if space sp.home = .hbm then some (stationOf sp.home) else none
  | _ => none

/-- The Rake that a walk is to be handed to: its next read lies at another station, and nothing of it has been read (R295). -/
def State.handoff (s : State) (k : Walk) : Option Nat :=
  if k.ready.isSome || k.held || s.walkWaits k || !k.need || !k.look.isEmpty || k.attempt != 0 || (!k.begun && decide (progLimit k.header ≤ k.steps)) then none
  else (s.nextStation k).filter (· != k.station)

/-- It must be handed over before its step: not where its Rake reads for the station of the data (R305). -/
def State.mustGo (s : State) (k : Walk) : Bool := (s.handoff k).any fun st => k.remote != some st

/-- A walk is active at its station: one of the first 32 that arrived there (R294). One at its entry station is on its way. -/
def State.walkActive (s : State) (k : Walk) : Bool :=
  k.station == 384
    || decide (((s.walks.takeWhile fun x => x.id != k.id).filter fun x => x.station == k.station && x.ready.isNone).length < 32)

/-- A walk can act. -/
def State.walkReady (s : State) (k : Walk) : Bool := k.ready.isNone && !k.held && !s.walkWaits k && s.walkActive k && !s.mustGo k && (s.walkAct k).isSome

/-- It is the turn of a walk at its Rake: none of the others there that can act comes before it in the round robin (R294). -/
def State.walkTurn (s : State) (k : Walk) : Bool :=
  k.station == 384 || !s.walks.any fun j => j.station == k.station && j.id != k.id
    && (decide (j.turn < k.turn) || (j.turn == k.turn && decide (j.id < k.id))) && s.walkReady j

/-- RAKE_STEP (R299): walk a takes a step at the station where its read lies, or one act of it; a walk that has ended delivers what its port now
has room for. -/
def State.evRake (s : State) (id : Nat) (one : Bool) : Option State :=
  match s.walkOf id with
  | none => none
  | some k =>
    if k.ready.isSome then
      let s1 := s.deliverWalks k.who.core k.who.ctx k.port 80
      if s1.walks = s.walks then none else some s1
    else if s.walkReady k && s.walkTurn k then (if one then s.walkAct k else some (s.walkStep id 60))
    else none

/-- RAKE_STEP (R299): walk a; with the flag, one act of its step alone. -/
def execRakeStep (s : State) : Out := happens s (s.evRake s.inp.a s.inp.flag)

/-- RAKE_HANDOFF (R295): walk a goes to the Rake of the station where its next read lies, behind the walks there. -/
def State.evHandoff (s : State) (id : Nat) : Option State :=
  (s.walkOf id).bind fun k => (s.handoff k).map fun st =>
    { s with walks := s.walks.filter (fun x => x.id != id) ++ [{ k with station := st, turn := s.rakeTurn, remote := none }], rakeTurn := s.rakeTurn + 1 }

/-- RAKE_HANDOFF (R295): walk a. -/
def execRakeHandoff (s : State) : Out := happens s (s.evHandoff s.inp.a)

/-- RK_HUNG (R305): the walks of station st go on at the next station of the partition on its die, behind those there, whose Rake reads for st until they
hand off again; none of the work is held on fault service. -/
def State.evRkHung (s : State) (st : Nat) : Option State :=
  let here := fun (k : Walk) => k.station == st && k.ready.isNone
  let mine := s.walks.filter here
  if mine.isEmpty || decide (384 ≤ st) || mine.any (·.held) then none
  else
    let next := fun (p : Nat) =>
      let l := (s.part p).slice.filter fun x => x / 48 == st / 48
      ((List.range 48).map fun i => st / 48 * 48 + (st % 48 + 1 + i) % 48).find? fun x => l.contains x
    let go := fun (k : Walk) => { k with station := (next k.part).getD st, remote := some st }
    some (State.hung { s with walks := s.walks.filter (fun k => !here k) ++ mine.map go } 0x70 3 (mine.map (·.part)))

/-- RK_HUNG (R305): station a. -/
def execRkHung (s : State) : Out := happens s (s.evRkHung s.inp.a)

end Sys2Proof.Machine
end

