-- ==== Sys2Proof/Machine/Resume.lean ====
section
/-! DEFINITION. Requests held on fault service are replayed or failed (R317, R319); peer modules (R358, R359): requests to them, requests
from them; failed links (R323). -/

namespace Sys2Proof.Machine

/-! ## Finding an operation -/

/-- Where an operation of a register context stands: among the outstanding ones of a context or an image, or as what a suspended handler
waits for. -/
structure Found where
  w : Who
  o : Op
  wait : Option Wait

/-- The operation that a suspended handler waits for, by its number. -/
def Wait.opOf (x : Wait) (q : Nat) : Option Op :=
  match x.why with
  | .op o => if o.seq = q then some o else none
  | _ => none

/-- Operation q of register context w (0, 1 or 2), wherever it stands now. -/
def State.seek (s : State) (w : Who) (q : Nat) : Option Found :=
  let t := s.tenant w.core w.ctx
  let at_ := w :: (t.slots.filter fun (p : Nat × Slot) => p.2.rc == w.rc).map fun (p : Nat × Slot) => { w with rc := 3 + p.1 }
  match at_.findSome? fun (v : Who) => ((s.rcx v).findOp q).map fun (o : Op) => (v, o) with
  | some (v, o) => some { w := v, o := o, wait := none }
  | none => at_.findSome? fun (v : Who) => (s.waitOf v).bind fun (x : Wait) => (x.opOf q).map fun (o : Op) => ({ w := v, o := o, wait := some x } : Found)

/-! ## Replay (R317 step 4) -/

/-- A replayed request has been seen to: the handler waits for one less. -/
def State.seen (s : State) (w : Who) (x : Wait) : State := s.setWait w { x with need := x.need - 1 }

/-- A replayed access of an instruction that runs again meets a fault of a kind: it is held again, or the handler ends. -/
def State.again (s : State) (w : Who) (x : Wait) (p : Nat × Nat) (cause : Nat) : State :=
  if suspends cause then s.holdAgain w x p cause else s.endWait w cause p.1

/-- A request of a suspended handler is replayed: a part of an operation is performed, the line of a fetch is brought in, a read of an instruction that
runs again is made, and what it returns is the read's result (R139); another access is translated. -/
def State.replayWait (s : State) (w : Who) (cause : Nat) (p : Nat × Nat) : State :=
  match s.waitOf w with
  | none => s
  | some x => match x.why with
    | .op o => s.heldPart w x { o with parts := o.parts.erase p } p 1
    | .rerun =>
      let acc := (cause - 0x40) / 8
      if acc = 3 ∧ p.1 / 64 = x.pc.toNat / 64 then
        match s.fetchLine w p.1 with
        | .ok s _ => s.seen w x
        | .wait => s.seen w x
        | .asked s => s.seen w x
        | .fault s k => s.again w x p (mcause acc k)
      else if 0 < p.2 ∧ (acc = 0 ∨ acc = 3) then
        match s.readOnce w acc p.1 p.2 with
        | .ok s bs => (s.keepRead w p.1 bs).seen w x
        | .stall => s.seen w x
        | .again s => s.seen w x
        | .fault s c _ _ => s.again w x p c
      else
        let l := s.locate w p.1 (if acc < 3 then needOf acc else 0) false
        match l.res with
        | .error k => l.s.again w x p (mcause acc k)
        | _ => l.s.seen w x
    | _ => s.seen w x

/-- An operation of a handler that is no longer there, or goes on, is no longer held once nothing of it is. -/
def State.replayOp (s : State) (w : Who) (q : Nat) : State :=
  if s.held.any fun h => h.by_ == .op w q then s
  else match s.seek w q with
    | some f => if f.wait.isNone then s.modRcx f.w fun r => r.putOp { f.o with held := false } else s
    | none => s

/-- The part of a transfer in the page of an address goes on, once nothing else of it is held; the time for which the transfer was held is added to its
deadline (R243, R247). -/
def State.release (s : State) (x : Xfer) (va : Nat) : Xfer :=
  if s.held.any fun h => (h.by_ == .xfer x.id || h.by_ == .comp x.id) && h.va / 4096 == va / 4096 then x
  else
    let l := x.heldPg.filter (· != va / 4096)
    { x with heldPg := l, deadline := if x.held && l.isEmpty then x.deadline + (s.time - x.heldAt) else x.deadline }

/-- A held walk reads again (R304, R317): it stays held on a new fault. -/
def State.replayWalk (s : State) (k : Walk) : State :=
  let k' := { k with held := false }
  match s.walkLook k k.lookAt with
  | .bad s c => if suspends c then s.holdWalk k c k.lookAt else s.endWalk { k' with vers := k.lastVers } 4 c
  | .wait => s.setWalk k'
  | .again s => s.setWalk k'
  | .ok .. => if (s.handoff k').isSome then s.setWalk k' else ((s.setWalk k').walkAct k').getD (s.setWalk k')

/-- A held MMUL fetches again (R287): it stays held on a new fault. -/
def State.replayMatrix (s : State) (core ctx : Nat) : State :=
  match (s.tenant core ctx).mx.queue with
  | [] => s.modMx core ctx fun m => { m with held := false }
  | j :: t =>
    let free := fun (s : State) => s.modMx core ctx fun m => { m with held := false, queue := { j with held := false } :: t }
    match s.mxFetch { core := core, ctx := ctx, rc := 0 } { j with held := false, k := j.at_ } with
    | .fault s' c va _ => if suspends c then s'.holdMx core ctx j c va else free s
    | .again s' => free s'
    | _ => free s

/-- The requests of a transfer at an address that a peer module held are sent again (R358). -/
def State.resend (s : State) (id va : Nat) : State :=
  { s with peerReqs := s.peerReqs.map fun r =>
      if r.held && r.va == va && r.xfer.any (·.1 == id) then { r with held := false, issued := s.time } else r }

/-- Replays what a held request belongs to. -/
def State.replay (s : State) (h : Held) : State :=
  match h.by_ with
  | .slot core ctx i p =>
    let t := s.tenant core ctx
    (s.forget t.partid ctx p.1).replayWait { core := core, ctx := ctx, rc := 3 + i } h.cause p
  | .place w p => (s.forget (s.tenant w.core w.ctx).partid w.ctx p.1).replayWait w h.cause p
  | .op w q => (s.forget (s.tenant w.core w.ctx).partid w.ctx h.va).replayOp w q
  | .xfer k => match s.xfers.find? fun x => x.id == k with
    | some x => if h.peer then (s.resend k h.va).setXfer (s.release x h.va) else (s.forget x.part x.who.ctx h.va).setXfer (s.release x h.va)
    | none => s
  | .comp k => match s.xfers.find? fun x => x.id == k with
    | some x =>
      if h.peer then (s.resend k h.va).setXfer (s.release x h.va)
      else
        let s' := (s.forget x.part x.who.ctx h.va).setXfer (s.release x h.va)
        (s'.finishXfer (s.release x h.va)).getD s'
    | none => s
  | .walk k => match s.walks.find? fun x => x.id == k with
    | some x => (s.forget x.part x.who.ctx h.va).replayWalk x
    | none => s
  | .matrix core ctx => (s.forget (s.tenant core ctx).partid ctx h.va).replayMatrix core ctx
  | .remote n => { s with peerOut := s.peerOut ++ [(n, 64, h.fid)] }

/-! ## Failing (R319) -/

/-- The parts of an operation still to perform, but for the one at va that has failed and those that a station holds (R63). -/
def State.openParts (s : State) (w : Who) (o : Op) (va : Nat) : List (Nat × Nat) := (s.looseParts w o).filter (·.1 != va)

/-- A request of a transfer has failed with a kind (R262, R359): the fault is recorded, and a cell that it was to read is not moved; where it is
the completion event that is not made, an informational record is posted. -/
def State.peerFailsX (s : State) (r : PeerReq) (id c kind : Nat) : State :=
  match s.xfers.find? fun x => x.id == id with
  | none => s
  | some x =>
    if c = 0 then ((if r.k == .carrive then s.dropXfer id else s).infoXfer x (0x50 + kind) x.comp)
    else
      let y := { x with fault := x.fault.or (some (0x58 + kind)) }
      s.setXfer (if r.k == .load then y.spoil (c - 1) else y)

/-- The requests of a transfer at an address that a peer module held fail there (R358). -/
def State.failSent (s : State) (id va kind : Nat) : State :=
  let mine := fun (r : PeerReq) => r.held && r.va == va && r.xfer.any (·.1 == id)
  (s.peerReqs.filter mine).foldl (fun (s : State) r => s.peerFailsX r id ((r.xfer.map (·.2)).getD 0) kind)
    { s with peerReqs := s.peerReqs.filter fun r => !mine r }

/-- Fails what a held request belongs to, with its original cause. -/
def State.failHeld (s : State) (h : Held) : State :=
  match h.by_ with
  | .slot core ctx i p => s.endWait { core := core, ctx := ctx, rc := 3 + i } h.cause p.1
  | .place w p => s.endWait w h.cause p.1
  | .op w q => match s.seek w q with
    | some f => if f.wait.isNone then (s.dropHeld fun b => b == .op w q).opTrap f.w f.o h.cause h.va (s.openParts f.w f.o h.va) else s
    | none => s
  | .xfer k => match s.xfers.find? fun x => x.id == k with
    | some x =>
      if h.peer then (s.setXfer (s.release x h.va)).failSent k h.va (h.cause % 8) else s.setXfer ((s.release x h.va).giveUp h.va h.cause)
    | none => s
  | .comp k => match s.xfers.find? fun x => x.id == k with
    | some x => if h.peer then (s.setXfer (s.release x h.va)).failSent k h.va (h.cause % 8) else (s.dropXfer k).infoXfer x h.cause x.comp
    | none => s
  | .walk k => match s.walks.find? fun x => x.id == k with
    | some x => s.endWalk { x with held := false, vers := x.lastVers } 4 h.cause
    | none => s
  | .matrix core ctx => match (s.tenant core ctx).mx.queue with
    | j :: _ => (s.mxFail core ctx j h.cause h.va).mxAdmit core ctx 4
    | [] => s
  | .remote n => { s with peerOut := s.peerOut ++ [(n, 65, h.fid)] }

/-- The held request of a function that a fault id names, taken out of those held. -/
def State.takeHeld (s : State) (fn fid : Nat) : Option (State × Held) :=
  (s.held.find? fun h => !h.peer && h.fn == fn && h.fid == fid).map fun h => ({ s with held := s.held.erase h }, h)

/-- RESUME_REPLAY (R319): function a, fault b. -/
def execResumeReplay (s : State) : Out := happens s ((s.takeHeld s.inp.a s.inp.b).map fun p => p.1.replay p.2)
/-- RESUME_FAIL (R319): function a, fault b. -/
def execResumeFail (s : State) : Out := happens s ((s.takeHeld s.inp.a s.inp.b).map fun p => p.1.failHeld p.2)

/-! ## Requests to peer modules (R358, R359) -/

/-- An informational record of a failed posted store (R359). -/
def State.infoPeer (s : State) (w : Who) (o : Op) (va : Nat) : State :=
  let t := s.tenant w.core w.ctx
  s.postInfo { fn := t.partid, fid := 0, cause := 0x4F, source := 7, ctx := w.ctx, rc := w.rc, resumable := false, addr := va, pc := o.pc,
               lcore := t.lcore, part := t.partid, info := 0 }

/-- A store that nothing waits for. -/
def OpK.plain : OpK → Bool | .store => true | .stv => true | .cinit _ => true | _ => false

/-- A request of an operation has failed with kind 7 (R359): the handler gets the cause of its access; a posted store is reported, and the rest
of it goes on. -/
def State.peerFailsOp (s : State) (r : PeerReq) : State :=
  match s.seek r.who r.seq with
  | none => s
  | some f =>
    let o := { f.o with peer := false, parts := f.o.parts.erase (r.va, r.n) }
    if f.o.k.plain then
      match f.wait with
      | none => (s.modRcx f.w fun c => if o.parts.isEmpty then c.dropOp r.seq else c.putOp o).infoPeer r.who f.o r.va
      | some x => (s.setWait f.w { x with why := .op o }).infoPeer r.who f.o r.va
    else match f.wait with
      | none => s.opTrap f.w f.o (mcause f.o.k.acc 7) r.va (s.openParts f.w f.o r.va)
      | some _ => s.endWait f.w (mcause f.o.k.acc 7) r.va

/-- A request that the device or the host made has failed: an arrival of a launch that is not made leaves a record with its ticket (R332); a read of BAR2 gives
no value. -/
def State.peerFailsDev (s : State) (r : PeerReq) (kind : Nat) : State :=
  if r.k == .carrive then
    s.postInfo { fn := r.who.rc, fid := 0, cause := 0x50 + kind, source := 6, ctx := r.who.ctx, rc := 3, resumable := false, addr := r.va, pc := 0,
                 lcore := 0xFFF, part := r.who.rc, info := r.info }
  else if r.by_ == .bar2 && r.k == .load then { s with hostOut := s.hostOut ++ [(r.who.rc, 0, true)] }
  else s

/-- A request that the device or the host made has been performed: a read of BAR2 has its value; D is set in the leaves of a write (R133). -/
def State.peerDoneDev (s : State) (r : PeerReq) (seen : Nat) : State :=
  match r.k with
  | .load => if r.by_ == .bar2 then { s with hostOut := s.hostOut ++ [(r.who.rc, seen % 2 ^ (8 * r.n), false)] } else s
  | _ => s.mark r.who.rc 0x80 r.leaves

/-- The register context that made a read at issue, in an invocation, where that still runs or is suspended. -/
def State.seekInv (s : State) (w : Who) (inv : Nat) : Option Who :=
  let t := s.tenant w.core w.ctx
  (w :: (t.slots.filter fun (p : Nat × Slot) => p.2.rc == w.rc).map fun (p : Nat × Slot) => { w with rc := 3 + p.1 }).find? fun (v : Who) =>
    (s.rcx v).inv == inv && (decide (3 ≤ v.rc) || (s.rcx v).run != .idle)

/-- The answer to a read at issue: its bytes are kept for the instruction, which then goes on; its fault is that of the read (R139, R358). -/
def State.peerEarly (s : State) (r : PeerReq) (inv seen : Nat) (kind : Option Nat) : State :=
  match s.seekInv r.who inv with
  | none => s
  | some v => match kind with
    | none =>
      let home := (s.peek v r.va).getD (peerHome r.port + r.ipa)
      let bs := overlay (if r.seq = 0 then s.specStores v else []) home (leBytes seen r.n)
      (s.keepRead v r.va bs).chargeAt (s.tenant v.core v.ctx).partid v.ctx home r.n false
    | some k =>
      let c := mcause r.seq k
      match s.waitOf v with
      | some x =>
        if suspends c then (s.setWait v { x with need := x.need + 1 }).holdAgain v x (r.va, r.n) c else s.endWait v c r.va
      | none =>
        let pc := (s.rcx v).pc
        if suspends c then s.suspendFault v .rerun pc pc [(r.va, r.n, c)] 0 else s.trap v c pc (BitVec.ofNat 64 r.va) (s.extraOf v c r.va)

/-- The answer to a fetch of the MMUL (R287, R288): its bytes are kept for the k-step, if that is still to be fetched from there. -/
def State.peerMmul (s : State) (r : PeerReq) (seen : Nat) (kind : Option Nat) : State :=
  let w := r.who
  let u := (s.tenant w.core w.ctx).mx
  match u.queue with
  | [] => s
  | j :: _ =>
    if j.held || !(u.stepParts j).contains (r.va, r.n) then s
    else match kind with
      | none => (s.mxKeep w .mmul r.va (leBytes seen r.n)).suAt (s.tenant w.core w.ctx).partid w.ctx (peerHome r.port) 16 false
      | some k =>
        let c := 0x58 + k
        if suspends c then s.holdJob w.core w.ctx j j.k c r.va else (s.mxFail w.core w.ctx j c r.va).mxAdmit w.core w.ctx 4

/-- The answer to a fetch of the preload (R282). -/
def State.peerPreload (s : State) (r : PeerReq) (seen : Nat) (kind : Option Nat) : State :=
  let w := r.who
  match (s.tenant w.core w.ctx).mx.pre with
  | none => s
  | some p =>
    if p.seq ≠ r.seq ∨ p.cells.isSome ∨ p.failed then s
    else match kind with
      | none => (s.mxKeep w .preload r.va (leBytes seen r.n)).suAt (s.tenant w.core w.ctx).partid w.ctx (peerHome r.port) 16 false
      | some _ => s.modMx w.core w.ctx fun m => { m with pre := some { p with failed := true } }

/-- The answer to a read of the checks of a received command (R292): a fault refuses the command. -/
def State.peerMcmd (s : State) (r : PeerReq) (seen : Nat) (kind : Option Nat) : State :=
  let w := r.who
  match (s.tenant w.core w.ctx).mx.recv with
  | [] => s
  | c :: _ => match kind with
    | none => (s.modMx w.core w.ctx fun m => { m with cmdGot := m.cmdGot ++ byAddr r.va (leBytes seen r.n) }).mxAdmit w.core w.ctx 4
    | some k => (s.dropCmd c (mcause r.seq k)).mxAdmit w.core w.ctx 4

/-- The bytes that a completion brings, by address. -/
def gotBytes (o : Op) (va n seen : Nat) : List (Nat × Byte) :=
  match o.k with
  | .load => (leBytes seen n).zipIdx.map fun q => (va + q.2, q.1)
  | .amo _ => (leBytes seen n).zipIdx.map fun q => (va + q.2, q.1)
  | _ => []

/-- The request of an operation is held at the peer on fault service (R358): the handler suspends, and the peer signals service under a number. -/
def State.peerHolds (s : State) (r : PeerReq) (f : Found) (c : Nat) : State :=
  let keep := fun (s : State) (b : HeldBy) => s.postHeld (dieOf f.w.core) (s.coreRec f.w c r.va f.o.pc) b true
  match f.wait with
  | some x => keep (s.setWait f.w { x with why := .op { f.o with peer := false }, need := x.need + 1 }) (heldAs f.w (r.va, r.n))
  | none =>
    let rc := s.rcx f.w
    let o := { f.o with peer := false, held := true }
    if f.w.rc < 3 ∧ rc.run = .running ∧ rc.inv = f.o.inv then
      (s.setRcx f.w (rc.dropOp r.seq)).suspendFault f.w (.op o) f.o.pc rc.pc [(r.va, r.n, c)] 1
    else keep (s.modRcx f.w fun c => c.putOp o) (.op r.who r.seq)

/-- What a completed part of an operation does on this module: it is charged, and D is set in the leaves of a write (R133); a watch of an object there is kept here until the peer tells of
it. -/
def State.peerDone (s : State) (f : Found) (r : PeerReq) : State :=
  match f.o.k with
  | .cwatch .. => (match s.doPart f.w f.o r.va r.n true with | .ok s' _ => s' | _ => s)
  | _ =>
    let s := s.mark (s.tenant f.w.core f.w.ctx).partid 0x80 r.leaves
    match s.peek f.w r.va with
    | some h => s.chargeAt (s.tenant f.w.core f.w.ctx).partid f.w.ctx h r.n f.o.k.isStore
    | none => s

/-- The completion of a request of an operation: performed with what it read, or a fault of a kind (R358, R359). -/
def State.peerAnswerOp (s : State) (r : PeerReq) (seen : Nat) (kind : Option Nat) : State :=
  match s.seek r.who r.seq with
  | none => s
  | some f => match kind with
    | some k =>
      let c := mcause f.o.k.acc k
      if suspends c then s.peerHolds r f c
      else match f.wait with
        | none => s.opTrap f.w f.o c r.va (s.openParts f.w f.o r.va)
        | some _ => s.endWait f.w c r.va
    | none =>
      let s := s.peerDone f r
      let o := { f.o with peer := false, got := f.o.got ++ gotBytes f.o r.va r.n seen, parts := f.o.parts.erase (r.va, r.n) }
      match f.wait with
      | some x => s.setWait f.w { x with why := .op o }
      | none => if o.parts.isEmpty then s.complete f.w o else s.modRcx f.w fun c => c.putOp o

/-- The completion of a request of a transfer (R358): what it read is at hand; kinds 0–3 hold the transfer until the peer signals service, the
others are recorded. -/
def State.peerAnswerX (s : State) (r : PeerReq) (id c seen : Nat) (kind : Option Nat) : State :=
  match s.xfers.find? fun x => x.id == id with
  | none => s
  | some x => match kind with
    | none =>
      let s := s.mark x.part 0x80 r.leaves
      if c = 0 then (if r.k == .carrive then s.dropXfer id else s)
      else if r.k == .load then s.setXfer { x with got := x.got ++ [(c - 1, seen)] }
      else if r.fmt = 0 then s else s.countLane x.who (addElem (r.fmt - 1) seen r.data.toNat)
    | some k =>
      if k < 4 then
        let s := { s with peerReqs := s.peerReqs ++ [{ r with held := true }] }
        let cause := (if c = 0 then 0x50 else 0x58) + k
        (s.setXfer (x.hold s.time r.va)).postHeld (dieOf x.who.core)
          { fn := x.part, fid := 0, cause := cause, source := 1, ctx := x.who.ctx, rc := 3, resumable := true, addr := r.va, pc := x.pc, lcore := 0xFFF,
            part := x.part, info := x.recno } (if c = 0 then .comp id else .xfer id) true
      else s.peerFailsX r id c k

/-- The answer to the read of an entry of a page table (R130): the walks that need it find it, or the fault that the peer reports (R358); log entries that
waited for it go on. -/
def State.peerTable (s : State) (r : PeerReq) (home seen : Nat) (kind : Option Nat) : State :=
  State.flushLog { s with ptes := s.ptes ++ [{ part := r.who.rc, home := home, v := seen, bad := kind }] } r.who.rc

def State.setLaunch (s : State) (l : Launch) : State :=
  { s with launches := s.launches.map fun (x : Launch) => if x.part = l.part ∧ x.ticket = l.ticket then l else x }

/-- The answer to a read of the record of a launch (R332), which joins the queue once all of it is there; one that cannot be read is malformed. -/
def State.peerLaunch (s : State) (r : PeerReq) (ticket seen : Nat) (kind : Option Nat) : State :=
  match s.launches.find? fun l => l.part == r.who.rc && l.ticket == ticket && l.at_.isSome with
  | none => s
  | some l =>
    let a := l.at_.getD 0
    match kind with
    | some _ => (s.setLaunch { l with bad := true, at_ := none, got := [] }).pbound l.part a
    | none =>
      let got := l.got ++ byAddr r.va (leBytes seen r.n)
      match keptBytes got a 64 with
      | none => s.setLaunch { l with got := got }
      | some bs => s.setLaunch (launchOf l.part l.ctx l.ticket l.submitted (some bs))

/-- The answer to a read of the route table of a launch (R353): a table that cannot be read is not accepted. -/
def State.peerRoutes (s : State) (r : PeerReq) (ticket seen : Nat) (kind : Option Nat) : State :=
  match s.launches.find? fun l => l.part == r.who.rc && l.ticket == ticket with
  | none => s
  | some l => match kind with
    | some _ => s.setLaunch { l with rsv := true }
    | none => s.setLaunch { l with got := l.got ++ byAddr r.va (leBytes seen r.n) }

/-- The answer to a read of the region at liveimg that a switch waits for (R326): one that cannot be read counts as none (log 21). -/
def State.peerImage (s : State) (r : PeerReq) (seen : Nat) (kind : Option Nat) : State :=
  s.modTenant r.who.core r.who.ctx fun t => match kind with
    | none => { t with liveGot := t.liveGot ++ byAddr r.va (leBytes seen r.n) }
    | some _ => { t with liveFail := true }

/-- The completion of a request (R358, R359). -/
def State.peerAnswer (s : State) (r : PeerReq) (seen : Nat) (kind : Option Nat) : State :=
  match r.xfer with
  | some q => s.peerAnswerX r q.1 q.2 seen kind
  | none => match r.by_ with
    | .nobody => s
    | .early inv => s.peerEarly r inv seen kind
    | .mmul => s.peerMmul r seen kind
    | .preload => s.peerPreload r seen kind
    | .mcmd => s.peerMcmd r seen kind
    | .table home => s.peerTable r home seen kind
    | .launch ticket => s.peerLaunch r ticket seen kind
    | .routes ticket => s.peerRoutes r ticket seen kind
    | .image => s.peerImage r seen kind
    | _ =>
      if 4096 ≤ r.who.core then (match kind with | some k => s.peerFailsDev r k | none => s.peerDoneDev r seen) else s.peerAnswerOp r seen kind

/-- A request to a peer has failed with kind 7 (R359). -/
def State.peerFails (s : State) (r : PeerReq) : State :=
  match r.xfer with
  | some q => s.peerFailsX r q.1 q.2 7
  | none => match r.by_ with
    | .other => if 4096 ≤ r.who.core then s.peerFailsDev r 7 else s.peerFailsOp r
    | _ => s.peerAnswer r 0 (some 7)

/-- The k-th request, out and not held at the peer, within its 5,000 ticks of RCLK or beyond them (R359), taken from those out. -/
def State.takeReq (s : State) (k : Nat) (late : Bool) : Option (State × PeerReq) :=
  match s.peerReqs[k]? with
  | some r => if r.held ∨ decide (r.issued + 5000 ≤ s.time) != late then none else some ({ s with peerReqs := s.peerReqs.eraseIdx k }, r)
  | none => none

/-- The partition that a request was made for. -/
def State.reqPart (s : State) (r : PeerReq) : Nat :=
  if 4096 ≤ r.who.core then r.who.rc
  else match r.xfer.bind fun q => s.xfers.find? fun x => x.id == q.1 with
    | some x => x.part
    | none => (s.tenant r.who.core r.who.ctx).partid

/-- PEER_COMPLETION (R359): request a, the value b that it read; with the flag, the peer's fault of kind c. A write is performed as its completion
arrives: it sets D in the leaves of its page then, and waits for the host where that holds a line of them (R133, R356). -/
def execPeerCompletion (s : State) : Out :=
  happens s <| (s.takeReq s.inp.a false).bind fun q =>
    if !s.inp.flag && !q.2.leaves.isEmpty && s.markWaits (s.reqPart q.2) 0x80 q.2.leaves then none
    else some (q.1.peerAnswer q.2 s.inp.b (if s.inp.flag then some (s.inp.c % 8) else none))

/-- PEER_SERVICE_SIGNAL (R358): the peer has serviced fault a; the request is sent again. With the flag, the peer's function has failed it, and it fails
here with its cause (R319). -/
def execPeerServiceSignal (s : State) : Out :=
  happens s <| (s.held.find? fun h => h.peer && h.fid == s.inp.a).map fun h =>
    let t := { s with held := s.held.erase h }
    if s.inp.flag then t.failHeld h else t.replay h

/-! ## Failed links (R323) -/

/-- Posts an informational record to every function. -/
def State.toAll (s : State) (cause source : Nat) : State :=
  (List.range 64).foldl (fun s p =>
    s.postInfo { fn := p, fid := 0, cause := cause, source := source, ctx := 0, rc := 3, resumable := false, addr := 0, pc := 0, lcore := 0xFFF,
                 part := p, info := 0 }) s

/-- A request of an operation that a peer holds and whose link has failed is failed (R323). -/
def State.failUnreached (s : State) (h : Held) : State :=
  let fails := fun (w : Who) => match (s.locate w h.va 0 false).res with
    | .error _ => State.failHeld { s with held := s.held.erase h } { h with cause := h.cause / 8 * 8 + 7 }
    | _ => s
  match h.by_ with
  | .slot c x i _ => fails { core := c, ctx := x, rc := 3 + i }
  | .place w _ => fails w
  | .op w _ => fails w
  | .matrix c x => fails { core := c, ctx := x, rc := 0 }
  | _ => s

/-- A request of a transfer that went with its link is no longer held. -/
def State.unholdX (s : State) (r : PeerReq) : State :=
  match r.xfer with
  | none => s
  | some q =>
    let s := ({ s with held := s.held.filter fun (h : Held) => !(h.peer && h.va == r.va && (h.by_ == HeldBy.xfer q.1 || h.by_ == HeldBy.comp q.1)) } : State)
    match s.xfers.find? fun (x : Xfer) => x.id == q.1 with
    | some x => if x.held then s.setXfer (s.release x r.va) else s
    | none => s

/-- A link fails (R323): 0 the host's, 2 + n Tideway port n, 18 + n tier-2 port n. Requests over a Tideway port, in flight or held at the peer,
are reported failed. -/
def State.linkFails (s : State) (link : Nat) : State :=
  if s.failedLinks.contains link then s
  else
    let s := { s with failedLinks := link :: s.failedLinks }
    let gone := s.peerReqs.filter fun r => r.port + 2 == link
    let s := { s with peerReqs := s.peerReqs.filter fun r => r.port + 2 != link }
    let s := (gone.foldl (fun (s : State) r => (s.unholdX r).peerFails r) s).toAll 0xB0 7
    (s.held.filter (·.peer)).foldl State.failUnreached s

/-- LINK_FATAL (R323): link a. -/
def execLinkFatal (s : State) : Out := happens s (if s.inp.a < 22 ∧ s.inp.a ≠ 1 then some (s.linkFails s.inp.a) else none)

/-- PEER_TIMEOUT (R359): request a has had no completion for 5,000 ticks of RCLK. -/
def execPeerTimeout (s : State) : Out := happens s ((s.takeReq s.inp.a true).map fun q => (q.1.peerFails q.2).linkFails (q.2.port + 2))

/-! ## Requests from peer modules (R358) -/

/-- The access code of a peer's request. -/
def pCode : PAcc → Nat | .load => 0 | .store => 1 | _ => 2

/-- The event of a completion object that a request is, with its value (R262, R264). -/
def peerEvent (v : Nat) : PAcc → Option CEv
  | .arrive => some .arrive
  | .expect => some (expectEv v)
  | .accepted => some .accepted
  | .completed f => some (.completed f)
  | _ => none

/-- A request that acts on a completion object (R261), or needs 16-byte atomicity (R142). -/
def peerWide (n : Nat) : PAcc → Bool
  | .load => false
  | .store => false
  | .scatterAdd _ => false
  | .amo _ => n == 16
  | _ => true

/-- A watch of a completion object that a peer module registers (R265): its message leaves on the port. -/
def peerWatchOf (port gran ipa : Nat) : Watch :=
  { pool := 1, gran := gran, va := ipa, target := 0, core := 4096 + port, ctx := 0, chan := 0, gen := 0, urg := false }

/-- What a request does at its home: its value, or the kind of a failure; none: the host holds the line. -/
def State.peerAct (s : State) (port ipa : Nat) (acc : PAcc) (sp : Spot) (n v cmp : Nat) : Option (State × Except Nat Nat) :=
  if space sp.home = .peer ∨ (peerWide n acc ∧ (space sp.home = .host ∨ space sp.home = .tier2)) then some (s, .error 7)
  else if s.heldLine sp.home then none
  else match acc with
    | .load => if s.poisoned sp.home n then some (s, .error 5) else let r := s.readAt sp n; some (r.1, .ok (leNat r.2))
    | .store => if s.poisonedPart sp.home n then some (s, .error 5) else some (s.writeAt sp (leBytes v n) 256, .ok 0)
    | .cinit => some (s.writeAt sp (leBytes v 16) 256, .ok 0)
    | .cwatch => some ({ s with watches := s.watches ++ [peerWatchOf port (sp.home / 16) ipa] }, .ok 0)
    | .amo op =>
      if s.poisoned sp.home n then some (s, .error 5)
      else
        let r := s.readAt sp n
        some (match amoResult op n (leNat r.2) (v % 2 ^ (8 * n)) cmp with
          | some x => r.1.writeAt sp (leBytes x n) 256
          | none => r.1, .ok (leNat r.2))
    | .scatterAdd fmt =>
      if s.poisoned sp.home n then some (s, .error 5)
      else
        let r := s.readAt sp n
        some (r.1.writeAt sp (leBytes (addElem fmt (leNat r.2) v).v n) 256, .ok (leNat r.2))
    | e => if s.poisoned sp.home n then some (s, .error 5) else some ((peerEvent v e).elim s (s.compEvent sp), .ok 0)

/-- A request is one access: within a granule, an atomic at its own alignment, an element of a format, a completion object a granule. -/
def peerForm (acc : PAcc) (ipa n : Nat) : Bool :=
  match acc with
  | .load => 0 < n && decide (ipa % 16 + n ≤ 16)
  | .store => 0 < n && decide (ipa % 16 + n ≤ 16)
  | .amo op => op < 10 && (n == 4 || n == 8 || n == 16) && ipa % n == 0
  | .scatterAdd fmt => fmt < 9 && n == elemBytes fmt && decide (ipa % 16 + n ≤ 16)
  | _ => n == 16 && ipa % 16 == 0

/-- The record of a fault of kinds 2 and 3 that a request of a peer module meets here: SOURCE 7 (R358). -/
def peerRec (p cause ipa : Nat) : FRec :=
  { fn := faultFn p cause, fid := 0, cause := cause, source := 7, ctx := 0, rc := 3, resumable := true, addr := ipa, pc := 0, lcore := 0xFFF, part := p,
    info := 0 }

/-- PEER_REQUEST: translated by the paired partition's stage-2 tables and performed at its home; the answer leaves on the port, its second
part 0, or 1 more than the kind of a fault. A fault of kinds 2 and 3 is held. -/
def State.evPeerRequest (s : State) (port p : Nat) (acc : PAcc) (ipa n v cmp : Nat) : Option State :=
  if 16 ≤ port ∨ 64 ≤ p ∨ !peerForm acc ipa n then none
  else
    let answer := fun (s : State) (st x : Nat) => ({ s with peerOut := s.peerOut ++ [(port, st, x)] } : State)
    let l := s.locate2 p ipa (needOf (pCode acc)) (pCode acc != 0)
    match l.res with
    | .wait => none
    | .asked => some l.s
    | .error k =>
      let c := mcause (pCode acc) k
      some (answer (if suspends c then l.s.postHeld 0 (peerRec p c ipa) (.remote port) false else l.s) (k + 1) 0)
    | .ok sp => (l.s.peerAct port ipa acc sp n v cmp).map fun r => match r.2 with
      | .ok x => answer r.1 0 x
      | .error k => answer l.clean (k + 1) 0

/-- PEER_REQUEST (R358): port a, partition b, access pacc, intermediate address c, d bytes, value e, comparand f. -/
def execPeerRequest (s : State) : Out := happens s (s.evPeerRequest s.inp.a s.inp.b s.inp.pacc s.inp.c s.inp.d s.inp.e s.inp.f)

end Sys2Proof.Machine
end

