-- ==== Sys2Proof/Machine/Hub.lean ====
section
/-! DEFINITION. The registers of the functions (R330–R338) and what the host and the physical function do to the module: launches, kills,
invalidations, mailboxes, the partition table, keys, the host decoder, BAR2, CXL.mem. -/

namespace Sys2Proof.Machine

/-! ## BAR0 (R330, R331) -/

/-- The bits [hi:lo] of a value, in place (R6). -/
def field (v lo hi : Nat) : Nat := bits v lo (hi + 1 - lo) * 2 ^ lo

/-- A power of two from a to b. -/
def powerIn (v a b : Nat) : Bool := decide (a ≤ v) && decide (v ≤ b) && 2 ^ v.log2 == v

/-- The contexts that CTXEN may enable (R330). -/
def ctxMask (q : Part) (v : Nat) : Nat := v % 2 ^ min q.ctxmax 8

/-- A write of a register of a function's BAR0 (R330, R331). -/
def Part.write (q : Part) (r : BReg) (v : Nat) : Part :=
  match r with
  | .lstatbase => { q with lstatbase := field v 12 47 }
  | .lstattail => { q with lstattail := v % 256 }
  | .dboost d => { q with dboost := Tbl.put 0 q.dboost (d % 64) (v % 16) }
  | .fqbase => { q with fqbase := field v 12 47 }
  | .fqlen => if powerIn v 128 65536 then { q with fqlen := v } else q
  | .fqtail => { q with fqtail := v % q.fqlen }
  | .trapcfg c => { q with trapcfg := Tbl.put 0 q.trapcfg (c % 8) (v % 2 ^ 21) }
  | .s1root c => { q with s1root := Tbl.put 0 q.s1root (c % 8) (field v 12 51) }
  | .ctxen => { q with ctxen := ctxMask q v }
  | .slice c => { q with slices := Tbl.put 100000 q.slices (c % 8) (max (v % 2 ^ 32) 1000) }
  | .apbase => { q with apbase := field v 30 47 }
  | .logbase => { q with logbase := field v 12 47 }
  | .loglen => if powerIn v 64 (2 ^ 63) then { q with loglen := v } else q
  | .logtail => { q with logtail := v % q.loglen }
  | .sigbase => { q with sigbase := field v 12 47 }
  | .siglen => if powerIn v 4 (2 ^ 63) then { q with siglen := v } else q
  | .sigtail => { q with sigtail := v % q.siglen }
  | .sucfg i => { q with sucfg := Tbl.put 0 q.sucfg (i % 128) (v % 256) }
  | .sucnt i => { q with sucnt := Tbl.put 0 q.sucnt (i % 128) (v % 2 ^ 64) }
  | .mbout i => { q with mbout := Tbl.put 0 q.mbout (i % 256) (BitVec.ofNat 8 v) }
  | .mbdest => { q with mbdest := v % 2 ^ 21 }
  | .s2invaddr => q
  | .twpair _ _ => q

/-- The registers that a write of may let waiting log entries out of the hub buffer (R346). -/
def logReg (r : BReg) : Bool :=
  match r with
  | .logbase => true | .loglen => true | .logtail => true | .sigbase => true | .siglen => true | .sigtail => true
  | _ => false

/-- A write of a register of function fn; S2INVADDR and TWPAIR are the physical function's (R338, R358). -/
def State.regWrite (s : State) (fn : Nat) (r : BReg) (v : Nat) : State :=
  match r with
  | .s2invaddr => if fn = 0 then { s with s2invaddr := field v 12 51 } else s
  | .twpair n p => if fn = 0 then { s with twpair := Tbl.put 0 s.twpair (n % 16 * 64 + p % 64) (field v 7 7 + v % 64) } else s
  | _ =>
    let s1 := s.modPart fn fun q => q.write r v
    if logReg r then s1.flushLog fn else s1

/-- REGISTER_WRITE (R330): function a, register br, value b. -/
def execRegisterWrite (s : State) : Out := happens s (if s.inp.a < 64 then some (s.regWrite s.inp.a s.inp.br s.inp.b) else none)

/-- The read-only registers of BAR0, as software reads them (R330, R336). -/
inductive RReg where
  | lticket | lstathead | fqhead | invalstat | quse (i : Nat) | qperiod | mbstat | ptstat | s2invstat
  deriving DecidableEq, Repr

/-- A partition has no live band and no tenant context resident (R337). -/
def State.quiesced (s : State) (p : Nat) : Bool := !s.bands.any (fun b => b.part == p) && (s.part p).resident.isNone

/-- A read of a read-only register of function fn. -/
def State.regRead (s : State) (fn : Nat) (r : RReg) : Nat :=
  let q := s.part fn
  match r with
  | .lticket => if q.lfull then 2 ^ 63 + q.lticket % 2 ^ 32 else (q.lticket - 1) % 2 ^ 32
  | .lstathead => q.lstathead
  | .fqhead => q.fqhead
  | .invalstat => if q.invalstat.isSome then 1 else 0
  | .quse i => Tbl.get 0 q.quse i
  | .qperiod => q.qperiod
  | .mbstat => (if q.mbreq then 1 else 0) + (if q.mbrep then 2 else 0)
  | .ptstat => (if q.pterr then 1 else 0) + (if s.quiesced fn then 2 else 0)
  | .s2invstat => if s.s2invstat.isSome then 1 else 0

/-! ## Launches and kills (R324, R332) -/

/-- The stage-2 walk of some granule of a range does not complete (R323). -/
def State.unreached2 (s : State) (p ipa n : Nat) : Bool :=
  (granules ipa n).any fun g => match (s.locate2 p (g * 16) 1 false).res with | .error _ => true | _ => false

/-- A write of LSUBMIT (R330, R332). A record in the memory of a peer module is asked for, a granule at a time, and the launch joins the queue once it is
there (R358). -/
def State.lsubmit (s : State) (p v : Nat) : State :=
  let q := s.part p
  let a := field v 6 47
  if 256 ≤ (s.launches.filter fun l => l.part == p).length then s.modPart p fun q => { q with lfull := true }
  else
    let ticket := q.lticket % 2 ^ 32
    let take := fun (s : State) (l : Launch) =>
      State.modPart { s with launches := s.launches ++ [l] } p fun q => { q with lticket := q.lticket + 1, lfull := false }
    let place := s.locate2 p a 1 false
    let away := match place.res with | .ok sp => if space sp.home = .peer then some sp.home else none | _ => none
    match away with
    | some h =>
      (List.range 4).foldl (fun (s : State) i => s.deviceAsks p (v % 8) (h + 16 * i) (a + 16 * i) 16 .load 0 (.launch ticket))
        (take place.s { launchOf p (v % 8) ticket s.time none with at_ := some a })
    | none =>
      let s1 := take place.s (launchOf p (v % 8) ticket s.time (s.read2 p a 64))
      if s.unreached2 p a 64 then s1.pbound p a else s1

/-- LSUBMIT (R332): function a, value b. The record is read once the host holds no line of it (R356), and peer modules have answered the entries of tables
that lead to it (R358). -/
def execLsubmit (s : State) : Out :=
  let p := s.inp.a
  let a := field s.inp.b 6 47
  happens s (if 64 ≤ p ∨ (s.part p).flr then none
    else if s.held2 p a 64 then s.waiting (s.ask2 p a 64) else some (s.lsubmit p s.inp.b))

/-- Ends every invocation of a register context with a cause (R324): the running or pre-empted handler, and those in the slots. The operations that they
wait for end with them, and what stations hold of their other operations is dropped. -/
def State.killRc (s : State) (w : Who) (cause : Nat) : State :=
  let r : RegCtx := s.rcx w
  let s : State := match r.wait with
    | some x => ((s.dropOps w r.inv).endWaiting w x none).endPlace w x x.pc cause 0 0
    | none => if r.run = .idle then s else (s.dropOps w r.inv).trap w cause r.pc 0 0
  ((s.tenant w.core w.ctx).slots.filter fun (p : Nat × Slot) => p.2.rc == w.rc).foldl (fun (s : State) p =>
    let s1 := s.modTenant w.core w.ctx fun t =>
      { t with slots := t.slots.map fun q => if q.1 = p.1 then (q.1, { q.2 with img := { q.2.img with pc := p.2.wait.pc } }) else q }
    ((s1.dropOps { w with rc := 3 + p.1 } p.2.img.inv).endWaiting { w with rc := 3 + p.1 } p.2.wait none).endSlot w.core w.ctx p.1 cause 0 0) s

/-- A write of KILLH (R324, R330). -/
def State.killh (s : State) (p v : Nat) : Option State :=
  let ctx := bits v 12 3
  let rc := bits v 16 2
  match s.bands.find? fun b => b.part == p && b.ticket == bits v 32 32 && b.ctx == ctx with
  | none => none
  | some b =>
    if rc = 3 then none
    else match b.members[bits v 0 12]? with
      | some h => some (s.killRc { core := h, ctx := ctx, rc := rc } 0x81)
      | none => none

/-- KILLH (R324): function a, value b. -/
def execKillh (s : State) : Out := happens s (s.killh s.inp.a s.inp.b)

/-- A matrix unit without the MMUL that is held on fault service. -/
def MxUnit.unheld (u : MxUnit) : MxUnit :=
  { u with queue := u.queue.filter fun j => !j.held, held := false, fetched := [],
           pre := if u.queue.any fun j => j.held && j.pre && j.k == 0 then none else u.pre }

/-- What a band kill takes away at a member (R324): its messages, pending watches, barrier arrivals, and an MMUL held on fault service (R374), with the
preload that it claimed (R281). -/
def Tenant.emptied (t : Tenant) : Tenant :=
  let drop := fun (r : RegCtx) => { r with ops := r.ops.filter fun o => !o.k.watches && (match o.k with | .barrive .. => false | _ => true) }
  { t with n := drop t.n, u := drop t.u, o := drop t.o, inboxN := [], inboxU := [], log := [], epiN := none, epiU := none, vwPend := 0, cwPend := 0,
           arrived := [], mx := t.mx.unheld, chans := t.chans.map fun c => (c.1, { c.2 with dcnt := 0, divert := false }) }

/-- Kills a band (R324): every handler ends with HANDLER_KILLED; then its messages, watches, arrivals and tasks are gone. -/
def State.killBand (s : State) (b : Band) : State :=
  let s := b.members.foldl (fun s h => [0, 1, 2].foldl (fun (s : State) rc => s.killRc { core := h, ctx := b.ctx, rc := rc } 0x81) s) s
  let mine := fun (h c : Nat) => b.members.contains h && c == b.ctx
  let s := b.members.foldl (fun (s : State) h => (s.modTenant h b.ctx Tenant.emptied).dropHeld fun x => x == .matrix h b.ctx) s
  let s := { s with flights := s.flights.filter (fun f => !mine f.core f.ctx), watches := s.watches.filter (fun w => !mine w.core w.ctx),
                    arrivals := s.arrivals.filter (fun a => !mine a.core a.ctx),
                    bars := s.bars.filter (fun x => !(x.part == b.part && x.ticket == b.ticket)),
                    tasks := s.tasks.filter fun t => !(t.part == b.part && mine t.srcCore t.ctx) }
  (s.setBand { b with ended := true, killed := true }).promoteAll b.part

/-- KILLB (R324, R332): function a, ticket b. -/
def execKillb (s : State) : Out := happens s ((s.findBand s.inp.a (s.inp.b % 2 ^ 32)).map fun b => if b.killed then s else s.killBand b)

/-! ## Invalidation (R334, R338) -/

/-- An INVAL value names a page: first page, pages minus 1, all. -/
def invalHits (v page bitsOf : Nat) : Bool :=
  let a := bits v 12 36 * 4096
  let n := (bits v 48 12 + 1) * 4096
  bits v 63 1 == 1 || (decide (page * 2 ^ bitsOf < a + n) && decide (a < (page + 1) * 2 ^ bitsOf))

/-- INVAL (R334): function a, value b. -/
def execInval (s : State) : Out :=
  let p := s.inp.a
  let v := s.inp.b
  happens s <| if 64 ≤ p ∨ (s.part p).invalstat.isSome then none
    else some (State.modPart { s with ptes := s.ptes.filter (fun g => g.part != p), tcache := s.tcache.filter fun e =>
        !(e.part == p && e.ctx == bits v 60 3 && e.stage == 1 && invalHits v e.page (leafBits e.leaf.lvl e.leaf.pte)) } p
      fun q => { q with invalstat := some v })

/-- The Sluices translate again the pages that a test names, before they use them next (R243). -/
def State.retranslate (s : State) (p : Nat) (hit : Nat → Nat → Leaf → Bool) : State :=
  { s with xfers := s.xfers.map fun (x : Xfer) =>
      if x.part = p then { x with stale := x.stale ++ (x.xl.filter fun l => hit x.who.ctx l.1 l.2).map (·.1) } else x }

/-- INVAL_COMPLETE (R334): function a. Every walk begun before the write has finished: a walk of the model is within one step. -/
def execInvalComplete (s : State) : Out :=
  let p := s.inp.a
  happens s <| match (s.part p).invalstat with
    | none => none
    | some v => some ((s.modPart p fun q => { q with invalstat := none }).retranslate p fun ctx page _ => ctx == bits v 60 3 && invalHits v page 12)

/-- An S2INVCTL value, with S2INVADDR, names some of the 2^bits bytes at an intermediate address, or a page that a walk passed through. -/
def s2Hits (addr v ipa size : Nat) (via : List Nat) : Bool :=
  let n := bits v 6 12 + 1
  let a := addr / 4096
  bits v 31 1 == 1 || via.any (fun g => decide (a ≤ g) && decide (g < a + n))
    || (decide (0 < size) && decide (ipa / 4096 < a + n) && decide (a * 4096 < ipa + size))

/-- It names an entry of a translation cache: a stage-2 entry by its intermediate pages, a stage-1 entry by those its walk passed through. -/
def s2Entry (addr v : Nat) (e : TEntry) : Bool :=
  let b := leafBits e.leaf.lvl e.leaf.pte
  e.part == v % 64 && s2Hits addr v (e.page * 2 ^ b) (if e.stage = 2 then 2 ^ b else 0) e.via

/-- S2INVCTL (R338): value a. -/
def execS2invctl (s : State) : Out :=
  let v := s.inp.a
  happens s <| if s.s2invstat.isSome then none
    else some { s with ptes := s.ptes.filter (fun g => g.part != v % 64), tcache := s.tcache.filter (fun e => !s2Entry s.s2invaddr v e), s2invstat := some (s.s2invaddr, v) }

/-- S2INV_COMPLETE (R338). -/
def execS2invComplete (s : State) : Out :=
  happens s <| match s.s2invstat with
    | none => none
    | some (a, v) => some (State.retranslate { s with s2invstat := none } (v % 64) fun _ _ l => s2Hits a v l.ipa (2 ^ l.bits) l.via)

/-! ## Mailboxes (R335) -/

/-- MBDOOR (R335): function a. -/
def execMbdoor (s : State) : Out :=
  let p := s.inp.a
  let q := s.part p
  happens s <| if 64 ≤ p ∨ q.mbreq then none
    else some { s.setPart p { q with mbreq := true, mbrep := false } with
      mbq := s.mbq ++ [(p, (List.range 256).map fun i => Tbl.get 0 q.mbout i)] }

/-- MBIN_REPLY (R335): function a, text b, little-endian. -/
def execMbinReply (s : State) : Out :=
  let p := s.inp.a
  happens s <| if 64 ≤ p then none
    else some { s.modPart p fun q => { q with mbreq := false, mbrep := true,
                                              mbin := (leBytes s.inp.b 256).zipIdx.foldl (fun t b => Tbl.put 0 t b.2 b.1) [] } with
      mbq := s.mbq.filter fun m => m.1 != p }

/-- MANAGEMENT_MESSAGE (R335): function a, text b, little-endian: to the core, channel and context in MBDEST. -/
def execManagementMessage (s : State) : Out :=
  let p := s.inp.a
  let d := (s.part p).mbdest
  happens s <| match s.bands.find? fun b => b.part == p && b.ctx == bits d 18 3 with
    | none => none
    | some b => (b.members[bits d 6 12]?).map fun h =>
        s.post { msg := { hdr := mkHdr 0 0xFFF 7 false false 0 8 (bits d 0 6),
                          pay := (List.range 8).map (fun i => BitVec.ofNat 64 (s.inp.b / 2 ^ (64 * i))), ext := [], bar := none },
                 core := h, ctx := b.ctx, src := none }

/-! ## Keys (R344) -/

/-- A posted write of a matrix unit, or a buffered store of a task, that has not reached its home is performed under the new key of its
slot; where there is none it fails with kind key unavailable, which an informational record reports. -/
def State.rekeyStores (s : State) (p old new : Nat) : State :=
  let count := fun (l : List MxStore) => (l.filter fun (m : MxStore) => m.gen == old).length
  let stale := fun (t : Nat × Tenant) => count t.2.mx.stores
  let lost := if new = 0 then s.tenants.foldl (fun n t => n + stale t) 0 + s.tasks.foldl (fun n t => n + count t.stores) 0 else 0
  let keep := fun (l : List MxStore) =>
    (l.filter fun (m : MxStore) => new != 0 || m.gen != old).map fun (m : MxStore) => if m.gen = old then { m with gen := new } else m
  let turn := fun (t : Nat × Tenant) => if stale t = 0 then t else (t.1, { t.2 with mx := { t.2.mx with stores := keep t.2.mx.stores } })
  let s1 : State := { s with tenants := s.tenants.map turn, tasks := s.tasks.map fun t => if count t.stores = 0 then t else { t with stores := keep t.stores } }
  (List.range lost).foldl (fun s _ => s.postInfo { fn := p, fid := 0, cause := 0x5C, source := 2, ctx := 0, rc := 0, resumable := false, addr := 0,
                                                   pc := 0, lcore := 0xFFF, part := p, info := 0 }) s1

/-- A partition's slot gets a key, or none (0), at every station and port in one step. -/
def State.changeKey (s : State) (p dom new : Nat) : State :=
  let old := s.keyOf p dom
  let s1 := s.modPart p fun q => { q with keys := Tbl.put 0 q.keys dom new }
  if old = 0 then s1 else s1.rekeyStores p old new

/-- A key generation that has not been used. -/
def State.newKey (s : State) : State × Nat := ({ s with keyGen := s.keyGen + 1 }, s.keyGen)

/-- The key store generates the domain 0 key and the capability key of a partition (R344), each with its record (R345). -/
def State.genKeys (s : State) (p : Nat) : State :=
  let (s, k) := s.newKey
  let (s, c) := s.newKey
  let s := (s.changeKey p 0 k).modPart p fun q => { q with capkey := c, keyhash := Tbl.put 0 q.keyhash 0 0 }
  (s.usage p 3 0xFF 0 [2, 0]).usage p 3 0xFF 16 [2, 0]

/-- VAL1 of R345: the first 8 bytes of SHAKE256 of a wrapped key, 72 bytes (log 39). -/
def wrapHash (w : Nat) : Nat := leNat (shake256 (leBytes w 72) 8)

/-- KEY_LOAD (R344): partition a, domain b, wrapped key c. -/
def execKeyLoad (s : State) : Out :=
  let p := s.inp.a
  let d := s.inp.b
  happens s <| if 64 ≤ p ∨ 16 ≤ d then none
    else
      let k := s.newKey
      let s1 := (k.1.changeKey p d k.2).modPart p fun q => { q with keyhash := Tbl.put 0 q.keyhash d (wrapHash s.inp.c) }
      some (s1.usage p 3 0xFF d [0, wrapHash s.inp.c])

/-- A slot's key is destroyed, with its record. -/
def State.destroyKey (s : State) (p d : Nat) : State :=
  if s.keyOf p d = 0 then s
  else
    let h := Tbl.get 0 (s.part p).keyhash d
    State.usage ((s.changeKey p d 0).modPart p fun q => { q with keyhash := Tbl.put 0 q.keyhash d 0 }) p 3 0xFF d [1, h]

/-- KEY_DESTROY (R344): partition a, domain b. -/
def execKeyDestroy (s : State) : Out := happens s (if s.inp.a < 64 ∧ s.inp.b < 16 then some (s.destroyKey s.inp.a s.inp.b) else none)

/-! ## The partition table (R336, R337, R340) -/

/-- The value last written to a reservation. -/
def Part.lastResv (q : Part) (r : Nat) : Nat := q.reserved r (2 ^ 80)

/-- The sum over the other partitions of a reservation. -/
def State.otherResv (s : State) (p r : Nat) : Nat := s.parts.foldl (fun n q => if q.1 = p then n else n + q.2.lastResv r) 0

/-- The clusters that hold a core of an interval. -/
def clustersOf (base len : Nat) : Nat := if len = 0 then 0 else (base + len - 1) / 16 - base / 16 + 1

/-- An interval meets no other partition's (R337). -/
def State.apart (s : State) (p base len : Nat) : Bool :=
  s.parts.all fun q => q.1 == p || len == 0 || q.2.clen == 0 || decide (base + len ≤ q.2.cbase) || decide (q.2.cbase + q.2.clen ≤ base)

/-- The stations of a SLICE mask, but for those that failed at bring-up (R362): they are excluded from every slice. -/
def State.sliceMask (s : State) (v : Nat) : Nat := s.failedStations.foldl (fun v i => if bits v i 1 = 1 then v - 2 ^ i else v) v

/-- The stations of a SLICE mask. -/
def sliceOf (v : Nat) : List Nat := (List.range 384).filter fun i => bits v i 1 == 1

/-- The six dwords of a SLICE mask. -/
def sliceWords (l : List Nat) : List Nat := (List.range 6).map fun i => l.foldl (fun n x => if x / 64 = i then n + 2 ^ (x % 64) else n) 0

/-- Fields that are written only while the partition is quiesced (R337). -/
def stillField : PField → Bool
  | .cbase => true | .clen => true | .feat => true | .s2root => true | .slice => true | .ctxmax => true
  | _ => false

/-- The resource of a reservation field (R340): one key for all stations, 384 the mesh, 385 + n port n, 401 tier 2, 402 the host. -/
def resField : PField → Option Nat
  | .stres => some 0 | .meshres => some 384 | .t2res => some 401 | .hostres => some 402
  | .twres n => some (385 + n)
  | _ => none

/-- The mesh reservation keeps its limit for an interval (R340). -/
def Part.meshFits (q : Part) (base len : Nat) : Bool := decide (q.lastResv 384 ≤ 204800 * clustersOf base len)

/-- A write of a partition table entry keeps the rules of R336, R337 and R340. -/
def State.ptabOk (s : State) (p : Nat) (f : PField) (v : Nat) : Bool :=
  let q := s.part p
  !(stillField f && !s.quiesced p) && match f with
  | .cbase => decide (v < 4096) && decide (v + q.clen ≤ 4096) && s.apart p v q.clen && q.meshFits v q.clen
  | .clen => decide (q.cbase + v ≤ 4096) && s.apart p q.cbase v && q.meshFits q.cbase v
  | .slice => s.parts.all fun o => o.1 == p || !(sliceOf v).any fun x => o.2.slice.contains x
  | .ctxmax => decide (v % 16 ≤ 8)
  | .stres => decide (v ≤ 166400)
  | .meshres => decide (v ≤ 204800 * clustersOf q.cbase q.clen)
  | .twres n => decide (n < 16) && decide (v + s.otherResv p (385 + n) ≤ 224000)
  | .t2res => decide (v + s.otherResv p 401 ≤ 512000)
  | .hostres => decide (v + s.otherResv p 402 ≤ 256000)
  | .qlim i => decide (i < 8)
  | .period => decide (100000 ≤ v) && decide (v < 2 ^ 32)
  | _ => true

/-- Stores a field, without its reserved bits (R6, R350). A reservation written in frame f applies from frame f + 65 (R340); a period begins when PERIOD is written (R343). -/
def Part.put (q : Part) (f : PField) (v now : Nat) : Part :=
  match f with
  | .cbase => { q with cbase := v }
  | .clen => { q with clen := v }
  | .feat => { q with feat := v % 2 ^ 14 }
  | .s2root => { q with s2root := field v 12 51 }
  | .slice => { q with slice := sliceOf v }
  | .qlim i => { q with qlim := Tbl.put 0 q.qlim i (v % 2 ^ 64) }
  | .qact => { q with qact := v % 256 }
  | .ctxmax => { q with ctxmax := v % 16, ctxen := q.ctxen % 2 ^ (v % 16) }
  | .period => { q with period := v, qstart := now, quse := [], qhit := [] }
  | .savebase => { q with savebase := field v 12 47 }
  | f => match resField f with
    | some r => { q with resv := q.resv ++ [{ r := r, from_ := now / 100 + 65, n := v }] }
    | none => q

/-- A new epoch of a partition (R336, R344, R345): its log restarts, slots 1–15 hold no key. A batch that is open stays so, but one that holds 64
records closes with the last of them (R347). -/
def State.newEpoch (s : State) (p : Nat) : State :=
  State.modPart (if 64 ≤ (s.part p).log.batchCount then s.closeBatch p else s) p fun q => { q with epoch := (q.epoch + 1) % 2 ^ 32, keys := [], keyhash := [], log := { q.log with seq := 0, prev := [] } }

/-- The usage record of an accepted write (R345). -/
def State.ptabRecord (s : State) (p : Nat) (f : PField) : State :=
  let q := s.part p
  match f with
  | .feat => s.usage p 4 0xFF 0 [q.feat]
  | .cbase => s.usage p 5 0xFF 0 (q.cbase :: q.clen :: sliceWords q.slice)
  | .clen => s.usage p 5 0xFF 0 (q.cbase :: q.clen :: sliceWords q.slice)
  | .slice => s.usage p 5 0xFF 0 (q.cbase :: q.clen :: sliceWords q.slice)
  | _ => s

/-! ## Migration (R342) -/

/-- A core, a cluster or a home of a partition at its place in an interval of `len` cores that moves from `old` to `new`; none where what stood there
gives way. -/
structure Shift where
  part : Nat
  old : Nat
  new : Nat
  len : Nat

def Shift.place (old new len h : Nat) : Option Nat :=
  if old ≤ h ∧ h < old + len then some (h - old + new) else if new ≤ h ∧ h < new + len then none else some h
def Shift.core (m : Shift) (h : Nat) : Option Nat := Shift.place m.old m.new m.len h
/-- The clusters to which cores of the partition in cluster k go. What the partition's contexts hold in cluster k goes to each of them; where cores of
several clusters come together in one, the later of those prevails (DESIGN CHOICE, log 21). -/
def Shift.clusters (m : Shift) (k : Nat) : List Nat :=
  (((List.range m.len).map (· + m.old)).filter fun h => h / 16 == k).foldl (fun l h => insertNat ((h - m.old + m.new) / 16) l) []

/-- What a switch saves, or brings back, of granule g of the Pan of cluster k for context c of partition p: what the region at liveimg of one of some of
its cores there covers (R326); of a core whose band has started and not run, the beds of its image (DESIGN CHOICE, log 21). -/
def State.panSaves (s : State) (p c : Nat) (cores : List Nat) (k g : Nat) : Bool :=
  cores.any fun h => h / 16 == k &&
    let t := s.tenant h c
    if t.fresh then (s.imageOf p c).any fun im => im.pans.any fun b => b.1 == g / 16384 else t.live.any fun r => r.has [1, g]

/-- Where n bytes at a home go: TCM with its core; what a switch has saved of a Pan to those clusters to which a core goes that saved it. -/
def State.shiftHomes (s : State) (m : Shift) (n a : Nat) : List Nat :=
  match space a with
  | .tcm => ((m.core (a / 2 ^ 18 % 4096)).map fun h => tcmHome h (a / 2 ^ 18 / 4096) + a % 2 ^ 18).toList
  | .pan =>
    let i := (a - 2 ^ 34) / 2 ^ 22
    let k := i % 256
    let c := (i / 256 - 1) % 8
    let o := (a - 2 ^ 34) % 2 ^ 22
    if i / 256 = 0 ∨ (i / 256 - 1) / 8 ≠ m.part then [a]
    else
      let cores := ((List.range m.len).map (· + m.old)).filter fun h => h / 16 == k
      ((m.clusters k).filter fun j =>
        (granules o n).any fun g => s.panSaves m.part c (cores.filter fun h => (h - m.old + m.new) / 16 == j) k g).map fun j => panSaved m.part j c + o
  | _ => [a]

/-- A table with its keys moved. -/
def rekeyTbl {α : Type} (f : Nat → List Nat) (t : Tbl α) : Tbl α :=
  t.foldl (fun u e => (f e.1).foldl (fun u k => Tbl.set u k e.2) u) []

/-- The images of a partition's contexts, with their counters, their TCM and what is saved of their Pan, their beds and queues, move with its interval: by
logical core number through the new core table (R342). Its instruction caches are empty there. -/
def State.migrate (s : State) (p : Nat) (m : Shift) : State :=
  let bySize := fun (n : Nat) (k : Nat) => (s.shiftHomes m n (k * n)).map (· / n)
  let tenant := fun (k : Nat) => ((m.core (k / 8)).map fun h => tkey h (k % 8)).toList
  let cluster := fun (n : Nat) (k : Nat) =>
    if k / n / 2048 = p then (m.clusters (k / n % 256)).map fun j => (k / n / 256 * 256 + j) * n + k % n else [k]
  { s with
    tenants := (rekeyTbl tenant s.tenants).map fun t => (t.1, { t.2 with ctab := if t.2.partid = p then t.2.ctab.map fun h => (m.core h).getD h else t.2.ctab }),
    icache := s.icache.filter fun e => (m.core (e.1 / 2 ^ 42 / 8)) == some (e.1 / 2 ^ 42 / 8),
    mem := rekeyTbl (s.shiftHomes m 1) s.mem, poison := rekeyTbl (bySize 16) s.poison, landed := rekeyTbl (bySize 16) s.landed,
    tags := rekeyTbl (bySize 1024) s.tags, beds := rekeyTbl (cluster 16) s.beds, workq := rekeyTbl (cluster 8) s.workq }

/-! ## The capability list (R349) -/

/-- The entries of a partition's capability list by their IDs: a feature's only where it is not masked (R350). -/
def State.capIds (s : State) (p : Nat) : List Nat :=
  [1, 2, 3, 4, 5] ++ ((List.range 14).filter fun n => bits (s.part p).feat n 1 == 0).map (· + 0x100)

/-- DEGRADED: some core of the module is failed (R363). -/
def State.degraded (s : State) : Bool := !s.cfail.isEmpty

/-- Usable cores of a partition's interval (R349). -/
def State.usable (s : State) (p : Nat) : Nat :=
  let q := s.part p
  q.clen - (s.cfail.filter fun c => decide (q.cbase ≤ c) && decide (c < q.cbase + q.clen)).length

/-- The contents of an entry, one dword for each item in the order of R349 (DESIGN CHOICE, log 52): the stations as the six dwords of the slice
mask, the page sizes as a mask of their binary logarithms. -/
def State.capItems (s : State) (p id : Nat) : List Nat :=
  let q := s.part p
  match id with
  | 1 => [0x6404, Config.revision.toNat, Config.serial.toNat, if s.degraded then 1 else 0]
  | 2 => [q.cbase, q.clen, s.usable p, q.ctxmax]
  | 3 => sliceWords q.slice ++ [Config.stationBytes / 4096, 2 ^ 12 + 2 ^ 16 + 2 ^ 21 + 2 ^ 30]
  | 4 => [q.lastResv 0, q.lastResv 384, q.lastResv 402, q.lastResv 401] ++ (List.range 16).map (fun n => q.lastResv (385 + n)) ++ [100]
  | 5 => (List.range 8).map (fun i => Tbl.get 0 q.qlim i) ++ [q.qact, q.period]
  | n => [(Config.featLimit (n - 0x100)).toNat]

/-- The header of an entry at an offset: VERSION is 1, NEXT is 0 in the last one. -/
def capHeader (off len id : Nat) (last : Bool) : Nat := (if last then 0 else (off + len) * 2 ^ 40) + len * 2 ^ 24 + 2 ^ 16 + id

/-- The dwords of entries chained from an offset. -/
def capChain : Nat → List (Nat × List Nat) → List Nat
  | _, [] => []
  | off, (id, ds) :: t =>
    let len := 8 * (ds.length + 1)
    (capHeader off len id t.isEmpty :: ds) ++ capChain (off + len) t

/-- The dwords of CAPLIST. -/
def State.capDwords (s : State) (p : Nat) : List Nat := capChain 0 ((s.capIds p).map fun id => (id, s.capItems p id))

/-- The copy of the list at an address of a tenant context; what does not translate there, or is poisoned in part, is not written (log 52). -/
def State.capCopy (s : State) (p ctx va : Nat) : State :=
  let bs := (s.capDwords p).flatMap fun d => leBytes d 8
  (rangeParts va bs.length).foldl (fun (s : State) q =>
    let l := s.locateG (entryStation 0 q.1) p ctx q.1 2 true
    let v := (bs.drop (q.1 - va)).take q.2
    match l.res with
    | .ok sp =>
      if space sp.home = .peer then l.clean.deviceAsks p ctx sp.home q.1 q.2 .store (BitVec.ofNat 128 (leNat v)) .other 0 l.leaves
      else if l.clean.poisonedPart sp.home q.2 then l.clean
      else l.s.writeAt sp v 256
    | _ => s) s

/-- The most bytes that the list takes. -/
def capMax : Nat := 640

/-- The host holds a line of a copy of the list, or of the tables that reach it, or an entry of those is still to come from a peer module, as the table now
stands: the write of it that changes the list waits (R356, R358). -/
def State.capWaits (s : State) (p : Nat) : Bool :=
  (List.range 8).any fun c =>
    let v := (s.tenant (s.part p).cbase c).caplist
    v != 0 && (s.part p).clen != 0 && s.heldV p c v.toNat capMax

/-- The state with the requests out that the copies need. -/
def State.capAsks (s : State) (p : Nat) : State :=
  (List.range 8).foldl (fun (s : State) c =>
    let v := (s.tenant (s.part p).cbase c).caplist
    if v = 0 ∨ (s.part p).clen = 0 then s else s.askV p c v.toNat capMax) s

/-- Firmware keeps the copy of the list of a context at an address: caplist holds it on every core of the partition. -/
def State.setCaplist (s : State) (p ctx : Nat) (v : Word) : State :=
  let q := s.part p
  if s.heldV p ctx v.toNat capMax then s.askV p ctx v.toNat capMax
  else ((List.range q.clen).foldl (fun (s : State) i => s.modTenant (q.cbase + i) ctx fun t => { t with caplist := v }) s).capCopy p ctx v.toNat

/-- The copies of the list are kept identical to it. -/
def State.capCopies (s : State) (p : Nat) : State :=
  (List.range 8).foldl (fun (s : State) c =>
    let v := (s.tenant (s.part p).cbase c).caplist
    if v = 0 ∨ (s.part p).clen = 0 then s else s.capCopy p c v.toNat) s

/-- A write of a partition table entry (R337), up to the copies of the list of what it changes. A write of CBASE moves what the partition's contexts hold
(R342). -/
def State.ptabWrite (s : State) (p : Nat) (f : PField) (v : Nat) : State :=
  let v := if f = .slice then s.sliceMask v else v
  if s.ptabOk p f v then
    let q := s.part p
    let s := if f = .cbase ∧ q.clen ≠ 0 ∧ v ≠ q.cbase then s.migrate p { part := p, old := q.cbase, new := v, len := q.clen } else s
    let s := s.modPart p fun q => { q.put f v s.time with pterr := false }
    if f = .clen ∧ q.clen = 0 ∧ v ≠ 0 then ((s.newEpoch p).ptabRecord p f).genKeys p else s.ptabRecord p f
  else s.modPart p fun q => { q with pterr := true }

/-- PTAB_WRITE (R337): partition a, field pf, value b. -/
def execPtabWrite (s : State) : Out :=
  let p := s.inp.a
  let t := s.ptabWrite p s.inp.pf s.inp.b
  happens s <| if 64 ≤ p then none
    else if (t.part p).pterr then some t
    else if t.capWaits p then s.waiting { s with peerReqs := s.peerReqs ++ (t.capAsks p).peerReqs.drop t.peerReqs.length }
    else some (t.capCopies p)

/-! ## The host decoder, BAR2 and CXL.mem (R330, R338, R356) -/

/-- A host-decoder entry as it is written (R338). -/
def hdecOf (v : Nat) : HDec :=
  { ipaBase := bits v 94 22, hpaBase := bits v 30 34, count := bits v 8 8, en := bits v 7 1 == 1, part := bits v 0 6 }

/-- Two ranges of page frames meet. -/
def meets (a n b m : Nat) : Bool := decide (a < b + m) && decide (b < a + n)

/-- The effect of a write of entry i; none while the host still holds a line of the range that it clears (R338). -/
def State.hdecWrite (s : State) (i v : Nat) : Option State :=
  let old := Tbl.get HDec.reset s.hdec i
  let e := hdecOf v
  let clash := s.hdec.any fun o => o.1 != i && o.2.en
    && (meets e.hpaBase e.count o.2.hpaBase o.2.count || (o.2.part == e.part && meets e.ipaBase e.count o.2.ipaBase o.2.count))
  if old.en ∧ e.en then some s
  else if old.en ∧ s.hostHeld.any (fun l => l.entry == i) then none
  else if e.en ∧ clash then some s
  else some { s with hdec := Tbl.put HDec.reset s.hdec i e }

/-- HDEC_WRITE (R338): entry a, value b. -/
def execHdecWrite (s : State) : Out := happens s (if s.inp.a < 16 then s.hdecWrite s.inp.a s.inp.b else none)

/-- A read of n bytes that the device makes for the host at an intermediate address: the value, and whether it is poisoned; a peer module is asked, and
the value comes with its answer. none: the host holds the line. -/
def State.readFor (s : State) (p ipa n : Nat) (hbmOnly : Bool) : Option (State × Option (Nat × Bool)) :=
  let l := s.locate2 p ipa 1 false
  match l.res with
  | .wait => none
  | .asked => some (l.s, none)
  | .error _ => some (l.s.pbound p ipa, some (0, true))
  | .ok sp =>
    if hbmOnly && space sp.home != .hbm then some (l.s.pbound p ipa, some (0, true))
    else if !hbmOnly && s.heldLine sp.home then none
    else if space sp.home = .peer then some (l.s.deviceAsks p 0 sp.home ipa n .load 0 .bar2, none)
    else
      let r := (granules sp.home n).foldl (fun (r : State × List Byte) g =>
        let lo := max sp.home (g * 16)
        let q := r.1.readAt { sp with home := lo } (min (sp.home + n) (g * 16 + 16) - lo)
        (q.1, r.2 ++ q.2)) (l.s, [])
      some (r.1, some (leNat r.2, s.poisoned sp.home n))

/-- A write that the device makes for the host: in one act for each granule; a partial write of a poisoned granule writes nothing (R322). -/
def State.writeFor (s : State) (p ipa : Nat) (bs : List Byte) (hbmOnly : Bool) : Option State :=
  let l := s.locate2 p ipa 2 true
  match l.res with
  | .wait => none
  | .asked => some l.s
  | .error _ => some (l.s.pbound p ipa)
  | .ok sp =>
    if hbmOnly && space sp.home != .hbm then some (l.clean.pbound p ipa)
    else if !hbmOnly && s.heldLine sp.home then none
    else if space sp.home = .peer then some (l.clean.deviceAsks p 0 sp.home ipa bs.length .store (BitVec.ofNat 128 (leNat bs)) .bar2 0 l.leaves)
    else
      let bad := (rangeParts sp.home bs.length).all fun q => s.poisonedPart q.1 q.2
      some ((rangeParts sp.home bs.length).foldl (fun (s : State) q =>
        if s.poisonedPart q.1 q.2 then s else s.writeAt { sp with home := q.1 } ((bs.drop (q.1 - sp.home)).take q.2) 256) (if bad then l.clean else l.s))

/-- A BAR2 access: inside an 8-byte unit of the aperture (R330). -/
def bar2Ok (fn off n : Nat) : Bool := decide (fn < 64) && decide (0 < n) && decide (off % 8 + n ≤ 8) && decide (off < 2 ^ 30)

/-- A BAR2 access of a function is still under way to a peer module: later ones wait for it (R330, R359). -/
def State.bar2Busy (s : State) (p : Nat) : Bool := s.peerReqs.any fun r => r.by_ == .bar2 && r.who.rc == p

/-- BAR2_READ (R330): function a, offset b, c bytes. The completion leaves for the host. -/
def execBar2Read (s : State) : Out :=
  let p := s.inp.a
  happens s <| if bar2Ok p s.inp.b s.inp.c && !s.bar2Busy p then
      (s.readFor p ((s.part p).apbase + s.inp.b) s.inp.c false).map fun r =>
        { r.1 with hostOut := r.1.hostOut ++ r.2.toList.map fun v => (p, v.1, v.2) }
    else none

/-- BAR2_WRITE (R330): function a, offset b, c bytes, value d. -/
def execBar2Write (s : State) : Out :=
  let p := s.inp.a
  happens s (if bar2Ok p s.inp.b s.inp.c && !s.bar2Busy p then s.writeFor p ((s.part p).apbase + s.inp.b) (leBytes s.inp.d s.inp.c) false else none)

/-- The enabled host-decoder entry of a host address, and the intermediate address (R338). -/
def State.hdecAt (s : State) (a : Nat) : Option (Nat × Nat × Nat) :=
  (s.hdec.find? fun e => e.2.en && decide (e.2.hpaBase * 2 ^ 30 ≤ a) && decide (a < (e.2.hpaBase + e.2.count) * 2 ^ 30)).map fun e =>
    (e.1, e.2.part, e.2.ipaBase * 2 ^ 30 + (a - e.2.hpaBase * 2 ^ 30))

/-- CXL_MEM_READ (R338, R356): the line of host address a; with the flag, the host keeps it. -/
def execCxlMemRead (s : State) : Out :=
  let a := s.inp.a / 64 * 64
  happens s <| match s.hdecAt a with
    | none => some { s.pbound 0 a with hostOut := (s.pbound 0 a).hostOut ++ [(64, 0, true)] }
    | some (i, p, ipa) => (s.readFor p ipa 64 true).map fun r =>
        let s1 := { r.1 with hostOut := r.1.hostOut ++ r.2.toList.map fun v => (64, v.1, v.2) }
        match (s.locate2 p ipa 1 false).res with
        | .ok sp => if s.inp.flag && space sp.home == .hbm && !s.heldLine sp.home then
            { s1 with hostHeld := s1.hostHeld ++ [{ line := sp.home / 64, entry := i, part := p, ipa := ipa }] } else s1
        | _ => s1

/-- CXL_MEM_WRITE (R338, R356): host address a, b bytes of one line, value c. -/
def execCxlMemWrite (s : State) : Out :=
  let a := s.inp.a
  let n := s.inp.b
  happens s <| if n = 0 ∨ 64 < a % 64 + n then none
    else match s.hdecAt a with
      | none => some (s.pbound 0 a)
      | some (_, p, ipa) => s.writeFor p ipa (leBytes s.inp.c n) true

/-- BACK_INVALIDATION_RESPONSE (R356): the host gives up the line of home address / 64 = a; with the flag, it writes back the 64 bytes of b, a CXL.mem
write, which sets D in the leaf that its address translates by (R133). -/
def execBackInvalidationResponse (s : State) : Out :=
  happens s <| (s.hostHeld.find? fun l => l.line == s.inp.a).bind fun l =>
    let s1 := { s with hostHeld := s.hostHeld.filter fun m => m.line != s.inp.a }
    let bs := leBytes s.inp.b 64
    if s.inp.flag ∧ s.keyOf l.part 0 ≠ 0 then
      let q := s1.locate2 l.part l.ipa 2 true
      match q.res with
      | .wait => none
      | .asked => some { s with peerReqs := q.s.peerReqs }
      | _ => some ((rangeParts (l.line * 64) 64).foldl (fun (s : State) q =>
          s.writeAt { home := q.1, gen := s.keyOf l.part 0, v := false } ((bs.drop (q.1 - l.line * 64)).take q.2) 256) q.s)
    else some s1

/-! ## Reads of BAR0 (R330, R336, R338) -/

/-- Items of `size` bits in a dword, the first lowest. -/
def packItems (size : Nat) : List Nat → Nat
  | [] => 0
  | x :: t => x + 2 ^ size * packItems size t

/-- Dword `o` (an offset that 8 divides) of a partition table entry (R336); its reserved bytes read 0. -/
def State.entryDword (s : State) (p o : Nat) : Nat :=
  let q := s.part p
  if o = 0 then q.cbase + q.clen * 2 ^ 16 + q.feat * 2 ^ 32
  else if o = 8 then q.s2root
  else if o < 64 then (sliceWords q.slice).getD (o / 8 - 2) 0
  else if o = 64 then q.lastResv 0 + q.lastResv 384 * 2 ^ 32
  else if o = 72 then q.lastResv 402 + q.lastResv 401 * 2 ^ 32
  else if o < 144 then q.lastResv (385 + (o - 80) / 4) + q.lastResv (386 + (o - 80) / 4) * 2 ^ 32
  else if o < 208 then Tbl.get 0 q.qlim ((o - 144) / 8)
  else if o = 208 then q.qact + q.ctxmax * 2 ^ 8 + q.period * 2 ^ 32
  else if o = 216 then q.savebase
  else if o = 224 then q.epoch + s.regRead p .ptstat * 2 ^ 32
  else 0

/-- A host-decoder entry as it reads. -/
def HDec.word (e : HDec) : Nat := e.ipaBase * 2 ^ 94 + e.hpaBase * 2 ^ 30 + e.count * 2 ^ 8 + (if e.en then 2 ^ 7 else 0) + e.part

/-- Dword `o` of the registers of R330: write-only registers and reserved offsets read 0. -/
def State.bar0Low (s : State) (fn o : Nat) : Nat :=
  let q := s.part fn
  let i := o % 64 / 8
  if o < 0x1000 then (s.capDwords fn).getD (o / 8) 0
  else if o < 0x1040 then
    (if o = 0x1008 then s.regRead fn .lticket else if o = 0x1010 then q.lstatbase else if o = 0x1018 then q.lstathead
      else if o = 0x1020 then q.lstattail else 0)
  else if o < 0x1080 then packItems 8 ((List.range 8).map fun j => Tbl.get 0 q.dboost (i * 8 + j))
  else if o < 0x2000 then 0
  else if o < 0x3000 then
    (if o = 0x2000 then q.fqbase else if o = 0x2008 then q.fqlen else if o = 0x2010 then q.fqhead else if o = 0x2018 then q.fqtail else 0)
  else if o < 0x3040 then Tbl.get 0 q.trapcfg i
  else if o < 0x4000 then 0
  else if o < 0x4040 then Tbl.get 0 q.s1root i
  else if o < 0x40C0 then (if o = 0x4048 then s.regRead fn .invalstat else if o = 0x4080 then q.ctxen else 0)
  else if o < 0x4100 then Tbl.get 100000 q.slices i
  else if o < 0x5000 then (if o = 0x4100 then q.apbase else 0)
  else if o < 0x5040 then s.regRead fn (.quse i)
  else if o < 0x6000 then (if o = 0x5040 then q.qperiod else 0)
  else if o < 0x6040 then [q.logbase, q.loglen, q.loghead, q.logtail, q.sigbase, q.siglen, q.sighead, q.sigtail].getD i 0
  else if o < 0x7000 then 0
  else if o < 0x7400 then Tbl.get 0 q.sucfg ((o - 0x7000) / 8)
  else if o < 0x7800 then Tbl.get 0 q.sucnt ((o - 0x7400) / 8)
  else if o < 0x8000 then 0
  else if o < 0x8100 then leNat ((List.range 8).map fun j => Tbl.get 0 q.mbout (o - 0x8000 + j))
  else if o < 0x8200 then leNat ((List.range 8).map fun j => Tbl.get 0 q.mbin (o - 0x8100 + j))
  else if o = 0x8208 then s.regRead fn .mbstat
  else if o = 0x8210 then q.mbdest
  else 0

/-- Dword `o` of what the physical function's BAR0 holds beyond them (R338). -/
def State.bar0High (s : State) (o : Nat) : Nat :=
  if o < 0x18000 then s.entryDword ((o - 0x10000) / 512) ((o - 0x10000) % 512)
  else if o = 0x20000 then s.aclkMax
  else if o = 0x20100 then s.s2invaddr
  else if o = 0x20110 then s.regRead 0 .s2invstat
  else if 0x20200 ≤ o ∧ o < 0x20300 then (Tbl.get HDec.reset s.hdec ((o - 0x20200) / 16)).word / 2 ^ (8 * (o % 16)) % 2 ^ 64
  else if 0x21000 ≤ o ∧ o < 0x21200 then packItems 1 ((List.range 64).map fun j => if s.cfail.contains ((o - 0x21000) * 8 + j) then 1 else 0)
  else if 0x30000 ≤ o ∧ o < 0x34000 ∧ o % 16 = 0 then Tbl.get 0 s.twpair ((o - 0x30000) / 1024 * 64 + (o - 0x30000) % 1024 / 16)
  else 0

/-- A host read of the dword of BAR0 of function fn at an offset (R330, R338): 64 KiB, of the physical function 256 KiB. -/
def State.bar0 (s : State) (fn off : Nat) : Option Nat :=
  let o := off / 8 * 8
  if 64 ≤ fn ∨ (if fn = 0 then 0x40000 else 0x10000) ≤ off then none
  else some (if o < 0x10000 then s.bar0Low fn o else s.bar0High o)

end Sys2Proof.Machine
end

