-- ==== Sys2Proof/Machine/Switch.lean ====
section
/-! DEFINITION. Slices and context switches (R325–R328, R341), accounting periods and quotas (R343), batches of the log (R347), soft errors
(R322), words that are no instruction (R56, R57), resets (R361–R364), power (R19–R21, R365). -/

namespace Sys2Proof.Machine

/-! ## Slices and switches -/

/-- The cores of a partition. -/
def State.coresOf (s : State) (p : Nat) : List Nat := (List.range (s.part p).clen).map (· + (s.part p).cbase)
/-- The clusters of a partition. -/
def State.clusters (s : State) (p : Nat) : List Nat := (s.coresOf p).foldl (fun l h => insertNat (h / 16) l) []

/-- The enabled context that comes after c, in ascending order with wrap (R341). -/
def Part.nextCtx (q : Part) (c : Nat) : Option Nat := ((List.range 8).map fun i => (c + 1 + i) % 8).find? fun d => bits q.ctxen d 1 == 1

/-- SLICE_END (R325, R341): the resident context has run for its slice, less what was deducted, and another is to run or it is no longer
enabled. -/
def State.evSliceEnd (s : State) (p : Nat) : Option State :=
  let q := s.part p
  match q.resident with
  | none => none
  | some c =>
    let expired := match q.sliceStart with
      | some t => decide (t + (Tbl.get 100000 q.slices c - Tbl.get 0 q.deduct c) ≤ s.time)
      | none => bits q.ctxen c 1 == 0
    if !expired ∨ q.stopping.isSome ∨ q.nextCtx c = some c then none
    else some (s.setPart p { q with stopping := some s.time, deduct := Tbl.put 0 q.deduct c 0 })

/-- SLICE_END (R325): partition a. -/
def execSliceEnd (s : State) : Out := happens s (s.evSliceEnd s.inp.a)

/-- Some part of the operation that a suspended handler waits for is still to be performed, and no station holds it. -/
def State.opensAt (s : State) (h c i : Nat) (x : Wait) : Bool :=
  match x.why with
  | .op o => o.peer || (s.pickOpen { core := h, ctx := c, rc := 3 + i } o 0).isSome
  | _ => false

/-- No handler of the context runs on a core, and nothing that a home has still to perform is under way, for a suspended handler either (R129);
held handlers and requests are saved (R325, R326). -/
def State.stilled (s : State) (h c : Nat) : Bool :=
  let t := s.tenant h c
  let quiet := fun (r : RegCtx) => r.ops.all fun o => o.held && !o.peer
  let still := fun (r : RegCtx) => r.run != .running && quiet r
  still t.n && still t.u && still t.o && t.mx.stores.isEmpty && t.slots.all fun p => quiet p.2.img && !s.opensAt h c p.1 p.2.wait

/-- The region at liveimg (R326), a ragged one by its rows as they stand (R220); none saves all of TCM and none of the Pan. An image that cannot be
read counts as none (DESIGN CHOICE, log 21). It is read for no handler: what is outstanding on the core does not order it. -/
def State.liveRegion (s : State) (h c : Nat) : Acc (Option Region) :=
  let t := s.tenant h c
  let w : Who := { core := h, ctx := c, rc := 0 }
  let back := fun (u : State) => u.modTenant h c fun v => { v with n := t.n, slots := t.slots }
  if t.liveimg = 0 ∨ t.liveFail then .ok s none
  else if s.peerReqs.any fun r => r.by_ == .image && r.who == w then .stall
  else match (s.modTenant h c fun v => { v with n := { RegCtx.reset with kept := t.liveGot }, slots := [] }).readRange w t.liveimg 512 with
    | .stall => .stall
    | .again u => .again (back { u with peerReqs := u.peerReqs.zipIdx.map fun q => if s.peerReqs.length ≤ q.2 then { q.1 with by_ := if q.1.by_ == .early RegCtx.reset.inv then .image else q.1.by_ } else q.1 })
    | .fault u _ _ _ => .ok (back u) none
    | .ok u bs => .ok (back u) <| match regionOfImage bs with
      | .ok g =>
        if g.rank ≠ 2 then none
        else if g.ragged then (s.rowsNow w g).map fun bs => { g with ragged := false, boxes := bs }
        else some g
      | .error _ => none

/-- A granule that is not saved: its bytes are free values, its landed bit is 0 (log 21). -/
def State.freeGran (s : State) (g : Nat) : State :=
  { s with mem := putBytes s.mem (g * 16) (freeBytes s.fresh 16), fresh := s.fresh + 16, landed := Tbl.put false s.landed g false }

/-- The granules of n at a home that are not saved; a block none of whose granules is saved is untagged. -/
def State.unsave (s : State) (home n : Nat) (saved : Nat → Bool) : State :=
  let s1 := (List.range n).foldl (fun s g => if saved g then s else s.freeGran (home / 16 + g)) s
  (List.range (n / 64)).foldl (fun (s : State) b =>
    if (List.range 64).any fun i => saved (b * 64 + i) then s else { s with tags := Tbl.put 256 s.tags (home / 1024 + b) 256 }) s1

/-- The regions at liveimg of some cores are taken as the switch finds them (R326); false where one of them is still to be read. -/
def State.snapLive (s : State) (c : Nat) : List Nat → State × Bool
  | [] => (s, true)
  | h :: l => match s.liveRegion h c with
    | .ok s r => State.snapLive (s.modTenant h c fun t => { t with live := r, liveGot := [], liveFail := false }) c l
    | .again s => (s, false)
    | _ => (s, false)

/-- What a switch does not save of the TCM of a context's cores is lost (R326). The band of a core that is `fresh` has not run: its image stays. -/
def State.unsavedTcm (s : State) (p c : Nat) : State :=
  ((s.coresOf p).map fun h => (h, (s.tenant h c).live)).foldl (fun (s : State) x =>
    if (s.tenant x.1 c).fresh then s
    else s.unsave (tcmHome x.1 c) 16384 fun g => match x.2 with | some r => r.has [0, g] | none => true) s

/-- A table whose keys are units of n bytes, after what it holds of the granules of the 4 MiB at one home that `cov` names has taken the place of what it
held at another: of all there, or of those granules. -/
def panTbl {α : Type} (n a b : Nat) (all : Bool) (cov : Nat → Bool) (t : Tbl α) : Tbl α :=
  let off := fun (base k : Nat) => if base ≤ k * n ∧ k * n < base + 2 ^ 22 then some (k * n - base) else none
  let hit := fun (o : Nat) => (granules o n).any cov
  let rest := t.filter fun e => match off b e.1 with | some o => !all && !hit o | none => true
  (t.filter fun e => (off a e.1).any hit).foldl (fun u e => Tbl.set u (e.1 - a / n + b / n) e.2) rest

/-- The covered granules of the 4 MiB at a home are copied to another, with their poison, their landed bits and the layout tags of their blocks. -/
def State.copyPan (s : State) (a b : Nat) (all : Bool) (cov : Nat → Bool) : State :=
  { s with mem := panTbl 1 a b all cov s.mem, poison := panTbl 16 a b all cov s.poison, landed := panTbl 16 a b all cov s.landed,
           tags := panTbl 1024 a b all cov s.tags }

/-- The watches of a context's objects in the 4 MiB at a home go with them to another. -/
def State.movePanWatches (s : State) (hs : List Nat) (c a b : Nat) : State :=
  { s with watches := s.watches.map fun w =>
      if w.ctx = c ∧ hs.contains w.core ∧ a ≤ w.gran * 16 ∧ w.gran * 16 < a + 2 ^ 22 then { w with gran := w.gran - a / 16 + b / 16 } else w }

/-- The Pans of a partition's clusters are saved for a context that is switched out (R326). -/
def State.savePans (s : State) (p c : Nat) : State :=
  let hs := s.coresOf p
  (s.clusters p).foldl (fun (s : State) k =>
    (s.copyPan (panHome k) (panSaved p k c) true (s.panSaves p c hs k)).movePanWatches (hs.filter fun h => h / 16 == k) c (panHome k) (panSaved p k c)) s

/-- They are restored for one that is switched in (R326). What was not saved of a Pan whose cores are all the partition's is lost; of one that it shares
with another partition it stands, as does that of the other, and as does all where a band is still to start (DESIGN CHOICE, log 21). -/
def State.restorePans (s : State) (p c : Nat) : State :=
  let hs := s.coresOf p
  (s.clusters p).foldl (fun (s : State) k =>
    let here := hs.filter fun h => h / 16 == k
    let cov := s.panSaves p c hs k
    let s1 := (s.copyPan (panSaved p k c) (panHome k) false cov).movePanWatches here c (panSaved p k c) (panHome k)
    let s1 := s1.copyPan (panHome k) (panSaved p k c) true fun _ => false
    if here.length = 16 ∧ here.all (fun h => !(s.tenant h c).fresh) then s1.unsave (panHome k) 262144 cov else s1) s

/-- The save area: no layout of it is given; its first page is written with free values at a save and read at a restore (log 21). One that stage 2
does not reach is not accessed, and PARTITION_BOUND says so (R384). A SAVEBASE of 0 names none. -/
def State.saveArea (s : State) (p : Nat) (write : Bool) : State :=
  let a := (s.part p).savebase
  if a = 0 then s
  else
    let l := s.locate2 p a (if write then 2 else 1) write
    match l.res with
    | .error _ => l.s.pbound p a
    | .wait => s
    | .asked => l.s
    | .ok sp =>
      if write && space sp.home == .peer then
        (List.range 256).foldl (fun (s : State) g => State.deviceAsks { s with fresh := s.fresh + 16 } p 0 (sp.home + 16 * g) (a + 16 * g) 16 .store
          (BitVec.ofNat 128 (leNat (freeBytes s.fresh 16))) .other 0 l.leaves) l.clean
      else if write then
        (List.range 256).foldl (fun (s : State) g =>
          State.writeAt { s with fresh := s.fresh + 16 } { sp with home := sp.home + 16 * g } (freeBytes s.fresh 16) 256) l.s
      else l.s

/-- The host holds a line of the save area's page, or of the tables that reach it. -/
def State.saveWaits (s : State) (p : Nat) : Bool := (s.part p).savebase != 0 && s.held2 p (s.part p).savebase 4096

/-- Restores the next enabled context (R326, R348); none where there is none, or the log is full (R346), or a quota defers (R343). -/
def State.bringIn (s : State) (p : Nat) : Option State :=
  let q := s.part p
  if q.logFull ∨ q.flr ∨ q.qhit.any (fun c => bits q.qact c 1 == 1) then none
  else if s.saveWaits p then s.waiting (s.ask2 p q.savebase 4096)
  else (q.nextCtx q.lastCtx).map fun c =>
    let s1 := ((s.saveArea p false).unsavedTcm p c).restorePans p c
    let s2 := (s.coresOf p).foldl (fun (s : State) h => s.modTenant h c fun t =>
      { t with evc := t.evcCredit.foldl (fun e k => Tbl.put 0 e k.1 (min (Tbl.get 0 e k.1 + k.2) 0xFFFFFFFF)) t.evc, evcCredit := [], fresh := false,
               tsrc := [] }) s1
    s2.modPart p fun q => { q with resident := some c, sliceStart := none, stopping := none }

/-- CONTEXT_SWITCH (R325–R328): at the last core's boundary the outgoing context is saved, and the next is restored. It waits for the host, and for what
peer modules are still to send of the images at liveimg and of tables (R356, R358). -/
def State.evSwitch (s : State) (p : Nat) : Option State :=
  let q := s.part p
  match q.resident with
  | none => if q.clen = 0 then none else s.bringIn p
  | some c => match q.stopping with
    | none => none
    | some t =>
      let r := s.snapLive c (s.coresOf p)
      if !(s.coresOf p).all fun h => s.stilled h c then none
      else if s.saveWaits p then s.waiting (s.ask2 p q.savebase 4096)
      else if !r.2 then s.waiting { s with peerReqs := s.peerReqs ++ r.1.peerReqs.drop s.peerReqs.length }
      else
        let s1 := ((r.1.unsavedTcm p c).savePans p c).saveArea p true
        let s2 := s1.modPart p fun q => { q with resident := none, lastCtx := c, stopping := none, sliceStart := none,
                                                 deduct := Tbl.put 0 q.deduct c (s.time - t) }
        some ((s2.bringIn p).getD s2)

/-- CONTEXT_SWITCH (R326): partition a. -/
def execContextSwitch (s : State) : Out := happens s (s.evSwitch s.inp.a)

/-! ## Accounting periods and quotas (R343) -/

/-- PERIOD_END (R343, R345): the record of the period that ends, and a new one, which lifts every trap and deferral. -/
def State.evPeriod (s : State) (p : Nat) : Option State :=
  let q := s.part p
  if q.period = 0 ∨ s.time < q.qstart + q.period then none
  else
    let s1 := s.usage p 1 0xFF q.qperiod ((List.range 8).map fun i => Tbl.get 0 q.quse i)
    some (s1.modPart p fun q => { q with qperiod := (q.qperiod + 1) % 2 ^ 32, quse := [], qstart := q.qstart + q.period, qhit := [] })

/-- PERIOD_END (R343): partition a. -/
def execPeriodEnd (s : State) : Out := happens s (s.evPeriod s.inp.a)

/-- Ends every running handler of a partition's resident context with a cause. -/
def State.endRunning (s : State) (p cause : Nat) : State :=
  match (s.part p).resident with
  | none => s
  | some c => (s.coresOf p).foldl (fun s h => [0, 1, 2].foldl (fun (s : State) rc =>
      let w : Who := { core := h, ctx := c, rc := rc }
      if (s.rcx w).run = .running then s.trap w cause (s.rcx w).pc 0 0 else s) s) s

/-- QUOTA_LIMIT_REACHED (R343): category 0 or 1 of a partition has reached its limit. -/
def State.evQuota (s : State) (p cat : Nat) : Option State :=
  let q := s.part p
  if 2 ≤ cat ∨ !q.spent cat ∨ q.qhit.contains cat then none
  else if bits q.qact cat 1 = 0 then some ((s.setPart p { q with qhit := cat :: q.qhit }).endRunning p 0x84)
  else some (s.setPart p { q with qhit := cat :: q.qhit, stopping := if q.resident.isSome then some (q.stopping.getD s.time) else none })

/-- QUOTA_LIMIT_REACHED (R343): partition a, category b. -/
def execQuotaLimitReached (s : State) : Out := happens s (s.evQuota s.inp.a s.inp.b)

/-- LOG_BATCH_CLOSE (R347): partition a. -/
def execLogBatchClose (s : State) : Out :=
  let l := (s.part s.inp.a).log
  happens s <| if l.batchCount ≠ 0 ∧ (64 ≤ l.batchCount ∨ l.batchTime + 100000000 ≤ s.time) then some (s.closeBatch s.inp.a) else none

/-! ## Soft errors (R322) -/

/-- A register-scope or tenant-scope CSR is zeroed. -/
def zeroCsr (n rc : Nat) (t : Tenant) : Tenant :=
  let onR := fun (f : RegCtx → RegCtx) => t.setRcx rc (f (t.rcx rc))
  if n = 0xC02 then { t with instret := 0 }
  else if n = 0xC10 then { t with lcore := 0 }
  else if n = 0xC11 then { t with bandsz := 0 }
  else if n = 0xC12 then { t with torusX := 0, torusY := 0 }
  else if n = 0xC13 then { t with gangidx := 0 }
  else if n = 0xC14 then { t with gangsz := 0 }
  else if n = 0xC16 then { t with partid := 0 }
  else if n = 0xC20 then onR fun r => { r with hdr := 0 }
  else if n = 0xC21 then onR fun r => { r with tstamp := 0 }
  else if n = 0xC22 then onR fun r => { r with tdomain := 0 }
  else if n = 0xC23 then onR fun r => { r with task := none, spec := false }
  else if n = 0xC30 then onR fun r => { r with txstat := 0 }
  else if n = 0xC31 then onR fun r => { r with vlast := 0 }
  else if n = 0xC50 then onR fun r => { r with wdcnt := 0 }
  else if n = 0xC51 then { t with caplist := 0 }
  else if n = 0x801 then onR fun r => { r with fflags := 0 }
  else if n = 0x802 then onR fun r => { r with frm := 0 }
  else if n = 0x810 then onR fun r => { r with txcomp := 0 }
  else if 0x820 ≤ n ∧ n ≤ 0x82F then { t with evc := Tbl.put 0 t.evc (n - 0x820) 0 }
  else if n = 0x830 then { t with fntab := 0 }
  else if n = 0x831 then { t with fnlen := 0 }
  else if n = 0x840 then { t with ovfbase := 0 }
  else if n = 0x841 then { t with ovflen := 0 }
  else if n = 0x842 then { t with chans := t.chans.map fun c => (c.1, { c.2 with divert := false }) }
  else if n = 0x850 then { t with wdlim := 0 }
  else if n = 0x860 then { t with liveimg := 0 }
  else t

/-- A CSR that the device keeps by itself is zeroed: cycle counts on from 0, the others as `unlost` says. -/
def State.loseCsr (s : State) (core ctx n : Nat) : State :=
  let mx := (s.tenant core ctx).mx
  let lose := fun (v : Nat) => ({ s with lostCsr := Tbl.set s.lostCsr (lostKey core ctx n) v } : State)
  if n = 0xC00 then { s with cyc := Tbl.put 0 s.cyc core (2 ^ 64 - s.aclk % 2 ^ 64) }
  else if n = 0xC01 then lose s.time
  else if n = 0xC15 then lose ctx
  else if n = 0xC17 then lose Config.netcap.toNat
  else if n = 0xC40 then lose mx.prog
  else if n = 0xC41 then lose mx.stat
  else s

/-- The handler of a register context ends with ECC_REGS; where there is none, the record alone is posted (DESIGN CHOICE, log 35); then the register is
zeroed. -/
def State.softReg (s : State) (core rc n : Nat) (zero : Tenant → Tenant) : State :=
  let w : Who := { core := core, ctx := s.live core, rc := rc }
  let r := s.rcx w
  let s1 : State := match r.wait with
    | some x => (s.endWaiting w x none).endPlace w x x.pc 0xAB 0 (BitVec.ofNat 64 (n % 65536))
    | none =>
      let a6 := BitVec.ofNat 64 (n % 65536)
      if r.run = .idle then s.post (s.trapFlight core w.ctx (rc * 256 + 0xAB) r.pc 0 64 0 a6 (s.tenant core w.ctx).lcore) else s.trap w 0xAB r.pc 0 a6
  s1.modTenant core w.ctx zero

/-- A matrix fault that no MMUL met (R288, R322): deferred, or posted where one is pending. -/
def State.deferMx (s : State) (core ctx cause tile : Nat) : State :=
  let t := s.tenant core ctx
  let k := t.mx.prog
  if t.mx.deferred.isNone then s.modMx core ctx fun m => { m with deferred := some { cause := cause, addr := 0, tile := tile, k := k } }
  else s.postInfo { fn := t.partid, fid := 0, cause := cause, source := 2, ctx := ctx, rc := 0, resumable := false, addr := 0, pc := 0, lcore := t.lcore,
                    part := t.partid, info := tileInfo tile k }

/-- The handler of a task ends with a trap: running, or in its slot. -/
def State.trapTask (s : State) (t : Task) (cause : Nat) : State :=
  (s.gang t.core t.ctx).foldl (fun (s : State) h =>
    let w : Who := { core := h, ctx := t.ctx, rc := 0 }
    let r := s.rcx w
    if r.task = some t.id ∧ r.run ≠ .idle then (match r.wait with | some x => (s.endWaiting w x none).endPlace w x x.pc cause 0 0 | none => s.trap w cause r.pc 0 0)
    else match (s.tenant h t.ctx).slots.find? fun (p : Nat × Slot) => p.2.img.task == some t.id with
      | some p => (s.endWaiting { w with rc := 3 + p.1 } p.2.wait none).endSlot h t.ctx p.1 cause 0 0
      | none => s) s

/-- ECC_ENGINE to the physical function (R322). -/
def State.eccEngine (s : State) (source p : Nat) : State :=
  s.postInfo { fn := 0, fid := 0, cause := 0xAF, source := source, ctx := 0, rc := 3, resumable := false, addr := 0, pc := 0, lcore := 0xFFF, part := p,
               info := 0 }

/-- The record of a task is lost (R322): its handler ends with ECC_ENGINE; a task that has none, or has ended, fails with that record. -/
def State.softTask (s : State) (t : Task) : State :=
  match t.st with
  | .spec => s.trapTask t 0xAF
  | .oldest => s.trapTask t 0xAF
  | .failed => s
  | _ =>
    let f := s.unitRec t.srcCore t.ctx (s.tenant t.srcCore t.ctx).lcore 0xAF 0 t.chan t.id 0
    let t' := { t with st := .failed, stores := [], msgs := [], traps := [f] }
    if t.st = .held then (s.dropTask t.part t.id).post f else if t.dom = 0 then s.commit t' else s.setTask t'

/-- The record of an operation at a station is lost (R322): the operation fails with ECC_ENGINE. -/
def State.softOp (s : State) (n core rc q : Nat) : State :=
  let there := fun (w : Who) (o : Op) => o.parts.find? fun p => (s.peek w p.1).any fun h => space h == .hbm && stationOf h == n
  match s.opAt core rc q with
  | some (w, o) => (match there w o with | some p => s.opEnds w o 0xAF p.1 (BitVec.ofNat 64 n) (s.openParts w o p.1) | none => s)
  | none =>
    let w : Who := { core := core, ctx := s.live core, rc := rc }
    match s.waitOf w with
    | some x => match x.why with
      | .op o => if o.seq = q then (match there w o with | some p => s.endWaitWith w 0xAF p.1 (BitVec.ofNat 64 n) | none => s) else s
      | _ => s
    | none => s

/-- A half of the stationary plane is lost (R322): that of the MMUL under way, whose tile reads zero, or that of the preload, which fails. -/
def State.softPlane (s : State) (core ctx half : Nat) : Option State :=
  let m := (s.tenant core ctx).mx
  if half = 0 then m.queue.head?.map fun j =>
    (s.modMx core ctx fun m => m.setTile j.tile { m.tile j.tile with slot := [] }).mxFail core ctx { j with held := false } 0xAD 0
  else m.pre.map fun p =>
    (s.modMx core ctx fun m => { m with pre := some { p with cells := none, failed := true } }).deferMx core ctx 0xAD 0

/-- A soft error (R322): where it strikes. -/
def State.evSoft (s : State) (l : SoftLoc) : Option State :=
  match l with
  | .corrected => some { s with corrected := s.corrected + 1 }
  | .icache core => some { s with icache := s.icache.filter fun e => e.1 / 2 ^ 42 / 8 != core }
  | .gran home => match space home with
    | .host => none
    | .peer => none
    | _ => some { s with poison := Tbl.put false s.poison (home / 16) true }
  | .xreg core rc n => if 2 < rc ∨ n = 0 ∨ 31 < n then none
      else some (s.softReg core rc n fun t => t.setRcx rc ((t.rcx rc).wx n 0))
  | .wreg core rc n => if 2 < rc ∨ 23 < n then none
      else some (s.softReg core rc n fun t => t.setRcx rc ((t.rcx rc).ww n 0))
  | .greg core n => if n = 0 ∨ 15 < n then none else some (s.softReg core 0 n fun t => t.wg n (.empty 0))
  | .csr core rc n => if 2 < rc then none else some ((s.softReg core rc n (zeroCsr n rc)).loseCsr core (s.live core) n)
  | .inbox core half i =>
    let ctx := s.live core
    let t := s.tenant core ctx
    let u := half == 1
    (t.half u)[i]?.map fun m =>
      let s1 := s.setTenant core ctx (t.setHalf u ((t.half u).eraseIdx i)).episodes
      let id := ((m.msg.pay[4]?).getD 0).toNat
      let task := if m.msg.kind = 1 then id else 0
      let f := s.unitRec core ctx t.lcore 0xAC 0 m.msg.chan task 0
      if m.msg.kind = 1 then s1.taskEnd t.partid id (some f) else s1.post f
  | .tile core n =>
    let ctx := s.live core
    if (s.tenant core ctx).mx.count ≤ n then none
    else some ((s.modMx core ctx fun m => m.setTile n { m.tile n with slot := [] }).deferMx core ctx 0xAD n)
  | .plane core half => (s.softPlane core (s.live core) half).map fun t => t.dropHeld fun b => half == 0 && b == .matrix core (s.live core)
  | .spec p id => (s.findTask p id).bind fun t => match t.st with
    | .spec => some (s.abort t)
    | .ended => some (s.abort t)
    | .failed => some (s.abort t)
    | .oldest => some (s.trapTask t 0xAE)
    | _ => none
  | .transfer k => (s.xfers.find? fun x => x.id == k && x.accepted).map fun x =>
      let s1 := (s.dropHeld fun b => b == .xfer k || b == .comp k).eccEngine 1 x.part
      let y := { x with fault := x.fault.or (some 0xAF), heldPg := [], moves := [] }
      let s2 := s1.setXfer y
      (s2.finishXfer y).getD s2
  | .walk k => (s.walks.find? fun x => x.id == k && x.ready.isNone).map fun x =>
      ((s.dropHeld fun b => b == .walk k).eccEngine 3 x.part).endWalk { x with vers := x.lastVers } 4 0xAF
  | .station n core rc q => if 384 ≤ n then none else some ((s.eccEngine 5 ((s.owner core).getD 0)).softOp n core rc q)
  | .task p id => (s.findTask p id).map fun t => (s.eccEngine 4 p).softTask t

/-- SOFT_ERROR (R322): loc. -/
def execSoftError (s : State) : Out := happens s (s.evSoft s.inp.loc)

/-! ## Words that are no instruction (R56, R57) -/

/-- The features that a word of custom-2 belongs to (R350). -/
def simdFeatures (w : Nat) : List Nat :=
  let f7 := fld w 25 7
  let float := 4 ≤ fld w 12 3 || (0x38 ≤ f7 && f7 ≤ 0x3A && 4 ≤ fld w 20 5 && fld w 20 5 ≤ 7)
  if f7 = 0x3B ∨ f7 = 0x3C then [4]
  else (if float ∨ (0x20 ≤ f7 ∧ f7 ≤ 0x27) then [0] else []) ++ (if 0x28 ≤ f7 ∧ f7 ≤ 0x2D then [1] else [])
    ++ (if 0x48 ≤ f7 ∧ f7 ≤ 0x4D then [2] else []) ++ (if 0x50 ≤ f7 ∧ f7 ≤ 0x52 then [3] else [])

/-- The features that a word belongs to (R350), as the instruction that its selectors name. -/
def wordFeatures (w : Nat) (i : Instr) : List Nat :=
  if fld w 0 7 = 0x5B then simdFeatures w
  else match i with
    | .mcmd .. => [5, 9]
    | .rkload .. => [6] | .rkwalk .. => [6] | .tenq .. => [7] | .tcancel .. => [7]
    | .ldvD .. => [8] | .ldvQ .. => [8] | .stvD .. => [8] | .stvQ .. => [8] | .vwatch .. => [8]
    | .rcapmkR .. => [10] | .rcapmkW .. => [10] | .rcapmkRw .. => [10]
    | _ => if fld w 0 7 = 0x7B ∧ (fld w 12 3 = 3 ∨ fld w 12 3 = 4) then [5] else []

/-- NOT_AN_INSTRUCTION (R56, R57): word a. -/
def execNotAnInstruction (s : State) : Out :=
  let w := s.inp.a
  match decode w with
  | .illegal => trapNow s 0x00 (BitVec.ofNat 64 (w % 2 ^ 32)) 0
  | .reserved i =>
    if (wordFeatures w i).any fun f => bits (s.part s.tn.partid).feat f 1 == 1 then trapNow s 0x02 (BitVec.ofNat 64 (w % 2 ^ 32)) 0
    else trapNow s 0x01 (BitVec.ofNat 64 (w % 2 ^ 32)) 0
  | .instr _ => .next s

/-! ## Resets, measurements, power -/

/-- A home whose contents a module reset does not touch (log 40). -/
def survives (home : Nat) : Bool := match space home with | .tcm => false | .pan => false | .pond => false | _ => true

/-- The bits of a number that are set, below n. -/
def setBits (v n : Nat) : List Nat := (List.range n).filter fun i => v / 2 ^ i % 2 == 1

/-- MODULE_RESET (R361, R362): bit h of a says that the core of Hilbert index h fails its test, bit n of b that station n does (step 3), bit n of c
that link n is not trained (step 6), bit n of d that port n of tier 2 is not populated (R360). The indexes of the identity key and the log keys
go on (R364). -/
def execModuleReset (s : State) : Out :=
  .next { State.reset with
    agenda := s.agenda, inp := s.inp, fresh := s.fresh, keyGen := s.keyGen, mem := s.mem.filter (fun e => survives e.1),
    keytag := s.keytag.filter (fun e => survives (e.1 * 64)), poison := s.poison.filter (fun e => survives (e.1 * 16)),
    hostOut := s.hostOut, peerOut := s.peerOut, attests := s.attests,
    nextLogKey := s.nextLogKey, idIndex := s.idIndex, cfail := setBits s.inp.a 4096, failedStations := setBits s.inp.b 384,
    failedLinks := (setBits s.inp.c 22).filter (· != 1), t2empty := setBits s.inp.d 4 }

/-- BAR0 of a function at its reset values; the table entry, the keys, the log and the usage are kept (R331, R361). -/
def Part.resetBar (q : Part) : Part :=
  { Part.reset with
    cbase := q.cbase, clen := q.clen, feat := q.feat, s2root := q.s2root, slice := q.slice, resv := q.resv, qlim := q.qlim, qact := q.qact,
    ctxmax := q.ctxmax, period := q.period, savebase := q.savebase, epoch := q.epoch, pterr := q.pterr, quse := q.quse, qperiod := q.qperiod,
    qstart := q.qstart, qhit := q.qhit, keys := q.keys, capkey := q.capkey, keyhash := q.keyhash, log := q.log, nextFid := q.nextFid,
    nextSeq := q.nextSeq }

/-- A tenant context or a held request of the cores of a partition. -/
def HeldBy.ofCores (hs : List Nat) (b : HeldBy) : Bool :=
  match b with
  | .slot c _ _ _ => hs.contains c
  | .place w _ => hs.contains w.core
  | .op w _ => hs.contains w.core
  | .matrix c _ => hs.contains c
  | _ => false

/-- A home holds part of a context's image: the TCM of one of some cores, what is saved of a Pan for a partition, or a Pan whose cores are all among those
(R326). -/
def imageHome (hs : List Nat) (p home : Nat) : Bool :=
  match space home with
  | .tcm => hs.contains (home / 2 ^ 18 % 4096)
  | .pan =>
    let i := (home - 2 ^ 34) / 2 ^ 22
    if i < 256 then (List.range 16).all fun j => hs.contains (i * 16 + j) else (i / 256 - 1) / 8 == p
  | _ => false

/-- Steps 2–4 of a function-level reset, once the launches of step 1 have completed (R361). The cells of TCM and Pan go with the images: what nothing
has written since reads as after a module reset (log 40). -/
def State.flrEnd (s : State) (p : Nat) : State :=
  let hs := s.coresOf p
  let gone := imageHome hs p
  let cap := (s.part p).capkey
  let s := State.dropHeld { s with
    tenants := s.tenants.filter (fun t => !hs.contains (t.1 / 8)), images := s.images.filter (fun m => m.part != p),
    rkslots := s.rkslots.filter (fun m => m.part != p), xfers := s.xfers.filter (fun m => m.part != p), walks := s.walks.filter (fun m => m.part != p),
    frecs := s.frecs.filter (fun r => r.fn != p), flights := s.flights.filter (fun f => !hs.contains f.core),
    beds := s.beds.filter (fun b => b.1 / 16 / 2048 != p), workq := s.workq.filter (fun b => b.1 / 8 / 2048 != p),
    mem := s.mem.filter (fun e => !gone e.1), poison := s.poison.filter (fun e => !gone (e.1 * 16)),
    landed := s.landed.filter (fun e => !gone (e.1 * 16)), tags := s.tags.filter (fun e => !gone (e.1 * 1024)),
    icache := s.icache.filter (fun e => !hs.contains (e.1 / 2 ^ 42 / 8)),
    ptes := s.ptes.filter (fun e => e.part != p), tcache := s.tcache.filter (fun e => e.part != p) } (HeldBy.ofCores hs)
  let s := (List.range 16).foldl (fun s d => s.destroyKey p d) s
  let s := if cap = 0 then s else (s.modPart p fun q => { q with capkey := 0 }).usage p 3 0xFF 16 [1, 0]
  (s.modPart p Part.resetBar).genKeys p

/-- FUNCTION_LEVEL_RESET (R361) of virtual function p: the first time its bands are killed; once they have completed, the rest follows. -/
def State.evFlr (s : State) (p : Nat) : Option State :=
  if p = 0 ∨ 64 ≤ p then none
  else
    let mine := s.bands.filter fun b => b.part == p
    if mine.isEmpty then some (s.flrEnd p)
    else if (s.part p).flr then none
    else some ((mine.foldl (fun (s : State) b => if b.killed then s else s.killBand b) s).modPart p fun q => { q with flr := true })

/-- FUNCTION_LEVEL_RESET (R361): function a. -/
def execFunctionLevelReset (s : State) : Out := happens s (s.evFlr s.inp.a)

/-- GET_MEASUREMENTS (R364): the measurements and a signature of the identity key at an index that was not used before. -/
def execGetMeasurements (s : State) : Out :=
  .next { s with
    idIndex := s.idIndex + 1,
    attests := s.attests ++ [(List.range 136).map Config.measureByte ++ (List.range 2820).map (Config.sigByte (2 ^ 80 + s.idIndex))] }

/-- ACLK_CHANGE (R19, R365): step a, within the cap. -/
def execAclkChange (s : State) : Out := happens s (if s.inp.a ≤ s.aclkMax ∧ s.inp.a ≤ 9 then some { s with aclkStep := s.inp.a } else none)

/-- POWERCAP_WRITE (R365): value a; a step above the new cap comes down to it. A value above 9 is kept as 9, and so reads back as 9 (DESIGN CHOICE,
log 44). -/
def execPowercapWrite (s : State) : Out :=
  let m := min (s.inp.a % 16) 9
  .next { s with aclkMax := m, aclkStep := min s.aclkStep m }

/-- THERMAL_EMERGENCY (R21, R323): posted to every function; no new handler and no transfer from then on. It comes at the floor step of ACLK, not as a
forecast above it (DESIGN CHOICE, log 44). -/
def execThermalEmergency (s : State) : Out :=
  happens s (if s.thermal ∨ s.aclkStep ≠ 0 then none else some (State.toAll { s with thermal := true } 0xB1 6))

end Sys2Proof.Machine
end

