-- ==== Sys2Proof/Machine/Dispatch.lean ====
section
/-! DEFINITION. The meaning of an instruction: one arm for each constructor of Instr, each one direct call of the meaning of its own. -/

namespace Sys2Proof.Machine

/-- What an instruction, or an event of the part, does to the state. -/
def exec (i : Instr) (s : State) : Host.Outcome State Fault Refusal :=
  match i with
  | .lb rd rs1 imm => Sys2Proof.Machine.execLb rd rs1 imm s
  | .lh rd rs1 imm => Sys2Proof.Machine.execLh rd rs1 imm s
  | .lw rd rs1 imm => Sys2Proof.Machine.execLw rd rs1 imm s
  | .ld rd rs1 imm => Sys2Proof.Machine.execLd rd rs1 imm s
  | .lbu rd rs1 imm => Sys2Proof.Machine.execLbu rd rs1 imm s
  | .lhu rd rs1 imm => Sys2Proof.Machine.execLhu rd rs1 imm s
  | .lwu rd rs1 imm => Sys2Proof.Machine.execLwu rd rs1 imm s
  | .fence rd rs1 succ pred => Sys2Proof.Machine.execFence rd rs1 succ pred s
  | .fenceTso rd rs1 => Sys2Proof.Machine.execFenceTso rd rs1 s
  | .fenceFm8 rd rs1 succ pred => Sys2Proof.Machine.execFenceFm8 rd rs1 succ pred s
  | .addi rd rs1 imm => Sys2Proof.Machine.execAddi rd rs1 imm s
  | .slti rd rs1 imm => Sys2Proof.Machine.execSlti rd rs1 imm s
  | .sltiu rd rs1 imm => Sys2Proof.Machine.execSltiu rd rs1 imm s
  | .xori rd rs1 imm => Sys2Proof.Machine.execXori rd rs1 imm s
  | .ori rd rs1 imm => Sys2Proof.Machine.execOri rd rs1 imm s
  | .andi rd rs1 imm => Sys2Proof.Machine.execAndi rd rs1 imm s
  | .slli rd rs1 shamt => Sys2Proof.Machine.execSlli rd rs1 shamt s
  | .clz rd rs1 => Sys2Proof.Machine.execClz rd rs1 s
  | .ctz rd rs1 => Sys2Proof.Machine.execCtz rd rs1 s
  | .cpop rd rs1 => Sys2Proof.Machine.execCpop rd rs1 s
  | .sextB rd rs1 => Sys2Proof.Machine.execSextB rd rs1 s
  | .sextH rd rs1 => Sys2Proof.Machine.execSextH rd rs1 s
  | .srli rd rs1 shamt => Sys2Proof.Machine.execSrli rd rs1 shamt s
  | .srai rd rs1 shamt => Sys2Proof.Machine.execSrai rd rs1 shamt s
  | .rori rd rs1 shamt => Sys2Proof.Machine.execRori rd rs1 shamt s
  | .auipc rd imm => Sys2Proof.Machine.execAuipc rd imm s
  | .addiw rd rs1 imm => Sys2Proof.Machine.execAddiw rd rs1 imm s
  | .slliw rd rs1 shamt => Sys2Proof.Machine.execSlliw rd rs1 shamt s
  | .srliw rd rs1 shamt => Sys2Proof.Machine.execSrliw rd rs1 shamt s
  | .sraiw rd rs1 shamt => Sys2Proof.Machine.execSraiw rd rs1 shamt s
  | .sb rs1 rs2 imm => Sys2Proof.Machine.execSb rs1 rs2 imm s
  | .sh rs1 rs2 imm => Sys2Proof.Machine.execSh rs1 rs2 imm s
  | .sw rs1 rs2 imm => Sys2Proof.Machine.execSw rs1 rs2 imm s
  | .sd rs1 rs2 imm => Sys2Proof.Machine.execSd rs1 rs2 imm s
  | .amoaddW rd rs1 rs2 aq rl => Sys2Proof.Machine.execAmoaddW rd rs1 rs2 aq rl s
  | .amoswapW rd rs1 rs2 aq rl => Sys2Proof.Machine.execAmoswapW rd rs1 rs2 aq rl s
  | .amoxorW rd rs1 rs2 aq rl => Sys2Proof.Machine.execAmoxorW rd rs1 rs2 aq rl s
  | .amoorW rd rs1 rs2 aq rl => Sys2Proof.Machine.execAmoorW rd rs1 rs2 aq rl s
  | .amoandW rd rs1 rs2 aq rl => Sys2Proof.Machine.execAmoandW rd rs1 rs2 aq rl s
  | .amominW rd rs1 rs2 aq rl => Sys2Proof.Machine.execAmominW rd rs1 rs2 aq rl s
  | .amomaxW rd rs1 rs2 aq rl => Sys2Proof.Machine.execAmomaxW rd rs1 rs2 aq rl s
  | .amominuW rd rs1 rs2 aq rl => Sys2Proof.Machine.execAmominuW rd rs1 rs2 aq rl s
  | .amomaxuW rd rs1 rs2 aq rl => Sys2Proof.Machine.execAmomaxuW rd rs1 rs2 aq rl s
  | .amocasW rd rs1 rs2 aq rl => Sys2Proof.Machine.execAmocasW rd rs1 rs2 aq rl s
  | .amoaddD rd rs1 rs2 aq rl => Sys2Proof.Machine.execAmoaddD rd rs1 rs2 aq rl s
  | .amoswapD rd rs1 rs2 aq rl => Sys2Proof.Machine.execAmoswapD rd rs1 rs2 aq rl s
  | .amoxorD rd rs1 rs2 aq rl => Sys2Proof.Machine.execAmoxorD rd rs1 rs2 aq rl s
  | .amoorD rd rs1 rs2 aq rl => Sys2Proof.Machine.execAmoorD rd rs1 rs2 aq rl s
  | .amoandD rd rs1 rs2 aq rl => Sys2Proof.Machine.execAmoandD rd rs1 rs2 aq rl s
  | .amominD rd rs1 rs2 aq rl => Sys2Proof.Machine.execAmominD rd rs1 rs2 aq rl s
  | .amomaxD rd rs1 rs2 aq rl => Sys2Proof.Machine.execAmomaxD rd rs1 rs2 aq rl s
  | .amominuD rd rs1 rs2 aq rl => Sys2Proof.Machine.execAmominuD rd rs1 rs2 aq rl s
  | .amomaxuD rd rs1 rs2 aq rl => Sys2Proof.Machine.execAmomaxuD rd rs1 rs2 aq rl s
  | .amocasD rd rs1 rs2 aq rl => Sys2Proof.Machine.execAmocasD rd rs1 rs2 aq rl s
  | .amocasQ rd rs1 rs2 aq rl => Sys2Proof.Machine.execAmocasQ rd rs1 rs2 aq rl s
  | .add rd rs1 rs2 => Sys2Proof.Machine.execAdd rd rs1 rs2 s
  | .sll rd rs1 rs2 => Sys2Proof.Machine.execSll rd rs1 rs2 s
  | .slt rd rs1 rs2 => Sys2Proof.Machine.execSlt rd rs1 rs2 s
  | .sltu rd rs1 rs2 => Sys2Proof.Machine.execSltu rd rs1 rs2 s
  | .xorr rd rs1 rs2 => Sys2Proof.Machine.execXorr rd rs1 rs2 s
  | .srl rd rs1 rs2 => Sys2Proof.Machine.execSrl rd rs1 rs2 s
  | .orr rd rs1 rs2 => Sys2Proof.Machine.execOrr rd rs1 rs2 s
  | .andd rd rs1 rs2 => Sys2Proof.Machine.execAndd rd rs1 rs2 s
  | .sub rd rs1 rs2 => Sys2Proof.Machine.execSub rd rs1 rs2 s
  | .sra rd rs1 rs2 => Sys2Proof.Machine.execSra rd rs1 rs2 s
  | .andn rd rs1 rs2 => Sys2Proof.Machine.execAndn rd rs1 rs2 s
  | .mul rd rs1 rs2 => Sys2Proof.Machine.execMul rd rs1 rs2 s
  | .mulh rd rs1 rs2 => Sys2Proof.Machine.execMulh rd rs1 rs2 s
  | .mulhsu rd rs1 rs2 => Sys2Proof.Machine.execMulhsu rd rs1 rs2 s
  | .mulhu rd rs1 rs2 => Sys2Proof.Machine.execMulhu rd rs1 rs2 s
  | .div rd rs1 rs2 => Sys2Proof.Machine.execDiv rd rs1 rs2 s
  | .divu rd rs1 rs2 => Sys2Proof.Machine.execDivu rd rs1 rs2 s
  | .rem rd rs1 rs2 => Sys2Proof.Machine.execRem rd rs1 rs2 s
  | .remu rd rs1 rs2 => Sys2Proof.Machine.execRemu rd rs1 rs2 s
  | .minn rd rs1 rs2 => Sys2Proof.Machine.execMinn rd rs1 rs2 s
  | .minu rd rs1 rs2 => Sys2Proof.Machine.execMinu rd rs1 rs2 s
  | .maxx rd rs1 rs2 => Sys2Proof.Machine.execMaxx rd rs1 rs2 s
  | .maxu rd rs1 rs2 => Sys2Proof.Machine.execMaxu rd rs1 rs2 s
  | .sh1add rd rs1 rs2 => Sys2Proof.Machine.execSh1add rd rs1 rs2 s
  | .sh2add rd rs1 rs2 => Sys2Proof.Machine.execSh2add rd rs1 rs2 s
  | .sh3add rd rs1 rs2 => Sys2Proof.Machine.execSh3add rd rs1 rs2 s
  | .rol rd rs1 rs2 => Sys2Proof.Machine.execRol rd rs1 rs2 s
  | .ror rd rs1 rs2 => Sys2Proof.Machine.execRor rd rs1 rs2 s
  | .lui rd imm => Sys2Proof.Machine.execLui rd imm s
  | .addw rd rs1 rs2 => Sys2Proof.Machine.execAddw rd rs1 rs2 s
  | .sllw rd rs1 rs2 => Sys2Proof.Machine.execSllw rd rs1 rs2 s
  | .srlw rd rs1 rs2 => Sys2Proof.Machine.execSrlw rd rs1 rs2 s
  | .subw rd rs1 rs2 => Sys2Proof.Machine.execSubw rd rs1 rs2 s
  | .sraw rd rs1 rs2 => Sys2Proof.Machine.execSraw rd rs1 rs2 s
  | .mulw rd rs1 rs2 => Sys2Proof.Machine.execMulw rd rs1 rs2 s
  | .divw rd rs1 rs2 => Sys2Proof.Machine.execDivw rd rs1 rs2 s
  | .divuw rd rs1 rs2 => Sys2Proof.Machine.execDivuw rd rs1 rs2 s
  | .remw rd rs1 rs2 => Sys2Proof.Machine.execRemw rd rs1 rs2 s
  | .remuw rd rs1 rs2 => Sys2Proof.Machine.execRemuw rd rs1 rs2 s
  | .zextH rd rs1 => Sys2Proof.Machine.execZextH rd rs1 s
  | .beq rs1 rs2 imm => Sys2Proof.Machine.execBeq rs1 rs2 imm s
  | .bne rs1 rs2 imm => Sys2Proof.Machine.execBne rs1 rs2 imm s
  | .blt rs1 rs2 imm => Sys2Proof.Machine.execBlt rs1 rs2 imm s
  | .bge rs1 rs2 imm => Sys2Proof.Machine.execBge rs1 rs2 imm s
  | .bltu rs1 rs2 imm => Sys2Proof.Machine.execBltu rs1 rs2 imm s
  | .bgeu rs1 rs2 imm => Sys2Proof.Machine.execBgeu rs1 rs2 imm s
  | .jalr rd rs1 imm => Sys2Proof.Machine.execJalr rd rs1 imm s
  | .jal rd imm => Sys2Proof.Machine.execJal rd imm s
  | .ecall => Sys2Proof.Machine.execEcall s
  | .ebreak => Sys2Proof.Machine.execEbreak s
  | .csrrw rd rs1 csr => Sys2Proof.Machine.execCsrrw rd rs1 csr s
  | .csrrs rd rs1 csr => Sys2Proof.Machine.execCsrrs rd rs1 csr s
  | .csrrc rd rs1 csr => Sys2Proof.Machine.execCsrrc rd rs1 csr s
  | .csrrwi rd uimm csr => Sys2Proof.Machine.execCsrrwi rd uimm csr s
  | .csrrsi rd uimm csr => Sys2Proof.Machine.execCsrrsi rd uimm csr s
  | .csrrci rd uimm csr => Sys2Proof.Machine.execCsrrci rd uimm csr s
  | .done => Sys2Proof.Machine.execDone s
  | .bind rd rs1 rs2 => Sys2Proof.Machine.execBind rd rs1 rs2 s
  | .unbind rd rs1 => Sys2Proof.Machine.execUnbind rd rs1 s
  | .loopb rd rs1 => Sys2Proof.Machine.execLoopb rd rs1 s
  | .tcancel rd rs1 => Sys2Proof.Machine.execTcancel rd rs1 s
  | .send rd rs1 chan cnt urg bnc => Sys2Proof.Machine.execSend rd rs1 chan cnt urg bnc s
  | .tenq rd rs1 gr gw => Sys2Proof.Machine.execTenq rd rs1 gr gw s
  | .barrive rs1 bar op chan => Sys2Proof.Machine.execBarrive rs1 bar op chan s
  | .callt rd rs1 rs2 => Sys2Proof.Machine.execCallt rd rs1 rs2 s
  | .ldaqD rd rs1 imm => Sys2Proof.Machine.execLdaqD rd rs1 imm s
  | .ldaqQ rd rs1 imm => Sys2Proof.Machine.execLdaqQ rd rs1 imm s
  | .strlD rs1 rs2 imm => Sys2Proof.Machine.execStrlD rs1 rs2 imm s
  | .strlQ rs1 rs2 imm => Sys2Proof.Machine.execStrlQ rs1 rs2 imm s
  | .ldvD rd rs1 => Sys2Proof.Machine.execLdvD rd rs1 s
  | .ldvQ rd rs1 => Sys2Proof.Machine.execLdvQ rd rs1 s
  | .stvD rd rs1 rs2 => Sys2Proof.Machine.execStvD rd rs1 rs2 s
  | .stvQ rd rs1 rs2 => Sys2Proof.Machine.execStvQ rd rs1 rs2 s
  | .vwatch rd rs1 rs2 => Sys2Proof.Machine.execVwatch rd rs1 rs2 s
  | .dfence scope kinds => Sys2Proof.Machine.execDfence scope kinds s
  | .tfence => Sys2Proof.Machine.execTfence s
  | .iflush rs1 rs2 => Sys2Proof.Machine.execIflush rs1 rs2 s
  | .rkload rd rs1 rs2 => Sys2Proof.Machine.execRkload rd rs1 rs2 s
  | .rkwalk qd rs1 rs2 slot => Sys2Proof.Machine.execRkwalk qd rs1 rs2 slot s
  | .wld rd rs1 imm => Sys2Proof.Machine.execWld rd rs1 imm s
  | .wst rs1 rs2 imm => Sys2Proof.Machine.execWst rs1 rs2 imm s
  | .vadd wd ws1 ws2 ty => Sys2Proof.Machine.execVadd wd ws1 ws2 ty s
  | .vsub wd ws1 ws2 ty => Sys2Proof.Machine.execVsub wd ws1 ws2 ty s
  | .vmul wd ws1 ws2 ty => Sys2Proof.Machine.execVmul wd ws1 ws2 ty s
  | .vmulhS wd ws1 ws2 ty => Sys2Proof.Machine.execVmulhS wd ws1 ws2 ty s
  | .vmulhZ wd ws1 ws2 ty => Sys2Proof.Machine.execVmulhZ wd ws1 ws2 ty s
  | .vminS wd ws1 ws2 ty => Sys2Proof.Machine.execVminS wd ws1 ws2 ty s
  | .vminZ wd ws1 ws2 ty => Sys2Proof.Machine.execVminZ wd ws1 ws2 ty s
  | .vmaxS wd ws1 ws2 ty => Sys2Proof.Machine.execVmaxS wd ws1 ws2 ty s
  | .vmaxZ wd ws1 ws2 ty => Sys2Proof.Machine.execVmaxZ wd ws1 ws2 ty s
  | .vsaddS wd ws1 ws2 ty => Sys2Proof.Machine.execVsaddS wd ws1 ws2 ty s
  | .vsaddZ wd ws1 ws2 ty => Sys2Proof.Machine.execVsaddZ wd ws1 ws2 ty s
  | .vssubS wd ws1 ws2 ty => Sys2Proof.Machine.execVssubS wd ws1 ws2 ty s
  | .vssubZ wd ws1 ws2 ty => Sys2Proof.Machine.execVssubZ wd ws1 ws2 ty s
  | .vshl wd ws1 ws2 ty => Sys2Proof.Machine.execVshl wd ws1 ws2 ty s
  | .vshrS wd ws1 ws2 ty => Sys2Proof.Machine.execVshrS wd ws1 ws2 ty s
  | .vshrZ wd ws1 ws2 ty => Sys2Proof.Machine.execVshrZ wd ws1 ws2 ty s
  | .vand wd ws1 ws2 ty => Sys2Proof.Machine.execVand wd ws1 ws2 ty s
  | .vor wd ws1 ws2 ty => Sys2Proof.Machine.execVor wd ws1 ws2 ty s
  | .vxor wd ws1 ws2 ty => Sys2Proof.Machine.execVxor wd ws1 ws2 ty s
  | .vandn wd ws1 ws2 ty => Sys2Proof.Machine.execVandn wd ws1 ws2 ty s
  | .vcmpEq wd ws1 ws2 ty => Sys2Proof.Machine.execVcmpEq wd ws1 ws2 ty s
  | .vcmpNe wd ws1 ws2 ty => Sys2Proof.Machine.execVcmpNe wd ws1 ws2 ty s
  | .vcmpLt wd ws1 ws2 ty => Sys2Proof.Machine.execVcmpLt wd ws1 ws2 ty s
  | .vcmpLe wd ws1 ws2 ty => Sys2Proof.Machine.execVcmpLe wd ws1 ws2 ty s
  | .vcmpLtZ wd ws1 ws2 ty => Sys2Proof.Machine.execVcmpLtZ wd ws1 ws2 ty s
  | .vcmpLeZ wd ws1 ws2 ty => Sys2Proof.Machine.execVcmpLeZ wd ws1 ws2 ty s
  | .vsel wd ws1 ws2 ty => Sys2Proof.Machine.execVsel wd ws1 ws2 ty s
  | .vfadd wd ws1 ws2 ty => Sys2Proof.Machine.execVfadd wd ws1 ws2 ty s
  | .vfsub wd ws1 ws2 ty => Sys2Proof.Machine.execVfsub wd ws1 ws2 ty s
  | .vfmul wd ws1 ws2 ty => Sys2Proof.Machine.execVfmul wd ws1 ws2 ty s
  | .vfma wd ws1 ws2 ty => Sys2Proof.Machine.execVfma wd ws1 ws2 ty s
  | .vfmin wd ws1 ws2 ty => Sys2Proof.Machine.execVfmin wd ws1 ws2 ty s
  | .vfmax wd ws1 ws2 ty => Sys2Proof.Machine.execVfmax wd ws1 ws2 ty s
  | .vfdiv wd ws1 ws2 ty => Sys2Proof.Machine.execVfdiv wd ws1 ws2 ty s
  | .vfsqrt wd ws1 ty => Sys2Proof.Machine.execVfsqrt wd ws1 ty s
  | .vexp2 wd ws1 => Sys2Proof.Machine.execVexp2 wd ws1 s
  | .vlog2 wd ws1 => Sys2Proof.Machine.execVlog2 wd ws1 s
  | .vrcp wd ws1 => Sys2Proof.Machine.execVrcp wd ws1 s
  | .vrsqrt wd ws1 => Sys2Proof.Machine.execVrsqrt wd ws1 s
  | .vsinpi wd ws1 => Sys2Proof.Machine.execVsinpi wd ws1 s
  | .vcospi wd ws1 => Sys2Proof.Machine.execVcospi wd ws1 s
  | .vrsum wd ws1 ty => Sys2Proof.Machine.execVrsum wd ws1 ty s
  | .vrmax wd ws1 ty => Sys2Proof.Machine.execVrmax wd ws1 ty s
  | .vrmin wd ws1 ty => Sys2Proof.Machine.execVrmin wd ws1 ty s
  | .vcvt wd ws1 sty ty => Sys2Proof.Machine.execVcvt wd ws1 sty ty s
  | .vcvtHi wd ws1 sty ty => Sys2Proof.Machine.execVcvtHi wd ws1 sty ty s
  | .vcvtPk wd ws1 sty ty => Sys2Proof.Machine.execVcvtPk wd ws1 sty ty s
  | .vcvtl wd ws1 ty => Sys2Proof.Machine.execVcvtl wd ws1 ty s
  | .vcvtlf wd ws1 ty => Sys2Proof.Machine.execVcvtlf wd ws1 ty s
  | .vshuf wd ws1 ws2 ty => Sys2Proof.Machine.execVshuf wd ws1 ws2 ty s
  | .vbcast wd xs ty => Sys2Proof.Machine.execVbcast wd xs ty s
  | .vins wd xs lane ty => Sys2Proof.Machine.execVins wd xs lane ty s
  | .vext xd ws1 lane ty => Sys2Proof.Machine.execVext xd ws1 lane ty s
  | .vextz xd ws1 lane ty => Sys2Proof.Machine.execVextz xd ws1 lane ty s
  | .vksort wd ws1 ws2 ty => Sys2Proof.Machine.execVksort wd ws1 ws2 ty s
  | .vkmergeLo wd ws1 ws2 ty => Sys2Proof.Machine.execVkmergeLo wd ws1 ws2 ty s
  | .vkmergeHi wd ws1 ws2 ty => Sys2Proof.Machine.execVkmergeHi wd ws1 ws2 ty s
  | .vkcombAdd wd ws1 ws2 ty => Sys2Proof.Machine.execVkcombAdd wd ws1 ws2 ty s
  | .vkcombFirst wd ws1 ws2 ty => Sys2Proof.Machine.execVkcombFirst wd ws1 ws2 ty s
  | .vkmatch wd ws1 ws2 ty => Sys2Proof.Machine.execVkmatch wd ws1 ws2 ty s
  | .vsmmerge wd ws1 ws2 => Sys2Proof.Machine.execVsmmerge wd ws1 ws2 s
  | .vsmscale wd ws1 ws2 => Sys2Proof.Machine.execVsmscale wd ws1 ws2 s
  | .vsmnorm wd ws1 ws2 => Sys2Proof.Machine.execVsmnorm wd ws1 ws2 s
  | .runionEx rd rs1 rs2 => Sys2Proof.Machine.execRunionEx rd rs1 rs2 s
  | .runionSup rd rs1 rs2 => Sys2Proof.Machine.execRunionSup rd rs1 rs2 s
  | .rinterEx rd rs1 rs2 => Sys2Proof.Machine.execRinterEx rd rs1 rs2 s
  | .rinterSup rd rs1 rs2 => Sys2Proof.Machine.execRinterSup rd rs1 rs2 s
  | .rsubEx rd rs1 rs2 => Sys2Proof.Machine.execRsubEx rd rs1 rs2 s
  | .rsubSup rd rs1 rs2 => Sys2Proof.Machine.execRsubSup rd rs1 rs2 s
  | .rsubSub rd rs1 rs2 => Sys2Proof.Machine.execRsubSub rd rs1 rs2 s
  | .rdil rd rs1 rs2 => Sys2Proof.Machine.execRdil rd rs1 rs2 s
  | .rshift rd rs1 rs2 => Sys2Proof.Machine.execRshift rd rs1 rs2 s
  | .rproj rd rs1 rs2 => Sys2Proof.Machine.execRproj rd rs1 rs2 s
  | .rsplit rd rs1 rs2 => Sys2Proof.Machine.execRsplit rd rs1 rs2 s
  | .rclip rd rs1 rs2 => Sys2Proof.Machine.execRclip rd rs1 rs2 s
  | .rcount rd rs1 => Sys2Proof.Machine.execRcount rd rs1 s
  | .rtest rd rs1 rs2 => Sys2Proof.Machine.execRtest rd rs1 rs2 s
  | .rgetb rd rs1 rs2 => Sys2Proof.Machine.execRgetb rd rs1 rs2 s
  | .rld rd rs1 => Sys2Proof.Machine.execRld rd rs1 s
  | .rst rs1 rs2 => Sys2Proof.Machine.execRst rs1 rs2 s
  | .rb2 rd rs1 rs2 => Sys2Proof.Machine.execRb2 rd rs1 rs2 s
  | .rmask rd rs1 rs2 => Sys2Proof.Machine.execRmask rd rs1 rs2 s
  | .tilepost rd rs1 rs2 => Sys2Proof.Machine.execTilepost rd rs1 rs2 s
  | .tilenext rd rs1 => Sys2Proof.Machine.execTilenext rd rs1 s
  | .rgather rd rs1 rs2 gs => Sys2Proof.Machine.execRgather rd rs1 rs2 gs s
  | .rscatterSet rd rs1 rs2 gs => Sys2Proof.Machine.execRscatterSet rd rs1 rs2 gs s
  | .rscatterAdd rd rs1 rs2 gs => Sys2Proof.Machine.execRscatterAdd rd rs1 rs2 gs s
  | .rcopy rd rs1 rs2 => Sys2Proof.Machine.execRcopy rd rs1 rs2 s
  | .rstream qd rs1 gs => Sys2Proof.Machine.execRstream qd rs1 gs s
  | .rsink rd qs gs => Sys2Proof.Machine.execRsink rd qs gs s
  | .rwait rs1 rs2 => Sys2Proof.Machine.execRwait rs1 rs2 s
  | .rcapmkR rd rs1 rs2 => Sys2Proof.Machine.execRcapmkR rd rs1 rs2 s
  | .rcapmkW rd rs1 rs2 => Sys2Proof.Machine.execRcapmkW rd rs1 rs2 s
  | .rcapmkRw rd rs1 rs2 => Sys2Proof.Machine.execRcapmkRw rd rs1 rs2 s
  | .qbind qd rs1 rs2 => Sys2Proof.Machine.execQbind qd rs1 rs2 s
  | .qfree qd => Sys2Proof.Machine.execQfree qd s
  | .cinit rs1 rs2 => Sys2Proof.Machine.execCinit rs1 rs2 s
  | .carrive rs1 => Sys2Proof.Machine.execCarrive rs1 s
  | .cexpect rs1 rs2 => Sys2Proof.Machine.execCexpect rs1 rs2 s
  | .cwatch rs1 rs2 => Sys2Proof.Machine.execCwatch rs1 rs2 s
  | .bedset rs1 rs2 => Sys2Proof.Machine.execBedset rs1 rs2 s
  | .mmul rsB rsA ctile mode mcode ncode => Sys2Proof.Machine.execMmul rsB rsA ctile mode mcode ncode s
  | .mlds rs1 => Sys2Proof.Machine.execMlds rs1 s
  | .mstc rs1 tile => Sys2Proof.Machine.execMstc rs1 tile s
  | .mzero tile => Sys2Proof.Machine.execMzero tile s
  | .mcfg rs1 => Sys2Proof.Machine.execMcfg rs1 s
  | .mcmd rd rs1 rs2 => Sys2Proof.Machine.execMcmd rd rs1 rs2 s
  | .mwait => Sys2Proof.Machine.execMwait s
  | .moduleReset => Sys2Proof.Machine.execModuleReset s
  | .functionLevelReset => Sys2Proof.Machine.execFunctionLevelReset s
  | .aclkChange => Sys2Proof.Machine.execAclkChange s
  | .thermalEmergency => Sys2Proof.Machine.execThermalEmergency s
  | .linkFatal => Sys2Proof.Machine.execLinkFatal s
  | .powercapWrite => Sys2Proof.Machine.execPowercapWrite s
  | .lsubmit => Sys2Proof.Machine.execLsubmit s
  | .killh => Sys2Proof.Machine.execKillh s
  | .killb => Sys2Proof.Machine.execKillb s
  | .resumeReplay => Sys2Proof.Machine.execResumeReplay s
  | .resumeFail => Sys2Proof.Machine.execResumeFail s
  | .inval => Sys2Proof.Machine.execInval s
  | .invalComplete => Sys2Proof.Machine.execInvalComplete s
  | .s2invctl => Sys2Proof.Machine.execS2invctl s
  | .s2invComplete => Sys2Proof.Machine.execS2invComplete s
  | .mbdoor => Sys2Proof.Machine.execMbdoor s
  | .mbinReply => Sys2Proof.Machine.execMbinReply s
  | .managementMessage => Sys2Proof.Machine.execManagementMessage s
  | .ptabWrite => Sys2Proof.Machine.execPtabWrite s
  | .hdecWrite => Sys2Proof.Machine.execHdecWrite s
  | .keyLoad => Sys2Proof.Machine.execKeyLoad s
  | .keyDestroy => Sys2Proof.Machine.execKeyDestroy s
  | .registerWrite => Sys2Proof.Machine.execRegisterWrite s
  | .bar2Read => Sys2Proof.Machine.execBar2Read s
  | .bar2Write => Sys2Proof.Machine.execBar2Write s
  | .cxlMemRead => Sys2Proof.Machine.execCxlMemRead s
  | .cxlMemWrite => Sys2Proof.Machine.execCxlMemWrite s
  | .backInvalidationResponse => Sys2Proof.Machine.execBackInvalidationResponse s
  | .getMeasurements => Sys2Proof.Machine.execGetMeasurements s
  | .peerRequest => Sys2Proof.Machine.execPeerRequest s
  | .peerCompletion => Sys2Proof.Machine.execPeerCompletion s
  | .peerTimeout => Sys2Proof.Machine.execPeerTimeout s
  | .messageResident => Sys2Proof.Machine.execMessageResident s
  | .dispatch => Sys2Proof.Machine.execDispatch s
  | .overflowPresent => Sys2Proof.Machine.execOverflowPresent s
  | .watchdog => Sys2Proof.Machine.execWatchdog s
  | .translationFault => Sys2Proof.Machine.execTranslationFault s
  | .suspendOnSlotFree => Sys2Proof.Machine.execSuspendOnSlotFree s
  | .handlerResume => Sys2Proof.Machine.execHandlerResume s
  | .faultRecordPost => Sys2Proof.Machine.execFaultRecordPost s
  | .loadReturn => Sys2Proof.Machine.execLoadReturn s
  | .storePerformed => Sys2Proof.Machine.execStorePerformed s
  | .vwatchRegister => Sys2Proof.Machine.execVwatchRegister s
  | .amoAtHome => Sys2Proof.Machine.execAmoAtHome s
  | .taskDispatch => Sys2Proof.Machine.execTaskDispatch s
  | .taskCommit => Sys2Proof.Machine.execTaskCommit s
  | .launchPlace => Sys2Proof.Machine.execLaunchPlace s
  | .bandEnd => Sys2Proof.Machine.execBandEnd s
  | .launchComplete => Sys2Proof.Machine.execLaunchComplete s
  | .launchStatusWrite => Sys2Proof.Machine.execLaunchStatusWrite s
  | .barrierArrival => Sys2Proof.Machine.execBarrierArrival s
  | .transferDecision => Sys2Proof.Machine.execTransferDecision s
  | .transferComplete => Sys2Proof.Machine.execTransferComplete s
  | .streamDeliver => Sys2Proof.Machine.execStreamDeliver s
  | .neighbourElementArrive => Sys2Proof.Machine.execNeighbourElementArrive s
  | .neighbourCreditReturn => Sys2Proof.Machine.execNeighbourCreditReturn s
  | .mmulKstep => Sys2Proof.Machine.execMmulKstep s
  | .operandFetchFault => Sys2Proof.Machine.execOperandFetchFault s
  | .mcmdReceive => Sys2Proof.Machine.execMcmdReceive s
  | .rakeStep => Sys2Proof.Machine.execRakeStep s
  | .rakeHandoff => Sys2Proof.Machine.execRakeHandoff s
  | .rakeSlotLoad => Sys2Proof.Machine.execRakeSlotLoad s
  | .slHung => Sys2Proof.Machine.execSlHung s
  | .mxHung => Sys2Proof.Machine.execMxHung s
  | .rkHung => Sys2Proof.Machine.execRkHung s
  | .ctHung => Sys2Proof.Machine.execCtHung s
  | .sliceEnd => Sys2Proof.Machine.execSliceEnd s
  | .contextSwitch => Sys2Proof.Machine.execContextSwitch s
  | .periodEnd => Sys2Proof.Machine.execPeriodEnd s
  | .quotaLimitReached => Sys2Proof.Machine.execQuotaLimitReached s
  | .logBatchClose => Sys2Proof.Machine.execLogBatchClose s
  | .softError => Sys2Proof.Machine.execSoftError s
  | .notAnInstruction => Sys2Proof.Machine.execNotAnInstruction s
  | .preloadRead => Sys2Proof.Machine.execPreloadRead s
  | .peerServiceSignal => Sys2Proof.Machine.execPeerServiceSignal s

end Sys2Proof.Machine
end

