-- ==== Sys2Proof/Machine/Cycle.lean ====
section
/-! DEFINITION. One step of the module: fetching (R138, R155), one instruction of a core (R58, R84) or of a gang (R107, R108), an event,
time. What comes next is a choice of the device (R156): State.agenda holds the moves that come first; with none, the current core
runs, and where it cannot, the first event that can take place does (DESIGN CHOICE, log 2). -/

namespace Sys2Proof.Machine

/-! ## Fetch -/

/-- What fetching an instruction gives. -/
inductive Fetched where
  | word (s : State) (w : Nat)
  | wait
  | asked (s : State)
  | fault (s : State) (cause : Nat)

/-- The word at byte `o` of a line. -/
def lineWord (l : BitVec 512) (o : Nat) : Nat := l.toNat / 2 ^ (8 * o) % 2 ^ 32

/-- Fetches the word at the pc of the register context that acts: from its line of the instruction cache, or from global space (R128),
filling the line. -/
def State.fetch (s : State) : Fetched :=
  let w := s.cur
  let pc := s.rc.pc.toNat
  let key := lineKey w.core w.ctx (pc / 64)
  if s.window w pc ≠ .global then .fault s (mcause aFetch 6)
  else if Tbl.has s.icache key then .word s (lineWord (Tbl.get 0 s.icache key) (pc % 64))
  else match s.fetchLine w pc with
    | .ok s line => .word s (lineWord line (pc % 64))
    | .wait => .wait
    | .asked s => .asked s
    | .fault s k => .fault s (mcause aFetch k)

/-- Runs a fetched word (R56): a word that is no instruction is the event of its own. -/
def execWord (w : Nat) (s : State) : Out :=
  match decode w with
  | .instr i => exec i s
  | _ => exec .notAnInstruction { s with inp := { EvArgs.zero with a := w } }

/-- The instruction at the pc: fetched and run, or stalled, or its fetch faults (R138, R139). -/
def fetchExec (s : State) : Out :=
  match s.fetch with
  | .word s w => execWord w s
  | .wait => stall s
  | .asked s => stall s
  | .fault s c => memFault s c s.rc.pc.toNat 4

/-! ## Gangs (R66, R107, R108) -/

/-- The control instructions of R66. -/
def isControl (w : Nat) : Bool :=
  match decode w with
  | .instr (.beq ..) => true | .instr (.bne ..) => true | .instr (.blt ..) => true | .instr (.bge ..) => true
  | .instr (.bltu ..) => true | .instr (.bgeu ..) => true | .instr (.jal ..) => true | .instr (.jalr ..) => true
  | .instr (.callt ..) => true | _ => false

/-- The link register of JAL and CALLT. -/
def linkOf (w : Nat) : Nat :=
  match decode w with
  | .instr (.jal rd _) => rd
  | .instr (.callt rd _ _) => rd
  | _ => 0

/-- What an instruction came to on one member. -/
inductive Fate where
  | stalled | trapped | boundary | after | went
  deriving DecidableEq, Repr

/-- The fate of member h between states s and t. -/
def fate (s t : State) (h ctx : Nat) : Fate :=
  let a := s.tenant h ctx
  let b := t.tenant h ctx
  if t.stalled then .stalled
  else match b.n.run with
    | .running => .went
    | .held => match b.n.wait with | some x => if x.cont = a.n.pc then .boundary else .after | none => .after
    | .idle =>
      match b.slots.find? (fun p => !Tbl.has a.slots p.1) with
      | some (_, x) => if x.wait.cont = a.n.pc then .boundary else .after
      | none => if b.instret = a.instret then .trapped else .went

/-- One instruction on one member of a gang. -/
def onMember (w : Nat) (h : Nat) (s : State) : State :=
  match execWord w { s with cur := { s.cur with core := h, rc := 0 } } with
  | .next t => t
  | _ => s

/-- The members of a gang suspend together, under one number (R108): those that did so by themselves are given it, the others wait with them. -/
def State.markGang (s : State) (hs : List Nat) (ctx : Nat) : State :=
  let gid := s.nextId
  let mark := fun (x : Wait) => if x.gang.isNone then { x with gang := some gid } else x
  hs.foldl (fun (s : State) h =>
    let t := s.tenant h ctx
    if t.n.run = .running then
      s.setTenant h ctx (t.suspendOrHold 0 { why := .gang, pc := t.n.pc, cont := t.n.pc, need := 0, gang := some gid })
    else s.setTenant h ctx
      { t with slots := t.slots.map (fun p => if p.2.rc = 0 then (p.1, { p.2 with wait := mark p.2.wait }) else p),
               n := { t.n with wait := t.n.wait.map mark } }) { s with nextId := gid + 1 }

/-- What an instruction comes to on members of a gang that run it one after another: the state after them, and the fate of each, up to one that
stalls. -/
def runMembers (w ctx : Nat) (hs : List Nat) (s : State) : State × List (Nat × Fate) :=
  hs.foldl (fun (r : State × List (Nat × Fate)) h =>
    if r.1.stalled then r else let t := onMember w h r.1; (t, r.2 ++ [(h, fate r.1 t h ctx)])) (s, [])

/-- The trap records that stand in a state, on their way or held with a task. -/
def State.trapRecords (s : State) : List Flight :=
  ((s.flights ++ s.tasks.flatMap (·.traps)).filter fun f => f.msg.kind == 6).map fun f => { f with task := 0 }

/-- The record that a member of a gang that traps leaves between two states. -/
def newTrap (s t : State) : Option Flight := (s.trapRecords.foldl List.erase t.trapRecords).head?

/-- The members of a gang that trap, each with its record, where they run an instruction one after another. -/
def memberTraps (w ctx : Nat) (hs : List Nat) (s : State) : List (Nat × Option Flight) :=
  (hs.foldl (fun (r : State × List (Nat × Option Flight)) h =>
    let t := onMember w h r.1
    (t, if fate r.1 t h ctx = .trapped then r.2 ++ [(h, newTrap r.1 t)] else r.2)) (s, [])).2

/-- An MCFG of a gang waits at issue on every member, on one whose unit is ready too: none takes a received command (R107, R272). -/
def State.gangAtCfg (s : State) (hs : List Nat) (ctx w : Nat) : State :=
  match decode w with
  | .instr (.mcfg _) => hs.foldl (fun (s : State) h => s.modTenant h ctx fun t => { t with mx := { t.mx with atCfg := !t.mx.held } }) s
  | _ => s

/-- One instruction of a gang: each member acts on its own registers, the leader first (R107); a stall of one stalls all; a trap of one ends all at
the boundary before it, with the records of those that trap; a suspension of one suspends all (R108). Where a member traps only by what an earlier one
has done, nothing of the instruction stands; where it suspends so, what the members did before it does (DESIGN CHOICE, log 11). -/
def gangStep (s : State) (hs : List Nat) (w : Nat) : State :=
  let ctx := s.cur.ctx
  let s0 := { s with solo := true }
  let fin := fun (t : State) => { t with solo := s.solo, cur := s.cur }
  let only := if isControl w then [s.cur.core] else hs
  let all := runMembers w ctx only s0
  let fates := all.2
  let of := fun (f : Fate) => (fates.filter fun p => p.2 == f).map (·.1)
  let alone := fun (f : Fate) => let r := runMembers w ctx (of f) s0; if r.2.all fun p => p.2 == f then some r.1 else none
  if all.1.stalled || (isControl w && hs.any fun h => (s.tenant h ctx).n.busyX (linkOf w)) then
    let t := only.foldl (fun (t : State) h => let r := onMember w h { t with stalled := false }; if r.stalled then r else t) s0
    { fin (t.gangAtCfg hs ctx w) with stalled := true }
  else if fates.any (fun p => p.2 == .trapped) then
    let t := (alone .trapped).getD ((memberTraps w ctx only s0).foldl (fun (t : State) p => t.endOne { core := p.1, ctx := ctx, rc := 0 } false p.2) s0)
    fin (hs.foldl (fun t h => if (of .trapped).contains h then t else t.endRc { core := h, ctx := ctx, rc := 0 } true) t)
  else if fates.any (fun p => p.2 == .boundary) then fin (((alone .boundary).getD all.1).markGang hs ctx)
  else
    let t := all.1
    let r := (t.tenant s.cur.core ctx).n
    let t := if isControl w then
        hs.foldl (fun t h => if h = s.cur.core then t else t.modTenant h ctx fun n =>
          { n with n := { n.n.wx (linkOf w) (r.rx (linkOf w)) with pc := r.pc }, instret := n.instret + 1 }) t
      else t
    if fates.any (fun p => p.2 == .after) then fin (t.markGang hs ctx)
    else fin t

/-! ## One instruction boundary of a core -/

/-- The register context that holds the pipeline (R84). -/
def Tenant.active (t : Tenant) : Option Nat :=
  if t.o.run ≠ .idle then some 2 else if t.u.run ≠ .idle then some 1 else if t.n.run ≠ .idle then some 0 else none

/-- One ACLK of a core: its cycle counter, wdcnt of the register context that held the pipeline, the core-cycles of its partition (R74, R88,
R343); what accesses of the step have used of peer modules' answers is gone. -/
def State.tick (s : State) (w : Who) (was : RegCtx) : State :=
  let s := s.sweep
  let s := State.charge { s with cyc := Tbl.put 0 s.cyc w.core (Tbl.get 0 s.cyc w.core + 1) } (s.tenant w.core w.ctx).partid 0 1
  let r := s.rcx w
  if was.run = .running ∧ r.run = .running ∧ r.inv = was.inv ∧ !(w.rc = 0 ∧ (s.tenant w.core w.ctx).follower) then
    s.setRcx w { r with wdcnt := r.wdcnt + 1 }
  else s

/-- The same of each core of a gang (R74, R343). -/
def State.ticks (s : State) (hs : List Nat) (ctx : Nat) (before : State) : State :=
  hs.foldl (fun (s : State) h => s.tick { core := h, ctx := ctx, rc := 0 } (before.tenant h ctx).n) s

/-- A register context of higher precedence that has work takes the pipeline at the boundary (R84): a suspended handler of it that can go
on, a diverted message, an urgent message. -/
def State.preempt (s : State) (core rc : Nat) : Option State :=
  let t := s.tenant core (s.live core)
  let back := fun (j : Nat) => (t.slots.filter fun p => decide (rc < j) && p.2.rc == j).findSome? fun p => s.evResume core p.1
  if t.slots.isEmpty && t.inboxN.isEmpty && t.inboxU.isEmpty then none
  else (if rc < 2 then (back 2).or (s.evOverflow core) else none).or (if rc = 0 then (back 1).or (s.evDispatch core 1) else none)

/-- The current core runs: the instruction at the pc of the register context that holds the pipeline. -/
def coreStep (s : State) : Out :=
  let t := s.tn
  match t.active with
  | none => .next { s with stalled := true }
  | some rc =>
    let s := { s with cur := { s.cur with rc := rc }, stalled := false }
    let r := s.rc
    if r.run ≠ .running then .next { s with stalled := true }
    else match s.evWatchdog s.cur.core rc with
      | some s' => .next s'
      | none => match s.preempt s.cur.core rc with
      | some s' => .next s'
      | none =>
        let hs := if rc = 0 then s.gang s.cur.core s.cur.ctx else [s.cur.core]
        if 1 < hs.length then
          if t.follower then .next { s with stalled := true }
          else match s.fetch with
            | .word s' w => .next ((gangStep s' hs w).ticks hs s.cur.ctx s)
            | .wait => .next ({ s with stalled := true }.ticks hs s.cur.ctx s)
            | .asked s' => .next (State.ticks { s' with stalled := true } hs s.cur.ctx s)
            | .fault s' c => match memFault s' c r.pc.toNat 4 with
              | .next s'' => .next (s''.ticks hs s.cur.ctx s)
              | o => o
        else match fetchExec s with
          | .next s' => .next (s'.tick s.cur r)
          | o => o

/-! ## Time and events -/

/-- RCLK ticks pass (R20, R74, R88, R343): a running handler that holds the pipeline of its core spends the ACLK cycles too, and so does
its partition. -/
def State.elapse (s : State) (n : Nat) : State :=
  let c := n * (16 + s.aclkStep)
  let up := fun (r : RegCtx) => if r.run = .running then { r with wdcnt := r.wdcnt + c } else r
  let spend := fun (t : Tenant) => match t.active with
    | some 2 => { t with o := up t.o }
    | some 1 => { t with u := up t.u }
    | some 0 => if t.follower then t else { t with n := up t.n }
    | _ => t
  let here := fun (p : Nat × Tenant) => !s.away (p.1 / 8) (p.1 % 8)
  let busy := s.tenants.filter fun p => p.2.active.isSome && here p
  let s1 : State := { s with time := s.time + n, aclk := s.aclk + c, tenants := s.tenants.map fun p => if here p then (p.1, spend p.2) else p }
  busy.foldl (fun s p => s.charge p.2.partid 0 c) s1

/-- An event takes place: an instruction of the table, with its operands as the input. -/
def event (i : Instr) (a : EvArgs) (s : State) : Out :=
  match exec i { s with inp := a } with
  | .next t => .next t.sweep
  | o => o

/-- Events of the operations outstanding on a core. -/
def Tenant.opEvents (t : Tenant) (core : Nat) : List (Instr × EvArgs) :=
  let z := EvArgs.zero
  let of := fun (rc : Nat) (o : Op) =>
    let a := { z with a := core, b := rc, c := o.seq }
    [(Instr.loadReturn, a), (.storePerformed, a), (.amoAtHome, a), (.vwatchRegister, a), (.translationFault, a)]
  let waits := fun (rc : Nat) (w : Option Wait) => match w with
    | some x => (match x.why with | .op o => of rc o | _ => [])
    | none => []
  ([0, 1, 2].flatMap fun rc => (t.rcx rc).ops.flatMap (of rc) ++ waits rc (t.rcx rc).wait)
    ++ (t.slots.flatMap fun p => p.2.img.ops.flatMap (of (3 + p.1)) ++ waits (3 + p.1) (some p.2.wait))
    ++ (List.range t.mx.stores.length).map fun i => (.storePerformed, { z with a := core, b := 7, c := i })

/-- Events of a core. -/
def Tenant.coreEvents (t : Tenant) (core : Nat) : List (Instr × EvArgs) :=
  let z := EvArgs.zero
  let a := { z with a := core }
  [(Instr.messageResident, { a with flag := true })] ++ t.opEvents core
    ++ [(.mcmdReceive, z), (.mmulKstep, a), (.operandFetchFault, a), (.preloadRead, a)]
    ++ [0, 1, 2].map (fun rc => (.suspendOnSlotFree, { a with b := rc })) ++ t.slots.map (fun p => (.handlerResume, { a with b := p.1 }))
    ++ [(.overflowPresent, a), (.dispatch, { a with b := 1 }), (.dispatch, a)]

/-- Events of a partition. -/
def Part.events (q : Part) (p : Nat) : List (Instr × EvArgs) :=
  let a := { EvArgs.zero with a := p }
  [(Instr.taskDispatch, a), (.launchPlace, a), (.launchStatusWrite, a), (.faultRecordPost, a), (.invalComplete, a), (.periodEnd, a),
   (.quotaLimitReached, a), (.quotaLimitReached, { a with b := 1 }), (.logBatchClose, a), (.sliceEnd, a), (.contextSwitch, a)]
    ++ if q.flr then [(.functionLevelReset, a)] else []

/-- The candidates for the next event, in the order in which the model tries them (DESIGN CHOICE, log 2): what the module does by itself. -/
def State.candidates (s : State) : List (Instr × EvArgs) :=
  let z := EvArgs.zero
  let at_ := fun (i : Instr) (n : Nat) => (List.range n).map fun k => (i, { z with a := k })
  at_ .messageResident s.flights.length
    ++ (s.tenants.flatMap fun p => p.2.coreEvents (p.1 / 8))
    ++ (s.xfers.flatMap fun x => [(Instr.transferDecision, { z with a := x.id }), (.streamDeliver, { z with a := x.id }), (.transferComplete, { z with a := x.id })])
    ++ at_ .neighbourElementArrive s.nelems.length ++ at_ .neighbourCreditReturn s.ncredits.length
    ++ (s.walks.flatMap fun k => [(Instr.rakeHandoff, { z with a := k.id }), (.rakeStep, { z with a := k.id })])
    ++ (s.rkloads.flatMap fun k => k.todo.map fun n => (Instr.rakeSlotLoad, { z with a := k.id, b := n }))
    ++ at_ .barrierArrival s.arrivals.length
    ++ (s.tasks.map fun t => (Instr.taskCommit, { z with a := t.part, b := t.id }))
    ++ (s.bands.flatMap fun b => [(Instr.bandEnd, { z with a := b.part, b := b.ticket }), (.launchComplete, { z with a := b.part, b := b.ticket })])
    ++ (s.parts.flatMap fun q => q.2.events q.1) ++ [(.s2invComplete, z)] ++ at_ .peerTimeout s.peerReqs.length

/-- A core whose resident context has a handler to run; that of a gang runs with the leader, the urgent and overflow handlers of a follower by themselves
(R84). -/
def State.runnable (s : State) (k : Nat) (t : Tenant) : Bool :=
  !s.away (k / 8) (k % 8) && (match t.active with | some rc => (rc != 0 || !t.follower) && (t.rcx rc).run == .running | none => false)

/-- Where the current core stalls and nothing else can take place: the next core that has a handler runs; after the last one, a tick of
RCLK passes and the first one is next. -/
def turn (s : State) : Out :=
  let ks := (s.tenants.filter fun p => s.runnable p.1 p.2).map (·.1)
  let at_ := fun (k : Nat) => ({ core := k / 8, ctx := k % 8, rc := 0 } : Who)
  match ks.find? fun k => decide (tkey s.cur.core s.cur.ctx < k) with
  | some k => coreStep { s with cur := at_ k }
  | none => .next { s.elapse 1 with cur := match ks with | k :: _ => at_ k | [] => s.cur }

/-- The first candidate that changes the state; where none does, another core's turn. -/
def firstEvent (s : State) : List (Instr × EvArgs) → Out
  | [] => turn s
  | (i, a) :: l => match event i a s with
    | .next t => if { t with inp := s.inp } = s then firstEvent s l else .next { t with inp := s.inp }
    | _ => firstEvent s l

/-- The debugger changes the suspended image of a handler that EBREAK suspended (R69); a changed pc is where the handler goes on. One that is no multiple
of 4 is taken as it is: 32 bits are fetched at its offset in the line, with no check (R42 does not say; DESIGN CHOICE, log 27). -/
def Slot.edit (x : Slot) : Edit → Slot
  | .x i v => { x with img := x.img.wx i v }
  | .w i v => { x with img := x.img.ww i v }
  | .g i v => if i = 0 then x else { x with g := Tbl.put (Region.empty 0) x.g i v }
  | .pc v => { x with wait := { x.wait with cont := v } }

/-- The same for slot i of a tenant context. -/
def Tenant.edit (t : Tenant) (i : Nat) (e : Edit) : Tenant :=
  { t with slots := t.slots.map fun p => if p.1 = i ∧ p.2.wait.why = .ebreak then (p.1, p.2.edit e) else p }

/-- A host read of BAR0 (R330) answers the dword at its offset. -/
def State.bar0Read (s : State) (fn off : Nat) : State :=
  match s.bar0 fn off with
  | some v => { s with hostOut := s.hostOut ++ [(fn, v, false)] }
  | none => s

/-- The next move (log 2). -/
def move (s : State) : Out :=
  match s.agenda with
  | .run core ctx :: l => coreStep { s with agenda := l, cur := { core := core, ctx := ctx, rc := 0 } }
  | .look core ctx i :: l => (match coreStep { s with agenda := l, cur := { core := core, ctx := ctx, rc := 0 }, look := some i } with
    | .next t => .next { t with look := none }
    | o => o)
  | .event i a :: l => event i a { s with agenda := l }
  | .elapse n :: l => .next ({ s with agenda := l }.elapse n)
  | .evictT i :: l => .next { s with agenda := l, tcache := s.tcache.eraseIdx i }
  | .evictI i :: l => .next { s with agenda := l, icache := s.icache.eraseIdx i }
  | .bar0Read fn off :: l => .next ({ s with agenda := l }.bar0Read fn off)
  | .debug core ctx i e :: l => .next ({ s with agenda := l }.modTenant core ctx fun t => t.edit i e)
  | .caplist p ctx v :: l => .next ({ s with agenda := l }.setCaplist p ctx v)
  | .peerWatch g v :: l => .next ({ s with agenda := l }.fireComp g (CObj.ofGran v))
  | [] => if s.stalled then firstEvent { s with stalled := false } s.candidates else coreStep s

/-! ## A word to fetch next -/

/-- The address at which `withFetchWord` places an instruction. -/
def fetchBase : Nat := 0x10000000000

/-- A line of an instruction cache whose first word is w. -/
def wordLine (w : Nat) : BitVec 512 := BitVec.ofNat 512 (w % 2 ^ 32)

/-- The state with a word in the instruction cache of the current core, a running normal handler at it, and nothing that would come
first. -/
def State.place (s : State) (w : Nat) : State :=
  let t := s.tn
  let idle := fun (r : RegCtx) => { r with run := .idle }
  let t := { t with n := { t.n with pc := BitVec.ofNat 64 fetchBase, run := .running, wdcnt := 0, kept := [] }, u := idle t.u, o := idle t.o,
                    slots := t.slots.filter fun p => p.2.rc == 0, inboxN := [], inboxU := [] }
  let s := s.setTenant s.cur.core s.cur.ctx t
  { s with agenda := [], stalled := false, cur := { s.cur with rc := 0 },
           icache := Tbl.set s.icache (lineKey s.cur.core s.cur.ctx (fetchBase / 64)) (wordLine w) }

end Sys2Proof.Machine
end

