-- ==== Sys2Proof/Machine/Step.lean ====
section
/-! DEFINITION. The step of the module, and the placing of one instruction where it is fetched next. -/

namespace Sys2Proof.Machine

/-- One step: the next move (Machine/Cycle). -/
def step (s : State) : Host.Outcome State Fault Refusal := move s

/-- The state in which the next step fetches and runs the word w (notes/assumptions/9.md). Every instruction is one 32-bit word. -/
def State.withFetchWord (s : State) (_nbits w : Nat) : State := s.place w

end Sys2Proof.Machine
end

