-- ==== Sys2Proof/Safety.lean ====
section
/-! DEFINITION. What counts as a safe run (no step of it faults or is refused), and the terms in which the statements speak of a step:
conditions on the register context that acts, and what an instruction leaves as it was. -/

namespace Sys2Proof.Safety

open Sys2Proof.Machine

/-- The step at a state gives a next state. -/
def Goes (s : State) : Prop := ∃ t, step s = .next t

/-- n steps from a state all give a next state. -/
def SafeFor : Nat → State → Prop
  | 0, _ => True
  | n + 1, s => ∃ t, step s = .next t ∧ SafeFor n t

/-! ## Conditions -/

/-- The register context that acts is a live one: normal, urgent or overflow (R84), no suspended image. -/
abbrev Live (s : State) : Prop := s.cur.rc < 3
/-- None of these x registers waits for an outstanding operation (R59). -/
abbrev Ready (s : State) (regs : List Nat) : Prop := regs.any s.rc.busyX = false
/-- None of these region registers waits for a result (R59, R221). -/
abbrev ReadyG (s : State) (gs : List Nat) : Prop := gs.any s.rc.busyG = false
/-- These w fields name registers w0–w23, and none of them waits for an outstanding operation (R59, R195). -/
abbrev ReadyW (s : State) (is : List Nat) : Prop := (is.all fun i => decide (i < 24) && !s.rc.busyW i) = true
/-- None of these features is masked for the partition of the context (R350). -/
abbrev Unmasked (s : State) (fs : List Nat) : Prop := (fs.any fun f => bits (s.part s.tn.partid).feat f 1 == 1) = false
/-- No acquire is outstanding (R143). -/
abbrev NoAcquire (s : State) : Prop := s.acquiring = false
/-- No earlier store, acquire or fence keeps a command back whose engine lies in this scope (R152, R158). -/
abbrev Drained (s : State) (scope : Nat) : Prop := s.cmdWaits s.cur s.rc.seq scope = false
/-- No operation of the acting party is outstanding, and no fence keeps anything back. -/
abbrev NoneLeft (s : State) : Prop := s.opsOf s.cur = [] ∧ s.rc.fences = []
/-- No read of the instruction at the pc has been made ahead of it: they are made as it issues, one after the other (R156; `look` and `kept` are the
model's own). -/
abbrev Fresh (s : State) : Prop := s.look = none ∧ s.rc.kept = []
/-- The invocation is no speculative task (R114). -/
abbrev Plain (s : State) : Prop := s.rc.spec = false
/-- The state is one that runs can reach, as far as the statements need it: a live register context acts, and memory has its canonical form. -/
abbrev Good (s : State) : Prop := Live s ∧ Memory.wf s.mem = true

/-! ## What is left as it was. The bytes `kept` for the instruction at the pc, which are the model's own, go as it retires. -/

/-- Nothing but the acting tenant context on the acting core has changed: not memory, not another core or context, not a unit. -/
abbrev OnlyTenant (s t : State) : Prop :=
  { t with tenants := s.tenants } = s ∧ ∀ c x, tkey c x ≠ tkey s.cur.core s.cur.ctx → t.tenant c x = s.tenant c x

/-- Nothing but the acting register context and instret has changed. -/
abbrev OnlyContext (s t : State) : Prop :=
  OnlyTenant s t ∧ { t.tn.setRcx s.cur.rc s.rc with instret := s.tn.instret } = s.tn

/-- The instruction has retired and the next one follows it. -/
abbrev Advanced (s t : State) : Prop := t.rc.pc = s.rc.pc + 4 ∧ t.tn.instret = s.tn.instret + 1

/-- Nothing but x[rd], pc and instret has changed: no other register, no flag, no CSR, no byte of memory. -/
abbrev OnlyX (s t : State) (rd : Nat) : Prop :=
  OnlyContext s t ∧ { t.rc with x := s.rc.x, pc := s.rc.pc, kept := s.rc.kept } = s.rc ∧ ∀ i, i ≠ rd → t.x i = s.x i

/-- Nothing but x[rd], pc, instret and the fields of the tenant context that `old` puts back has changed. -/
abbrev OnlyXBut (s t : State) (rd : Nat) (old : Tenant → Tenant) : Prop :=
  OnlyTenant s t ∧ old { t.tn.setRcx s.cur.rc s.rc with instret := s.tn.instret } = s.tn
    ∧ { t.rc with x := s.rc.x, pc := s.rc.pc, kept := s.rc.kept } = s.rc ∧ ∀ i, i ≠ rd → t.x i = s.x i

/-- Nothing but pc and instret has changed. -/
abbrev OnlyPc (s t : State) : Prop := OnlyContext s t ∧ { t.rc with pc := s.rc.pc, kept := s.rc.kept } = s.rc

/-- Nothing but w[wd], fflags, pc, instret and the event counters has changed. -/
abbrev OnlyW (s t : State) (wd : Nat) : Prop :=
  OnlyTenant s t ∧ { t.tn.setRcx s.cur.rc s.rc with instret := s.tn.instret, evc := s.tn.evc } = s.tn
    ∧ { t.rc with w := s.rc.w, pc := s.rc.pc, fflags := s.rc.fflags, kept := s.rc.kept } = s.rc ∧ ∀ i, i ≠ wd → t.rc.rw i = s.rc.rw i

/-- Nothing but g[rd], pc, instret and the counter of approximations evc4 has changed (R221). -/
abbrev OnlyG (s t : State) (rd : Nat) : Prop :=
  OnlyTenant s t ∧ { t.tn.setRcx s.cur.rc s.rc with instret := s.tn.instret, g := s.tn.g, evc := s.tn.evc } = s.tn
    ∧ { t.rc with pc := s.rc.pc, kept := s.rc.kept } = s.rc ∧ (∀ i, i ≠ rd → t.g i = s.g i) ∧ ∀ i, i ≠ 4 → Tbl.get 0 t.tn.evc i = Tbl.get 0 s.tn.evc i

/-- The same of an instruction that loads: the number of its operation is used up. -/
abbrev OnlyGRead (s t : State) (rd : Nat) : Prop :=
  OnlyTenant s t ∧ { t.tn.setRcx s.cur.rc s.rc with instret := s.tn.instret, g := s.tn.g, evc := s.tn.evc } = s.tn
    ∧ { t.rc with pc := s.rc.pc, seq := s.rc.seq, kept := s.rc.kept } = s.rc ∧ (∀ i, i ≠ rd → t.g i = s.g i)
    ∧ ∀ i, i ≠ 4 → Tbl.get 0 t.tn.evc i = Tbl.get 0 s.tn.evc i

/-- The bytes outside [a, a + n) read as before. -/
abbrev SameOutsideOf (s t : State) (a n : Nat) : Prop := ∀ b, b < a ∨ a + n ≤ b → t.byte b = s.byte b

/-- What a handler leaves when it ends: its register context idle, with no message, no channel, an empty outbox (R94). -/
abbrev Ended (r : RegCtx) : Prop := r.run = .idle ∧ r.msg = none ∧ r.chan = none ∧ r.outbox = [] ∧ r.task = none ∧ r.spec = false

end Sys2Proof.Safety
end

