-- ==== Sys2Proof/Certificates/Slice0/Obligations.lean ====
section
/-! DEFINITION. The statements for the provers. First, under Sys2Proof.Spec, the rules of the manual as functions of operand values, written
from the manual's tables in integer arithmetic; then one definition for each statement. -/

namespace Sys2Proof.Spec

open Sys2Proof.Machine

/-! ## Integer instructions (R60, R61) -/

/-- An integer modulo 2^64. -/
def w64 (i : Int) : Word := BitVec.ofInt 64 i
/-- The low 32 bits of an integer, sign-extended (the W forms). -/
def w32 (i : Int) : Word := BitVec.ofInt 64 (BitVec.ofInt 32 i).toInt
/-- An immediate of n bits as the signed number it stands for. -/
def simm (v n : Nat) : Int := if v < 2 ^ (n - 1) then (v : Int) else (v : Int) - (2 ^ n : Nat)
/-- Bits [31:0] as a signed and as an unsigned number. -/
def lo32s (a : Word) : Int := (a.setWidth 32).toInt
def lo32u (a : Word) : Nat := a.toNat % 2 ^ 32
/-- 1 where something holds. -/
def bit (c : Bool) : Word := if c then 1 else 0

/-- R60: the register-register instructions: destination, sources, and the value of x[rd]. -/
def registerRule : Instr → Option (Nat × Nat × Nat × (Word → Word → Word))
  | .add rd a b => some (rd, a, b, fun x y => w64 (x.toInt + y.toInt))
  | .sub rd a b => some (rd, a, b, fun x y => w64 (x.toInt - y.toInt))
  | .andd rd a b => some (rd, a, b, fun x y => x &&& y)
  | .orr rd a b => some (rd, a, b, fun x y => x ||| y)
  | .xorr rd a b => some (rd, a, b, fun x y => x ^^^ y)
  | .andn rd a b => some (rd, a, b, fun x y => x &&& ~~~y)
  | .slt rd a b => some (rd, a, b, fun x y => bit (decide (x.toInt < y.toInt)))
  | .sltu rd a b => some (rd, a, b, fun x y => bit (decide (x.toNat < y.toNat)))
  | .sll rd a b => some (rd, a, b, fun x y => w64 (x.toNat * 2 ^ (y.toNat % 64)))
  | .srl rd a b => some (rd, a, b, fun x y => w64 (x.toNat / 2 ^ (y.toNat % 64)))
  | .sra rd a b => some (rd, a, b, fun x y => w64 (x.toInt / 2 ^ (y.toNat % 64)))
  | .rol rd a b => some (rd, a, b, fun x y => w64 (x.toNat * 2 ^ (y.toNat % 64) + x.toNat / 2 ^ (64 - y.toNat % 64)))
  | .ror rd a b => some (rd, a, b, fun x y => w64 (x.toNat / 2 ^ (y.toNat % 64) + x.toNat * 2 ^ (64 - y.toNat % 64)))
  | .mul rd a b => some (rd, a, b, fun x y => w64 (x.toInt * y.toInt))
  | .mulh rd a b => some (rd, a, b, fun x y => w64 (x.toInt * y.toInt / 2 ^ 64))
  | .mulhsu rd a b => some (rd, a, b, fun x y => w64 (x.toInt * y.toNat / 2 ^ 64))
  | .mulhu rd a b => some (rd, a, b, fun x y => w64 (x.toNat * y.toNat / 2 ^ 64))
  | .minn rd a b => some (rd, a, b, fun x y => if x.toInt ≤ y.toInt then x else y)
  | .maxx rd a b => some (rd, a, b, fun x y => if x.toInt ≤ y.toInt then y else x)
  | .minu rd a b => some (rd, a, b, fun x y => if x.toNat ≤ y.toNat then x else y)
  | .maxu rd a b => some (rd, a, b, fun x y => if x.toNat ≤ y.toNat then y else x)
  | .sh1add rd a b => some (rd, a, b, fun x y => w64 (2 * x.toNat + y.toNat))
  | .sh2add rd a b => some (rd, a, b, fun x y => w64 (4 * x.toNat + y.toNat))
  | .sh3add rd a b => some (rd, a, b, fun x y => w64 (8 * x.toNat + y.toNat))
  | .addw rd a b => some (rd, a, b, fun x y => w32 (x.toInt + y.toInt))
  | .subw rd a b => some (rd, a, b, fun x y => w32 (x.toInt - y.toInt))
  | .mulw rd a b => some (rd, a, b, fun x y => w32 (lo32s x * lo32s y))
  | .sllw rd a b => some (rd, a, b, fun x y => w32 (lo32u x * 2 ^ (y.toNat % 32)))
  | .srlw rd a b => some (rd, a, b, fun x y => w32 (lo32u x / 2 ^ (y.toNat % 32)))
  | .sraw rd a b => some (rd, a, b, fun x y => w32 (lo32s x / 2 ^ (y.toNat % 32)))
  | _ => none

/-- R60: the instructions on one register, or none, and an immediate: destination, sources, the value from pc and x[rs1]. -/
def immediateRule : Instr → Option (Nat × List Nat × Nat × (Word → Word → Word))
  | .addi rd a i => some (rd, [a], a, fun _ x => w64 (x.toInt + simm i 12))
  | .slti rd a i => some (rd, [a], a, fun _ x => bit (decide (x.toInt < simm i 12)))
  | .sltiu rd a i => some (rd, [a], a, fun _ x => bit (decide (x.toNat < (w64 (simm i 12)).toNat)))
  | .xori rd a i => some (rd, [a], a, fun _ x => x ^^^ w64 (simm i 12))
  | .ori rd a i => some (rd, [a], a, fun _ x => x ||| w64 (simm i 12))
  | .andi rd a i => some (rd, [a], a, fun _ x => x &&& w64 (simm i 12))
  | .slli rd a n => some (rd, [a], a, fun _ x => w64 (x.toNat * 2 ^ n))
  | .srli rd a n => some (rd, [a], a, fun _ x => w64 (x.toNat / 2 ^ n))
  | .srai rd a n => some (rd, [a], a, fun _ x => w64 (x.toInt / 2 ^ n))
  | .rori rd a n => some (rd, [a], a, fun _ x => w64 (x.toNat / 2 ^ n + x.toNat * 2 ^ (64 - n)))
  | .addiw rd a i => some (rd, [a], a, fun _ x => w32 (x.toInt + simm i 12))
  | .slliw rd a n => some (rd, [a], a, fun _ x => w32 (lo32u x * 2 ^ n))
  | .srliw rd a n => some (rd, [a], a, fun _ x => w32 (lo32u x / 2 ^ n))
  | .sraiw rd a n => some (rd, [a], a, fun _ x => w32 (lo32s x / 2 ^ n))
  | .clz rd a => some (rd, [a], a, fun _ x => w64 ((List.range 64).filter fun n => decide (x.toNat < 2 ^ (63 - n))).length)
  | .ctz rd a => some (rd, [a], a, fun _ x => w64 ((List.range 64).filter fun n => x.toNat % 2 ^ (n + 1) == 0).length)
  | .cpop rd a => some (rd, [a], a, fun _ x => w64 ((List.range 64).filter fun n => x.toNat / 2 ^ n % 2 == 1).length)
  | .sextB rd a => some (rd, [a], a, fun _ x => w64 (simm (x.toNat % 2 ^ 8) 8))
  | .sextH rd a => some (rd, [a], a, fun _ x => w64 (simm (x.toNat % 2 ^ 16) 16))
  | .zextH rd a => some (rd, [a], a, fun _ x => w64 (x.toNat % 2 ^ 16))
  | .lui rd i => some (rd, [], 0, fun _ _ => w64 (simm (i * 4096) 32))
  | .auipc rd i => some (rd, [], 0, fun pc _ => w64 (pc.toInt + simm (i * 4096) 32))
  | _ => none

/-- R60, R61: division at a width: the dividend and the divisor as signed or unsigned numbers, truncating toward zero. -/
def quot (signed : Bool) (w : Nat) (x y : Int) : Int :=
  if y = 0 then -1 else if signed ∧ x = -(2 ^ (w - 1)) ∧ y = -1 then x else x.tdiv y
def rest (signed : Bool) (w : Nat) (x y : Int) : Int :=
  if y = 0 then x else if signed ∧ x = -(2 ^ (w - 1)) ∧ y = -1 then 0 else x.tmod y

/-- The division instructions: destination, sources, result. -/
def divisionRule : Instr → Option (Nat × Nat × Nat × (Word → Word → Word))
  | .div rd a b => some (rd, a, b, fun x y => w64 (quot true 64 x.toInt y.toInt))
  | .divu rd a b => some (rd, a, b, fun x y => w64 (quot false 64 x.toNat y.toNat))
  | .rem rd a b => some (rd, a, b, fun x y => w64 (rest true 64 x.toInt y.toInt))
  | .remu rd a b => some (rd, a, b, fun x y => w64 (rest false 64 x.toNat y.toNat))
  | .divw rd a b => some (rd, a, b, fun x y => w32 (quot true 32 (lo32s x) (lo32s y)))
  | .divuw rd a b => some (rd, a, b, fun x y => w32 (quot false 32 (lo32u x) (lo32u y)))
  | .remw rd a b => some (rd, a, b, fun x y => w32 (rest true 32 (lo32s x) (lo32s y)))
  | .remuw rd a b => some (rd, a, b, fun x y => w32 (rest false 32 (lo32u x) (lo32u y)))
  | _ => none

/-- R64: the conditional branches: sources, offset, condition. -/
def branchRule : Instr → Option (Nat × Nat × Nat × (Word → Word → Bool))
  | .beq a b i => some (a, b, i, fun x y => x == y)
  | .bne a b i => some (a, b, i, fun x y => !(x == y))
  | .blt a b i => some (a, b, i, fun x y => decide (x.toInt < y.toInt))
  | .bge a b i => some (a, b, i, fun x y => decide (y.toInt ≤ x.toInt))
  | .bltu a b i => some (a, b, i, fun x y => decide (x.toNat < y.toNat))
  | .bgeu a b i => some (a, b, i, fun x y => decide (y.toNat ≤ x.toNat))
  | _ => none

end Sys2Proof.Spec

open Sys2Proof Sys2Proof.Machine Sys2Proof.Safety Sys2Proof.Spec

/-! ## Fetching and decoding -/

/-- A STEP RUNS THE DECODED INSTRUCTION (R56, R58, R84): with no move ahead of it, the context that holds the pipeline running outside a gang
and no watchdog due nor work of a context of higher precedence waiting, the step fetches a word and, where it decodes to an instruction, runs exactly that one, then counts the cycle. A word
that decodes to none is the event NOT_AN_INSTRUCTION on it. -/
def Obligations.StepRunsDecoded : Prop :=
  ∀ (s f : State) (w : Nat), s.agenda = [] → s.stalled = false → s.tn.active = some s.cur.rc → s.rc.run = .running →
    s.evWatchdog s.cur.core s.cur.rc = none → s.preempt s.cur.core s.cur.rc = none → (s.cur.rc = 0 → (s.gang s.cur.core s.cur.ctx).length ≤ 1) → s.fetch = .word f w →
    (∀ i t, decode w = .instr i → exec i f = .next t → step s = .next (t.tick s.cur s.rc))
    ∧ (∀ t, (decode w = .illegal ∨ ∃ i, decode w = .reserved i) → exec .notAnInstruction { f with inp := { EvArgs.zero with a := w } } = .next t →
        step s = .next (t.tick s.cur s.rc))

/-- The word fetched is the four bytes at the pc, little-endian (R42, R138, R155): from the cached line where there is one; else from
memory of the module at the place to which an executable page translates, whose line is then cached. No earlier read of the instruction is kept for it (`kept` is
the model's own). -/
def Obligations.FetchReadsBytesAtPc : Prop :=
  ∀ s : State, s.window s.cur s.rc.pc.toNat = .global → s.rc.kept = [] →
    let pc := s.rc.pc.toNat
    let key := lineKey s.cur.core s.cur.ctx (pc / 64)
    (Tbl.has s.icache key = true → s.fetch = .word s ((Tbl.get 0 s.icache key).toNat / 2 ^ (8 * (pc % 64)) % 2 ^ 32))
    ∧ (∀ (l : State) (sp : Spot), Tbl.has s.icache key = false → (s.locate s.cur (pc / 64 * 64) 4 false).s = l →
        (s.locate s.cur (pc / 64 * 64) 4 false).res = .ok sp → s.heldLine sp.home = false → l.poisoned sp.home 64 = false → l.garbled sp = false → space sp.home ≠ .peer →
        pc % 4 = 0 →
        ∃ f, s.fetch = .word f (leNat (l.bytes (sp.home + pc % 64) 4)) ∧ f.mem = l.mem ∧ f.rc = l.rc ∧ Tbl.has f.icache key = true)

/-- Words written out from the encoding tables (R48, R50–R54) decode to the instructions that they stand for: ADDI x1, x2, −3; SUB x3, x4,
x5; SD x6, −8(x7); BEQ x8, x9, −4; JAL x1, 2048; LUI x10, 0x12345; AMOCAS.Q x10, x11, x12; CSRRW x1, x2, 0x802; SEND x5, x6, c33, cnt 7,
urgent; VINS w3, x4, lane 5, I16; MMUL with tile 2, OUTER, MCODE 1, NCODE 9; RGATHER with g7. -/
def Obligations.WordsDecodeAsEncoded : Prop :=
  decode 0xFFD10093 = .instr (.addi 1 2 0xFFD) ∧ decode 0x405201B3 = .instr (.sub 3 4 5) ∧ decode 0xFE63BC23 = .instr (.sd 7 6 0xFF8)
    ∧ decode 0xFE940EE3 = .instr (.beq 8 9 0x1FFC) ∧ decode 0x001000EF = .instr (.jal 1 2048) ∧ decode 0x12345537 = .instr (.lui 10 0x12345)
    ∧ decode 0x28C5C52F = .instr (.amocasQ 10 11 12 0 0) ∧ decode 0x802110F3 = .instr (.csrrw 1 2 0x802)
    ∧ decode 0x5E13128B = .instr (.send 5 6 33 7 1 0) ∧ decode 0x845211DB = .instr (.vins 3 4 5 1)
    ∧ decode 0x2561B17B = .instr (.mmul 2 3 2 1 1 9) ∧ decode 0x383110FB = .instr (.rgather 1 2 3 7) ∧ decode 0x38419 = .illegal

/-- No bit of an encoding is dropped: every well-formed instruction is what its word decodes to, with every operand at every value that the
encoding admits (R48, R50–R55). -/
def Obligations.DecodeOfEncode : Prop :=
  ∀ (i : Instr) (w : Nat), i.wf = true → encode i = some w → w < 2 ^ 32 ∧ decode w = .instr i

/-- Every word has one meaning: a word that decodes to an instruction is the word that the instruction encodes to, and the instruction is
well formed (R48, R50–R56). -/
def Obligations.EncodeOfDecode : Prop :=
  ∀ (i : Instr) (w : Nat), w < 2 ^ 32 → decode w = .instr i → i.wf = true ∧ encode i = some w

/-! ## Invariants -/

/-- The state after reset is good: memory is canonical, and a live register context acts (R361, R362; that no byte is listed is the model's
form, log 5). -/
def Obligations.ResetIsGood : Prop := Good State.reset

/-- EVERY STEP KEEPS the canonical form of memory (addresses strictly rising, no byte listed that reads as an unwritten one) and leaves a
live register context acting (R84): whatever instruction or event it is, and whatever it traps on. -/
def Obligations.StepKeepsGood : Prop := ∀ s t : State, Good s → step s = .next t → Good t

/-- No step of the machine stops: the manual gives every error a trap or a record, and each instruction and event has its effect. -/
def Obligations.EveryStepGoes : Prop := ∀ s : State, Goes s

/-! ## Scalar instructions -/

/-- R60: a register-register instruction of the standard parts writes its value to x[rd], retires, and changes nothing else: no other
register, no flag, no byte of memory. -/
def Sys2Proof.Spec.RegisterInstructionResults : Prop :=
  ∀ (i : Instr) (rd a b : Nat) (f : Word → Word → Word) (s : State), registerRule i = some (rd, a, b, f) → Live s → rd ≠ 0 → Ready s [rd, a, b] →
    ∃ t, exec i s = .next t ∧ t.x rd = f (s.x a) (s.x b) ∧ Advanced s t ∧ OnlyX s t rd

/-- R60: the same for the instructions with an immediate, CLZ to ZEXT.H, LUI and AUIPC. -/
def Sys2Proof.Spec.ImmediateInstructionResults : Prop :=
  ∀ (i : Instr) (rd a : Nat) (l : List Nat) (f : Word → Word → Word) (s : State), immediateRule i = some (rd, l, a, f) → i.wf = true → Live s →
    rd ≠ 0 → Ready s (rd :: l) →
    ∃ t, exec i s = .next t ∧ t.x rd = f s.rc.pc (s.x a) ∧ Advanced s t ∧ OnlyX s t rd

/-- R61: division never traps and sets no flag: a divisor of zero, the one overflow, and the rest truncating toward zero (R60), in both
widths. -/
def Obligations.DivisionResults : Prop :=
  ∀ (i : Instr) (rd a b : Nat) (f : Word → Word → Word) (s : State), divisionRule i = some (rd, a, b, f) → Live s → Ready s [rd, a, b] →
    ∃ t, exec i s = .next t ∧ t.x rd = (if rd = 0 then 0 else f (s.x a) (s.x b)) ∧ Advanced s t ∧ OnlyX s t rd

/-- R49, R60: with rd = x0 these instructions write nothing and the next one follows, whatever is outstanding; x0 reads as zero before and
after. -/
def Sys2Proof.Spec.ZeroDestinationWritesNothing : Prop :=
  ∀ (i : Instr) (s : State), Live s → i.wf = true →
    ((∃ a b f, registerRule i = some (0, a, b, f)) ∨ ∃ l a f, immediateRule i = some (0, l, a, f)) →
    ∃ t, exec i s = .next t ∧ Advanced s t ∧ OnlyPc s t ∧ t.x 0 = 0

/-- R59: an instruction that reads or writes a busy register does not issue: nothing changes but that the core waits. -/
def Sys2Proof.Spec.BusyRegistersStall : Prop :=
  ∀ (i : Instr) (rd : Nat) (l : List Nat) (s : State), rd ≠ 0 →
    ((∃ a b f, l = [a, b] ∧ (registerRule i = some (rd, a, b, f) ∨ divisionRule i = some (rd, a, b, f))) ∨ ∃ a f, immediateRule i = some (rd, l, a, f)) →
    (rd :: l).any s.rc.busyX = true → exec i s = .next { s with stalled := true }

/-- R64: a branch whose comparison holds goes to pc + imm, one whose comparison fails to the next instruction; JAL links and jumps, for
every rd. A target that is not a multiple of 4 raises MISALIGNED, with the target in its address slot, on the state as it was: nothing is
linked and control does not transfer. -/
def Obligations.BranchesAndJal : Prop :=
  (∀ (i : Instr) (a b imm : Nat) (c : Word → Word → Bool) (s : State), branchRule i = some (a, b, imm, c) → i.wf = true → Live s → Ready s [a, b] →
    let target := s.rc.pc + w64 (simm imm 13)
    (c (s.x a) (s.x b) = false → ∃ t, exec i s = .next t ∧ Advanced s t ∧ OnlyPc s t)
    ∧ (c (s.x a) (s.x b) = true → target.toNat % 4 = 0 →
        ∃ t, exec i s = .next t ∧ t.rc.pc = target ∧ t.tn.instret = s.tn.instret + 1 ∧ OnlyPc s t)
    ∧ (c (s.x a) (s.x b) = true → target.toNat % 4 ≠ 0 → exec i s = .next (s.trap s.cur 0x20 s.rc.pc target 0)))
  ∧ ∀ (rd imm : Nat) (s : State), (Instr.jal rd imm).wf = true → Live s → Ready s [rd] →
    let target := s.rc.pc + w64 (simm imm 21)
    (target.toNat % 4 = 0 → ∃ t, exec (.jal rd imm) s = .next t ∧ t.rc.pc = target ∧ t.tn.instret = s.tn.instret + 1
        ∧ t.x rd = (if rd = 0 then 0 else s.rc.pc + 4) ∧ OnlyX s t rd)
    ∧ (target.toNat % 4 ≠ 0 → exec (.jal rd imm) s = .next (s.trap s.cur 0x20 s.rc.pc target 0))

/-- R65: JALR with rd = x0 goes to x[rs1] + imm with bit 0 cleared, or raises MISALIGNED; with any other rd it raises INDIRECT_CALL with the
computed target in its address slot, on the state as it was. -/
def Obligations.JalrReturnsOrTraps : Prop :=
  ∀ (rd a imm : Nat) (s : State), (Instr.jalr rd a imm).wf = true → Live s → Ready s [a] →
    let target := w64 (((s.x a).toInt + simm imm 12) / 2 * 2)
    (rd = 0 → target.toNat % 4 = 0 → ∃ t, exec (.jalr rd a imm) s = .next t ∧ t.rc.pc = target ∧ t.tn.instret = s.tn.instret + 1 ∧ OnlyPc s t)
    ∧ (rd = 0 → target.toNat % 4 ≠ 0 → exec (.jalr rd a imm) s = .next (s.trap s.cur 0x20 s.rc.pc target 0))
    ∧ (rd ≠ 0 → exec (.jalr rd a imm) s = .next (s.trap s.cur 0x03 s.rc.pc target 0))

/-- R67: CALLT with an index below fnlen and an entry, in own TCM, whose signature is that of x[rs2], links and goes to the entry's target;
an index at or above fnlen raises FNTAB_RANGE. -/
def Obligations.CalltThroughTable : Prop :=
  ∀ (rd a b : Nat) (s : State), Live s → Ready s [rd, a, b] → NoAcquire s →
    (s.tn.fnlen ≤ (s.x a).toNat → exec (.callt rd a b) s = .next (s.trap s.cur 0x05 s.rc.pc (s.x a) 0))
    ∧ (let at_ := s.tn.fntab + 16 * (s.x a).toNat
       let home := tcmHome s.cur.core s.cur.ctx + at_
       let target := BitVec.ofNat 64 (leNat (s.bytes home 8))
       (s.x a).toNat < s.tn.fnlen → at_ % 16 = 0 → at_ + 16 ≤ 0x40000 → NoneLeft s → s.poisoned home 16 = false → s.heldLine home = false → Fresh s →
         Plain s → s.cur.ctx < 8 → s.cur.core < 4096 →
         leNat (s.bytes (home + 8) 4) = (s.x b).toNat % 2 ^ 32 → target.toNat % 4 = 0 →
         ∃ t, exec (.callt rd a b) s = .next t ∧ t.rc.pc = target ∧ t.tn.instret = s.tn.instret + 1
           ∧ t.x rd = (if rd = 0 then 0 else s.rc.pc + 4) ∧ OnlyX s t rd)

namespace Sys2Proof.Spec

open Sys2Proof.Machine

/-! ## Accesses of one place (R60, R62, R142–R149, R263, R264) -/

/-- An access instruction at a state: the x and w registers it uses, its address, size, alignment and access code (0 load, 1 store, 2 atomic),
whether it writes, the features it needs, and the operation it asks of the home. -/
structure Access where
  regs : List Nat
  wregs : List Nat
  va : Nat
  n : Nat
  align : Nat
  code : Nat
  write : Bool
  feats : List Nat
  op : Op

/-- The address x[rs1] + sext(imm). -/
def disp (s : State) (a imm : Nat) : Nat := (w64 ((s.x a).toInt + simm imm 12)).toNat
/-- The low bits of x[r] as a store's value. -/
def low (s : State) (r : Nat) : Gran := BitVec.ofNat 128 (s.x r).toNat
/-- The pair x[r], x[r+1]; x0 as a pair is zero (R142). -/
def pair (s : State) (r : Nat) : Gran := if r = 0 then 0 else BitVec.ofNat 128 ((s.x r).toNat + (s.x (r + 1)).toNat * 2 ^ 64)
/-- The registers of a pair operand. -/
def pairOf (r : Nat) : List Nat := if r = 0 then [0] else [r, r + 1]

def ldx (rd a va n : Nat) (sx : Bool) (al : Nat) (aq : Bool) : Option Access :=
  some { regs := [rd, a], wregs := [], va := va, n := n, align := al, code := 0, write := false, feats := [],
         op := mkOp .load va n 0 0 (.x rd n sx) aq false }
def stx (s : State) (a b va n al : Nat) (rl : Bool) : Option Access :=
  some { regs := [a, b], wregs := [], va := va, n := n, align := al, code := 1, write := true, feats := [],
         op := mkOp .store va n (low s b) 0 .none false rl }
def ldw (rd a va al : Nat) (aq : Bool) : Option Access :=
  some { regs := [a], wregs := [rd], va := va, n := 16, align := al, code := 0, write := false, feats := [],
         op := mkOp .load va 16 0 0 (.w rd) aq false }
def stw (s : State) (a b va al : Nat) (rl : Bool) : Option Access :=
  some { regs := [a], wregs := [b], va := va, n := 16, align := al, code := 1, write := true, feats := [],
         op := mkOp .store va 16 (s.rc.rw b) 0 .none false rl }
def amox (s : State) (k n rd a b aq rl : Nat) : Option Access :=
  some { regs := [rd, a, b], wregs := [], va := (s.x a).toNat, n := n, align := n, code := 2, write := true, feats := [],
         op := mkOp (.amo k) (s.x a).toNat n (low s b) (if k = 9 then low s rd else 0) (.x rd n true) (aq == 1) (rl == 1) }

/-- The access instructions. Atomic operations are numbered ADD 0, SWAP 1, XOR 2, OR 3, AND 4, MIN 5, MAX 6, MINU 7, MAXU 8, CAS 9. -/
def accessRule (i : Instr) (s : State) : Option Access :=
  match i with
  | .lb rd a imm => ldx rd a (disp s a imm) 1 true 1 false
  | .lh rd a imm => ldx rd a (disp s a imm) 2 true 1 false
  | .lw rd a imm => ldx rd a (disp s a imm) 4 true 1 false
  | .ld rd a imm => ldx rd a (disp s a imm) 8 true 1 false
  | .lbu rd a imm => ldx rd a (disp s a imm) 1 false 1 false
  | .lhu rd a imm => ldx rd a (disp s a imm) 2 false 1 false
  | .lwu rd a imm => ldx rd a (disp s a imm) 4 false 1 false
  | .ldaqD rd a imm => ldx rd a (disp s a imm) 8 true 8 true
  | .sb a b imm => stx s a b (disp s a imm) 1 1 false
  | .sh a b imm => stx s a b (disp s a imm) 2 1 false
  | .sw a b imm => stx s a b (disp s a imm) 4 1 false
  | .sd a b imm => stx s a b (disp s a imm) 8 1 false
  | .strlD a b imm => stx s a b (disp s a imm) 8 8 true
  | .wld rd a imm => ldw rd a (disp s a imm) 1 false
  | .ldaqQ rd a imm => ldw rd a (disp s a imm) 16 true
  | .wst a b imm => stw s a b (disp s a imm) 1 false
  | .strlQ a b imm => stw s a b (disp s a imm) 16 true
  | .ldvD rd a => some { regs := [rd, a], wregs := [], va := (s.x a).toNat, n := 8, align := 8, code := 0, write := false, feats := [8],
                         op := mkOp .ldv (s.x a).toNat 8 0 0 (.x rd 8 true) false false }
  | .ldvQ rd a => some { regs := [a], wregs := [rd], va := (s.x a).toNat, n := 16, align := 16, code := 0, write := false, feats := [8],
                         op := mkOp .ldv (s.x a).toNat 16 0 0 (.w rd) false false }
  | .stvD rd a b => some { regs := [rd, a, b], wregs := [], va := (s.x a).toNat, n := 8, align := 8, code := 1, write := true, feats := [8],
                           op := mkOp .stv (s.x a).toNat 8 (low s b) 0 (.x rd 8 true) false false }
  | .stvQ rd a b => some { regs := [rd, a], wregs := [b], va := (s.x a).toNat, n := 16, align := 16, code := 1, write := true, feats := [8],
                           op := mkOp .stv (s.x a).toNat 16 (s.rc.rw b) 0 (.x rd 8 true) false false }
  | .amoaddW rd a b aq rl => amox s 0 4 rd a b aq rl
  | .amoswapW rd a b aq rl => amox s 1 4 rd a b aq rl
  | .amoxorW rd a b aq rl => amox s 2 4 rd a b aq rl
  | .amoorW rd a b aq rl => amox s 3 4 rd a b aq rl
  | .amoandW rd a b aq rl => amox s 4 4 rd a b aq rl
  | .amominW rd a b aq rl => amox s 5 4 rd a b aq rl
  | .amomaxW rd a b aq rl => amox s 6 4 rd a b aq rl
  | .amominuW rd a b aq rl => amox s 7 4 rd a b aq rl
  | .amomaxuW rd a b aq rl => amox s 8 4 rd a b aq rl
  | .amocasW rd a b aq rl => amox s 9 4 rd a b aq rl
  | .amoaddD rd a b aq rl => amox s 0 8 rd a b aq rl
  | .amoswapD rd a b aq rl => amox s 1 8 rd a b aq rl
  | .amoxorD rd a b aq rl => amox s 2 8 rd a b aq rl
  | .amoorD rd a b aq rl => amox s 3 8 rd a b aq rl
  | .amoandD rd a b aq rl => amox s 4 8 rd a b aq rl
  | .amominD rd a b aq rl => amox s 5 8 rd a b aq rl
  | .amomaxD rd a b aq rl => amox s 6 8 rd a b aq rl
  | .amominuD rd a b aq rl => amox s 7 8 rd a b aq rl
  | .amomaxuD rd a b aq rl => amox s 8 8 rd a b aq rl
  | .amocasD rd a b aq rl => amox s 9 8 rd a b aq rl
  | .amocasQ rd a b aq rl => some { regs := a :: (pairOf rd ++ pairOf b), wregs := [], va := (s.x a).toNat, n := 16, align := 16, code := 2, write := true, feats := [],
                                    op := mkOp (.amo 9) (s.x a).toNat 16 (pair s b) (pair s rd) (.pair rd) (aq == 1) (rl == 1) }
  | .carrive a => some { regs := [a], wregs := [], va := (s.x a).toNat, n := 16, align := 16, code := 2, write := true, feats := [],
                         op := mkOp .carrive (s.x a).toNat 16 0 0 .none false false }
  | .cexpect a b => some { regs := [a, b], wregs := [], va := (s.x a).toNat, n := 16, align := 16, code := 2, write := true, feats := [],
                           op := mkOp (.cexpect (s.x b)) (s.x a).toNat 16 0 0 .none false false }
  | .cinit a b =>
    let exp := (s.x b).toNat % 2 ^ 20
    let mode := (s.x b).toNat / 2 ^ 20 % 4
    let g : Gran := BitVec.ofNat 128 (mode * 2 ^ 80 + exp * 2 ^ 36 + exp * 2 ^ 16)
    if mode = 0 ∨ (mode = 1 ∧ exp ≠ 0) then
      some { regs := [a, b], wregs := [], va := (s.x a).toNat, n := 16, align := 16, code := 2, write := true, feats := [],
             op := mkOp (.cinit g) (s.x a).toNat 16 g 0 .none false false }
    else none
  | _ => none

/-- The access lies in one window (R63). -/
abbrev InWindow (s : State) (va n : Nat) : Prop := s.windowId s.cur va ≠ 0 ∧ ∀ j, j < n → s.windowId s.cur (va + j) = s.windowId s.cur va

/-- An operation as it stands once it is issued: numbered, with the pc, the invocation and the task that issued it. -/
def issuedAs (s : State) (o : Op) : Op := { o with seq := s.rc.seq, pc := s.rc.pc, inv := s.rc.inv, task := s.rc.task }

/-- What an atomic leaves in its place (R142), of n bytes: old value, source, comparand. -/
def amoRule (k n : Nat) (old src cmp : Nat) : Nat :=
  match k with
  | 0 => (old + src) % 2 ^ (8 * n)
  | 1 => src
  | 2 => old ^^^ src
  | 3 => old ||| src
  | 4 => old &&& src
  | 5 => if simm old (8 * n) ≤ simm src (8 * n) then old else src
  | 6 => if simm old (8 * n) ≤ simm src (8 * n) then src else old
  | 7 => if old ≤ src then old else src
  | 8 => if old ≤ src then src else old
  | _ => if old = cmp then src else old

/-- What a destination holds of a value of n bytes after an operation: `old` are the registers before. -/
def Delivered (s t : State) (d : Dest) (v : Nat) : Prop :=
  match d with
  | .x rd n sx => t.x rd = (if rd = 0 then 0 else if sx then w64 (simm v (8 * n)) else w64 v) ∧ (∀ j, j ≠ rd → t.x j = s.x j) ∧ t.rc.w = s.rc.w
  | .w rd => t.rc.rw rd = BitVec.ofNat 128 v ∧ (∀ j, j ≠ rd → t.rc.rw j = s.rc.rw j) ∧ t.rc.x = s.rc.x
  | .pair rd => (rd ≠ 0 → t.x rd = w64 v ∧ t.x (rd + 1) = w64 (v / 2 ^ 64)) ∧ (∀ j, rd = 0 ∨ (j ≠ rd ∧ j ≠ rd + 1) → t.x j = s.x j) ∧ t.rc.w = s.rc.w
  | _ => t.rc.x = s.rc.x ∧ t.rc.w = s.rc.w

/-- A place in own TCM that nothing disturbs: no operation or fence of the context outstanding, not poisoned, not held by the host. -/
abbrev Quiet (s : State) (home n : Nat) : Prop :=
  Safety.NoneLeft s ∧ s.poisoned home n = false ∧ ∀ j, j < n → s.heldLine (home + j) = false

/-- Nothing has changed but memory and what is kept beside it, and the acting context's registers, pc, operation number and instret. -/
abbrev OnlyAccess (s t : State) : Prop :=
  (∀ c x, tkey c x ≠ tkey s.cur.core s.cur.ctx → t.tenant c x = s.tenant c x)
    ∧ { t with tenants := s.tenants, mem := s.mem, landed := s.landed, tags := s.tags, poison := s.poison } = s
    ∧ { t.tn.setRcx s.cur.rc s.rc with instret := s.tn.instret } = s.tn
    ∧ { t.rc with x := s.rc.x, w := s.rc.w, pc := s.rc.pc, seq := s.rc.seq, kept := s.rc.kept } = s.rc

end Sys2Proof.Spec

open Sys2Proof.Spec

/-! ## Loads, stores, atomics -/

/-- Loads, stores, atomics, versioned accesses, CINIT, CARRIVE and CEXPECT issue (R59, R60, R142–R149, R263, R264): with their registers free, no
acquire outstanding, the address aligned as they need and all in one window, and room for one more, the operation joins those outstanding
of the register context, in program order, and the instruction retires. Nothing else changes until the operation is performed; where
operations are performed at issue (the model's mode, log 3), that follows at once. -/
def Sys2Proof.Spec.AccessesIssue : Prop :=
  ∀ (i : Instr) (s : State) (A : Access), accessRule i s = some A → i.wf = true → Live s → Ready s A.regs → ReadyW s A.wregs → NoAcquire s →
    Unmasked s A.feats → (A.write = true → Plain s) → A.va % A.align = 0 → InWindow s A.va A.n → s.footOk s.cur A.va A.n A.write = true →
    (s.rc.ops.filter fun o => o.k.isLoad == A.op.k.isLoad && o.k.isStore == A.op.k.isStore).length < 16 →
    ∃ u, exec i s = .next (if s.eager then u.settle s.cur s.rc.seq (issuedAs s A.op).acts else u) ∧ Advanced s u ∧ OnlyContext s u
      ∧ u.rc = { s.rc with pc := s.rc.pc + 4, seq := s.rc.seq + 1, kept := [], ops := s.rc.ops ++ [issuedAs s A.op] }

/-- The checks of an access come before any part of it (R62, R63, R142, R143): an address that is not a multiple of what the instruction needs
raises MISALIGNED; a byte outside every window the unmapped kind of its access code, with the first such address; bytes in two windows
MISALIGNED. The trap is taken on the state as it was. -/
def Sys2Proof.Spec.AccessesTrap : Prop :=
  ∀ (i : Instr) (s : State) (A : Access), accessRule i s = some A → i.wf = true → Live s → Ready s A.regs → ReadyW s A.wregs → NoAcquire s →
    Unmasked s A.feats → (A.write = true → Plain s) →
    (A.va % A.align ≠ 0 → exec i s = .next (s.trap s.cur 0x20 s.rc.pc (BitVec.ofNat 64 A.va) 0))
    ∧ (∀ j, A.va % A.align = 0 → j < A.n → s.windowId s.cur (A.va + j) = 0 → (∀ k, k < j → s.windowId s.cur (A.va + k) ≠ 0) →
        exec i s = .next (s.trap s.cur (0x46 + 8 * A.code) s.rc.pc (BitVec.ofNat 64 (A.va + j)) 0))
    ∧ (∀ j, A.va % A.align = 0 → j < A.n → (∀ k, k < A.n → s.windowId s.cur (A.va + k) ≠ 0) → s.windowId s.cur (A.va + j) ≠ s.windowId s.cur A.va →
        exec i s = .next (s.trap s.cur 0x20 s.rc.pc (BitVec.ofNat 64 A.va) 0))

/-- A load from own TCM, where operations are performed at issue: the destination holds the little-endian value of the bytes, sign-extended
or not, and neither memory nor any other register changes (R60, R143, R144). The window of own TCM is [0, 0x40000) (R128). -/
def Sys2Proof.Spec.LoadsFromOwnTcm : Prop :=
  ∀ (i : Instr) (s : State) (A : Access), accessRule i s = some A → A.op.k = .load → i.wf = true → Live s → s.eager = true → Plain s →
    A.va % A.align = 0 → A.va + A.n ≤ 0x40000 → s.cur.core < 4096 → s.cur.ctx < 8 → (∀ w, w ∈ A.wregs → w < 24) →
    let home := tcmHome s.cur.core s.cur.ctx + A.va
    Quiet s home A.n →
    ∃ t, exec i s = .next t ∧ Advanced s t ∧ OnlyAccess s t ∧ t.mem = s.mem ∧ Delivered s t A.op.dest (leNat (s.bytes home A.n))

/-- A store to own TCM, where operations are performed at issue: the bytes of the value stand at its address, little-endian, and EVERY OTHER
BYTE reads as before; no register changes (R60, R143, R144). -/
def Sys2Proof.Spec.StoresToOwnTcm : Prop :=
  ∀ (i : Instr) (s : State) (A : Access), accessRule i s = some A → A.op.k = .store → i.wf = true → Live s → s.eager = true → Plain s →
    A.va % A.align = 0 → A.va + A.n ≤ 0x40000 → s.cur.core < 4096 → s.cur.ctx < 8 → (∀ w, w ∈ A.wregs → w < 24) →
    let home := tcmHome s.cur.core s.cur.ctx + A.va
    Quiet s home A.n →
    ∃ t, exec i s = .next t ∧ Advanced s t ∧ OnlyAccess s t ∧ t.rc.x = s.rc.x ∧ t.rc.w = s.rc.w
      ∧ t.bytes home A.n = leBytes A.op.data.toNat A.n ∧ SameOutsideOf s t home A.n

/-- An atomic on own TCM, where operations are performed at issue: the place holds what the operation makes of its old value and the source (and,
for a compare and swap, the comparand), the destination gets the old value, and every other byte and register is as before (R142). -/
def Sys2Proof.Spec.AtomicsOnOwnTcm : Prop :=
  ∀ (i : Instr) (s : State) (A : Access) (k : Nat), accessRule i s = some A → A.op.k = .amo k → i.wf = true → Live s → s.eager = true → Plain s →
    A.va % A.align = 0 → A.va + A.n ≤ 0x40000 → s.cur.core < 4096 → s.cur.ctx < 8 →
    let home := tcmHome s.cur.core s.cur.ctx + A.va
    let old := leNat (s.bytes home A.n)
    Quiet s home A.n →
    ∃ t, exec i s = .next t ∧ Advanced s t ∧ OnlyAccess s t ∧ Delivered s t A.op.dest old
      ∧ t.bytes home A.n = leBytes (amoRule k A.n old (A.op.data.toNat % 2 ^ (8 * A.n)) (A.op.cmp.toNat % 2 ^ (8 * A.n))) A.n
      ∧ SameOutsideOf s t home A.n

namespace Sys2Proof.Spec

open Sys2Proof.Machine

/-! ## Control and status registers (R70–R76) -/

inductive CsrKind where
  | write | set | clear
  deriving DecidableEq

/-- The CSR instructions: kind, destination, CSR, source registers, source value, and whether it writes. -/
def csrRule (i : Instr) (s : State) : Option (CsrKind × Nat × Nat × List Nat × Word × Bool) :=
  match i with
  | .csrrw rd a c => some (.write, rd, c, [a], s.x a, true)
  | .csrrs rd a c => some (.set, rd, c, [a], s.x a, a != 0)
  | .csrrc rd a c => some (.clear, rd, c, [a], s.x a, a != 0)
  | .csrrwi rd u c => some (.write, rd, c, [], BitVec.ofNat 64 u, true)
  | .csrrsi rd u c => some (.set, rd, c, [], BitVec.ofNat 64 u, u != 0)
  | .csrrci rd u c => some (.clear, rd, c, [], BitVec.ofNat 64 u, u != 0)
  | _ => none

/-- The CSRs that a program may write, but for ovfstat. -/
def csrPlain (c : Nat) : Bool :=
  [0x801, 0x802, 0x810, 0x830, 0x831, 0x840, 0x841, 0x850, 0x860].contains c || (decide (0x820 ≤ c) && decide (c ≤ 0x82F))

/-- What a CSR holds after a value is written to it (R74–R76): reserved bits read as zero, frm keeps its value where the value is no rounding
mode, wdlim is clamped. -/
def csrHolds (c : Nat) (old v : Nat) : Nat :=
  if c = 0x801 then v % 32
  else if c = 0x802 then (if v % 8 < 4 then v % 8 else old)
  else if c = 0x810 ∨ c = 0x830 then v / 16 % 2 ^ 44 * 16
  else if c = 0x840 ∨ c = 0x841 then v / 16 % 2 ^ 14 * 16
  else if c = 0x850 then (if v < 4096 then 4096 else if 2 ^ 28 < v then 2 ^ 28 else v)
  else if c = 0x860 then v / 64 % 2 ^ 42 * 64
  else v % 2 ^ 32

/-! ## Trap records (R312–R315) -/

/-- The trap record of a register context: its destination is the trap channel of the tenant context. -/
def recordOf (s : State) (w : Who) (cause : Nat) (pc a2 a6 : Word) : Flight :=
  let t := s.tenant w.core w.ctx
  let r := s.rcx w
  let cfg := Tbl.get 0 (s.part t.partid).trapcfg w.ctx
  let dest := cfg / 2 ^ 8 % 4096
  { msg := { hdr := mkHdr 0 t.lcore 6 (cfg / 64 % 2 == 1) false 0 7 (cfg % 64),
             pay := [BitVec.ofNat 64 (cause + 256 * w.rc), pc, a2, BitVec.ofNat 64 (t.lcore % 4096),
                     BitVec.ofNat 64 (match r.chan with | some n => n | none => 64), BitVec.ofNat 64 (match r.task with | some k => k | none => 0), a6],
             ext := [], bar := none },
    core := if cfg / 128 % 2 = 1 ∧ dest < t.bandsz then t.ctab.getD dest w.core else w.core, ctx := w.ctx, src := none }

/-- The context is in no gang of several members, or its instruction is run for one member. -/
abbrev NoGang (s : State) (w : Who) : Prop := w.rc ≠ 0 ∨ s.solo = true ∨ (s.tenant w.core w.ctx).gangsz ≤ 1

end Sys2Proof.Spec

/-! ## w fields that name queues and ports -/

/-- A load into q1 takes the next place of the outbox, a load into a bound output port pushes there when it is performed; a store from q0 takes
the next extension element of the message, one from an input port the oldest element of its buffer (R87, R145, R260). -/
def Sys2Proof.Spec.QueueFieldsIssue : Prop :=
  ∀ (i : Instr) (s : State) (A : Access) (f : Nat), accessRule i s = some A → A.wregs = [f] → i.wf = true → Live s → Ready s A.regs → NoAcquire s →
    Unmasked s A.feats → (A.write = true → Plain s) → A.va % A.align = 0 → InWindow s A.va A.n → s.footOk s.cur A.va A.n A.write = true →
    (s.rc.ops.filter fun o => o.k.isLoad == A.op.k.isLoad && o.k.isStore == A.op.k.isStore).length < 16 → s.eager = false →
    (A.write = false → f = 25 → s.rc.outbox.length < 16 →
      ∃ t, exec i s = .next t ∧ Advanced s t ∧ OnlyContext s t
        ∧ t.rc = { s.rc with pc := s.rc.pc + 4, seq := s.rc.seq + 1, outbox := s.rc.outbox ++ [none], kept := [],
                             ops := s.rc.ops ++ [issuedAs s { A.op with dest := .outbox s.rc.outbox.length }] })
    ∧ (A.write = false → 26 ≤ f → s.cur.rc = 0 → (s.tn.port (f - 24)).kind = 5 →
        (s.rc.ops.filter fun o => o.dest == .port (f - 24)).length < (s.tn.port (f - 24)).credits →
      ∃ t, exec i s = .next t ∧ Advanced s t ∧ OnlyContext s t
        ∧ t.rc = { s.rc with pc := s.rc.pc + 4, seq := s.rc.seq + 1, kept := [], ops := s.rc.ops ++ [issuedAs s { A.op with dest := .port (f - 24) }] })
    ∧ (∀ m v, A.write = true → f = 24 → s.rc.msg = some m → m.ext[s.rc.q0]? = some v →
      ∃ t, exec i s = .next t ∧ Advanced s t ∧ OnlyContext s t
        ∧ t.rc = { s.rc with pc := s.rc.pc + 4, seq := s.rc.seq + 1, q0 := s.rc.q0 + 1, kept := [], ops := s.rc.ops ++ [issuedAs s { A.op with data := v }] })
    ∧ (∀ v rest, A.write = true → 26 ≤ f → s.cur.rc = 0 → (s.tn.port (f - 24)).kind = 1 → (s.tn.port (f - 24)).buf = v :: rest →
      ∃ t, exec i s = .next t ∧ Advanced s t ∧ OnlyTenant s t ∧ (t.tn.port (f - 24)).buf = rest ++ (s.tn.port (f - 24)).stage.take 1
        ∧ (t.tn.port (f - 24)).stage = (s.tn.port (f - 24)).stage.drop 1
        ∧ t.rc = { s.rc with pc := s.rc.pc + 4, seq := s.rc.seq + 1, kept := [], ops := s.rc.ops ++ [issuedAs s { A.op with data := v }] })

/-- A w field used in the wrong direction, unbound or empty raises its code: q1 as a source and q0 as a destination PORT_DIRECTION, q0 with
no element left PORT_OVERREAD, a full outbox PORT_OVERFILL; a stream port outside the normal context CONTEXT_RESOURCE, unbound STREAM_UNBOUND
(R87, R145, R256, R260, R313). The address slot 0 of every port trap is the model's choice (log 24). -/
def Sys2Proof.Spec.QueueFieldsTrap : Prop :=
  ∀ (i : Instr) (s : State) (A : Access) (f : Nat), accessRule i s = some A → A.wregs = [f] → i.wf = true → Live s → Ready s A.regs → NoAcquire s →
    Unmasked s A.feats →
    let traps := fun (c : Nat) => exec i s = .next (s.trap s.cur c s.rc.pc 0 0)
    (A.write = true → f = 25 → traps 0x2F) ∧ (A.write = false → f = 24 → traps 0x2F)
    ∧ (A.write = true → f = 24 → s.rc.msg = none → traps 0x28) ∧ (∀ m, A.write = true → f = 24 → s.rc.msg = some m → m.ext.length ≤ s.rc.q0 → traps 0x28)
    ∧ (A.write = false → f = 25 → 16 ≤ s.rc.outbox.length → traps 0x2E)
    ∧ (26 ≤ f → s.cur.rc ≠ 0 → traps 0x08) ∧ (26 ≤ f → s.cur.rc = 0 → (s.tn.port (f - 24)).kind = 0 → traps 0x29)
    ∧ (26 ≤ f → s.cur.rc = 0 → (s.tn.port (f - 24)).kind = (if A.write then 2 else 1) → traps 0x2F)

/-! ## Fences and watches -/

/-- FENCE, FENCE.TSO, the fm = 8 form and DFENCE retire at once, whatever is outstanding, and change nothing but the fences that stay behind; a
FENCE with pred = 0 or succ = 0 is a HINT and leaves none (R49, R153); with nothing outstanding none stays either. A load, or a store, of
own TCM that comes before a fence which puts its kind first keeps back every later load and store of own TCM that the fence puts after it
(R152, R153, R158): FENCE by its pred and succ, DFENCE by its kinds at every scope but the gang's. That a fence retires at once, with its order kept at the homes and
the engines, is the model's choice (log 18). -/
def Sys2Proof.Spec.FencesOrderAndRetire : Prop :=
  (∀ (i : Instr) (s : State), (∃ a b c d, i = .fence a b c d ∨ i = .fenceFm8 a b c d ∨ i = .fenceTso a b ∨ i = .dfence a b) → Live s →
    ∃ t, exec i s = .next t ∧ Advanced s t ∧ OnlyContext s t ∧ { t.rc with pc := s.rc.pc, seq := s.rc.seq, fences := s.rc.fences, kept := s.rc.kept } = s.rc
      ∧ (∀ a b succ pred, (i = .fence a b succ pred ∨ i = .fenceFm8 a b succ pred) → succ = 0 ∨ pred = 0 → OnlyPc s t)
      ∧ (s.opsOf s.cur = [] → (∀ x, x ∈ s.xfers → x.who ≠ s.cur ∨ x.accepted = true) → (∀ m, m ∈ s.mcmds → m.src ≠ s.cur) →
          (∀ f, f ∈ s.flights → f.src ≠ some s.cur) → (∀ k, k ∈ s.walks → k.who ≠ s.cur ∨ k.slot = none) → OnlyPc s t))
  ∧ ∀ (i : Instr) (s : State) (o p : Op) (x y : Nat × Nat), Live s → o ∈ s.rc.ops → o.seq ≤ s.rc.seq → (o.k = .load ∨ o.k = .store) → o.parts = [x] → x.1 < 0x40000 →
    s.rc.seq < p.seq → (p.k = .load ∨ p.k = .store) → p.parts = [y] → y.1 < 0x40000 → s.cur.core < 4096 → s.cur.ctx < 8 →
    let first := if o.k = .load then 2 else 1
    let then_ := if p.k = .load then 2 else 1
    ((∃ a b succ pred, (i = .fence a b succ pred ∨ i = .fenceFm8 a b succ pred) ∧ pred / first % 2 = 1 ∧ succ / then_ % 2 = 1) ∨ (∃ a b, i = .fenceTso a b)
      ∨ ∃ scope k, i = .dfence scope k ∧ scope ≠ 1 ∧ k / (3 - first) % 2 = 1 ∧ k / (3 - then_) % 2 = 1) →
    ∃ t, exec i s = .next t ∧ Advanced s t ∧ o ∈ t.rc.ops ∧ t.mayPerform t.cur p = false

/-- TFENCE drops what the context keeps of TSRs, and IFLUSH the lines of its instruction cache that overlap [x[rs1], x[rs1] + x[rs2]),
once no store of the register context is outstanding, and nothing else changes; with a store outstanding both wait (R154, R155). -/
def Sys2Proof.Spec.CacheFences : Prop :=
  (∀ s : State, Live s → s.storing = false →
    ∃ t, exec .tfence s = .next t ∧ Advanced s t ∧ t.tn.tsrc = [] ∧ OnlyTenant s t
      ∧ { t.tn.setRcx s.cur.rc s.rc with instret := s.tn.instret, tsrc := s.tn.tsrc } = s.tn ∧ { t.rc with pc := s.rc.pc, kept := s.rc.kept } = s.rc)
  ∧ (∀ (s : State) (a b : Nat), Live s → Ready s [a, b] → s.storing = false →
    let lo := (s.x a).toNat % 2 ^ 48
    let n := (s.x b).toNat
    ∃ t, exec (.iflush a b) s = .next t ∧ Advanced s t ∧ OnlyPc { s with icache := t.icache } t
      ∧ ∀ line, line < 2 ^ 42 → lo + n ≤ 2 ^ 48 →
          Tbl.has t.icache (lineKey s.cur.core s.cur.ctx line)
            = (Tbl.has s.icache (lineKey s.cur.core s.cur.ctx line) && !(n != 0 && decide (line * 64 < lo + n) && decide (lo < line * 64 + 64))))
  ∧ (∀ s : State, s.storing = true → exec .tfence s = .next { s with stalled := true })
  ∧ ∀ (s : State) (a b : Nat), Ready s [a, b] → s.storing = true → exec (.iflush a b) s = .next { s with stalled := true }

/-- VWATCH and CWATCH take a place of their pool and issue their registration; a full pool of version watches answers 1, a full pool of
completion watches raises WATCH_FULL (R150, R265). BARRIVE marks its barrier, and its arrival follows every earlier access; a second
arrival raises BARRIER_MISMATCH, one in a task BARRIER_IN_TASK (R110). The address slots of these traps (x[rs1] of WATCH_FULL, 0 of the other two) are the
model's choice (log 24). -/
def Sys2Proof.Spec.WatchesAndArrivalsIssue : Prop :=
  (∀ (rd a b : Nat) (s : State), (Instr.vwatch rd a b).wf = true → Live s → Ready s [rd, a, b] → NoAcquire s → Unmasked s [8] → Plain s → s.eager = false →
    let g := (s.x a).toNat / 16 * 16
    let n := (s.x b).toNat / 2 ^ 16 % 64
    let c := Chan.at s.tn n
    (32 ≤ s.tn.vwPend → ∃ t, exec (.vwatch rd a b) s = .next t ∧ Advanced s t ∧ OnlyX s t rd ∧ (rd ≠ 0 → t.x rd = 1))
    ∧ (s.tn.vwPend < 32 → InWindow s g 16 → s.footOk s.cur g 16 false = true →
        ∃ t, exec (.vwatch rd a b) s = .next t ∧ Advanced s t ∧ OnlyTenant s t ∧ t.tn.vwPend = s.tn.vwPend + 1 ∧ (rd ≠ 0 → t.x rd = 0)
          ∧ t.rc.ops = s.rc.ops ++ [issuedAs s (mkOp (.vwatch ((s.x b).toNat % 2 ^ 16) n c.gen c.urg) g 16 0 0 .none false false)]))
  ∧ (∀ (a b : Nat) (s : State), (Instr.cwatch a b).wf = true → Live s → Ready s [a, b] → NoAcquire s → Plain s → s.eager = false → (s.x a).toNat % 16 = 0 →
    let va := (s.x a).toNat
    let n := (s.x b).toNat % 64
    let c := Chan.at s.tn n
    (32 ≤ s.tn.cwPend → exec (.cwatch a b) s = .next (s.trap s.cur 0x8B s.rc.pc (s.x a) 0))
    ∧ (s.tn.cwPend < 32 → InWindow s va 16 → s.footOk s.cur va 16 false = true →
        ∃ t, exec (.cwatch a b) s = .next t ∧ Advanced s t ∧ OnlyTenant s t ∧ t.tn.cwPend = s.tn.cwPend + 1 ∧ t.rc.x = s.rc.x
          ∧ t.rc.ops = s.rc.ops ++ [issuedAs s (mkOp (.cwatch n c.gen c.urg) va 16 0 0 .none false false)]))
  ∧ ∀ (a bar op chan : Nat) (s : State), (Instr.barrive a bar op chan).wf = true → s.cur.rc = 0 → Ready s [a] → s.eager = false →
    (s.rc.task ≠ none → exec (.barrive a bar op chan) s = .next (s.trap s.cur 0x89 s.rc.pc 0 0))
    ∧ (s.rc.task = none → Tbl.get false s.tn.arrived bar = true → exec (.barrive a bar op chan) s = .next (s.trap s.cur 0x88 s.rc.pc 0 0))
    ∧ (s.rc.task = none → Tbl.get false s.tn.arrived bar = false →
        ∃ t o, exec (.barrive a bar op chan) s = .next t ∧ Advanced s t ∧ OnlyTenant s t ∧ Tbl.get false t.tn.arrived bar = true ∧ t.rc.x = s.rc.x
          ∧ t.rc.ops = s.rc.ops ++ [o] ∧ o.k = .barrive bar op chan (Chan.at s.tn chan).gen ∧ o.rl = true ∧ o.parts = []
          ∧ o.data = BitVec.ofNat 128 (s.x a).toNat ∧ o.seq = s.rc.seq)

/-! ## Control and status registers -/

/-- A CSR instruction reads the old value into x[rd], and writes its source, the old value with the source's bits set, or with them cleared;
what the CSR then holds is its rule's, and every other CSR (but instret), memory and every other register are as before. A form that does
not write changes nothing but x[rd] (R70, R72, R74–R76). -/
def Sys2Proof.Spec.CsrInstructionResults : Prop :=
  ∀ (i : Instr) (s : State) (k : CsrKind) (rd c : Nat) (l : List Nat) (src : Word) (w : Bool), csrRule i s = some (k, rd, c, l, src, w) → i.wf = true →
    Live s → Ready s (rd :: l) →
    let reads := !(k == .write && rd == 0)
    (reads = true → c = 0xC30 → ∀ x, x ∈ s.xfers → x.who ≠ s.cur ∨ x.accepted = true) →
    (reads = true → c = 0xC31 → ∀ o, o ∈ s.opsOf s.cur → o.k ≠ .ldv) →
    (c = 0xC40 ∨ c = 0xC41 → s.cur.rc = 0) →
    let old := s.csr c
    let new := match k with | .write => src | .set => old ||| src | .clear => old &&& ~~~src
    (w = false → ∃ t, exec i s = .next t ∧ Advanced s t ∧ OnlyX s t rd ∧ (rd ≠ 0 → t.x rd = old))
    ∧ (w = true → csrPlain c = true →
        ∃ t, exec i s = .next t ∧ Advanced s t ∧ OnlyTenant s t ∧ (rd ≠ 0 → t.x rd = old) ∧ (∀ j, j ≠ rd → t.x j = s.x j) ∧ t.rc.w = s.rc.w
          ∧ t.csr c = w64 (csrHolds c old.toNat new.toNat) ∧ (∀ d, d ≠ c → d ≠ 0xC02 → t.csr d = s.csr d) ∧ t.rc.ops = s.rc.ops
          ∧ t.tn.g = s.tn.g ∧ t.tn.chans = s.tn.chans ∧ t.tn.ports = s.tn.ports ∧ t.tn.slots = s.tn.slots ∧ t.tn.mx = s.tn.mx ∧ t.tn.inboxN = s.tn.inboxN
          ∧ t.tn.inboxU = s.tn.inboxU)

/-- A CSR instruction that writes a read-only CSR (0xC00–0xCFF), or sets bits of ovfstat, raises ILLEGAL_OP with the CSR's number;
a read of the CSRs of the matrix unit raises CONTEXT_RESOURCE outside the normal context (R71, R75); a write of them there meets both,
and ILLEGAL_OP goes first (the model's choice, log 48); the address slots, the CSR's number and 0, are the model's reading too (log 24). A write of ovfstat clears DIVERT where its
source bit is 1, unless a diverted message of the channel is resident or its count is not zero (R75, R92). -/
def Sys2Proof.Spec.CsrTrapsAndOvfstat : Prop :=
  ∀ (i : Instr) (s : State) (k : CsrKind) (rd c : Nat) (l : List Nat) (src : Word) (w : Bool), csrRule i s = some (k, rd, c, l, src, w) → i.wf = true →
    Live s → Ready s (rd :: l) →
    (w = true → (0xC00 ≤ c ∧ c ≤ 0xCFF) ∨ (c = 0x842 ∧ k = .set) → exec i s = .next (s.trap s.cur 0x00 s.rc.pc (BitVec.ofNat 64 c) 0))
    ∧ (w = false → c = 0xC40 ∨ c = 0xC41 → s.cur.rc ≠ 0 → exec i s = .next (s.trap s.cur 0x08 s.rc.pc 0 0))
    ∧ (w = true → c = 0x842 → k ≠ .set →
        ∃ t, exec i s = .next t ∧ Advanced s t ∧ OnlyTenant s t ∧ (rd ≠ 0 → t.x rd = s.csr 0x842)
          ∧ (∀ n, n < 64 → (Chan.at t.tn n).divert =
              ((Chan.at s.tn n).divert && !(src.getLsbD n && !s.tn.divertedHere n && (Chan.at s.tn n).dcnt == 0)))
          ∧ (∀ n, n < 64 → { Chan.at t.tn n with divert := (Chan.at s.tn n).divert } = Chan.at s.tn n)
          ∧ t.tn.g = s.tn.g ∧ t.rc.w = s.rc.w ∧ t.tn.inboxN = s.tn.inboxN ∧ t.tn.inboxU = s.tn.inboxU ∧ ∀ j, j ≠ rd → t.x j = s.x j)

/-! ## The end of a handler, and taking a trap -/

/-- TAKING A TRAP (R312–R315): the record with the cause, the register context, the pc, the address slots, the logical core, the channel and the
task goes to the trap channel; the register context becomes idle, its message freed and its outbox discarded; x and w registers, memory
and instret are as they were. In the overflow context the message stays resident and diverted, and the overflow entry is unset. A
speculative task holds its record, marked SPEC, and is FAILED. -/
def Obligations.TrapsEndTheHandler : Prop :=
  ∀ (s : State) (w : Who) (cause : Nat) (pc a2 a6 : Word), w.rc < 3 → cause < 256 → NoGang s w →
    let t := s.trap w cause pc a2 a6
    Ended (t.rcx w) ∧ (t.rcx w).x = (s.rcx w).x ∧ (t.rcx w).w = (s.rcx w).w ∧ (t.tenant w.core w.ctx).instret = (s.tenant w.core w.ctx).instret
      ∧ ((s.rcx w).task = none → t.mem = s.mem ∧ t.flights = s.flights ++ [recordOf s w cause pc a2 a6])
      ∧ (∀ m, w.rc = 2 → (s.rcx w).msg = some m → (t.tenant w.core w.ctx).ovfEntry = none
          ∧ (m.urg = true → (t.tenant w.core w.ctx).inboxU = { msg := m, div := true, no := (s.rcx w).msgNo } :: (s.tenant w.core w.ctx).inboxU)
          ∧ (m.urg = false → (t.tenant w.core w.ctx).inboxN = { msg := m, div := true, no := (s.rcx w).msgNo } :: (s.tenant w.core w.ctx).inboxN))
      ∧ (∀ id k, (s.rcx w).task = some id → (s.rcx w).spec = true → s.findTask (s.tenant w.core w.ctx).partid id = some k → k.st = .spec →
          ∃ f, t.findTask (s.tenant w.core w.ctx).partid id = some { k with st := .failed, traps := [f] } ∧ t.flights = s.flights
            ∧ f.msg.pay = (BitVec.ofNat 64 (cause + 256 * w.rc) ||| 0x800) :: (recordOf s w cause pc a2 a6).msg.pay.tail)

/-- DONE ends its handler (R94): it retires, the register context is idle, its message freed; in the overflow context the message counts as
copied (R90). ECALL (R68) does the same and sends its record, with a0 and a1. Neither waits, unless the matrix unit holds work or a fault, or, for ECALL, a0 or a1 is busy
(R59). -/
def Sys2Proof.Spec.HandlersEnd : Prop :=
  (∀ s : State, Live s → NoGang s s.cur → s.rc.task = none → (s.cur.rc = 0 → s.tn.mx.held = false ∧ s.tn.mx.deferred = none) →
    ∃ t, exec .done s = .next t ∧ Ended t.rc ∧ t.rc.x = s.rc.x ∧ t.rc.w = s.rc.w ∧ t.tn.instret = s.tn.instret + 1 ∧ OnlyTenant s t
      ∧ { t.tn.setRcx s.cur.rc s.rc with instret := s.tn.instret, evc := s.tn.evc, chans := s.tn.chans, epiN := s.tn.epiN, epiU := s.tn.epiU,
                                         inboxN := s.tn.inboxN, inboxU := s.tn.inboxU, mx := { t.tn.mx with atCfg := s.tn.mx.atCfg } } = s.tn
      ∧ (s.cur.rc ≠ 2 → s.tn.epiN = none → s.tn.epiU = none → (∀ u, s.tn.occ u < 16048) →
          { t.tn.setRcx s.cur.rc s.rc with instret := s.tn.instret, mx := { t.tn.mx with atCfg := s.tn.mx.atCfg } } = s.tn)
      ∧ ∀ m, s.cur.rc = 2 → s.rc.msg = some m → (Chan.at t.tn m.chan).dcnt = min ((Chan.at s.tn m.chan).dcnt + 1) 4095
          ∧ t.tn.ovfEntry = s.tn.ovfEntry ∧ Tbl.get 0 t.tn.evc 6 = min (Tbl.get 0 s.tn.evc 6 + 1) 0xFFFFFFFF)
  ∧ (∀ s : State, Live s → Ready s [10, 11] → NoGang s s.cur → s.rc.task = none → (s.cur.rc = 0 → s.tn.mx.held = false ∧ s.tn.mx.deferred = none) →
    ∃ t, exec .ecall s = .next t ∧ Ended t.rc ∧ t.rc.x = s.rc.x ∧ t.tn.instret = s.tn.instret + 1 ∧ t.mem = s.mem
      ∧ t.flights = s.flights ++ [recordOf s s.cur 0x07 s.rc.pc (s.x 10) (s.x 11)])
  ∧ (∀ (s : State) (d : Deferred), s.cur.rc = 0 → s.tn.mx.held = false → s.tn.mx.deferred = some d →
      ∃ u, exec .done s = .next (u.trap s.cur d.cause s.rc.pc (w64 d.addr) (w64 (d.tile % 4 + d.k % 65536 * 65536))) ∧ u.tn.mx.deferred = none ∧ OnlyTenant s u)
  ∧ ∀ s : State, Live s → s.cur.rc = 0 → s.tn.mx.held = true → s.tn.freeSlot ≠ none → NoGang s s.cur →
      ∃ t i, exec .done s = .next t ∧ t.rc.run = .idle ∧ s.tn.freeSlot = some i ∧ (t.tn.slots.find? fun p => p.1 == i) ≠ none ∧ t.tn.instret = s.tn.instret

/-- EBREAK (R69): under debugging, with a free slot, the handler suspends and goes on at the next instruction once it is resumed, and a
resumable record with the code 0x06 waits at the function; with every slot occupied it is held in place as it is (R320); without debugging
(bit 11 of FEAT, R350) it traps with that code, and the address slot 0 (the model's choice, log 24). -/
def Sys2Proof.Spec.BreakpointsSuspendOrTrap : Prop :=
  ∀ s : State, Live s → NoGang s s.cur → s.cur.core < 4096 → s.cur.ctx < 8 →
    let p := s.part s.tn.partid
    let debug := (Tbl.get 0 p.trapcfg s.cur.ctx / 2 ^ 20 % 2 == 1) && (p.feat / 2 ^ 11 % 2 == 0)
    (debug = false → exec .ebreak s = .next (s.trap s.cur 0x06 s.rc.pc 0 0))
    ∧ (∀ i, debug = true → s.tn.freeSlot = some i →
        ∃ t sl h, exec .ebreak s = .next t ∧ t.rc.run = .idle ∧ t.tn.slots.find? (fun p => p.1 == i) = some (i, sl) ∧ sl.rc = s.cur.rc ∧ sl.img.x = s.rc.x
          ∧ sl.img.w = s.rc.w ∧ sl.wait.cont = s.rc.pc + 4 ∧ t.held = s.held ++ [h] ∧ h.cause = 0x06 ∧ h.fn = s.tn.partid ∧ h.fid = p.nextFid)
    ∧ (debug = true → s.tn.freeSlot = none →
        ∃ t x h, exec .ebreak s = .next t ∧ t.rc.run = .held ∧ t.rc.wait = some x ∧ x.why = .ebreak ∧ x.cont = s.rc.pc + 4 ∧ t.rc.x = s.rc.x ∧ t.rc.w = s.rc.w
          ∧ t.rc.pc = s.rc.pc ∧ t.rc.msg = s.rc.msg ∧ t.tn.slots = s.tn.slots ∧ t.tn.instret = s.tn.instret
          ∧ t.held = s.held ++ [h] ∧ h.cause = 0x06 ∧ h.fn = s.tn.partid ∧ h.fid = p.nextFid)

namespace Sys2Proof.Spec

open Sys2Proof.Machine

/-! ## Vector instructions (R195–R216) -/

/-- The width of an element type: INT8, INT16, INT32, INT64, BF16, FP16, FP32, FP64 (R52). -/
def width (ty : Nat) : Nat := match ty with | 0 => 8 | 1 => 16 | 2 => 32 | 3 => 64 | 4 => 16 | 5 => 16 | 6 => 32 | _ => 64
/-- Lane i of a register in lanes of w bits (R195). -/
def laneOf (v : Gran) (w i : Nat) : Nat := v.toNat / 2 ^ (w * i) % 2 ^ w

/-- How an exact integer becomes a lane: it wraps, saturates signed, or saturates unsigned (R200). -/
inductive Fit where
  | wrap | satS | satZ
  deriving DecidableEq

def Fit.clamp (k : Fit) (w : Nat) (i : Int) : Int :=
  match k with
  | .wrap => i
  | .satS => if i < -(2 ^ (w - 1) : Nat) then -(2 ^ (w - 1) : Nat) else if (2 ^ (w - 1) : Nat) ≤ i then (2 ^ (w - 1) : Nat) - 1 else i
  | .satZ => if i < 0 then 0 else if (2 ^ w : Nat) ≤ i then (2 ^ w : Nat) - 1 else i

/-- R200, R201: the integer instructions: wd, sources, type, and the exact value of a lane of width w from the lanes of the sources as unsigned
numbers. -/
def intRule : Instr → Option (Nat × Nat × Nat × Nat × Fit × (Nat → Nat → Nat → Int))
  | .vadd d a b ty => some (d, a, b, ty, .wrap, fun w x y => simm x w + simm y w)
  | .vsub d a b ty => some (d, a, b, ty, .wrap, fun w x y => simm x w - simm y w)
  | .vmul d a b ty => some (d, a, b, ty, .wrap, fun w x y => simm x w * simm y w)
  | .vmulhS d a b ty => some (d, a, b, ty, .wrap, fun w x y => simm x w * simm y w / (2 ^ w : Nat))
  | .vmulhZ d a b ty => some (d, a, b, ty, .wrap, fun w x y => ((x * y / 2 ^ w : Nat) : Int))
  | .vminS d a b ty => some (d, a, b, ty, .wrap, fun w x y => if simm x w ≤ simm y w then simm x w else simm y w)
  | .vminZ d a b ty => some (d, a, b, ty, .wrap, fun _ x y => ((if x ≤ y then x else y : Nat) : Int))
  | .vmaxS d a b ty => some (d, a, b, ty, .wrap, fun w x y => if simm x w ≤ simm y w then simm y w else simm x w)
  | .vmaxZ d a b ty => some (d, a, b, ty, .wrap, fun _ x y => ((if x ≤ y then y else x : Nat) : Int))
  | .vsaddS d a b ty => some (d, a, b, ty, .satS, fun w x y => simm x w + simm y w)
  | .vsaddZ d a b ty => some (d, a, b, ty, .satZ, fun _ x y => (x : Int) + y)
  | .vssubS d a b ty => some (d, a, b, ty, .satS, fun w x y => simm x w - simm y w)
  | .vssubZ d a b ty => some (d, a, b, ty, .satZ, fun _ x y => (x : Int) - y)
  | .vshl d a b ty => some (d, a, b, ty, .wrap, fun w x y => ((x * 2 ^ (y % w) : Nat) : Int))
  | .vshrS d a b ty => some (d, a, b, ty, .wrap, fun w x y => simm x w / (2 ^ (y % w) : Nat))
  | .vshrZ d a b ty => some (d, a, b, ty, .wrap, fun w x y => ((x / 2 ^ (y % w) : Nat) : Int))
  | .vand d a b ty => some (d, a, b, ty, .wrap, fun _ x y => ((x &&& y : Nat) : Int))
  | .vor d a b ty => some (d, a, b, ty, .wrap, fun _ x y => ((x ||| y : Nat) : Int))
  | .vxor d a b ty => some (d, a, b, ty, .wrap, fun _ x y => ((x ^^^ y : Nat) : Int))
  | .vandn d a b ty => some (d, a, b, ty, .wrap, fun w x y => ((x &&& (2 ^ w - 1 - y) : Nat) : Int))
  | .vcmpLtZ d a b ty => some (d, a, b, ty, .wrap, fun w x y => if x < y then ((2 ^ w - 1 : Nat) : Int) else 0)
  | .vcmpLeZ d a b ty => some (d, a, b, ty, .wrap, fun w x y => if x ≤ y then ((2 ^ w - 1 : Nat) : Int) else 0)
  | .vcmpEq d a b ty => if ty < 4 then some (d, a, b, ty, .wrap, fun w x y => if x = y then ((2 ^ w - 1 : Nat) : Int) else 0) else none
  | .vcmpNe d a b ty => if ty < 4 then some (d, a, b, ty, .wrap, fun w x y => if x = y then 0 else ((2 ^ w - 1 : Nat) : Int)) else none
  | .vcmpLt d a b ty => if ty < 4 then some (d, a, b, ty, .wrap, fun w x y => if simm x w < simm y w then ((2 ^ w - 1 : Nat) : Int) else 0) else none
  | .vcmpLe d a b ty => if ty < 4 then some (d, a, b, ty, .wrap, fun w x y => if simm x w ≤ simm y w then ((2 ^ w - 1 : Nat) : Int) else 0) else none
  | _ => none

/-- The features of a type's instructions (R350): SIMD floating point for a floating one. -/
def tyFeat (ty : Nat) : List Nat := if ty < 4 then [] else [0]

/-- R202, R209, R210: instructions that move lanes: wd, type, the w sources, the x source if any, and lane i of the result from the old wd,
the w sources and the x source. -/
def moveRule : Instr → Option (Nat × Nat × Nat × Nat × Option Nat × (Gran → Gran → Gran → Word → Nat → Nat))
  | .vsel d a b ty => some (d, ty, a, b, none, fun o x y _ i => if laneOf o (width ty) i < 2 ^ (width ty - 1) then laneOf y (width ty) i else laneOf x (width ty) i)
  | .vshuf d a b ty => some (d, ty, a, b, none, fun _ x y _ i =>
      if laneOf y (width ty) i < 128 / width ty then laneOf x (width ty) (laneOf y (width ty) i) else 0)
  | .vbcast d r ty => some (d, ty, d, d, some r, fun _ _ _ v _ => v.toNat % 2 ^ width ty)
  | .vins d r n ty => some (d, ty, d, d, some r, fun o _ _ v i => if i = n then v.toNat % 2 ^ width ty else laneOf o (width ty) i)
  | _ => none

/-! ## Floating point (R176–R180, R200–R206) -/

/-- A pattern of a format that is a NaN, and one that signals. -/
def nanOf (f : FFmt) (p : Nat) : Bool := decide ((2 ^ f.eb - 1) * 2 ^ f.fb < p % 2 ^ (f.eb + f.fb))
def sigOf (f : FFmt) (p : Nat) : Bool := nanOf f p && p / 2 ^ (f.fb - 1) % 2 == 0
/-- The place of a pattern that is no NaN in the numerical order: its magnitude with its sign; −0 and +0 have the same. -/
def orderOf (f : FFmt) (p : Nat) : Int := if p / 2 ^ (f.eb + f.fb) % 2 = 1 then -((p % 2 ^ (f.eb + f.fb) : Nat) : Int) else ((p % 2 ^ (f.eb + f.fb) : Nat) : Int)
/-- The default NaN: sign 0, quiet, no payload (R176). -/
def theNan (f : FFmt) : Nat := (2 ^ f.eb - 1) * 2 ^ f.fb + 2 ^ (f.fb - 1)
/-- The format of a floating type. -/
def formOf (ty : Nat) : FFmt := match ty with | 4 => { eb := 8, fb := 7 } | 5 => { eb := 5, fb := 10 } | 6 => { eb := 8, fb := 23 } | _ => { eb := 11, fb := 52 }
/-- Invalid. -/
def invalid (c : Bool) : BitVec 5 := if c then 0x10 else 0

/-- R201 on floating lanes: all ones where the relation holds; unordered lanes compare false, but for NE; EQ and NE raise invalid for a
signalling NaN only, LT and LE for every NaN. -/
def cmpLane (f : FFmt) (w : Nat) (rel : Int → Int → Bool) (un quiet : Bool) (x y : Nat) : Nat × BitVec 5 :=
  if nanOf f x || nanOf f y then (if un then 2 ^ w - 1 else 0, invalid (!quiet || sigOf f x || sigOf f y))
  else (if rel (orderOf f x) (orderOf f y) then 2 ^ w - 1 else 0, 0)

/-- R204: the lesser (or the greater) number; a NaN loses against a number, and −0 is less than +0. -/
def minMaxLane (f : FFmt) (hi : Bool) (x y : Nat) : Nat × BitVec 5 :=
  let key := fun (p : Nat) => if p / 2 ^ (f.eb + f.fb) % 2 = 1 then orderOf f p - 1 else orderOf f p
  let fl := invalid (sigOf f x || sigOf f y)
  if nanOf f x && nanOf f y then (theNan f, fl)
  else if nanOf f x then (y, fl)
  else if nanOf f y then (x, fl)
  else (if (decide (key x < key y)) != hi then x else y, fl)

/-- The floating comparisons and minima: wd, sources, type, and a lane's value and conditions. -/
def orderRule : Instr → Option (Nat × Nat × Nat × Nat × (Nat → Nat → Nat × BitVec 5))
  | .vcmpEq d a b ty => if ty < 4 then none else some (d, a, b, ty, cmpLane (formOf ty) (width ty) (fun x y => x == y) false true)
  | .vcmpNe d a b ty => if ty < 4 then none else some (d, a, b, ty, cmpLane (formOf ty) (width ty) (fun x y => !(x == y)) true true)
  | .vcmpLt d a b ty => if ty < 4 then none else some (d, a, b, ty, cmpLane (formOf ty) (width ty) (fun x y => decide (x < y)) false false)
  | .vcmpLe d a b ty => if ty < 4 then none else some (d, a, b, ty, cmpLane (formOf ty) (width ty) (fun x y => decide (x ≤ y)) false false)
  | .vfmin d a b ty => some (d, a, b, ty, minMaxLane (formOf ty) false)
  | .vfmax d a b ty => some (d, a, b, ty, minMaxLane (formOf ty) true)
  | _ => none

/-- The rounding arithmetic: wd, the sources, type, features, and a lane from the rounding mode, the lanes of the sources and of the old wd. The
special functions and the soft-maximum division round to nearest even. -/
def arithRule : Instr → Option (Nat × Nat × Nat × Nat × List Nat × (Nat → Nat → Nat → Nat → Lane))
  | .vfadd d a b ty => some (d, a, b, ty, [0], fun rm x y _ => (formOf ty).add rm x y)
  | .vfsub d a b ty => some (d, a, b, ty, [0], fun rm x y _ => (formOf ty).sub rm x y)
  | .vfmul d a b ty => some (d, a, b, ty, [0], fun rm x y _ => (formOf ty).mul rm x y)
  | .vfma d a b ty => some (d, a, b, ty, [0], fun rm x y o => (formOf ty).fma rm x y o)
  | .vfdiv d a b ty => some (d, a, b, ty, [0], fun rm x y _ => (formOf ty).div rm x y)
  | .vfsqrt d a ty => some (d, a, a, ty, [0], fun rm x _ _ => (formOf ty).sqrt rm x)
  | .vexp2 d a => some (d, a, a, 6, [0, 1], fun _ x _ _ => fexp2 x)
  | .vlog2 d a => some (d, a, a, 6, [0, 1], fun _ x _ _ => flog2 x)
  | .vrcp d a => some (d, a, a, 6, [0, 1], fun _ x _ _ => fp32.div 0 0x3F800000 x)
  | .vrsqrt d a => some (d, a, a, 6, [0, 1], fun _ x _ _ => frsqrt x)
  | .vsinpi d a => some (d, a, a, 6, [0, 1], fun _ x _ _ => fsinpi x)
  | .vcospi d a => some (d, a, a, 6, [0, 1], fun _ x _ _ => fcospi x)
  | _ => none

/-- A power of two, and a magnitude. -/
def pow2 (e : Int) : Rat := if 0 ≤ e then ((2 ^ e.toNat : Nat) : Rat) else 1 / ((2 ^ (-e).toNat : Nat) : Rat)
def magn (q : Rat) : Rat := if q < 0 then -q else q

/-- The number that a finite pattern stands for (R176). -/
def valueOf (f : FFmt) (p : Nat) : Rat :=
  let e := p / 2 ^ f.fb % 2 ^ f.eb
  let m := p % 2 ^ f.fb
  let a : Rat := if e = 0 then (m : Rat) * pow2 (2 - (2 ^ (f.eb - 1) : Int) - f.fb) else ((2 ^ f.fb + m : Nat) : Rat) * pow2 ((e : Int) - 2 ^ (f.eb - 1) + 1 - f.fb)
  if p / 2 ^ (f.eb + f.fb) % 2 = 1 then -a else a
/-- A pattern of a finite number. -/
def finiteOf (f : FFmt) (p : Nat) : Bool := decide (p < 2 ^ (1 + f.eb + f.fb)) && decide (p / 2 ^ f.fb % 2 ^ f.eb ≠ 2 ^ f.eb - 1)

/-- The four formats. -/
def forms : List FFmt := [formOf 4, formOf 5, formOf 6, formOf 7]

/-- A number, rounded to a precision whose numbers below t lie u apart, reaches t. -/
def reaches (rm : Nat) (q t u : Rat) : Bool :=
  if rm = 0 then decide (t - u / 2 ≤ magn q) else if (rm = 2 ∧ q < 0) ∨ (rm = 3 ∧ 0 < q) then decide (t - u < magn q) else decide (t ≤ magn q)
/-- Beyond the greatest number of a format, and below its least normal one, after rounding. -/
def overflows (f : FFmt) (rm : Nat) (q : Rat) : Bool := reaches rm q (pow2 (2 ^ (f.eb - 1))) (pow2 (2 ^ (f.eb - 1) - 1 - f.fb))
def tinyIn (f : FFmt) (rm : Nat) (q : Rat) : Bool := !reaches rm q (pow2 (2 - 2 ^ (f.eb - 1))) (pow2 (1 - 2 ^ (f.eb - 1) - f.fb))
/-- Where a result overflows (R177): an infinity, or the greatest number of its sign. -/
def beyond (f : FFmt) (rm : Nat) (neg : Bool) : Nat :=
  (if neg then 2 ^ (f.eb + f.fb) else 0) + (2 ^ f.eb - 1) * 2 ^ f.fb - (if rm = 0 ∨ (rm = 2 ∧ neg) ∨ (rm = 3 ∧ ¬ neg) then 0 else 1)

/-- A lane holds an exact number other than zero, rounded once under a mode. -/
def Rounds (f : FFmt) (rm : Nat) (l : Lane) (q : Rat) : Prop := ∃ (m : Nat) (e : Int), 0 < m ∧ (m : Rat) * pow2 e = magn q ∧ l = f.round rm (decide (q < 0)) m e

/-- R206: neighbours combine, level by level, each with the conditions so far. -/
def level2 (g : Nat → Nat → Nat × BitVec 5) : List (Nat × BitVec 5) → List (Nat × BitVec 5)
  | p :: q :: l => ((g p.1 q.1).1, p.2 ||| q.2 ||| (g p.1 q.1).2) :: level2 g l
  | l => l
/-- The value and the conditions of the tree over up to 16 lanes. -/
def treeOf (g : Nat → Nat → Nat × BitVec 5) (xs : List Nat) : Nat × BitVec 5 :=
  (level2 g (level2 g (level2 g (level2 g (xs.map fun x => (x, 0)))))).headD (0, 0)
/-- The combining of a floating reduction: VFADD, VFMAX, VFMIN. -/
def reduceRule (i : Instr) (ty rm : Nat) (x y : Nat) : Nat × BitVec 5 :=
  match i with
  | .vrmax .. => minMaxLane (formOf ty) true x y
  | .vrmin .. => minMaxLane (formOf ty) false x y
  | _ => (((formOf ty).add rm x y).v % 2 ^ width ty, ((formOf ty).add rm x y).fl)

/-- A number rounded to an integer: to nearest even, toward zero, down, up (R75 frm). -/
def integerOf (rm : Nat) (q : Rat) : Int :=
  match rm with
  | 0 => if q - q.floor < 1 / 2 then q.floor else if 1 / 2 < q - q.floor then q.floor + 1 else if q.floor % 2 = 0 then q.floor else q.floor + 1
  | 1 => if q < 0 then -(-q).floor else q.floor
  | 2 => q.floor
  | _ => -(-q).floor

/-- The number that an LNS6 code stands for (R181): zero for the codes of zero. -/
def lnsValue (c : Nat) : Rat :=
  let l := simm (c % 32) 5
  let t : Rat := match l % 4 with | 0 => 4096 | 1 => 4871 | 2 => 5793 | _ => 6889
  if l = -16 then 0 else (if c / 32 % 2 = 1 then -1 else 1) * t * pow2 (l / 4 - 12)

/-! ## Special functions over the reals (R191–R194) -/

/-- The number of a pattern of FP32. -/
noncomputable def realOf (p : Nat) : ℝ := ((valueOf (formOf 6) p : Rat) : ℝ)
/-- A result is the true value rounded to nearest: no finite number of FP32 is nearer to it, to within 2^-170, which is far below any distance
between the numbers of the format; where the result is an infinity the true value is beyond the greatest finite number, by half a unit. -/
def Nearest (l : Lane) (t : ℝ) : Prop :=
  (finiteOf (formOf 6) l.v = true → ∀ p, finiteOf (formOf 6) p = true → |realOf l.v - t| ≤ |realOf p - t| + 1 / 2 ^ 170)
    ∧ (finiteOf (formOf 6) l.v = false → (2 : ℝ) ^ 128 - 2 ^ 103 ≤ |t| ∧ l.v = (if t < 0 then 0xFF800000 else 0x7F800000))

/-! ## Key-value pairs (R211–R214) -/

/-- The pairs of a register. -/
def pairsIn (w : Nat) (v : Gran) : List (Nat × Nat) := (List.range (64 / w)).map fun j => (laneOf v w (2 * j), laneOf v w (2 * j + 1))
/-- The empty key, and the place of a key in its order. -/
def noKey (ty : Nat) : Nat := if ty = 6 then 0x7FFFFFFF else 2 ^ width ty - 1
def keyPlace (ty k : Nat) : Int := if ty = 6 then (if k < 2 ^ 31 then (k : Int) else 2 ^ 31 - 1 - (k : Int)) else k

/-- A list of pairs is another one sorted, ascending or descending, pairs of equal keys in their order. -/
def SortOf (ty : Nat) (down : Bool) (l m : List (Nat × Nat)) : Prop :=
  l.Perm m ∧ l.Pairwise (fun p q => if down then keyPlace ty q.1 ≤ keyPlace ty p.1 else keyPlace ty p.1 ≤ keyPlace ty q.1)
    ∧ ∀ k, l.filter (fun p => p.1 == k) = m.filter (fun p => p.1 == k)

/-- R213: pair j of VKCOMB: empty where inactive or inside a run; the head of a run keeps its key, and its value or the sum of the run's. -/
def combined (ty : Nat) (add : Bool) (ps bs : List (Nat × Nat)) (j : Nat) : Nat × Nat :=
  let key := fun (k : Nat) => (ps.getD k (0, 0)).1
  let act := (List.range ps.length).filter fun k => (bs.getD k (0, 0)).2 != 0 && key k != noKey ty
  let before := (act.filter fun k => decide (k < j)).getLast?
  if !act.contains j || before.any fun k => key k == key j then (noKey ty, 0)
  else
    let run := (act.filter fun k => decide (j ≤ k)).takeWhile fun k => key k == key j
    (key j, if add then (run.foldl (fun n k => n + (ps.getD k (0, 0)).2) 0) % 2 ^ width ty else (ps.getD j (0, 0)).2)

/-- R214. -/
def matched (ty : Nat) (bs : List (Nat × Nat)) (p : Nat × Nat) : Nat × Nat :=
  if p.1 = noKey ty then (noKey ty, 0) else match bs.find? fun q => q.1 == p.1 with | some q => (p.1, q.2) | none => (noKey ty, 0)

/-- The features of the family (R350). -/
def keyFeat (ty : Nat) : List Nat := if ty = 6 then [0, 2] else [2]

end Sys2Proof.Spec

/-! ## Vector instructions -/

/-- R200, R201: an integer vector instruction writes to each lane of wd the exact result, wrapped or clamped to the lane, and counts the lanes it
clamped into evc2; no other register, no flag, no other counter and no byte of memory changes. -/
def Sys2Proof.Spec.VectorIntegerResults : Prop :=
  ∀ (i : Instr) (d a b ty : Nat) (k : Fit) (f : Nat → Nat → Nat → Int) (s : State), intRule i = some (d, a, b, ty, k, f) → i.wf = true → Live s →
    ReadyW s [d, a, b] →
    let w := width ty
    let lanes := List.range (128 / w)
    let exact := fun (n : Nat) => f w (laneOf (s.rc.rw a) w n) (laneOf (s.rc.rw b) w n)
    let clamped := (lanes.filter fun n => !(k.clamp w (exact n) == exact n)).length
    ∃ t, exec i s = .next t ∧ Advanced s t ∧ OnlyW s t d ∧ t.rc.fflags = s.rc.fflags
      ∧ (∀ n, n < 128 / w → laneOf (t.rc.rw d) w n = (k.clamp w (exact n) % (2 ^ w : Nat)).toNat)
      ∧ (clamped ≠ 0 → Tbl.get 0 t.tn.evc 2 = min (Tbl.get 0 s.tn.evc 2 + clamped) (2 ^ 32 - 1))
      ∧ (∀ c, c ≠ 2 ∨ clamped = 0 → Tbl.get 0 t.tn.evc c = Tbl.get 0 s.tn.evc c)

/-- VSEL, VSHUF, VBCAST and VINS move lanes and raise nothing (R202, R209, R210); VEXT and VEXTZ take a lane, sign- or zero-extended, into an x
register. -/
def Sys2Proof.Spec.VectorMoveResults : Prop :=
  (∀ (i : Instr) (d ty a b : Nat) (r : Option Nat) (f : Gran → Gran → Gran → Word → Nat → Nat) (s : State), moveRule i = some (d, ty, a, b, r, f) → i.wf = true →
    Live s → ReadyW s [d, a, b] → Ready s r.toList → Unmasked s (tyFeat ty) →
    ∃ t, exec i s = .next t ∧ Advanced s t ∧ OnlyW s t d ∧ t.rc.fflags = s.rc.fflags ∧ t.tn.evc = s.tn.evc
      ∧ ∀ n, n < 128 / width ty → laneOf (t.rc.rw d) (width ty) n = f (s.rc.rw d) (s.rc.rw a) (s.rc.rw b) (s.x (r.getD 0)) n)
  ∧ ∀ (i : Instr) (rd a n ty : Nat) (s : State), (i = .vext rd a n ty ∨ i = .vextz rd a n ty) → i.wf = true → Live s → ReadyW s [a] → Ready s [rd] →
    Unmasked s (tyFeat ty) → rd ≠ 0 →
    ∃ t, exec i s = .next t ∧ Advanced s t ∧ OnlyX s t rd
      ∧ t.x rd = (if i = .vext rd a n ty then w64 (simm (laneOf (s.rc.rw a) (width ty) n) (width ty)) else w64 (laneOf (s.rc.rw a) (width ty) n))

/-- Integer vector instructions whose fields name queues (R87, R196): q0 as a source takes the next extension element of the message; q1 as the
destination appends the result to the outbox; q1 as a source raises PORT_DIRECTION, with the address slot 0 (the model's choice, log 24). Floating vector
instructions and the other kinds of port are not stated here. -/
def Sys2Proof.Spec.VectorQueueFields : Prop :=
  ∀ (i : Instr) (d a b ty : Nat) (k : Fit) (f : Nat → Nat → Nat → Int) (s : State), intRule i = some (d, a, b, ty, k, f) → i.wf = true → Live s →
    let w := width ty
    (∀ m v, a = 24 → ReadyW s [d, b] → s.rc.msg = some m → m.ext[s.rc.q0]? = some v →
      ∃ t, exec i s = .next t ∧ Advanced s t ∧ t.rc.q0 = s.rc.q0 + 1
        ∧ ∀ n, n < 128 / w → laneOf (t.rc.rw d) w n = (k.clamp w (f w (laneOf v w n) (laneOf (s.rc.rw b) w n)) % (2 ^ w : Nat)).toNat)
    ∧ (d = 25 → ReadyW s [a, b] → s.rc.outbox.length < 16 →
      ∃ t v, exec i s = .next t ∧ Advanced s t ∧ t.rc.outbox = s.rc.outbox ++ [some v] ∧ t.rc.w = s.rc.w
        ∧ ∀ n, n < 128 / w → laneOf v w n = (k.clamp w (f w (laneOf (s.rc.rw a) w n) (laneOf (s.rc.rw b) w n)) % (2 ^ w : Nat)).toNat)
    ∧ (a = 25 → ReadyW s [d, b] → exec i s = .next (s.trap s.cur 0x2F s.rc.pc 0 0))

/-- VCMP on floating lanes, VFMIN and VFMAX follow the order of the numbers (R201, R204), and their conditions join fflags (R180). -/
def Sys2Proof.Spec.VectorOrderResults : Prop :=
  ∀ (i : Instr) (d a b ty : Nat) (f : Nat → Nat → Nat × BitVec 5) (s : State), orderRule i = some (d, a, b, ty, f) → i.wf = true → Live s →
    ReadyW s [d, a, b] → Unmasked s [0] →
    let w := width ty
    let res := fun (n : Nat) => f (laneOf (s.rc.rw a) w n) (laneOf (s.rc.rw b) w n)
    ∃ t, exec i s = .next t ∧ Advanced s t ∧ OnlyW s t d ∧ t.tn.evc = s.tn.evc
      ∧ (∀ n, n < 128 / w → laneOf (t.rc.rw d) w n = (res n).1)
      ∧ t.rc.fflags = (List.range (128 / w)).foldl (fun c n => c ||| (res n).2) s.rc.fflags

/-- The rounding arithmetic acts lane by lane under frm (R203), VFMA with the old wd as its addend; the special functions (R205) round to nearest
even; the conditions of all lanes join fflags, no counter changes (R180). -/
def Obligations.VectorArithmeticLanes : Prop :=
  ∀ (i : Instr) (d a b ty : Nat) (fs : List Nat) (f : Nat → Nat → Nat → Nat → Lane) (s : State), arithRule i = some (d, a, b, ty, fs, f) → i.wf = true → Live s →
    ReadyW s [d, a, b] → Unmasked s fs →
    let w := width ty
    let res := fun (n : Nat) => f s.rc.frm (laneOf (s.rc.rw a) w n) (laneOf (s.rc.rw b) w n) (laneOf (s.rc.rw d) w n)
    ∃ t, exec i s = .next t ∧ Advanced s t ∧ OnlyW s t d ∧ t.tn.evc = s.tn.evc
      ∧ (∀ n, n < 128 / w → laneOf (t.rc.rw d) w n = (res n).v % 2 ^ w)
      ∧ t.rc.fflags = (List.range (128 / w)).foldl (fun c n => c ||| (res n).fl) s.rc.fflags

/-- Sums, products and fused sums of finite operands are the exact number rounded once (R177, R203); an operand that is a NaN gives the default
NaN, and a signalling one raises invalid; quotients of finite operands and roots of positive ones are the exact value rounded once; ∞ − ∞ and 0 × ∞ are invalid; a nonzero number over zero is ∞ and raises DZ; 0 / 0 and the root of
a negative number are invalid (R178). -/
def Obligations.FloatOperationsAreExactThenRounded : Prop :=
  ∀ (f : FFmt) (rm x y z : Nat), f ∈ forms → rm < 4 → x < 2 ^ (1 + f.eb + f.fb) → y < 2 ^ (1 + f.eb + f.fb) → z < 2 ^ (1 + f.eb + f.fb) →
    (finiteOf f x = true → finiteOf f y = true → valueOf f x + valueOf f y ≠ 0 → Rounds f rm (f.add rm x y) (valueOf f x + valueOf f y))
    ∧ (finiteOf f x = true → finiteOf f y = true → valueOf f x - valueOf f y ≠ 0 → Rounds f rm (f.sub rm x y) (valueOf f x - valueOf f y))
    ∧ (finiteOf f x = true → finiteOf f y = true → valueOf f x * valueOf f y ≠ 0 → Rounds f rm (f.mul rm x y) (valueOf f x * valueOf f y))
    ∧ (finiteOf f x = true → finiteOf f y = true → finiteOf f z = true → valueOf f x * valueOf f y + valueOf f z ≠ 0 →
        Rounds f rm (f.fma rm x y z) (valueOf f x * valueOf f y + valueOf f z))
    ∧ (nanOf f x = true ∨ nanOf f y = true → ∀ l, l = f.add rm x y ∨ l = f.sub rm x y ∨ l = f.mul rm x y ∨ l = f.div rm x y →
        l = Lane.raise (theNan f) (invalid (sigOf f x || sigOf f y)))
    ∧ f.add rm (f.inf false) (f.inf true) = Lane.raise (theNan f) 0x10 ∧ f.mul rm (f.inf false) 0 = Lane.raise (theNan f) 0x10
    ∧ f.div rm 0 0 = Lane.raise (theNan f) 0x10 ∧ (finiteOf f x = true → 0 < valueOf f x → f.div rm x 0 = Lane.raise (f.inf false) 0x08)
    ∧ (finiteOf f x = true → valueOf f x < 0 → f.sqrt rm x = Lane.raise (theNan f) 0x10)
    ∧ (finiteOf f x = true → finiteOf f y = true → valueOf f x ≠ 0 → valueOf f y ≠ 0 → finiteOf f (f.div rm x y).v = true →
        let r := valueOf f (f.div rm x y).v
        let q := valueOf f x / valueOf f y
        (rm = 0 → ∀ p, finiteOf f p = true → magn (r - q) ≤ magn (valueOf f p - q)) ∧ (rm = 1 → magn r ≤ magn q) ∧ (rm = 2 → r ≤ q) ∧ (rm = 3 → q ≤ r)
          ∧ ∀ p, finiteOf f p = true → ¬ (r < valueOf f p ∧ valueOf f p < q) ∧ ¬ (q < valueOf f p ∧ valueOf f p < r))
    ∧ (finiteOf f x = true → 0 < valueOf f x →
        let r := valueOf f (f.sqrt rm x).v
        let q := valueOf f x
        finiteOf f (f.sqrt rm x).v = true ∧ 0 < r ∧ (rm = 1 ∨ rm = 2 → r * r ≤ q) ∧ (rm = 3 → q ≤ r * r)
          ∧ (rm = 0 → ∀ p, finiteOf f p = true → 0 ≤ valueOf f p → (r < valueOf f p → 4 * q ≤ (r + valueOf f p) * (r + valueOf f p))
              ∧ (valueOf f p < r → (r + valueOf f p) * (r + valueOf f p) ≤ 4 * q))
          ∧ ∀ p, finiteOf f p = true → 0 ≤ valueOf f p → ¬ (r < valueOf f p ∧ valueOf f p * valueOf f p < q) ∧ ¬ (q < valueOf f p * valueOf f p ∧ valueOf f p < r))

/-- ROUNDING IS TO NEAREST (R177): under RNE no finite number of the format is nearer to the exact value than the result, if the result is finite, and
of two that are as near the result is the even one; it is exact, with no condition, where the value is a number of the format. Under RTZ, RDN and RUP
the result is on the side that the mode says, and no number of the format lies between. A value that rounds to a magnitude beyond the greatest number of the
format overflows: the result is an infinity, or the greatest number where the mode rounds towards zero there, with overflow and inexact. Any other
result is finite, with inexact where it is not the value, and underflow with it where the value is tiny after rounding. -/
def Obligations.RoundingIsCorrect : Prop :=
  ∀ (f : FFmt) (rm m : Nat) (neg : Bool) (e : Int), f ∈ forms → rm < 4 → 0 < m →
    let q : Rat := (if neg then -1 else 1) * (m : Rat) * pow2 e
    let r := (f.round rm neg m e).v
    (finiteOf f r = true →
      (rm = 0 → ∀ p, finiteOf f p = true → magn (valueOf f r - q) ≤ magn (valueOf f p - q))
      ∧ (rm = 0 → ∀ p, finiteOf f p = true → valueOf f p ≠ valueOf f r → magn (valueOf f r - q) = magn (valueOf f p - q) → r % 2 = 0)
      ∧ (rm = 1 → magn (valueOf f r) ≤ magn q) ∧ (rm = 2 → valueOf f r ≤ q) ∧ (rm = 3 → q ≤ valueOf f r)
      ∧ (∀ p, finiteOf f p = true → ¬ (valueOf f r < valueOf f p ∧ valueOf f p < q) ∧ ¬ (q < valueOf f p ∧ valueOf f p < valueOf f r))
      ∧ (∀ p, finiteOf f p = true → valueOf f p = q → valueOf f r = q ∧ (f.round rm neg m e).fl = 0))
    ∧ (overflows f rm q = true → r = beyond f rm neg ∧ (f.round rm neg m e).fl = 0x05)
    ∧ (overflows f rm q = false → finiteOf f r = true
        ∧ (f.round rm neg m e).fl = (if valueOf f r = q then 0 else if tinyIn f rm q then 0x03 else 0x01))

/-- Reductions (R206): VRSUM, VRMAX and VRMIN put the sum modulo 2^w, the greatest or the least signed lane into lane 0 and zero into the others;
on BF16, FP16, FP32 and FP64 they combine neighbours level by level with VFADD under frm, VFMAX or VFMIN, and the conditions of every step join
fflags. -/
def Sys2Proof.Spec.VectorReductionResults : Prop :=
  ∀ (i : Instr) (d a ty : Nat) (s : State), (i = .vrsum d a ty ∨ i = .vrmax d a ty ∨ i = .vrmin d a ty) → i.wf = true → Live s → ReadyW s [d, a] →
    Unmasked s (tyFeat ty) →
    let w := width ty
    let xs := (List.range (128 / w)).map fun n => laneOf (s.rc.rw a) w n
    let ints := xs.map fun x => simm x w
    ∃ t, exec i s = .next t ∧ Advanced s t ∧ OnlyW s t d ∧ t.tn.evc = s.tn.evc ∧ (∀ n, 0 < n → n < 128 / w → laneOf (t.rc.rw d) w n = 0)
      ∧ (ty < 4 → t.rc.fflags = s.rc.fflags)
      ∧ (ty < 4 → i = .vrsum d a ty → (laneOf (t.rc.rw d) w 0 : Int) = ints.sum % (2 ^ w : Nat))
      ∧ (ty < 4 → i = .vrmax d a ty → simm (laneOf (t.rc.rw d) w 0) w ∈ ints ∧ ∀ x, x ∈ ints → x ≤ simm (laneOf (t.rc.rw d) w 0) w)
      ∧ (ty < 4 → i = .vrmin d a ty → simm (laneOf (t.rc.rw d) w 0) w ∈ ints ∧ ∀ x, x ∈ ints → simm (laneOf (t.rc.rw d) w 0) w ≤ x)
      ∧ (4 ≤ ty → laneOf (t.rc.rw d) w 0 = (treeOf (reduceRule i ty s.rc.frm) xs).1 ∧ t.rc.fflags = s.rc.fflags ||| (treeOf (reduceRule i ty s.rc.frm) xs).2)

/-- Conversions (R184, R207, R208): lane k of the result of VCVT is the conversion of lane k of the source; VCVT.HI takes the upper lanes; VCVT.PK
writes the upper lanes of wd and keeps the lower; lanes without a source are zero. Integers convert by value, modulo the width of an
integer destination; the conditions join fflags and saturated lanes count into evc3. VCVTL and VCVTLF convert to and from LNS6 bytes. -/
def Sys2Proof.Spec.VectorConversionResults : Prop :=
  (∀ (i : Instr) (d a sty ty : Nat) (s : State), (i = .vcvt d a sty ty ∨ i = .vcvtHi d a sty ty ∨ i = .vcvtPk d a sty ty) → i.wf = true → Live s → ReadyW s [d, a] →
    Unmasked s (if sty < 4 ∧ ty < 4 then [] else [0]) →
    let n := 128 / width sty
    let m := 128 / width ty
    let src := fun (j : Nat) => laneOf (s.rc.rw a) (width sty) (if i = .vcvtHi d a sty ty then j + (n - m) else j)
    let val := fun (j : Nat) => (convert sty ty s.rc.frm (src j)).v % 2 ^ width ty
    ∃ t, exec i s = .next t ∧ Advanced s t ∧ OnlyW s t d
      ∧ (∀ j, j < m → i ≠ .vcvtPk d a sty ty → laneOf (t.rc.rw d) (width ty) j = (if j < n then val j else 0))
      ∧ (∀ j, j < m → i = .vcvtPk d a sty ty → laneOf (t.rc.rw d) (width ty) j = (if j < m - n then laneOf (s.rc.rw d) (width ty) j else val (j - (m - n))))
      ∧ (t.rc.fflags = (List.range (min n m)).foldl (fun c j => c ||| (convert sty ty s.rc.frm (src j)).fl) s.rc.fflags)
      ∧ (let sat := ((List.range (min n m)).filter fun j => (convert sty ty s.rc.frm (src j)).e3 == 1).length
         Tbl.get 0 t.tn.evc 3 = (if sat = 0 then Tbl.get 0 s.tn.evc 3 else min (Tbl.get 0 s.tn.evc 3 + sat) (2 ^ 32 - 1)))
      ∧ (sty < 4 → ty < 4 → t.rc.fflags = s.rc.fflags ∧ ∀ j, val j = (simm (src j) (width sty) % (2 ^ width ty : Nat)).toNat))
  ∧ ∀ (d a ty : Nat) (s : State), Live s → ReadyW s [d, a] → Unmasked s [4] →
    ((Instr.vcvtl d a ty).wf = true → ∃ t, exec (.vcvtl d a ty) s = .next t ∧ Advanced s t ∧ OnlyW s t d ∧ t.rc.fflags = s.rc.fflags
        ∧ (∀ j, j < 16 → laneOf (t.rc.rw d) 8 j = (if j < 128 / width ty then (convert ty 8 0 (laneOf (s.rc.rw a) (width ty) j)).v else 0)))
    ∧ ((Instr.vcvtlf d a ty).wf = true → ∃ t, exec (.vcvtlf d a ty) s = .next t ∧ Advanced s t ∧ OnlyW s t d ∧ t.rc.fflags = s.rc.fflags
        ∧ (∀ j, j < 128 / width ty → laneOf (t.rc.rw d) (width ty) j = (convert 8 ty 0 (laneOf (s.rc.rw a) 8 j)).v % 2 ^ width ty))

/-- The conversion of one element (R184): between floating formats and from integers the exact value rounded once, zeros and infinities with their
sign, a NaN the default NaN, invalid for a signalling one; to an integer the number rounded under the mode, or the limit with invalid and one
count for evc3, 0 for a NaN; the same format keeps its bits. To LNS6 the logarithm by the four thresholds, clamped at 15 with one count for
evc0, zero below −15 (R182); from LNS6 the exact value of the code rounded to nearest even, with no condition (R183). -/
def Sys2Proof.Spec.ConversionValues : Prop :=
  (∀ (a b rm v : Nat), a < 8 → b < 8 → rm < 4 → v < 2 ^ width a →
    let l := convert a b rm v
    let f := formOf a
    let g := formOf b
    let neg := v / 2 ^ (f.eb + f.fb) % 2
    (a = b → l = Lane.pure v)
    ∧ (a ≠ b → 4 ≤ a → 4 ≤ b → (finiteOf f v = true → valueOf f v ≠ 0 → Rounds g rm l (valueOf f v))
        ∧ (finiteOf f v = true → valueOf f v = 0 → l = Lane.pure (neg * 2 ^ (g.eb + g.fb)))
        ∧ (finiteOf f v = false → nanOf f v = false → l = Lane.pure (neg * 2 ^ (g.eb + g.fb) + (2 ^ g.eb - 1) * 2 ^ g.fb))
        ∧ (nanOf f v = true → l = Lane.raise (theNan g) (invalid (sigOf f v))))
    ∧ (a < 4 → 4 ≤ b → (simm v (width a) = 0 → l = Lane.pure 0)
        ∧ (simm v (width a) ≠ 0 → ∃ r, Rounds g rm r (simm v (width a)) ∧ l = Lane.raise r.v (r.fl &&& 1)))
    ∧ (4 ≤ a → b < 4 →
        let w := width b
        let most : Int := (2 ^ (w - 1) : Nat) - 1
        let k := integerOf rm (valueOf f v)
        let limit := fun (i : Int) => ({ v := (i % (2 ^ w : Nat)).toNat, fl := 0x10, e0 := 0, e2 := 0, e3 := 1 } : Lane)
        (finiteOf f v = true → -most - 1 ≤ k → k ≤ most → l = Lane.raise (k % (2 ^ w : Nat)).toNat (if (k : Rat) = valueOf f v then 0 else 1))
        ∧ (finiteOf f v = true → most < k → l = limit most) ∧ (finiteOf f v = true → k < -most - 1 → l = limit (-most - 1))
        ∧ (nanOf f v = true → l = limit 0) ∧ (finiteOf f v = false → nanOf f v = false → l = limit (if neg = 1 then -most - 1 else most))))
  ∧ (∀ (a v : Nat), 4 ≤ a → a < 7 → v < 2 ^ width a →
    let l := convert a 8 0 v
    let f := formOf a
    let sign := v / 2 ^ (f.eb + f.fb) % 2 * 0x20
    (∀ (m : Nat) (e : Int), finiteOf f v = true → 2 ^ 23 ≤ m → m < 2 ^ 24 → magn (valueOf f v) = (m : Rat) * pow2 (e - 23) →
        let q := 4 * e + (if m < 9147842 then 0 else if m < 10878679 then 1 else if m < 12937003 then 2 else if m < 15384775 then 3 else 4)
        l = (if 15 < q then { v := sign + 15, fl := 0, e0 := 1, e2 := 0, e3 := 0 } else if q < -15 then Lane.pure (sign + 0x10) else Lane.pure (sign + (q % 32).toNat)))
    ∧ (finiteOf f v = true → valueOf f v = 0 → l = Lane.pure (sign + 0x10))
    ∧ (finiteOf f v = false → nanOf f v = false → l = { v := sign + 15, fl := 0, e0 := 1, e2 := 0, e3 := 0 })
    ∧ (nanOf f v = true → l = { v := 0x10, fl := 0, e0 := 1, e2 := 0, e3 := 0 }))
  ∧ ∀ (b c : Nat), 4 ≤ b → b < 7 → c < 256 →
    let l := convert 8 b 0 c
    (lnsValue c = 0 → l = Lane.pure (c / 32 % 2 * 2 ^ ((formOf b).eb + (formOf b).fb)))
    ∧ (lnsValue c ≠ 0 → ∃ r, Rounds (formOf b) 0 r (lnsValue c) ∧ l = Lane.pure r.v)

/-- The special functions (R191, R192) return the true value rounded to nearest, for every finite operand; the cases of R191's table have the
results and the conditions that it lists, and an integer power of two in the normal range is exact. What counts as the true value, to within 2^-256, is the model's
choice (log 13). -/
def Sys2Proof.Spec.SpecialFunctionsAreRounded : Prop :=
  (∀ x, finiteOf (formOf 6) x = true →
    Nearest (fexp2 x) ((2 : ℝ) ^ realOf x)
    ∧ (0 < realOf x → Nearest (flog2 x) (Real.logb 2 (realOf x)) ∧ Nearest (frsqrt x) (1 / Real.sqrt (realOf x)))
    ∧ (realOf x ≠ 0 → Nearest (frcp x) (1 / realOf x))
    ∧ Nearest (fsinpi x) (Real.sin (Real.pi * realOf x)) ∧ Nearest (fcospi x) (Real.cos (Real.pi * realOf x))
    ∧ (realOf x < 0 → flog2 x = Lane.raise 0x7FC00000 0x10 ∧ frsqrt x = Lane.raise 0x7FC00000 0x10)
    ∧ (∀ n : Int, n ≠ 0 → realOf x = n → fsinpi x = Lane.pure (if n < 0 then 0x80000000 else 0))
    ∧ (∀ n : Int, realOf x = n + 1 / 2 → fcospi x = Lane.pure 0)
    ∧ ∀ n : Int, -126 ≤ n → n ≤ 127 → realOf x = n → fexp2 x = Lane.pure ((n + 127).toNat * 2 ^ 23))
  ∧ (∀ x, x < 2 ^ 32 → nanOf (formOf 6) x = true → ∀ g, g ∈ [fexp2, flog2, frcp, frsqrt, fsinpi, fcospi] →
      g x = Lane.raise 0x7FC00000 (invalid (sigOf (formOf 6) x)))
  ∧ fexp2 0xFF800000 = Lane.pure 0 ∧ fexp2 0x7F800000 = Lane.pure 0x7F800000 ∧ flog2 0 = Lane.raise 0xFF800000 0x08
  ∧ flog2 0x80000000 = Lane.raise 0xFF800000 0x08 ∧ flog2 0x7F800000 = Lane.pure 0x7F800000 ∧ flog2 0x3F800000 = Lane.pure 0
  ∧ flog2 0xFF800000 = Lane.raise 0x7FC00000 0x10 ∧ frcp 0 = Lane.raise 0x7F800000 0x08 ∧ frcp 0x80000000 = Lane.raise 0xFF800000 0x08
  ∧ frcp 0x7F800000 = Lane.pure 0 ∧ frcp 0xFF800000 = Lane.pure 0x80000000 ∧ frsqrt 0 = Lane.raise 0x7F800000 0x08
  ∧ frsqrt 0x80000000 = Lane.raise 0xFF800000 0x08 ∧ frsqrt 0x7F800000 = Lane.pure 0 ∧ frsqrt 0xFF800000 = Lane.raise 0x7FC00000 0x10
  ∧ fsinpi 0 = Lane.pure 0 ∧ fsinpi 0x80000000 = Lane.pure 0x80000000 ∧ ∀ n, n = 0x7F800000 ∨ n = 0xFF800000 →
      fsinpi n = Lane.raise 0x7FC00000 0x10 ∧ fcospi n = Lane.raise 0x7FC00000 0x10

/-- Merging soft-maximum partials (R193): a NaN maximum gives the default NaN everywhere and invalid; two empty rows an empty row, with the factors 1 and
0; else m is the greater maximum, the factor of a maximum that equals it is 1 exactly, of −∞ it is 0, of any other the true power of two of the
difference rounded to nearest, and s is the exact sum of the scaled sums rounded once. -/
def Sys2Proof.Spec.SoftMergeRule : Prop :=
  ∀ (m1 s1 m2 s2 : Nat), m1 < 2 ^ 32 → m2 < 2 ^ 32 →
    let f := formOf 6
    let r := softMerge m1 s1 m2 s2
    (nanOf f m1 = true ∨ nanOf f m2 = true → r.m = 0x7FC00000 ∧ ∀ l, l ∈ [r.f1, r.f2, r.s] → l = Lane.raise 0x7FC00000 0x10)
    ∧ (m1 = 0xFF800000 → m2 = 0xFF800000 → r.m = 0xFF800000 ∧ r.f1 = Lane.pure 0x3F800000 ∧ r.f2 = Lane.pure 0 ∧ r.s = Lane.pure 0)
    ∧ (nanOf f m1 = false → nanOf f m2 = false → (m1 ≠ 0xFF800000 ∨ m2 ≠ 0xFF800000) →
        (r.m = m1 ∨ r.m = m2) ∧ orderOf f m1 ≤ orderOf f r.m ∧ orderOf f m2 ≤ orderOf f r.m
        ∧ (∀ m l, (m = m1 ∧ l = r.f1) ∨ (m = m2 ∧ l = r.f2) →
            (orderOf f m = orderOf f r.m → l = Lane.pure 0x3F800000) ∧ (orderOf f m < orderOf f r.m → m = 0xFF800000 ∨ r.m = 0x7F800000 → l = Lane.pure 0)
            ∧ (finiteOf f m = true → finiteOf f r.m = true → Nearest l ((2 : ℝ) ^ (realOf m - realOf r.m))))
        ∧ (finiteOf f s1 = true → finiteOf f s2 = true →
            let q := valueOf f s1 * valueOf f r.f1.v + valueOf f s2 * valueOf f r.f2.v
            q ≠ 0 → Rounds f 0 r.s q))

/-- Key-value instructions (R211–R214): VKSORT leaves the pairs sorted, pairs of equal keys in their order; VKMERGE.LO and .HI the lower and the upper
half of both sources' pairs, sorted; VKCOMB the heads of the runs; VKMATCH the values found. They raise and count nothing. -/
def Sys2Proof.Spec.VectorKeyResults : Prop :=
  ∀ (i : Instr) (d a b ty : Nat) (s : State),
    (i = .vksort d a b ty ∨ i = .vkmergeLo d a b ty ∨ i = .vkmergeHi d a b ty ∨ i = .vkcombAdd d a b ty ∨ i = .vkcombFirst d a b ty ∨ i = .vkmatch d a b ty) →
    i.wf = true → Live s → ReadyW s [d, a, b] → Unmasked s (keyFeat ty) →
    let w := width ty
    let p := 64 / w
    let x := pairsIn w (s.rc.rw a)
    let y := pairsIn w (s.rc.rw b)
    ∃ t, exec i s = .next t ∧ Advanced s t ∧ OnlyW s t d ∧ t.rc.fflags = s.rc.fflags ∧ t.tn.evc = s.tn.evc ∧
      let z := pairsIn w (t.rc.rw d)
      (i = .vksort d a b ty → SortOf ty ((s.rc.rw b).toNat % 2 == 1) z x)
      ∧ (i = .vkmergeLo d a b ty → ∃ l, SortOf ty false l (x ++ y) ∧ z = l.take p)
      ∧ (i = .vkmergeHi d a b ty → ∃ l, SortOf ty false l (x ++ y) ∧ z = l.drop p)
      ∧ (i = .vkcombAdd d a b ty → z = (List.range p).map (combined ty true x y))
      ∧ (i = .vkcombFirst d a b ty → z = (List.range p).map (combined ty false x y))
      ∧ (i = .vkmatch d a b ty → z = x.map (matched ty y))

/-- The soft-maximum family (R193, R215, R216): VSMMERGE and VSMSCALE put the merged partials, or the factors, into their lanes; VSMNORM divides a
segment by lane 1 of ws2, and where that is zero writes +0 and counts the row at its first segment into evc1; the conditions of the division join
fflags, and those of the factors and of the sum for both of the others. That an invalid of the sum itself is one of these, where R215 names it for a NaN
maximum alone, is the model's choice (log 58). -/
def Sys2Proof.Spec.SoftMaximumResults : Prop :=
  ∀ (i : Instr) (d a b : Nat) (s : State), (i = .vsmmerge d a b ∨ i = .vsmscale d a b ∨ i = .vsmnorm d a b) → i.wf = true → Live s → ReadyW s [d, a, b] →
    Unmasked s [0, 3] →
    let x := fun (n : Nat) => laneOf (s.rc.rw a) 32 n
    let y := fun (n : Nat) => laneOf (s.rc.rw b) 32 n
    let m := fun (j : Nat) => softMerge (x (2 * j)) (x (2 * j + 1)) (y (2 * j)) (y (2 * j + 1))
    ∃ t, exec i s = .next t ∧ Advanced s t ∧ OnlyW s t d
      ∧ (i = .vsmmerge d a b → ∀ j, j < 2 → laneOf (t.rc.rw d) 32 (2 * j) = (m j).m % 2 ^ 32 ∧ laneOf (t.rc.rw d) 32 (2 * j + 1) = (m j).s.v % 2 ^ 32)
      ∧ (i = .vsmscale d a b → ∀ j, j < 2 → laneOf (t.rc.rw d) 32 (2 * j) = (m j).f1.v % 2 ^ 32 ∧ laneOf (t.rc.rw d) 32 (2 * j + 1) = (m j).f2.v % 2 ^ 32)
      ∧ (i = .vsmmerge d a b ∨ i = .vsmscale d a b → t.rc.fflags = s.rc.fflags
          ||| ((m 0).f1.fl ||| (m 0).f2.fl ||| (m 0).s.fl ||| (m 1).f1.fl ||| (m 1).f2.fl ||| (m 1).s.fl))
      ∧ (i = .vsmnorm d a b → y 1 % 2 ^ 31 ≠ 0 → t.rc.fflags = (List.range 4).foldl (fun c n => c ||| (fp32.div 0 (x n) (y 1)).fl) s.rc.fflags)
      ∧ (i = .vsmnorm d a b → y 1 % 2 ^ 31 ≠ 0 → ∀ n, n < 4 → laneOf (t.rc.rw d) 32 n = (fp32.div 0 (x n) (y 1)).v % 2 ^ 32)
      ∧ (i = .vsmnorm d a b → y 1 % 2 ^ 31 = 0 → t.rc.rw d = 0 ∧ t.rc.fflags = s.rc.fflags
          ∧ Tbl.get 0 t.tn.evc 1 = (if y 2 % 2 = 1 then min (Tbl.get 0 s.tn.evc 1 + 1) (2 ^ 32 - 1) else Tbl.get 0 s.tn.evc 1))

namespace Sys2Proof.Spec

open Sys2Proof.Machine

/-! ## Regions (R217–R240) -/

/-- R219: the rank of a result of two operands; none where they are not rank-compatible. -/
def rankOf (a b : Region) : Option Nat :=
  match a.boxes, b.boxes with
  | [], [] => some (max a.rank b.rank)
  | [], _ => some b.rank
  | _, [] => some a.rank
  | _, _ => if a.rank = b.rank then some a.rank else none

/-- A field of n bits at a place of a control operand. -/
def fieldOf (v : Word) (at_ n : Nat) : Nat := v.toNat / 2 ^ at_ % 2 ^ n

/-- Two region operands that are not ragged. -/
def pairRule (s : State) (rd a b : Nat) (f : Nat → List Box → List Box → RRes) : Option (Nat × List Nat × Nat × RRes × Bool) :=
  let x := s.g a
  let y := s.g b
  if x.ragged || y.ragged then none
  else match rankOf x y with
    | none => some (rd, [], 0, .bad 0x24, false)
    | some r => some (rd, [], r, f r x.boxes y.boxes, x.inexact || y.inexact)

/-- The boxes that remain of some boxes, each range cut or moved by a rule for its dimension; a box of which a range goes is gone. -/
def eachRange (f : Nat → Rng → Option Rng) (bs : List Box) : List Box :=
  bs.filterMap fun b => (b.zipIdx).foldr (fun (p : Rng × Nat) (l : Option Box) => match f p.2 p.1, l with | some r, some t => some (r :: t) | _, _ => none) (some [])

/-- A set of boxes in canonical form (R224), however many it takes. -/
def canonical (rank : Nat) (bs : List Box) : RRes := .ok ((canonU noLim rank bs).getD []) false

/-- The region algebra (R232, R233, R239): destination, x register, rank, cells, and whether an operand was approximate. -/
def regionRule (i : Instr) (s : State) : Option (Nat × List Nat × Nat × RRes × Bool) :=
  match i with
  | .runionEx rd a b => pairRule s rd a b (unionR .ex)
  | .runionSup rd a b => pairRule s rd a b (unionR .sup)
  | .rinterEx rd a b => pairRule s rd a b (interR .ex)
  | .rinterSup rd a b => pairRule s rd a b (interR .sup)
  | .rsubEx rd a b => pairRule s rd a b (subR .ex)
  | .rsubSup rd a b => pairRule s rd a b (subR .sup)
  | .rsubSub rd a b => pairRule s rd a b (subR .sub)
  | .rshift rd a b =>
    let g := s.g a
    let move := fun (d : Nat) (r : Rng) =>
      let t := simm (fieldOf (s.x b) (12 * d) 12) 12
      if t < 0 then (r.clip (-t).toNat (2 ^ 32 - 1)).map fun r => { r with lo := r.lo - (-t).toNat, hi := r.hi - (-t).toNat }
      else (r.clip 0 (2 ^ 32 - 1 - t.toNat)).map fun r => { r with lo := r.lo + t.toNat, hi := r.hi + t.toNat }
    if g.ragged then none else some (rd, [b], g.rank, canonical g.rank (eachRange move g.boxes), g.inexact)
  | .rsplit rd a b =>
    let g := s.g a
    let d := fieldOf (s.x b) 0 3
    let c := fieldOf (s.x b) 32 32
    let cut := fun (k : Nat) (r : Rng) => if k ≠ d then some r else if fieldOf (s.x b) 3 1 = 1 then r.clip c (2 ^ 32 - 1) else if c = 0 then none else r.clip 0 (c - 1)
    if g.ragged || (!g.boxes.isEmpty && decide (g.rank ≤ d)) then none else some (rd, [b], g.rank, canonical g.rank (eachRange cut g.boxes), g.inexact)
  | .rdil rd a b =>
    let g := s.g a
    let amount := fun (d : Nat) => fieldOf (s.x b) (12 * d) 12
    let sup := fieldOf (s.x b) 63 1 == 1
    let rough := fun (x : Box) => x.zipIdx.any fun (p : Rng × Nat) => p.1.lo != p.1.hi && decide (1 < p.1.step) && decide (0 < amount p.2) && decide (2 * amount p.2 + 1 < p.1.step)
    let grown := g.boxes.map fun x => ((if rough x then x.map fun r => { r with step := 1 } else x).zipIdx).map fun (p : Rng × Nat) =>
      if amount p.2 = 0 then p.1 else { lo := p.1.lo - amount p.2, hi := min (p.1.hi + amount p.2) (2 ^ 32 - 1), step := 1 }
    let closed := g.boxes.any rough
    if g.ragged then none
    else if closed && !sup then some (rd, [b], g.rank, .bad 0x23, g.inexact)
    else some (rd, [b], g.rank, match plainR sup g.rank grown with | .ok bs ap => .ok bs (ap || closed) | r => r, g.inexact)
  | .rproj rd a b =>
    let g := s.g a
    let mask := fieldOf (s.x b) 0 5
    let dims := (List.range 5).filter fun d => fieldOf (s.x b) d 1 == 1
    if g.ragged || mask == 0 || (!g.boxes.isEmpty && decide (2 ^ g.rank ≤ mask)) then none
    else some (rd, [b], dims.length, plainR (fieldOf (s.x b) 63 1 == 1) dims.length (g.boxes.map fun x => dims.map fun d => x.getD d { lo := 0, hi := 0, step := 1 }), g.inexact)
  | .rb2 rd a b =>
    let lo := s.x a
    let hi := s.x b
    if fieldOf hi 0 32 < fieldOf lo 0 32 ∨ fieldOf hi 32 32 < fieldOf lo 32 32 then some (rd, [a, b], 2, .ok [] false, false)
    else some (rd, [a, b], 2, .ok [[{ lo := fieldOf lo 0 32, hi := fieldOf hi 0 32, step := 1 }, { lo := fieldOf lo 32 32, hi := fieldOf hi 32 32, step := 1 }]] false, false)
  | _ => none

/-- A region of boxes that is not ragged. -/
def regionOf (rank : Nat) (bs : List Box) (inexact : Bool) : Region :=
  { rank := rank, boxes := bs, ragged := false, inexact := inexact, row0 := 0, rbase := 0, lenvec := 0 }

/-- The number of cells of a box. -/
def boxSize (b : Box) : Nat := (b.map fun r => if r.lo ≤ r.hi then (r.hi - r.lo) / max r.step 1 + 1 else 0).foldl (· * ·) 1

/-- The coordinates that a dense range and another share. -/
def both (r q : Rng) : Option Rng := if max r.lo q.lo ≤ min r.hi q.hi then some { lo := max r.lo q.lo, hi := min r.hi q.hi, step := 1 } else none

/-- A range in the form that region registers hold: the last coordinate is reached by whole steps, all below 2^32. -/
def Shaped (r : Rng) : Prop := r.lo ≤ r.hi ∧ r.hi < 2 ^ 32 ∧ 0 < r.step ∧ (r.hi - r.lo) % r.step = 0

/-- A box holds a cell (R217): every coordinate is one of LO, LO + STEP, …, HI of its dimension. -/
def boxHolds (b : Box) (c : List Nat) : Bool :=
  b.length == c.length && (b.zip c).all fun p => decide (p.1.lo ≤ p.2) && decide (p.2 ≤ p.1.hi) && (p.2 - p.1.lo) % p.1.step == 0

/-- A set of boxes holds a cell: one of them does. -/
def setHolds (bs : List Box) (c : List Nat) : Bool := bs.any fun b => boxHolds b c

/-- The region registers that an instruction reads or writes. -/
def gRegs : Instr → List Nat
  | .runionEx d a b => [d, a, b] | .runionSup d a b => [d, a, b] | .rinterEx d a b => [d, a, b] | .rinterSup d a b => [d, a, b]
  | .rsubEx d a b => [d, a, b] | .rsubSup d a b => [d, a, b] | .rsubSub d a b => [d, a, b]
  | .rdil d a _ => [d, a] | .rshift d a _ => [d, a] | .rproj d a _ => [d, a] | .rsplit d a _ => [d, a] | .rclip d a _ => [d, a]
  | .rb2 d _ _ => [d] | .rld d _ => [d] | .rmask d _ b => [d, b] | .rcount _ a => [a] | .rtest _ a b => [a, b] | .rgetb _ a _ => [a]
  | .rst _ b => [b] | .tilepost _ a _ => [a] | .tilenext d _ => [d]
  | _ => []

/-- R224: boxes in their order, as slabs of the first dimension, ascending, with the cross-section of each; slabs that touch differ in it; steps are
given for each dimension. -/
def Slabs : List Nat → List Box → Prop
  | [], bs => bs = [[]]
  | s :: ss, bs => ∃ l : List (Nat × Nat × List Box), l ≠ [] ∧ bs = l.flatMap (fun x => x.2.2.map fun b => ({ lo := x.1, hi := x.2.1, step := s } : Rng) :: b)
      ∧ (∀ x, x ∈ l → x.1 ≤ x.2.1 ∧ (x.2.1 - x.1) % s = 0 ∧ Slabs ss x.2.2)
      ∧ ∀ (i : Nat) (x y : Nat × Nat × List Box), l[i]? = some x → l[i + 1]? = some y → x.2.1 < y.1 ∧ (x.2.1 + s = y.1 → x.2.2 ≠ y.2.2)

/-- R218: the lattice step of a set of cells in a dimension: the greatest common divisor of the differences of its coordinates there, 1 where it has
one coordinate. -/
def LatticeStep (bs : List Box) (rank d s : Nat) : Prop :=
  let coord := fun (n : Nat) => ∃ c : List Nat, (c.length = rank ∧ setHolds bs c = true ∧ (c.drop d).head? = some n)
  0 < s ∧ (∀ m n, coord m → coord n → (s : Int) ∣ (m : Int) - n) ∧ ((∀ m n, coord m → coord n → m = n) → s = 1)
    ∧ ∀ k : Nat, (∀ m n, coord m → coord n → (k : Int) ∣ (m : Int) - n) → k ∣ s ∨ ∀ m n, coord m → coord n → m = n

/-- The canonical form of a region that is not ragged (R218, R224). -/
def CanonicalForm (rank : Nat) (bs : List Box) : Prop :=
  bs = [] ∨ ∃ steps : List Nat, steps.length = rank ∧ Slabs steps bs ∧ ∀ d s, steps[d]? = some s → LatticeStep bs rank d s

/-- The boxes of a region register that is not ragged, as R218 and R222 have them: at most eight, one range for each of the rank's dimensions, and in
each dimension one step and one phase. -/
def RegisterBoxes (rank : Nat) (bs : List Box) : Prop :=
  bs.length ≤ 8 ∧ (∀ b ∈ bs, b.length = rank ∧ ∀ r ∈ b, Shaped r)
    ∧ ∀ b ∈ bs, ∀ c ∈ bs, ∀ p ∈ b.zip c, p.1.step = p.2.step ∧ p.1.lo % p.1.step = p.2.lo % p.2.step

/-- A region as a register holds it (R217, R220, R223): boxes, or the clip window of a ragged region. -/
def RegisterRegion (g : Region) : Prop :=
  if g.ragged then ∃ w0 w1 : Rng, g.rank = 2 ∧ g.boxes = [[w0, w1]] ∧ w0.step = 1 ∧ w1.step = 1 ∧ w0.lo ≤ w0.hi ∧ w1.lo ≤ w1.hi ∧ w0.hi < 2 ^ 32 ∧ w1.hi < 2 ^ 32
      ∧ g.row0 ≤ w0.lo ∧ w0.hi - g.row0 < 65536 ∧ g.rbase < 2 ^ 32 ∧ g.lenvec % 4 = 0 ∧ g.lenvec < 2 ^ 48
  else RegisterBoxes g.rank g.boxes ∧ (∀ b, b ∈ g.boxes → ∀ r, r ∈ b → r.step < 2 ^ 32) ∧ g.rank ≤ 5 ∧ (g.boxes ≠ [] → 1 ≤ g.rank) ∧ g.row0 = 0 ∧ g.rbase = 0 ∧ g.lenvec = 0

/-- Bytes that a load has returned. -/
def gotBytes (got : List (Nat × Byte)) (a n : Nat) : List Byte := (List.range n).map fun i => Tbl.get 0 got (a + i)
/-- The field of n bytes at an offset of a record. -/
def numAt (bs : List Byte) (o n : Nat) : Nat := leNat ((bs.drop o).take n)

/-- R220: row c0 of a ragged region has the coordinates from max(RBASE, LO1) to min(RBASE + len − 1, HI1), and none where its entry len is 0. -/
def rowHolds (g : Region) (len : Nat → Nat) (c : List Nat) : Bool :=
  match g.boxes, c with
  | [[w0, w1]], [c0, c1] => decide (w0.lo ≤ c0 ∧ c0 ≤ w0.hi) && len c0 != 0 && decide (max g.rbase w1.lo ≤ c1 ∧ c1 ≤ min (g.rbase + len c0 - 1) w1.hi)
  | _, _ => false
/-- The entry of row c0 among bytes that have been read (R220). -/
def entryOf (got : List (Nat × Byte)) (g : Region) (c0 : Nat) : Nat := leNat (gotBytes got (g.lenvec + 4 * (c0 - g.row0)) 4)
/-- The cells of a region, those of a ragged one by the entries read. -/
def cellsOf (got : List (Nat × Byte)) (g : Region) (c : List Nat) : Bool := if g.ragged then rowHolds g (entryOf got g) c else setHolds g.boxes c

/-- R235: the bits of RTEST, for two sets of cells of a rank. -/
def TestBits (v : Word) (rank : Nat) (a b : List Nat → Bool) : Prop :=
  v.toNat < 64 ∧ (v.getLsbD 0 = true ↔ ∃ c : List Nat, c.length = rank ∧ a c = true ∧ b c = true)
    ∧ (v.getLsbD 1 = true ↔ ∀ c : List Nat, c.length = rank → a c = true → b c = true) ∧ (v.getLsbD 2 = true ↔ ∀ c : List Nat, c.length = rank → b c = true → a c = true)
    ∧ (v.getLsbD 3 = true ↔ ∀ c : List Nat, c.length = rank → a c = b c) ∧ (v.getLsbD 4 = true ↔ ∀ c : List Nat, c.length = rank → a c = false)
    ∧ (v.getLsbD 5 = true ↔ ∀ c : List Nat, c.length = rank → b c = false)

/-- R222: the range of dimension d of box b of an image. -/
def imgRng (bs : List Byte) (b d : Nat) : Rng :=
  { lo := numAt bs (32 + 60 * b + 4 * d) 4, hi := numAt bs (52 + 60 * b + 4 * d) 4, step := numAt bs (72 + 60 * b + 4 * d) 4 }
/-- The boxes of an image. -/
def imgBoxes (bs : List Byte) : List Box := (List.range (numAt bs 0 1)).map fun b => (List.range (numAt bs 1 1)).map fun d => imgRng bs b d

/-- R223: an image that RLD accepts. -/
def Accepts (bs : List Byte) : Prop :=
  numAt bs 0 1 ≤ 8 ∧ numAt bs 1 1 ≤ 5 ∧ (1 ≤ numAt bs 0 1 → 1 ≤ numAt bs 1 1) ∧ numAt bs 2 1 < 4 ∧ numAt bs 3 1 = 0 ∧ numAt bs 12 4 = 0 ∧ numAt bs 24 8 = 0
    ∧ (∀ b d, b < 8 → d < 5 → ¬ (b < numAt bs 0 1 ∧ d < numAt bs 1 1) → imgRng bs b d = { lo := 0, hi := 0, step := 0 })
    ∧ (∀ b d, b < numAt bs 0 1 → d < numAt bs 1 1 → let r := imgRng bs b d; r.lo ≤ r.hi ∧ 1 ≤ r.step ∧ (r.hi - r.lo) % r.step = 0)
    ∧ (numAt bs 2 1 % 2 = 1 → let w := imgRng bs 0 0
        numAt bs 0 1 = 1 ∧ numAt bs 1 1 = 2 ∧ w.step = 1 ∧ (imgRng bs 0 1).step = 1 ∧ numAt bs 4 4 ≤ w.lo ∧ w.hi - numAt bs 4 4 < 65536
          ∧ numAt bs 16 8 % 4 = 0 ∧ (numAt bs 16 8 < 0x40000 ∨ (0x1000000 ≤ numAt bs 16 8 ∧ numAt bs 16 8 < 0x1400000)))
    ∧ (numAt bs 2 1 % 2 = 0 → numAt bs 4 4 = 0 ∧ numAt bs 8 4 = 0 ∧ numAt bs 16 8 = 0)

/-- R218, R225: the lattice of a range by itself, as step and phase, and whether those of some boxes differ. -/
def ownLattice (r : Rng) : Nat × Nat := if r.lo = r.hi then (1, 0) else (r.step, r.lo % r.step)
def boxesDiffer (bs : List Box) : Bool := bs.any fun b => b.map ownLattice != (bs.headD []).map ownLattice

/-- The region of an image that RLD accepts: the image's own if it is ragged, else the canonical form of the cells of its boxes (R237). -/
def ImageRegion (bs : List Byte) (g : Region) : Prop :=
  Accepts bs ∧
    let inexact := decide (2 ≤ numAt bs 2 1)
    if numAt bs 2 1 % 2 = 1 then
      g = { rank := 2, boxes := [[imgRng bs 0 0, imgRng bs 0 1]], ragged := true, inexact := inexact, row0 := numAt bs 4 4, rbase := numAt bs 8 4, lenvec := numAt bs 16 8 }
    else ∃ cs, cs.length ≤ 8 ∧ CanonicalForm (numAt bs 1 1) cs ∧ (∀ c : List Nat, c.length = numAt bs 1 1 → setHolds cs c = setHolds (imgBoxes bs) c)
      ∧ g = regionOf (numAt bs 1 1) cs inexact

/-- R222: 512 bytes are the image of a region. -/
def IsImage (bs : List Byte) (g : Region) : Prop :=
  bs.length = 512 ∧ numAt bs 0 1 = g.boxes.length ∧ numAt bs 1 1 = g.rank ∧ numAt bs 2 1 = (if g.ragged then 1 else 0) + (if g.inexact then 2 else 0)
    ∧ numAt bs 3 1 = 0 ∧ numAt bs 4 4 = g.row0 ∧ numAt bs 8 4 = g.rbase ∧ numAt bs 12 4 = 0 ∧ numAt bs 16 8 = g.lenvec ∧ numAt bs 24 8 = 0
    ∧ ∀ b d, b < 8 → d < 5 → imgRng bs b d = ((g.boxes[b]?).bind fun x => x[d]?).getD { lo := 0, hi := 0, step := 0 }

/-- The instructions that make relaxed loads (R231): what is made of the bytes, and the bytes: the address of the first one, and how many; two runs of them for
two ragged operands. -/
def fillRule (i : Instr) (s : State) : Option (Fill × List (Nat × Nat)) :=
  let rows := fun (g : Region) => match g.boxes with
    | [[w0, _]] => if g.ragged then [(g.lenvec + 4 * (w0.lo - g.row0), 4 * (w0.hi + 1 - w0.lo))] else []
    | _ => []
  match i with
  | .rld rd a => if (s.x a).toNat % 16 = 0 ∧ (s.x a).toNat + 512 ≤ 0x40000 then some (.image rd, [((s.x a).toNat, 512)]) else none
  | .rmask rd a b => match (s.g b).boxes with
    | [r :: _] =>
      let n := r.hi + 1 - r.lo
      let va := fieldOf (s.x a) 0 48
      if (s.g b).ragged = false ∧ isDense (s.g b).boxes = true ∧ n ≤ 65536 ∧ va + (n + 7) / 8 ≤ 0x40000 then
        some (.mask rd (fieldOf (s.x a) 63 1 == 1) (s.g b), [(va, (n + 7) / 8)])
      else none
    | _ => none
  | .rcount rd a => if (s.g a).ragged then some (.count rd (s.g a), rows (s.g a)) else none
  | .rtest rd a b => if ((s.g a).ragged || (s.g b).ragged) && (rankOf (s.g a) (s.g b)).isSome then some (.test rd (s.g a) (s.g b), rows (s.g a) ++ rows (s.g b)) else none
  | .rproj rd a b => if (s.g a).ragged && ((s.x b).toNat % 32 == 1 || (s.x b).toNat % 32 == 2) then some (.proj rd (s.x b).toNat (s.g a), rows (s.g a)) else none
  | _ => none

/-- The x registers that they use. -/
def fillRegs : Instr → List Nat
  | .rld _ a => [a] | .rmask _ a _ => [a] | .rcount rd _ => [rd] | .rtest rd _ _ => [rd] | .rproj _ _ b => [b] | _ => []

/-- The end of such an instruction: g[rd] holds a region, evc4 counts an approximation, its operation is outstanding no more; no other g register and no byte
of memory changes. -/
def FillsG (s t : State) (w : Who) (o : Op) (rd : Nat) (v : Region) (ap : Bool) : Prop :=
  let a := s.tenant w.core w.ctx
  let b := t.tenant w.core w.ctx
  (rd ≠ 0 → b.rg rd = v) ∧ (∀ j, j ≠ rd → b.rg j = a.rg j) ∧ (t.rcx w).ops = (s.rcx w).ops.filter (fun e => e.seq != o.seq) ∧ (t.rcx w).x = (s.rcx w).x
    ∧ t.mem = s.mem ∧ t.flights = s.flights ∧ Tbl.get 0 b.evc 4 = (if ap then min (Tbl.get 0 a.evc 4 + 1) (2 ^ 32 - 1) else Tbl.get 0 a.evc 4)

/-- What it makes of a set of cells (R225): the canonical form, where it has at most eight boxes; else the handler ends with a code, or, under policy SUP, g[rd]
gets a set that holds it. -/
def Computes (s t : State) (w : Who) (o : Op) (rd rank : Nat) (inexact sup : Bool) (code va : Nat) (set : List Nat → Prop) : Prop :=
  ∀ cs, CanonicalForm rank cs → (∀ c : List Nat, c.length = rank → (setHolds cs c = true ↔ set c)) →
    (cs.length ≤ 8 → FillsG s t w o rd (regionOf rank cs inexact) false)
    ∧ (8 < cs.length → sup = false → t = s.opEnds w o code va 0 [])
    ∧ (8 < cs.length → sup = true → ∃ ds, ds.length ≤ 8 ∧ CanonicalForm rank ds ∧ (∀ c : List Nat, c.length = rank → set c → setHolds ds c = true)
        ∧ FillsG s t w o rd (regionOf rank ds true) true)

end Sys2Proof.Spec

/-! ## Regions -/

/-- What the region algebra computes, cell by cell (R224, R225, R232): the union, the intersection and the difference of two sets of cells. A result that is
not approximated holds exactly the cells of the set; policy SUP holds at least them, policy SUB at most them; only policy EX ends without
a region, and no region has more than eight boxes; every region is in the canonical form of R224. -/
def Obligations.RegionAlgebraHoldsTheCells : Prop :=
  ∀ (pol : Policy) (rank : Nat) (as bs : List Box), 1 ≤ rank → rank ≤ 5 → RegisterBoxes rank as → RegisterBoxes rank bs →
    let judge := fun (r : RRes) (set : List Nat → Bool) => match r with
      | .bad c => pol = .ex ∧ (c = 0x21 ∨ c = 0x23)
      | .ok cs ap => cs.length ≤ 8 ∧ CanonicalForm rank cs ∧ (pol = .ex → ap = false) ∧ ∀ c : List Nat, c.length = rank →
          (ap = false → setHolds cs c = set c) ∧ (pol ≠ .sub → set c = true → setHolds cs c = true) ∧ (pol = .sub → setHolds cs c = true → set c = true)
    (pol ≠ .sub → judge (unionR pol rank as bs) (fun c => setHolds as c || setHolds bs c) ∧ judge (interR pol rank as bs) (fun c => setHolds as c && setHolds bs c))
    ∧ judge (subR pol rank as bs) (fun c => setHolds as c && !setHolds bs c)

/-- The region algebra on regions that are not ragged (R219, R221, R225, R232, R233, R239): g[rd] gets the cells of the rule, INEXACT where an operand had
it or the instruction approximated, which evc4 counts; g0 discards; nothing else changes. The region is in the canonical form of R224, where the
registers hold regions. A rank or policy that fails raises its code, on the state as it was: REGION_RANK of RSPLIT for a dimension at or above the rank of a region that is
not empty, of RPROJ for a mask of 0 or one with a bit at or above it (R233). The address slots of these traps, 0 or x[rs2] of RSPLIT and RPROJ, are the model's
choice (log 24). -/
def Obligations.RegionAlgebraResults : Prop :=
  (∀ (i : Instr) (s : State) (rd rank : Nat) (l : List Nat) (r : RRes) (inex : Bool), regionRule i s = some (rd, l, rank, r, inex) → i.wf = true → Ready s l →
    ReadyG s (gRegs i) → NoAcquire s → s.cur.rc = 0 →
    match r with
    | .bad c => exec i s = .next (s.trap s.cur c s.rc.pc 0 0)
    | .ok bs ap => ∃ t, exec i s = .next t ∧ Advanced s t ∧ OnlyG s t rd ∧ (rd ≠ 0 → t.g rd = regionOf rank bs (inex || ap)) ∧ t.g 0 = .empty 0
        ∧ Tbl.get 0 t.tn.evc 4 = (if ap then min (Tbl.get 0 s.tn.evc 4 + 1) (2 ^ 32 - 1) else Tbl.get 0 s.tn.evc 4)
        ∧ ((∀ n, RegisterRegion (s.g n)) → CanonicalForm rank bs))
  ∧ ∀ (i : Instr) (s : State) (rd a b : Nat), s.cur.rc = 0 → Ready s [b] → ReadyG s [rd, a] → NoAcquire s → (s.g a).ragged = false →
      ((i = .rsplit rd a b ∧ (s.g a).boxes ≠ [] ∧ (s.g a).rank ≤ fieldOf (s.x b) 0 3)
        ∨ (i = .rproj rd a b ∧ (fieldOf (s.x b) 0 5 = 0 ∨ ((s.g a).boxes ≠ [] ∧ 2 ^ (s.g a).rank ≤ fieldOf (s.x b) 0 5)))) →
      exec i s = .next (s.trap s.cur 0x24 s.rc.pc (s.x b) 0)

/-- A region instruction of the urgent or the overflow context raises CONTEXT_RESOURCE (R221); RUNION, RSUB, RDIL, RSHIFT and RSPLIT on a ragged region
REGION_RAGGED (R231–R233); the address slot 0 of both traps is the model's choice (log 24). One that uses a region register which still waits for its
result does not issue (R59, R221). -/
def Sys2Proof.Spec.RegionInstructionsTrap : Prop :=
  (∀ (i : Instr) (s : State) (a b c : Nat) (l : List Nat), i.wf = true →
    ((i = .runionEx a b c ∨ i = .runionSup a b c ∨ i = .rinterEx a b c ∨ i = .rinterSup a b c ∨ i = .rsubEx a b c ∨ i = .rsubSup a b c ∨ i = .rsubSub a b c) ∧ l = []
      ∨ (i = .rdil a b c ∨ i = .rshift a b c ∨ i = .rproj a b c ∨ i = .rsplit a b c ∨ i = .rclip a b c ∨ i = .tilenext a c) ∧ l = [c]
      ∨ (i = .rcount a b ∨ i = .rtest a b c) ∧ l = [a] ∨ (i = .rld a b ∨ i = .rst b c ∨ i = .rmask a b c) ∧ l = [b] ∨ (i = .rgetb a b c ∨ i = .tilepost a b c) ∧ l = [a, c]
      ∨ i = .rb2 a b c ∧ l = [b, c]) →
    Ready s l → s.cur.rc ≠ 0 → exec i s = .next (s.trap s.cur 0x08 s.rc.pc 0 0))
  ∧ (∀ (i : Instr) (s : State) (a b c : Nat) (l : List Nat), s.cur.rc = 0 → Ready s l → ReadyG s (gRegs i) → (s.g b).ragged = true →
    ((i = .runionEx a b c ∨ i = .runionSup a b c ∨ i = .rsubEx a b c ∨ i = .rsubSup a b c ∨ i = .rsubSub a b c) ∧ l = []
      ∨ (i = .rdil a b c ∨ i = .rshift a b c ∨ i = .rsplit a b c) ∧ l = [c]) →
    exec i s = .next (s.trap s.cur 0x22 s.rc.pc 0 0))
  ∧ ∀ (i : Instr) (s : State) (a b c : Nat) (l : List Nat), s.cur.rc = 0 → Ready s l → (gRegs i).any s.rc.busyG = true →
    ((i = .runionEx a b c ∨ i = .runionSup a b c ∨ i = .rinterEx a b c ∨ i = .rinterSup a b c ∨ i = .rsubEx a b c ∨ i = .rsubSup a b c ∨ i = .rsubSub a b c) ∧ l = []
      ∨ (i = .rdil a b c ∨ i = .rshift a b c ∨ i = .rproj a b c ∨ i = .rsplit a b c ∨ i = .rclip a b c ∨ i = .tilenext a c) ∧ l = [c]
      ∨ (i = .rcount a b ∨ i = .rtest a b c) ∧ l = [a] ∨ (i = .rld a b ∨ i = .rst b c ∨ i = .rmask a b c) ∧ l = [b] ∨ (i = .rgetb a b c ∨ i = .tilepost a b c) ∧ l = [a, c]
      ∨ i = .rb2 a b c ∧ l = [b, c]) →
    exec i s = .next { s with stalled := true }

/-- RCOUNT, RTEST and RGETB read cells and fields into x[rd] and change nothing else (R234–R236), where no operand is ragged: the number of cells, the
comparison of the two sets of cells, and a field. -/
def Sys2Proof.Spec.RegionReadResults : Prop :=
  (∀ (rd a : Nat) (s : State), s.cur.rc = 0 → rd ≠ 0 → Ready s [rd] → ReadyG s [a] → NoAcquire s → (s.g a).ragged = false →
    ∃ t, exec (.rcount rd a) s = .next t ∧ Advanced s t ∧ OnlyX s t rd
      ∧ t.x rd = w64 ((min (((s.g a).boxes.map boxSize).sum) (2 ^ 64 - 1) : Nat) : Int))
  ∧ (∀ (rd a b rank : Nat) (s : State), s.cur.rc = 0 → rd ≠ 0 → Ready s [rd] → ReadyG s [a, b] → NoAcquire s → rankOf (s.g a) (s.g b) = some rank →
      (s.g a).ragged = false → (s.g b).ragged = false →
    ∃ t, exec (.rtest rd a b) s = .next t ∧ Advanced s t ∧ OnlyX s t rd
      ∧ (RegisterRegion (s.g a) → RegisterRegion (s.g b) → TestBits (t.x rd) rank (setHolds (s.g a).boxes) (setHolds (s.g b).boxes)))
  ∧ (∀ (rd a b : Nat) (s : State), s.cur.rc = 0 → Ready s [rd] → ReadyG s [a, b] → NoAcquire s → rankOf (s.g a) (s.g b) = none →
      exec (.rtest rd a b) s = .next (s.trap s.cur 0x24 s.rc.pc 0 0))
  ∧ ∀ (rd a b : Nat) (s : State), s.cur.rc = 0 → rd ≠ 0 → Ready s [rd, b] → ReadyG s [a] →
    let g := s.g a
    let item := fieldOf (s.x b) 8 3
    let r := (g.boxes[fieldOf (s.x b) 0 3]?).bind fun x => x[fieldOf (s.x b) 4 3]?
    ∃ t, exec (.rgetb rd a b) s = .next t ∧ Advanced s t ∧ OnlyX s t rd
      ∧ (item = 0 → t.x rd = w64 ((r.map (·.lo)).getD 0)) ∧ (item = 1 → t.x rd = w64 ((r.map (·.hi)).getD 0)) ∧ (item = 2 → t.x rd = w64 ((r.map (·.step)).getD 0))
      ∧ (item = 3 → t.x rd = w64 (g.boxes.length + g.rank * 2 ^ 8 + (if g.ragged then 2 ^ 16 else 0) + (if g.inexact then 2 ^ 17 else 0)))
      ∧ (item = 4 → t.x rd = w64 g.row0) ∧ (item = 5 → t.x rd = w64 g.rbase) ∧ (item = 6 → t.x rd = w64 g.lenvec) ∧ (item = 7 → t.x rd = 0)

/-- RLD, RMASK, and RCOUNT, RTEST and RPROJ of a ragged region retire as loads do (R231): an operation joins those outstanding that reads every byte the
instruction needs, each part within one granule, and its result comes when all of them have returned. Bytes of own TCM are read for RLD and RMASK here; the rows of
a ragged region are read wherever its vector lies. -/
def Sys2Proof.Spec.RegionLoadsIssue : Prop :=
  ∀ (i : Instr) (s : State) (f : Fill) (l : List (Nat × Nat)), fillRule i s = some (f, l) → s.cur.rc = 0 → Ready s (fillRegs i) → ReadyG s (gRegs i) → NoAcquire s →
    s.eager = false → (∀ n, RegisterRegion (s.g n)) → (s.rc.ops.filter fun o => o.k.isLoad && !o.k.isStore).length < 16 →
    ∃ t o, exec i s = .next t ∧ Advanced s t ∧ OnlyContext s t ∧ t.rc = { s.rc with pc := s.rc.pc + 4, seq := s.rc.seq + 1, kept := [], ops := s.rc.ops ++ [o] }
      ∧ o.k = .load ∧ o.dest = .fill f ∧ o.seq = s.rc.seq ∧ o.pc = s.rc.pc ∧ o.aq = false ∧ o.rl = false
      ∧ (∀ r, r ∈ l → ∀ k, r.1 ≤ k → k < r.1 + r.2 → ∃ p, p ∈ o.parts ∧ p.1 ≤ k ∧ k < p.1 + p.2) ∧ ∀ p, p ∈ o.parts → 0 < p.2 ∧ p.1 / 16 = (p.1 + p.2 - 1) / 16

/-- What these instructions make of the bytes that have returned (R220, R223, R225, R233–R235, R237, R240): the region of a valid image, the runs of set bits of a
bitmap over a box, the number of cells of a ragged region, the comparison of two regions, the projection of a ragged one on one of its dimensions; an image that R223
does not accept, a set that needs more than eight boxes under policy EX, ends the handler with its code. -/
def Sys2Proof.Spec.RegionLoadsComplete : Prop :=
  ∀ (w : Who) (o : Op) (rd : Nat) (s : State), w.rc < 3 →
    let t := s.complete w o
    (∀ bs, o.dest = .fill (.image rd) → o.n = 512 → bs = gotBytes o.got o.va 512 →
      (∀ g, ImageRegion bs g → FillsG s t w o rd g false) ∧ (¬ Accepts bs → t = s.opEnds w o 0x30 o.va 0 [])
      ∧ (Accepts bs → numAt bs 2 1 % 2 = 0 → Computes s t w o rd (numAt bs 1 1) (decide (2 ≤ numAt bs 2 1)) false (if boxesDiffer (imgBoxes bs) then 0x23 else 0x21) o.va
          fun c => setHolds (imgBoxes bs) c = true))
    ∧ (∀ (g : Region) (sup : Bool) (r : Rng) (rest : Box), o.dest = .fill (.mask rd sup g) → RegisterRegion g → g.ragged = false → g.boxes = [r :: rest] →
        isDense g.boxes = true → o.n = (r.hi + 8 - r.lo) / 8 →
        Computes s t w o rd g.rank g.inexact sup 0x21 0 fun c => setHolds g.boxes c = true ∧ ∃ c0 l, c = c0 :: l ∧
          ((Tbl.get 0 o.got (o.va + (c0 - r.lo) / 8)).getLsbD ((c0 - r.lo) % 8)) = true)
    ∧ (∀ (g : Region) (w0 w1 : Rng), o.dest = .fill (.count rd g) → RegisterRegion g → g.ragged = true → g.boxes = [[w0, w1]] →
        let row := fun (i : Nat) => let len := entryOf o.got g (w0.lo + i); if len = 0 then 0 else min (g.rbase + len - 1) w1.hi + 1 - max g.rbase w1.lo
        (rd ≠ 0 → (t.rcx w).rx rd = w64 ((min (((List.range (w0.hi + 1 - w0.lo)).map row).sum) (2 ^ 64 - 1) : Nat) : Int))
          ∧ (∀ j, j ≠ rd → (t.rcx w).rx j = (s.rcx w).rx j) ∧ (t.rcx w).ops = (s.rcx w).ops.filter (fun e => e.seq != o.seq) ∧ t.mem = s.mem ∧ t.flights = s.flights)
    ∧ (∀ (a b : Region) (rank : Nat), o.dest = .fill (.test rd a b) → RegisterRegion a → RegisterRegion b → rankOf a b = some rank → rd ≠ 0 →
        TestBits ((t.rcx w).rx rd) rank (cellsOf o.got a) (cellsOf o.got b) ∧ (∀ j, j ≠ rd → (t.rcx w).rx j = (s.rcx w).rx j) ∧ t.mem = s.mem)
    ∧ ∀ (g : Region) (v : Nat), o.dest = .fill (.proj rd v g) → RegisterRegion g → g.ragged = true → v % 32 = 1 ∨ v % 32 = 2 →
        Computes s t w o rd 1 g.inexact (v / 2 ^ 63 % 2 == 1) 0x21 0 fun c => ∃ c0 d, c = [c0] ∧ rowHolds g (entryOf o.got g) (if v % 32 = 1 then [c0, d] else [d, c0]) = true

/-- Ragged regions (R220, R232, R233): RINTER with a dense box, or one with it, keeps the ragged form and meets the clip window, or is empty; with an
empty region it is empty; two ragged regions, or one with boxes that are not one dense box, raise REGION_RAGGED; RPROJ on both dimensions
gives the region itself; RCLIP meets the window with the domain of a record, which leaves a ragged region or the empty one (R240). The cells
are the rows of R220: row c0 of the window has the coordinates from max(RBASE, LO1) to min(RBASE + len − 1, HI1), len its entry of the length
vector, and none where len is 0. -/
def Sys2Proof.Spec.RaggedRegionResults : Prop :=
  ∀ (s : State) (rd a b : Nat) (i : Instr) (q : Region) (w0 w1 : Rng), s.cur.rc = 0 → NoAcquire s → ReadyG s (gRegs i) → (q = s.g a) → q.ragged = true → q.rank = 2 → q.boxes = [[w0, w1]] →
    w0.step = 1 → w1.step = 1 → w0.lo ≤ w0.hi → w1.lo ≤ w1.hi →
    (∀ r0 r1 : Rng, (i = .rinterEx rd a b ∨ i = .rinterEx rd b a ∨ i = .rinterSup rd a b ∨ i = .rinterSup rd b a) → (s.g b).ragged = false → (s.g b).rank = 2 →
        (s.g b).boxes = [[r0, r1]] → r0.step = 1 → r1.step = 1 → r0.lo ≤ r0.hi → r1.lo ≤ r1.hi →
        ∃ t, exec i s = .next t ∧ Advanced s t ∧ OnlyG s t rd ∧ t.tn.evc = s.tn.evc ∧
          (rd ≠ 0 → match both w0 r0, both w1 r1 with
            | some x, some y => t.g rd = { q with boxes := [[x, y]], inexact := q.inexact || (s.g b).inexact }
            | _, _ => t.g rd = regionOf 2 [] (q.inexact || (s.g b).inexact)))
    ∧ ((i = .rinterEx rd a b ∨ i = .rinterSup rd a b) → (s.g b).ragged = false → (s.g b).boxes = [] →
        ∃ t, exec i s = .next t ∧ Advanced s t ∧ OnlyG s t rd ∧ (rd ≠ 0 → t.g rd = regionOf 2 [] (q.inexact || (s.g b).inexact)))
    ∧ ((i = .rinterEx rd a b ∨ i = .rinterSup rd a b) → (s.g b).ragged = true ∨ 1 < (s.g b).boxes.length ∨ isDense (s.g b).boxes = false →
        exec i s = .next (s.trap s.cur 0x22 s.rc.pc 0 0))
    ∧ (i = .rproj rd a b → Ready s [b] → (s.x b).toNat % 32 = 3 → ∃ t, exec i s = .next t ∧ Advanced s t ∧ OnlyG s t rd ∧ (rd ≠ 0 → t.g rd = q))
    ∧ (∀ (u : State) (o : Operand) (d0 d1 : Rng), i = .rclip rd a b → Ready s [b] → s.tensor s.cur (s.x b).toNat = .ok u o → o.tsr.rank = 2 → o.tsr.domain = [d0, d1] →
        d0.step = 1 → d1.step = 1 → d0.lo ≤ d0.hi → d1.lo ≤ d1.hi → u.cur = s.cur → u.g a = s.g a →
        ∃ t, exec i s = .next t ∧ Advanced u t ∧ OnlyG u t rd ∧
          (rd ≠ 0 → match both w0 d0, both w1 d1 with
            | some x, some y => t.g rd = { q with boxes := [[x, y]] }
            | _, _ => t.g rd = regionOf 2 [] q.inexact))
    ∧ ∀ (u : State) (bs : List Byte), s.readRange s.cur (q.lenvec + 4 * (w0.lo - q.row0)) (4 * (w0.hi + 1 - w0.lo)) = .ok u bs →
        ∃ cells, s.cellBoxes s.cur q = .ok u cells ∧ ∀ c0 c1 : Nat,
          let len := leNat ((bs.drop (4 * (c0 - w0.lo))).take 4)
          setHolds cells [c0, c1] = (decide (w0.lo ≤ c0 ∧ c0 ≤ w0.hi) && len != 0 && decide (max q.rbase w1.lo ≤ c1 ∧ c1 ≤ min (q.rbase + len - 1) w1.hi))

/-- RLD loads the region of a valid image, RMASK the runs of set bits of a bitmap, from own TCM, where operations are performed at issue (log 3); RST issues the
32 granule stores of the image of g[rs2], in order, in the layout of R222; RCLIP meets a region with the domain of a record, in canonical form (R222–R224, R233, R237,
R238, R240). That RCLIP fetches its record for the empty region too is the model's choice (log 41). -/
def Obligations.RegionMemoryResults : Prop :=
  (∀ (rd a : Nat) (g : Region) (s : State), s.cur.rc = 0 → Ready s [a] → ReadyG s [rd] → NoAcquire s → NoneLeft s → s.cur.core < 4096 → s.cur.ctx < 8 → Plain s →
    s.eager = true →
    let va := (s.x a).toNat
    let home := tcmHome s.cur.core s.cur.ctx + va
    va % 16 = 0 → va + 512 ≤ 0x40000 → s.poisoned home 512 = false → s.hostHeld = [] → ImageRegion (s.bytes home 512) g →
    ∃ t, exec (.rld rd a) s = .next t ∧ Advanced s t ∧ OnlyGRead s t rd ∧ (rd ≠ 0 → t.g rd = g) ∧ t.tn.evc = s.tn.evc)
  ∧ (∀ (a b : Nat) (s : State), s.cur.rc = 0 → Ready s [a] → ReadyG s [b] → NoAcquire s → Plain s → s.eager = false → s.rc.task = none → (s.x a).toNat % 16 = 0 →
      (s.x a).toNat + 512 ≤ 0x40000 → (s.rc.ops.filter fun o => !o.k.isLoad && o.k.isStore).length < 16 → RegisterRegion (s.g b) →
    ∃ t img, exec (.rst a b) s = .next t ∧ Advanced s t ∧ OnlyContext s t ∧ IsImage img (s.g b)
      ∧ t.rc.ops = s.rc.ops ++ (List.range 32).map fun n => { mkOp .store ((s.x a).toNat + 16 * n) 16 (BitVec.ofNat 128 (numAt img (16 * n) 16)) 0 .none false false with
          seq := s.rc.seq + n, pc := s.rc.pc, inv := s.rc.inv, task := none })
  ∧ (∀ (rd a b : Nat) (r : Rng) (rest : Box) (cs : List Box) (s : State), s.cur.rc = 0 → Ready s [a] → ReadyG s [rd, b] → NoAcquire s → NoneLeft s → s.cur.core < 4096 →
      s.cur.ctx < 8 → Plain s → s.eager = true → RegisterRegion (s.g b) → (s.g b).ragged = false → (s.g b).boxes = [r :: rest] → isDense (s.g b).boxes = true → r.hi - r.lo < 65536 →
    let n := r.hi + 1 - r.lo
    let va := fieldOf (s.x a) 0 48
    let home := tcmHome s.cur.core s.cur.ctx + va
    va + (n + 7) / 8 ≤ 0x40000 → s.poisoned home ((n + 7) / 8) = false → s.hostHeld = [] → cs.length ≤ 8 → CanonicalForm (s.g b).rank cs →
    (∀ c0 l, setHolds cs (c0 :: l) = (setHolds (s.g b).boxes (c0 :: l) && (s.byte (home + (c0 - r.lo) / 8)).getLsbD ((c0 - r.lo) % 8))) →
    ∃ t, exec (.rmask rd a b) s = .next t ∧ Advanced s t ∧ OnlyGRead s t rd ∧ (rd ≠ 0 → t.g rd = regionOf (s.g b).rank cs (s.g b).inexact) ∧ t.tn.evc = s.tn.evc)
  ∧ ∀ (rd a b : Nat) (s u : State) (o : Operand), s.cur.rc = 0 → Ready s [b] → ReadyG s [rd, a] → NoAcquire s → (s.g a).ragged = false → s.tensor s.cur (s.x b).toNat = .ok u o →
      ((s.g a).boxes = [] ∨ (s.g a).rank = o.tsr.rank) → u.cur = s.cur → u.g a = s.g a →
    ∃ t, exec (.rclip rd a b) s = .next t ∧ Advanced u t ∧ OnlyG u t rd
      ∧ (rd ≠ 0 → t.g rd = regionOf (s.g a).rank ((canonU noLim (s.g a).rank (meetAll (s.g a).boxes [o.tsr.domain])).getD []) (s.g a).inexact)
      ∧ (rd ≠ 0 → RegisterRegion (s.g a) → (∀ r, r ∈ o.tsr.domain → Shaped r) → CanonicalForm (s.g a).rank (t.g rd).boxes
          ∧ ∀ c : List Nat, c.length = (s.g a).rank → setHolds (t.g rd).boxes c = (setHolds (s.g a).boxes c && boxHolds o.tsr.domain c))

/-- The work queues of a cluster (R125–R127): TILEPOST of a region that fits its grid starts an empty queue and answers 0, a queue still live answers 1;
TILENEXT takes the next tile that is not empty, and gives the empty region of the queue's rank where none is left. -/
def Obligations.WorkQueueResults : Prop :=
  (∀ (rd a b : Nat) (s : State), s.cur.rc = 0 → rd ≠ 0 → Ready s [rd, b] → ReadyG s [a] → Plain s → (s.g a).rank ≤ 5 →
    let g := s.g a
    let q := fieldOf (s.x b) 61 3
    let ext := (List.range g.rank).map fun d => fieldOf (s.x b) (12 * d) 12 + 1
    fieldOf (s.x b) (12 * g.rank) (60 - 12 * g.rank) = 0 → (g.boxes = [] ∨ (gridCounts g.bbox ext).foldl (· * ·) 1 ≤ 2 ^ 32) →
    ((s.wq q).live = true → ∃ t, exec (.tilepost rd a b) s = .next t ∧ Advanced s t ∧ OnlyX s t rd ∧ t.x rd = 1)
    ∧ ((s.wq q).live = false → ∃ t, exec (.tilepost rd a b) s = .next t ∧ Advanced s t ∧ OnlyX { s with workq := t.workq } t rd ∧ t.x rd = 0
        ∧ t.wq q = { region := g, ext := ext, cursor := 0, live := !g.boxes.isEmpty, rank := g.rank } ∧ ∀ k, k ≠ q → t.wq k = s.wq k))
  ∧ ∀ (rd b : Nat) (s : State), s.cur.rc = 0 → Ready s [b] → ReadyG s [rd] → Plain s →
    let n := fieldOf (s.x b) 0 3
    let q := s.wq n
    ((q.live = false ∨ q.next q.cursor = none) → ∃ t, exec (.tilenext rd b) s = .next t ∧ Advanced s t ∧ OnlyG s t rd ∧ (rd ≠ 0 → t.g rd = regionOf q.rank [] false))
    ∧ ∀ p, q.live = true → q.next q.cursor = some p →
        ∃ t, exec (.tilenext rd b) s = .next t ∧ Advanced s t ∧ OnlyG { s with workq := t.workq } t rd ∧ (rd ≠ 0 → t.g rd = q.tile p)
          ∧ (t.wq n).live = (q.next (posNum (gridCounts q.region.bbox q.ext) p + 1)).isSome ∧ ∀ k, k < 8 → k ≠ n → t.wq k = s.wq k

/-- Two ranges meet in exactly the coordinates that both hold (R217, R232): what an intersection of boxes rests on. -/
def Obligations.RangesMeetExactly : Prop :=
  ∀ (a b : Rng), Shaped a → Shaped b → ∀ c,
    (match a.meet b with | some r => decide (r.lo ≤ c) && decide (c ≤ r.hi) && (c - r.lo) % max r.step 1 == 0 | none => false)
      = (decide (a.lo ≤ c) && decide (c ≤ a.hi) && (c - a.lo) % a.step == 0 && (decide (b.lo ≤ c) && decide (c ≤ b.hi) && (c - b.lo) % b.step == 0))

namespace Sys2Proof.Spec

open Sys2Proof.Machine

/-! ## Channels and messages (R77–R98) -/

/-- The generation that follows (R78): 16 bits, never 0. -/
def genAfter (g : Nat) : Nat := if (g + 1) % 65536 = 0 then 1 else (g + 1) % 65536

/-- A channel with a message that a dispatch may take: bound in the class, no handler of it suspended, a message resident that is not diverted (R85). -/
def Ready85 (t : Tenant) (urg : Bool) (n : Nat) : Prop :=
  n < 64 ∧ (Chan.at t n).bound = true ∧ (Chan.at t n).urg = urg ∧ (Chan.at t n).prio < 16 ∧ (∀ p, p ∈ t.slots → p.2.img.chan ≠ some n)
    ∧ ∃ m, (m ∈ t.inboxN ∨ m ∈ t.inboxU) ∧ m.div = false ∧ m.msg.chan = n

/-- How far a channel lies behind the pointer of its priority, cyclically. -/
def behind85 (t : Tenant) (urg : Bool) (prio n : Nat) : Nat := (n + 63 * (Tbl.get 63 t.rr ((if urg then 16 else 0) + prio) + 1)) % 64

/-- R85: the channel that a dispatch selects: the highest priority, then the nearest after the round-robin pointer. -/
def Selected (t : Tenant) (urg : Bool) (n : Nat) : Prop :=
  Ready85 t urg n ∧ ∀ k, Ready85 t urg k → (Chan.at t k).prio < (Chan.at t n).prio
    ∨ ((Chan.at t k).prio = (Chan.at t n).prio ∧ behind85 t urg (Chan.at t n).prio n ≤ behind85 t urg (Chan.at t n).prio k)

/-- The core may start handlers, and no gang or suspension stands in the way. -/
abbrev MayStart (s : State) (core : Nat) : Prop := s.mayStart core = true

/-- No half of the inbox is in an episode of diversion, and none is full enough to begin one (R89). -/
abbrev NoEpisode (t : Tenant) : Prop := t.epiN = none ∧ t.epiU = none ∧ t.occ true < 16048 ∧ t.occ false < 16048

/-- A message has room in its half without an episode of diversion, in either half (R80, R89). -/
abbrev HasRoom (t : Tenant) (m : Msg) : Prop := NoEpisode t ∧ t.occ m.urg + m.size < 16048

/-- The cause for which the check of R82 discards a message: its channel is not bound in its class, or has another generation. -/
def Discarded (t : Tenant) (m : Msg) (c : Nat) : Prop :=
  (c = 0x83 ∧ ((Chan.at t m.chan).bound = false ∨ (Chan.at t m.chan).urg ≠ m.urg))
    ∨ (c = 0x82 ∧ (Chan.at t m.chan).bound = true ∧ (Chan.at t m.chan).urg = m.urg ∧ m.gen ≠ 0 ∧ m.gen ≠ (Chan.at t m.chan).gen)

/-- The resident context of a core is the one that the core's partition runs. -/
abbrev Resident (s : State) (core ctx : Nat) : Prop := s.live core = ctx ∧ s.away core ctx = false

end Sys2Proof.Spec

/-! ## Channels and messages -/

/-- BIND (R95): in every register context, the channel gets its entry, class, priority and next generation (R78), which x[rd] holds, and keeps DIVERT and
DCNT; with bit 13 set the overflow entry is set and x[rd] is 0. Nothing else changes: a running invocation keeps its pc, a suspended one its
image, a resident message stays. A misaligned entry and a speculative task trap; the address slot 0 of SPEC_FORBIDDEN is the model's choice (log 49). -/
def Obligations.BindSetsTheChannel : Prop :=
  ∀ (rd a b : Nat) (s : State), Live s → Ready s [rd, a, b] →
    let e := s.x a
    let n := fieldOf (s.x b) 0 6
    let c := Chan.at s.tn n
    (s.rc.spec = true → exec (.bind rd a b) s = .next (s.trap s.cur 0x85 s.rc.pc 0 0))
    ∧ (Plain s → e.toNat % 4 ≠ 0 → exec (.bind rd a b) s = .next (s.trap s.cur 0x20 s.rc.pc e 0))
    ∧ (Plain s → e.toNat % 4 = 0 → fieldOf (s.x b) 13 1 = 0 →
        ∃ t, exec (.bind rd a b) s = .next t ∧ Advanced s t ∧ (rd ≠ 0 → t.x rd = w64 (genAfter c.gen))
          ∧ Chan.at t.tn n = { c with bound := true, gen := genAfter c.gen, entry := e.toNat / 4 % 2 ^ 46, prio := fieldOf (s.x b) 8 4, urg := fieldOf (s.x b) 12 1 == 1 }
          ∧ (∀ k, k ≠ n → Chan.at t.tn k = Chan.at s.tn k) ∧ OnlyXBut s t rd fun u => { u with chans := s.tn.chans })
    ∧ (Plain s → e.toNat % 4 = 0 → fieldOf (s.x b) 13 1 = 1 →
        ∃ t, exec (.bind rd a b) s = .next t ∧ Advanced s t ∧ (rd ≠ 0 → t.x rd = 0) ∧ t.tn.ovfEntry = some e
          ∧ OnlyXBut s t rd fun u => { u with ovfEntry := s.tn.ovfEntry })

/-- UNBIND (R96): the channel is unbound and no longer diverted, its resident messages are discarded, each counted, and x[rd] is its generation, or 0
where it was not bound; outside an episode of diversion nothing else changes, and in one no other message leaves its half. A speculative
task traps; the address slot 0 of SPEC_FORBIDDEN is the model's choice (log 49). Of resident messages that bounce or carry a task nothing is stated. -/
def Sys2Proof.Spec.UnbindDiscards : Prop :=
  ∀ (rd a : Nat) (s : State), Live s → Ready s [rd, a] →
    let n := fieldOf (s.x a) 0 6
    let c := Chan.at s.tn n
    let gone := (s.tn.inboxN ++ s.tn.inboxU).filter fun m => m.msg.chan == n
    (s.rc.spec = true → exec (.unbind rd a) s = .next (s.trap s.cur 0x85 s.rc.pc 0 0))
    ∧ (Plain s → (∀ m, m ∈ gone → m.msg.kind ≠ 1 ∧ m.msg.bnc = false) →
        ∃ t, exec (.unbind rd a) s = .next t ∧ Advanced s t ∧ (rd ≠ 0 → t.x rd = (if c.bound then w64 c.gen else 0)) ∧ (Chan.at t.tn n).bound = false
          ∧ t.tn.inboxN.map (·.msg) = (s.tn.inboxN.filter fun m => !(m.msg.chan == n)).map (·.msg)
          ∧ t.tn.inboxU.map (·.msg) = (s.tn.inboxU.filter fun m => !(m.msg.chan == n)).map (·.msg)
          ∧ (Tbl.get 0 s.tn.evc 5 < 2 ^ 32 → Tbl.get 0 t.tn.evc 5 = min (Tbl.get 0 s.tn.evc 5 + gone.length) (2 ^ 32 - 1))
          ∧ OnlyXBut s t rd fun u => { u with chans := s.tn.chans, inboxN := s.tn.inboxN, inboxU := s.tn.inboxU, evc := s.tn.evc, epiN := s.tn.epiN, epiU := s.tn.epiU })
    ∧ (Plain s → NoEpisode s.tn → (∀ m, m ∈ gone → m.msg.kind ≠ 1 ∧ m.msg.bnc = false) →
        ∃ t, exec (.unbind rd a) s = .next t ∧ Advanced s t ∧ (rd ≠ 0 → t.x rd = (if c.bound then w64 c.gen else 0))
          ∧ Chan.at t.tn n = { c with bound := false, divert := false, dcnt := 0 } ∧ (∀ k, k ≠ n → Chan.at t.tn k = Chan.at s.tn k)
          ∧ t.tn.inboxN = s.tn.inboxN.filter (fun m => !(m.msg.chan == n)) ∧ t.tn.inboxU = s.tn.inboxU.filter (fun m => !(m.msg.chan == n))
          ∧ (Tbl.get 0 s.tn.evc 5 < 2 ^ 32 → Tbl.get 0 t.tn.evc 5 = min (Tbl.get 0 s.tn.evc 5 + gone.length) (2 ^ 32 - 1))
          ∧ OnlyXBut s t rd fun u => { u with chans := s.tn.chans, inboxN := s.tn.inboxN, inboxU := s.tn.inboxU, evc := s.tn.evc })

/-- SEND (R97): a message with the outbox as its extension and x10… as its payload leaves for the core of the destination, x[rd] is 0 and the outbox is
empty; a destination outside the band answers 2 and a speculative task holds the message and answers 1; a place of the outbox still to be
filled, or four messages of the register context that have not left (the model's reading, log 14), make it wait. LOOPB (R98) puts a diverted message that own TCM holds back into its half,
where its header, size and room allow. -/
def Sys2Proof.Spec.SendAndLoopbackResults : Prop :=
  (∀ (rd a chan cnt urg bnc : Nat) (s : State), (Instr.send rd a chan cnt urg bnc).wf = true → Live s → Ready s (rd :: a :: (List.range cnt).map (· + 10)) → NoAcquire s →
    let d := s.x a
    let dest := fieldOf d 0 12
    let m : Msg := { hdr := mkHdr (fieldOf d 48 16) s.tn.lcore 0 (urg == 1) (bnc == 1) s.rc.outbox.length cnt chan, pay := (List.range cnt).map fun k => s.x (10 + k),
                     ext := s.rc.outbox.map fun g => g.getD 0, bar := none }
    let f : Flight := { msg := m, core := s.tn.ctab.getD dest s.cur.core, ctx := s.cur.ctx, src := some s.cur, seq := s.rc.seq }
    let mine := (s.flights.filter fun f => match f.src with | some w => w.core == s.cur.core && w.ctx == s.cur.ctx | none => false).length
    (none ∈ s.rc.outbox → exec (.send rd a chan cnt urg bnc) s = .next { s with stalled := true })
    ∧ (none ∉ s.rc.outbox → s.tn.bandsz ≤ dest →
        ∃ t, exec (.send rd a chan cnt urg bnc) s = .next t ∧ Advanced s t ∧ OnlyContext s t ∧ t.rc.outbox = [] ∧ (rd ≠ 0 → t.x rd = 2))
    ∧ (none ∉ s.rc.outbox → dest < s.tn.bandsz → Plain s → mine < 4 →
        ∃ t, exec (.send rd a chan cnt urg bnc) s = .next t ∧ Advanced s t ∧ OnlyContext { s with flights := t.flights } t ∧ t.flights = s.flights ++ [f] ∧ t.rc.outbox = []
          ∧ (rd ≠ 0 → t.x rd = 0) ∧ ∀ k, k ≠ rd → t.x k = s.x k)
    ∧ (none ∉ s.rc.outbox → dest < s.tn.bandsz → Plain s → 4 ≤ mine → exec (.send rd a chan cnt urg bnc) s = .next { s with stalled := true })
    ∧ (∀ id k, none ∉ s.rc.outbox → dest < s.tn.bandsz → s.rc.spec = true → s.rc.task = some id → s.findTask s.tn.partid id = some k →
        ∃ t, exec (.send rd a chan cnt urg bnc) s = .next t ∧ Advanced s t ∧ t.flights = s.flights ∧ t.findTask s.tn.partid id = some { k with msgs := k.msgs ++ [f] }
          ∧ t.rc.outbox = [] ∧ (rd ≠ 0 → t.x rd = 1)))
  ∧ ∀ (rd a : Nat) (s : State), Live s → Ready s [rd, a] → NoAcquire s → Plain s → NoneLeft s → Fresh s → s.cur.core < 4096 → s.cur.ctx < 8 →
    let va := (s.x a).toNat
    let home := tcmHome s.cur.core s.cur.ctx + va
    let h := BitVec.ofNat 64 (leNat (s.bytes home 8))
    let xcnt := fieldOf h 25 5
    let pcnt := fieldOf h 21 4
    let m : Msg := { hdr := h, pay := (List.range pcnt).map fun k => BitVec.ofNat 64 (leNat (s.bytes (home + 16 + 8 * k) 8)),
                     ext := (List.range xcnt).map fun k => BitVec.ofNat 128 (leNat (s.bytes (home + 80 + 16 * k) 16)), bar := none }
    (va % 16 ≠ 0 → exec (.loopb rd a) s = .next (s.trap s.cur 0x20 s.rc.pc (s.x a) 0))
    ∧ (va % 16 = 0 → 0x3FFB0 < va → ∃ t, exec (.loopb rd a) s = .next t ∧ Advanced s t ∧ OnlyX s t rd ∧ (rd ≠ 0 → t.x rd = 2))
    ∧ (va % 16 = 0 → va ≤ 0x3FFB0 → s.poisoned home (80 + 16 * xcnt) = false → pcnt ≤ 8 → xcnt ≤ 16 → fieldOf h 32 4 ≤ 7 → fieldOf h 6 15 = 0 →
        leNat (s.bytes (home + 8) 8) = 0 → va + 80 + 16 * xcnt ≤ 0x40000 →
        (16048 ≤ s.tn.occ m.urg + m.size → ∃ t, exec (.loopb rd a) s = .next t ∧ Advanced s t ∧ OnlyX s t rd ∧ (rd ≠ 0 → t.x rd = 1))
        ∧ (HasRoom s.tn m → (∀ c, ¬Discarded s.tn m c) → s.tn.follower = false →
            ∃ t, exec (.loopb rd a) s = .next t ∧ Advanced s t ∧ OnlyTenant s t ∧ (rd ≠ 0 → t.x rd = 0) ∧ t.tn.half m.urg = s.tn.half m.urg ++ [{ msg := m, div := false, no := s.tn.nextNo }]
              ∧ (Chan.at t.tn m.chan).dcnt = (Chan.at s.tn m.chan).dcnt - 1))

/-- A message becomes resident (R80–R83) where no fence of its sender and no earlier message of it stands before it: it leaves those under way and joins
the end of its half, unless its class or its generation does not fit: then it is discarded, counted in evc5, and a bounce record with the
cause 0x83 or 0x82 goes back where it asked for one, with 3 as its register context (the model's reading, log 23). A half that it fills to 16,048 bytes begins an episode of diversion: of the channels
with undiverted messages there, one of the lowest priority, the highest number among those, is diverted with all its messages (R89). For a context that is switched out it joins the arrival
log, whose oldest message comes first when the context is back (R328). -/
def Obligations.MessagesArrive : Prop :=
  (∀ (s : State) (f : Flight) (k : Nat), k = s.inp.a → s.inp.flag = false → s.flights[k]? = some f → s.away f.core f.ctx = false →
    (∀ e, e ∈ s.flights.take k → e.src = none ∨ e.src ≠ f.src ∨ e.core ≠ f.core ∨ e.ctx ≠ f.ctx ∨ e.msg.chan ≠ f.msg.chan) →
    let t := s.tenant f.core f.ctx
    s.msgWaits f = false → t.log = [] → HasRoom t f.msg → f.msg.kind ≠ 6 → f.msg.bar = none → t.follower = false →
    ((Chan.at t f.msg.chan).divert = false → (Chan.at t f.msg.chan).bound = true → (Chan.at t f.msg.chan).urg = f.msg.urg →
        (f.msg.gen = 0 ∨ f.msg.gen = (Chan.at t f.msg.chan).gen) →
      ∃ u, exec .messageResident s = .next u ∧ u.flights = s.flights.eraseIdx k
        ∧ (u.tenant f.core f.ctx).half f.msg.urg = t.half f.msg.urg ++ [{ msg := f.msg, div := false, no := t.nextNo }]
        ∧ (u.tenant f.core f.ctx).half (!f.msg.urg) = t.half (!f.msg.urg) ∧ (u.tenant f.core f.ctx).evc = t.evc ∧ u.mem = s.mem)
    ∧ ((Chan.at t f.msg.chan).divert = true →
      ∃ u, exec .messageResident s = .next u ∧ u.flights = s.flights.eraseIdx k
        ∧ (u.tenant f.core f.ctx).half f.msg.urg = t.half f.msg.urg ++ [{ msg := f.msg, div := true, no := t.nextNo }])
    ∧ (∀ c, Discarded t f.msg c → (Chan.at t f.msg.chan).divert = false → f.msg.kind ≠ 1 →
      ∃ u, exec .messageResident s = .next u ∧ (u.tenant f.core f.ctx).half f.msg.urg = t.half f.msg.urg
        ∧ Tbl.get 0 (u.tenant f.core f.ctx).evc 5 = min (Tbl.get 0 t.evc 5 + 1) (2 ^ 32 - 1)
        ∧ (f.msg.bnc = false → u.flights = s.flights.eraseIdx k)
        ∧ (f.msg.bnc = true → ∃ r, u.flights = s.flights.eraseIdx k ++ [r] ∧ r.ctx = f.ctx
            ∧ (let back := t.ctab.getD f.msg.src f.core
               Tbl.get 0 (s.part (s.tenant back f.ctx).partid).trapcfg f.ctx / 128 % 2 = 0 → r.core = back)
            ∧ r.msg.pay = [BitVec.ofNat 64 (3 * 256 + 0x400 + c), 0, f.msg.hdr, BitVec.ofNat 64 (t.lcore % 4096), BitVec.ofNat 64 f.msg.chan, 0, (f.msg.pay[0]?).getD 0])))
  ∧ (∀ (s : State) (f : Flight) (rest : List Flight), s.inp.flag = false → s.inp.a = 0 → s.flights = f :: rest → s.away f.core f.ctx = false → s.msgWaits f = false →
    let t := s.tenant f.core f.ctx
    let waiting := fun (n : Nat) => n = f.msg.chan ∨ ∃ m, m ∈ t.half f.msg.urg ∧ m.div = false ∧ m.msg.chan = n
    t.log = [] → NoEpisode t → 16048 ≤ t.occ f.msg.urg + f.msg.size → t.occ f.msg.urg + f.msg.size ≤ 16384 → f.msg.kind ≠ 6 → f.msg.bar = none → t.follower = false →
    (Chan.at t f.msg.chan).divert = false → (∀ c, ¬Discarded t f.msg c) →
    ∃ u c, exec .messageResident s = .next u ∧ waiting c
      ∧ (∀ d, waiting d → (Chan.at t c).prio < (Chan.at t d).prio ∨ ((Chan.at t c).prio = (Chan.at t d).prio ∧ d ≤ c))
      ∧ (Chan.at (u.tenant f.core f.ctx) c).divert = true
      ∧ ∀ m, m ∈ (u.tenant f.core f.ctx).inboxN ++ (u.tenant f.core f.ctx).inboxU → m.msg.chan = c → m.div = true)
  ∧ (∀ (s : State) (f : Flight), s.inp.flag = false → s.flights[s.inp.a]? = some f → s.away f.core f.ctx = true → s.msgWaits f = false →
    (∀ e, e ∈ s.flights.take s.inp.a → e.src = none ∨ e.src ≠ f.src ∨ e.core ≠ f.core ∨ e.ctx ≠ f.ctx ∨ e.msg.chan ≠ f.msg.chan) →
    ((s.tenant f.core f.ctx).log.map fun e => e.msg.size).sum + f.msg.size ≤ 65536 →
    ∃ u, exec .messageResident s = .next u ∧ u.flights = s.flights.eraseIdx s.inp.a ∧ u.tenant f.core f.ctx = { s.tenant f.core f.ctx with log := (s.tenant f.core f.ctx).log ++ [f] })
  ∧ ∀ (s : State) (f : Flight) (rest : List Flight), s.inp.flag = true →
    let core := s.inp.a
    let t := s.tenant core (s.live core)
    s.away core (s.live core) = false → t.log = f :: rest → HasRoom t f.msg → f.msg.kind ≠ 6 → f.msg.bar = none →
    t.follower = false → (Chan.at t f.msg.chan).divert = false → (∀ c, ¬Discarded t f.msg c) →
    ∃ u, exec .messageResident s = .next u ∧ (u.tenant core (s.live core)).log = rest
      ∧ (u.tenant core (s.live core)).half f.msg.urg = t.half f.msg.urg ++ [{ msg := f.msg, div := false, no := t.nextNo }] ∧ u.flights = s.flights

/-- Handlers start (R84–R90): a dispatch takes the first message of the channel that R85 selects, and start(m, n) sets pc, x5 and x10–x17 (R86); a diverted
message, the urgent half's first, goes to the overflow context at its entry; a handler whose wdcnt has reached wdlim ends by WATCHDOG. That the channel of
a suspended handler is not selected, an overflow handler's too, that a dispatch waits for t0 and a0–a7 to settle, and that no message is presented while an overflow handler is
suspended, is the model's choice (log 49). -/
def Obligations.HandlersStart : Prop :=
  (∀ (s : State) (n : Nat) (m : InMsg) (i : Nat),
    let core := s.inp.a
    let w : Who := { core := core, ctx := s.live core, rc := s.inp.b }
    let t := s.tenant core w.ctx
    let urg := w.rc == 1
    w.rc < 2 → MayStart s core → t.gangsz ≤ 1 → (s.rcx w).run = .idle → (∀ j, j = 5 ∨ (10 ≤ j ∧ j < 18) → (s.rcx w).busyX j = false) →
    (∀ p, p ∈ t.slots → p.2.rc = w.rc → s.slotReady core w.ctx p.1 = false) → Selected t urg n →
    (t.half urg)[i]? = some m → m.div = false → m.msg.chan = n → (∀ j e, j < i → (t.half urg)[j]? = some e → e.div = true ∨ e.msg.chan ≠ n) →
    (∀ e, e ∈ t.half (!urg) → e.div = true ∨ e.msg.chan ≠ n ∨ m.no < e.no) → m.msg.urg = urg → (m.msg.gen = 0 ∨ m.msg.gen = (Chan.at t n).gen) → m.msg.kind ≠ 1 →
    ∃ u, exec .dispatch s = .next u ∧
      let r := u.rcx w
      r.run = .running ∧ r.pc = BitVec.ofNat 64 ((Chan.at t n).entry * 4) ∧ r.msg = some m.msg ∧ r.chan = some n ∧ r.rx 5 = m.msg.hdr
      ∧ (∀ k, k < 8 → r.rx (10 + k) = (m.msg.pay[k]?).getD 0) ∧ (∀ k, k ≠ 5 → k < 10 ∨ 17 < k → r.rx k = (s.rcx w).rx k) ∧ r.w = (s.rcx w).w
      ∧ r.hdr = m.msg.hdr ∧ r.outbox = [] ∧ r.q0 = 0 ∧ r.wdcnt = 0 ∧ r.task = none ∧ r.inv = (s.rcx w).inv + 1
      ∧ (u.tenant core w.ctx).half urg = (t.half urg).eraseIdx i ∧ Tbl.get 63 (u.tenant core w.ctx).rr ((if urg then 16 else 0) + (Chan.at t n).prio) = n ∧ u.mem = s.mem)
  ∧ (∀ (s : State) (e : Word) (m : InMsg) (urg : Bool) (i : Nat),
    let core := s.inp.a
    let ctx := s.live core
    let t := s.tenant core ctx
    MayStart s core → t.gangsz ≤ 1 → t.o.run = .idle → (∀ j, j = 5 ∨ (10 ≤ j ∧ j < 18) → t.o.busyX j = false) → (∀ p, p ∈ t.slots → p.2.rc ≠ 2) → t.ovfEntry = some e →
    (t.half urg)[i]? = some m → m.div = true → (∀ j x, j < i → (t.half urg)[j]? = some x → x.div = false) → (urg = false → ∀ x, x ∈ t.inboxU → x.div = false) →
    ∃ u, exec .overflowPresent s = .next u ∧ (u.tenant core ctx).o.run = .running ∧ (u.tenant core ctx).o.pc = e ∧ (u.tenant core ctx).o.msg = some m.msg
      ∧ (u.tenant core ctx).o.rx 5 = m.msg.hdr ∧ (u.tenant core ctx).o.hdr = 0 ∧ (∀ k, k < 8 → (u.tenant core ctx).o.rx (10 + k) = (m.msg.pay[k]?).getD 0)
      ∧ (u.tenant core ctx).half urg = (t.half urg).eraseIdx i)
  ∧ ∀ s : State,
    let core := s.inp.a
    let w : Who := { core := core, ctx := s.live core, rc := s.inp.b }
    let t := s.tenant core w.ctx
    w.rc < 3 → (s.rcx w).run = .running → t.wdlim ≤ (s.rcx w).wdcnt → (w.rc = 0 → t.follower = false) →
    ∃ u, exec .watchdog s = .next u ∧ u = (s.trap w 0x80 (s.rcx w).pc (w64 (s.rcx w).wdcnt) (w64 t.wdlim)).count core w.ctx 12 1

namespace Sys2Proof.Spec

open Sys2Proof.Machine

/-! ## Homes and suspension -/

/-- The register context that an event of a core names: core a, register context b. -/
def actor (s : State) : Who := { core := s.inp.a, ctx := s.live s.inp.a, rc := s.inp.b }

/-- An operation of one part that its home may perform now, at a place sp that the walk of its address finds (leaving the state l): nothing
that R158 or a fence puts before it is outstanding, no poison, no line held by the host, the key that it was written under, a V page where the
operation acts on versions (R147), no store of a speculative task (R123). -/
structure AtHome (s : State) (w : Who) (o : Op) (l : State) (sp : Spot) : Prop where
  found : (s.rcx w).findOp s.inp.c = some o
  number : o.seq = s.inp.c
  first : s.inp.d = 0
  may : s.mayPerform w o = true
  part : o.parts = [(o.va, o.n)]
  whole : s.pick w o 0 = some ((o.va, o.n), { o with parts := [] })
  fresh : o.got = []
  place : (s.locate w o.va (needOf o.k.acc) o.k.isStore).res = .ok sp
  after : (s.locate w o.va (needOf o.k.acc) o.k.isStore).s = l
  near : (s.locate w o.va (needOf o.k.acc) o.k.isStore).tier ≠ some .host ∧ (s.locate w o.va (needOf o.k.acc) o.k.isStore).tier ≠ some .tier2
  versioned : o.needsV = true → s.vPage w o.va = true
  path : space sp.home = .tcm ∨ space sp.home = .pan ∨ space sp.home = .pond ∨ space sp.home = .hbm
  free : s.heldLine sp.home = false
  clean : l.poisoned sp.home o.n = false
  key : l.garbled sp = false
  own : l.specStores w = []
  plain : o.spec = false

/-- The operations left in a register context. -/
abbrev Performed (s l t : State) (w : Who) : Prop := (t.rcx w).ops = (l.rcx w).ops.filter fun e => e.seq != s.inp.c

/-- A completion object (R261): phase, pending arrivals, expected arrivals, pending transfers, mode, fault, count of faults, code. -/
def objectOf (phase pa exp pt mode fault fcount code : Nat) : Nat :=
  phase + pa * 2 ^ 16 + exp * 2 ^ 36 + pt * 2 ^ 56 + mode * 2 ^ 80 + fault * 2 ^ 82 + fcount * 2 ^ 83 + code * 2 ^ 88

/-- R262: an object after an arrival (none) or after a CEXPECT with a value (R264). Misuse is recorded with the code 0x36, which a fault already
recorded keeps its own for. -/
def objectAfter (g : Nat) (expect : Option Nat) : Nat :=
  let phase := g % 2 ^ 16
  let pa := g / 2 ^ 16 % 2 ^ 20
  let exp := g / 2 ^ 36 % 2 ^ 20
  let pt := g / 2 ^ 56 % 2 ^ 24
  let mode := g / 2 ^ 80 % 4
  let fault := g / 2 ^ 82 % 2
  let fcount := g / 2 ^ 83 % 2 ^ 5
  let code := g / 2 ^ 88 % 2 ^ 8
  let clamp := fun (n : Nat) (d : Int) (m : Nat) => (max 0 (min (m : Int) (n + d))).toNat
  let misused := fun (phase pa exp pt : Nat) => objectOf phase pa exp pt mode 1 (min (fcount + 1) 31) (if fault = 1 then code else 0x36)
  let kept := fun (phase pa exp pt : Nat) => objectOf phase pa exp pt mode fault fcount code
  let phased := fun (mis : Bool) (pa exp pt : Nat) =>
    let put := if mis then misused else kept
    if pa = 0 ∧ pt = 0 then put ((phase + 1) % 2 ^ 16) exp exp pt else put phase pa exp pt
  match mode, expect with
  | 0, none => if pa = 0 then misused phase pa exp pt else phased false (pa - 1) exp pt
  | 0, some v =>
    let d := simm (v % 2 ^ 24) 24
    if v / 2 ^ 63 % 2 = 1 then
      let q := clamp pt d (2 ^ 24 - 1)
      phased (decide ((q : Int) ≠ pt + d)) pa exp q
    else
      let p := clamp pa d (2 ^ 20 - 1)
      let e := if v / 2 ^ 62 % 2 = 1 then clamp exp d (2 ^ 20 - 1) else exp
      phased (decide ((p : Int) ≠ pa + d) || (v / 2 ^ 62 % 2 == 1 && decide ((e : Int) ≠ exp + d))) p e pt
  | 1, none => if pa ≤ 1 then kept ((phase + 1) % 2 ^ 16) exp exp pt else kept phase (pa - 1) exp pt
  | _, _ => misused phase pa exp pt

/-- The 32 bytes of a fault-queue record as a number (R318). -/
def recordNat (r : FRec) (lost : Bool) : Nat :=
  r.fid % 2 ^ 32 + r.cause % 256 * 2 ^ 32 + r.source % 256 * 2 ^ 40 + (r.ctx % 8 + 8 * (r.rc % 4)) * 2 ^ 48
    + ((if r.resumable then 1 else 0) + if lost then 2 else 0) * 2 ^ 56 + r.addr % 2 ^ 64 * 2 ^ 64 + r.pc.toNat * 2 ^ 128
    + r.lcore % 2 ^ 16 * 2 ^ 192 + r.part % 256 * 2 ^ 208 + r.info % 2 ^ 32 * 2 ^ 224

end Sys2Proof.Spec

/-! ## Homes -/

/-- LOAD_RETURN, STORE_PERFORMED, AMO_AT_HOME (R59, R142, R146, R151): the home of an operation performs it. A load's register gets the value of the
bytes as they stand, and an LDV's version goes to vlast unless a later LDV's is there (R148); a store's bytes stand at its place, every other
byte reads as before and the version of its HBM granule is one more, which an STV answers with (R149); an atomic does both at once; CINIT
writes the whole object, CARRIVE and CEXPECT change it as R262 has it. The operation is then no longer outstanding. A store that an MSTC left
is written with its layout tag (R284), once nothing that its acceptance must follow is outstanding (R158; that it is so late rests on log 18); that a CEXPECT which clamps both PA and EXP records one misuse is the model's choice (log 55). A store of a
speculative task goes to the speculation store with its bytes, and memory is as before (R123). -/
def Sys2Proof.Spec.HomesPerformOperations : Prop :=
  (∀ (s l : State) (o : Op) (sp : Spot), (actor s).rc < 3 → AtHome s (actor s) o l sp →
    let w := actor s
    let old := leNat (l.bytes sp.home o.n)
    (∀ rd sx, o.k = .load → o.dest = .x rd o.n sx →
      ∃ t, exec .loadReturn s = .next t ∧ Performed s l t w ∧ t.mem = l.mem ∧ (∀ j, j ≠ rd → (t.rcx w).rx j = (l.rcx w).rx j)
        ∧ (t.rcx w).rx rd = (if rd = 0 then 0 else if sx then w64 (simm old (8 * o.n)) else w64 old))
    ∧ (∀ rd, o.k = .load → o.dest = .w rd → ∃ t, exec .loadReturn s = .next t ∧ Performed s l t w ∧ t.mem = l.mem ∧ (t.rcx w).rw rd = BitVec.ofNat 128 old)
    ∧ (o.k = .store → o.dest = .none → 0 < o.n → sp.home % 16 + o.n ≤ 16 →
      ∃ t, exec .storePerformed s = .next t ∧ t.rcx w = { l.rcx w with ops := (l.rcx w).ops.filter fun e => e.seq != s.inp.c }
        ∧ t.bytes sp.home o.n = leBytes o.data.toNat o.n ∧ SameOutsideOf l t sp.home o.n
        ∧ (space sp.home = .hbm → Tbl.get 0 t.vers (sp.home / 16) = (Tbl.get 0 l.vers (sp.home / 16) + 1) % 65536))
    ∧ (∀ k rd, o.k = .amo k → o.dest = .x rd o.n true →
      ∃ t, exec .amoAtHome s = .next t ∧ Performed s l t w ∧ (t.rcx w).rx rd = (if rd = 0 then 0 else w64 (simm old (8 * o.n)))
        ∧ t.bytes sp.home o.n = leBytes (amoRule k o.n old (o.data.toNat % 2 ^ (8 * o.n)) (o.cmp.toNat % 2 ^ (8 * o.n))) o.n ∧ SameOutsideOf l t sp.home o.n)
    ∧ (∀ rd, o.k = .ldv → (o.dest = .x rd o.n true ∨ o.dest = .w rd) →
      ∃ t, exec .loadReturn s = .next t ∧ Performed s l t w ∧ t.mem = l.mem
        ∧ (o.dest = .x rd o.n true → (∀ j, j ≠ rd → (t.rcx w).rx j = (l.rcx w).rx j) ∧ (t.rcx w).rx rd = (if rd = 0 then 0 else w64 (simm old (8 * o.n))))
        ∧ (o.dest = .w rd → (t.rcx w).rw rd = BitVec.ofNat 128 old)
        ∧ (t.rcx w).vlast = (if (l.rcx w).vseq ≤ o.seq then Tbl.get 0 l.vers (sp.home / 16) else (l.rcx w).vlast))
    ∧ (∀ rd, o.k = .stv → o.dest = .x rd 8 true → space sp.home = .hbm → 0 < o.n → sp.home % 16 + o.n ≤ 16 →
      ∃ t, exec .storePerformed s = .next t ∧ Performed s l t w ∧ t.bytes sp.home o.n = leBytes o.data.toNat o.n ∧ SameOutsideOf l t sp.home o.n
        ∧ Tbl.get 0 t.vers (sp.home / 16) = (Tbl.get 0 l.vers (sp.home / 16) + 1) % 65536
        ∧ (∀ j, j ≠ rd → (t.rcx w).rx j = (l.rcx w).rx j) ∧ (t.rcx w).rx rd = (if rd = 0 then 0 else w64 ((Tbl.get 0 l.vers (sp.home / 16) + 1) % 65536 : Nat)))
    ∧ (∀ v, o.k = .cinit v → o.dest = .none → o.n = 16 → sp.home % 16 = 0 →
      ∃ t, exec .storePerformed s = .next t ∧ Performed s l t w ∧ leNat (t.bytes sp.home 16) = v.toNat ∧ SameOutsideOf l t sp.home 16 ∧ ∀ x, x ∈ l.watches → x.pool = 1 → x ∈ t.watches)
    ∧ (o.k = .carrive → o.dest = .none → o.n = 16 → sp.home % 16 = 0 →
      ∃ t, exec .amoAtHome s = .next t ∧ Performed s l t w ∧ leNat (t.bytes sp.home 16) = objectAfter old none ∧ SameOutsideOf l t sp.home 16)
    ∧ (∀ d, o.k = .cexpect d → o.dest = .none → o.n = 16 → sp.home % 16 = 0 →
      ∃ t, exec .amoAtHome s = .next t ∧ Performed s l t w ∧ leNat (t.bytes sp.home 16) = objectAfter old (some d.toNat) ∧ SameOutsideOf l t sp.home 16))
  ∧ (∀ (s : State) (o : Op) (k : Task) (sp : Spot), (actor s).rc < 3 →
    let w := actor s
    (s.rcx w).findOp s.inp.c = some o → o.seq = s.inp.c → s.inp.d = 0 → s.mayPerform w o = true → o.parts = [(o.va, o.n)] →
    s.pick w o 0 = some ((o.va, o.n), { o with parts := [] }) → o.k = .store → o.dest = .none → o.spec = true → o.rl = false → s.window w o.va = .global →
    (o.task.bind fun id => s.findTask (s.tenant w.core w.ctx).partid id) = some k →
    let L := s.locate w o.va (needOf 1) false
    L.res = .ok sp → L.s.poisonedPart sp.home o.n = false →
    ∃ t m, exec .storePerformed s = .next t ∧ Performed s L.s t w ∧ t.mem = L.s.mem ∧ t.findTask k.part k.id = some { k with stores := k.stores ++ [m] }
      ∧ m.home = sp.home ∧ m.bytes = leBytes o.data.toNat o.n ∧ m.va = o.va ∧ m.core = w.core ∧ m.seq = o.seq)
  ∧ ∀ (s : State) (m : MxStore),
    let h := s.inp.a
    let ctx := s.live h
    s.inp.b = 7 → (s.tenant h ctx).mx.stores[s.inp.c]? = some m → m.leaves = [] → s.heldLine m.home = false → space m.home = .tcm → m.gen = 0 →
    s.cmdWaits { core := h, ctx := ctx, rc := 0 } m.seq 0 = false →
    s.poisoned m.home m.bytes.length = false →
    ∃ t, exec .storePerformed s = .next t ∧ (t.tenant h ctx).mx.stores = (s.tenant h ctx).mx.stores.eraseIdx s.inp.c
      ∧ t.bytes m.home m.bytes.length = m.bytes ∧ SameOutsideOf s t m.home m.bytes.length ∧ Tbl.get 256 t.tags (m.home / 1024) = m.tag

/-- VWATCH_REGISTER (R147, R150, R265): on a versioned granule whose version has not reached the target the watch is registered; where it has, its
message leaves at once, with the address, the version and the granule. A completion watch is registered. -/
def Sys2Proof.Spec.WatchesRegister : Prop :=
  ∀ (s l : State) (o : Op) (sp : Spot), (actor s).rc < 3 → AtHome s (actor s) o l sp → o.dest = .none → o.n = 16 →
    let w := actor s
    let g := sp.home / 16
    let v := Tbl.get 0 l.vers g
    (∀ target chan gen urg, o.k = .vwatch target chan gen urg → target < 65536 → v < 65536 →
      (∀ x, x ∈ l.watches → x.pool = 0 → x.gran = g → reached v x.target = false) →
      let x : Watch := { pool := 0, gran := g, va := o.va, target := target, core := w.core, ctx := w.ctx, chan := chan, gen := gen, urg := urg }
      (32768 ≤ (v + 65536 - target) % 65536 →
        ∃ t, exec .vwatchRegister s = .next t ∧ Performed s l t w ∧ t.watches = l.watches ++ [x] ∧ t.flights = l.flights ∧ t.mem = l.mem)
      ∧ ((v + 65536 - target) % 65536 < 32768 →
        ∃ t f, exec .vwatchRegister s = .next t ∧ Performed s l t w ∧ t.watches = l.watches ∧ t.flights = l.flights ++ [f] ∧ t.mem = l.mem
          ∧ f.core = w.core ∧ f.ctx = w.ctx ∧ f.msg.chan = chan % 64 ∧ f.msg.gen = gen % 65536 ∧ f.msg.kind = 5 ∧ f.msg.urg = urg
          ∧ f.msg.pay = [w64 o.va, w64 v] ∧ f.msg.ext = [BitVec.ofNat 128 (leNat (l.bytes (16 * g) 16))]))
    ∧ ∀ chan gen urg, o.k = .cwatch chan gen urg →
        ∃ t, exec .vwatchRegister s = .next t ∧ Performed s l t w ∧ t.flights = l.flights
          ∧ t.watches = l.watches ++ [{ pool := 1, gran := g, va := o.va, target := 0, core := w.core, ctx := w.ctx, chan := chan, gen := gen, urg := urg }]

/-! ## Suspension and resumption -/

/-- TRANSLATION_FAULT (R316, R317): an operation whose walk ends in a kind that suspends takes its handler with it into the lowest free slot: the register
context is idle, the slot keeps its registers and goes on at the next instruction once the request is replayed; a record waits at the
function that owns the fault (at a peer module, where the fault was met there), evc10 counts, and the instruction has not retired. SUSPEND_ON_SLOT_FREE (R320): a handler held in place does the
same once a slot is free, and evc10 counts then. HANDLER_RESUME: a ready slot takes its register context again: to run its instruction again, to go
on after an EBREAK, or with what the operation it waited for has brought, which is then counted as retired.
That instret counts a suspended instruction as it resumes, and not before, is the model's reading (log 15). -/
def Obligations.HandlersSuspendAndResume : Prop :=
  (∀ (s : State) (o : Op) (k i : Nat),
    let w := actor s
    let r := s.rcx w
    let t := s.tenant w.core w.ctx
    w.rc < 3 → NoGang s w → r.findOp s.inp.c = some o → o.seq = s.inp.c → s.inp.d = 0 → s.mayPerform w o = true → o.parts = [(o.va, o.n)] →
    s.pick w o 0 = some ((o.va, o.n), { o with parts := [] }) → (s.locate w o.va (needOf o.k.acc) o.k.isStore).res = .error k → k < 4 → r.run = .running → r.inv = o.inv →
    t.freeSlot = some i →
    ∃ u sl h, exec .translationFault s = .next u ∧ (u.rcx w).run = .idle ∧ (u.tenant w.core w.ctx).slots.find? (fun p => p.1 == i) = some (i, sl)
      ∧ sl.rc = w.rc ∧ sl.img.x = r.x ∧ sl.img.w = r.w ∧ sl.img.pc = o.pc ∧ sl.img.msg = r.msg ∧ sl.wait.cont = r.pc ∧ sl.wait.need = 1
      ∧ (u.tenant w.core w.ctx).instret = t.instret - 1 ∧ Tbl.get 0 (u.tenant w.core w.ctx).evc 10 = min (Tbl.get 0 t.evc 10 + 1) (2 ^ 32 - 1)
      ∧ u.held = s.held ++ [h] ∧ h.cause = 0x40 + 8 * o.k.acc + k ∧ h.va = o.va ∧ (h.peer = false → h.fn = (if k < 2 then t.partid else 0))
      ∧ (s.ptes = [] → (∀ n, Tbl.get 0 s.twpair n / 128 % 2 = 0) → h.peer = false))
  ∧ (∀ (s : State) (x : Wait) (i : Nat),
    let w := actor s
    let r := s.rcx w
    w.rc < 3 → r.run = .held → r.wait = some x → (s.tenant w.core w.ctx).freeSlot = some i →
    ∃ u sl, exec .suspendOnSlotFree s = .next u ∧ (u.rcx w).run = .idle ∧ (u.tenant w.core w.ctx).slots.find? (fun p => p.1 == i) = some (i, sl)
      ∧ sl.rc = w.rc ∧ sl.img.x = r.x ∧ sl.img.w = r.w ∧ sl.img.msg = r.msg ∧ sl.wait = x ∧ u.held.length = s.held.length ∧ u.mem = s.mem
      ∧ (x.why ≠ .ebreak → x.why ≠ .gang →
          Tbl.get 0 (u.tenant w.core w.ctx).evc 10 = min (Tbl.get 0 (s.tenant w.core w.ctx).evc 10 + 1) (2 ^ 32 - 1)))
  ∧ ∀ (s : State) (sl : Slot),
    let core := s.inp.a
    let ctx := s.live core
    let w : Who := { core := core, ctx := ctx, rc := sl.rc }
    let t := s.tenant core ctx
    t.slots.find? (fun p => p.1 == s.inp.b) = some (s.inp.b, sl) → sl.rc < 3 → sl.wait.gang = none → sl.wait.need = 0 →
    s.mayResume core = true → t.gangsz ≤ 1 → (s.rcx w).run = .idle →
    (sl.wait.why = .rerun ∨ sl.wait.why = .ebreak →
    ∃ u, exec .handlerResume s = .next u ∧ (u.rcx w).run = .running ∧ (u.rcx w).x = sl.img.x ∧ (u.rcx w).w = sl.img.w ∧ (u.rcx w).pc = sl.wait.cont
      ∧ (u.rcx w).msg = sl.img.msg ∧ (u.rcx w).chan = sl.img.chan ∧ (u.rcx w).outbox = sl.img.outbox ∧ (sl.rc = 0 → (u.tenant core ctx).g = sl.g)
      ∧ Tbl.has (u.tenant core ctx).slots s.inp.b = false
      ∧ (u.tenant core ctx).instret = t.instret + (if sl.wait.why = .ebreak then 1 else 0) ∧ u.mem = s.mem)
    ∧ ∀ o : Op, sl.wait.why = .op o → o.parts = [] → o.k = .load →
      let v := leNat ((List.range o.n).map fun i => Tbl.get 0 o.got (o.va + i))
      (∀ rd sx, o.dest = .x rd o.n sx →
        ∃ u, exec .handlerResume s = .next u ∧ (u.rcx w).run = .running ∧ (u.rcx w).pc = sl.wait.cont ∧ (u.rcx w).w = sl.img.w ∧ (u.rcx w).msg = sl.img.msg
          ∧ (∀ j, j ≠ rd → (u.rcx w).rx j = sl.img.rx j) ∧ (u.rcx w).rx rd = (if rd = 0 then 0 else if sx then w64 (simm v (8 * o.n)) else w64 (v % 2 ^ (8 * o.n)))
          ∧ Tbl.has (u.tenant core ctx).slots s.inp.b = false ∧ (u.tenant core ctx).instret = t.instret + 1 ∧ u.mem = s.mem)
      ∧ (∀ rd, o.dest = .w rd → rd < 24 →
        ∃ u, exec .handlerResume s = .next u ∧ (u.rcx w).run = .running ∧ (u.rcx w).pc = sl.wait.cont ∧ (u.rcx w).x = sl.img.x
          ∧ (∀ j, j ≠ rd → (u.rcx w).rw j = sl.img.rw j) ∧ (u.rcx w).rw rd = BitVec.ofNat 128 v
          ∧ Tbl.has (u.tenant core ctx).slots s.inp.b = false ∧ (u.tenant core ctx).instret = t.instret + 1 ∧ u.mem = s.mem)

/-- FAULT_RECORD_POST (R318, R384): the oldest record that waits for a function is written at the head of its queue, 32 bytes, when there is room; without
room a resumable one waits, an informational one is dropped and LOST marked; it waits for a line that the host holds, and for an entry of a table at a peer
module; one whose place stage 2 does not translate, waits, and PARTITION_BOUND is reported for it once. RESUME_REPLAY (R317, R319): a held request is replayed: the slot that waited for it needs one request
less, and what a load returns is kept for its instruction (R139); the part of a transfer in the page goes on, and where nothing else of it is held, the time is
added to its deadline. RESUME_FAIL: the handler ends from its slot with the record of the original cause, a transfer records the fault and gives up
its cells on that 4 KiB page, those to be read and those to be written there (the model's reading, log 38). -/
def Obligations.FaultServiceResults : Prop :=
  (∀ (s : State) (r : FRec), s.frecs.find? (fun x => x.fn == s.inp.a) = some r →
    let q := s.part r.fn
    let free := s.held2 r.fn (q.fqbase + 32 * q.fqhead) 32 = false
    (q.fqRoom = false → r.resumable = true → exec .faultRecordPost s = .next s)
    ∧ (q.fqRoom = true → ¬ free → ∃ u, exec .faultRecordPost s = .next u ∧ u.frecs = s.frecs ∧ u.mem = s.mem ∧ u.parts = s.parts)
    ∧ (q.fqRoom = false → r.resumable = false →
        ∃ u, exec .faultRecordPost s = .next u ∧ u.frecs = s.frecs.erase r ∧ (u.part r.fn).lost = true ∧ u.mem = s.mem)
    ∧ (∀ s1 s2, q.fqRoom = true → free → s.write2 r.fn (q.fqbase + 32 * q.fqhead) (leBytes (recordNat r q.lost) 16) = (s1, true) →
        s1.write2 r.fn (q.fqbase + 32 * q.fqhead + 16) (leBytes (recordNat r q.lost / 2 ^ 128) 16) = (s2, true) →
        ∃ u, exec .faultRecordPost s = .next u ∧ u.mem = s2.mem ∧ u.frecs = s2.frecs.erase r ∧ (u.part r.fn).fqhead = ((s2.part r.fn).fqhead + 1) % (s2.part r.fn).fqlen
          ∧ (u.part r.fn).lost = false)
    ∧ (∀ s1, q.fqRoom = true → free → s.write2 r.fn (q.fqbase + 32 * q.fqhead) (leBytes (recordNat r q.lost) 16) = (s1, false) →
        (r.told = true → exec .faultRecordPost s = .next s)
        ∧ (r.told = false → ∃ u l, exec .faultRecordPost s = .next u ∧ u.frecs = (s.frecs.map fun x => if x = r then { x with told := true } else x) ++ l
            ∧ ∀ x, x ∈ l → x.fn = 0 ∧ x.cause = 0xA1)))
  ∧ (∀ (s : State) (h : Held) (sl : Slot) (core ctx i : Nat) (p : Nat × Nat) (sp : Spot), i < 4 →
    s.held.find? (fun h => !h.peer && h.fn == s.inp.a && h.fid == s.inp.b) = some h → h.by_ = .slot core ctx i p →
    (s.tenant core ctx).slots.find? (fun q => q.1 == i) = some (i, sl) → sl.wait.why = .rerun →
    let S := State.forget { s with held := s.held.erase h } (s.tenant core ctx).partid ctx p.1
    let w : Who := { core := core, ctx := ctx, rc := 3 + i }
    let L := S.locate w p.1 (needOf ((h.cause - 0x40) / 8)) false
    let less : Wait := { sl.wait with need := sl.wait.need - 1 }
    L.res = .ok sp →
    (0x48 ≤ h.cause → h.cause < 0x58 →
      ∃ u, exec .resumeReplay s = .next u ∧ u.held = s.held.erase h ∧ (u.tenant core ctx).slots.find? (fun q => q.1 == i) = some (i, { sl with wait := less }))
    ∧ (0x40 ≤ h.cause → h.cause < 0x48 → 0 < p.2 → sl.img.kept = [] → S.clash w 1 p.1 p.2 = false → S.heldLine sp.home = false →
        L.s.poisoned sp.home p.2 = false → L.s.garbled sp = false → S.specStores w = [] →
      ∃ u, exec .resumeReplay s = .next u ∧ u.held = s.held.erase h
        ∧ (u.tenant core ctx).slots.find? (fun q => q.1 == i) = some (i, { sl with img := { sl.img with kept := byAddr p.1 (L.s.bytes sp.home p.2) }, wait := less })))
  ∧ (∀ (s : State) (h : Held) (k : Nat) (x : Xfer), s.held.find? (fun h => !h.peer && h.fn == s.inp.a && h.fid == s.inp.b) = some h → h.by_ = .xfer k →
    s.xfers.find? (fun x => x.id == k) = some x → (∀ b, b ∈ s.held.erase h → b.va / 4096 = h.va / 4096 → b.by_ ≠ .xfer k ∧ b.by_ ≠ .comp k) →
    let page := h.va / 4096
    let l := x.heldPg.filter (· != page)
    let late := if x.heldPg ≠ [] ∧ l = [] then x.deadline + (s.time - x.heldAt) else x.deadline
    let on := fun (a : Option Nat) (n : Nat) => ∃ b, a = some b ∧ (b / 4096 = page ∨ (b + n - 1) / 4096 = page)
    (∃ u, exec .resumeReplay s = .next u ∧ u.held = s.held.erase h ∧ u.mem = s.mem
      ∧ u.xfers.find? (fun x => x.id == k) = some { x with heldPg := l, deadline := late })
    ∧ ∃ u y, exec .resumeFail s = .next u ∧ u.held = s.held.erase h ∧ u.mem = s.mem ∧ u.xfers.find? (fun x => x.id == k) = some y ∧ y.heldPg = l ∧ y.deadline = late
      ∧ y.fault = (match x.fault with | some c => some c | none => some h.cause)
      ∧ ∀ (j : Nat) (m : Mv), x.moves[j]? = some m → ∃ n, y.moves[j]? = some n ∧ n.cell = m.cell ∧ n.src = m.src ∧ n.dst = m.dst
          ∧ (n.bad = true ↔ m.bad = true ∨ (on m.src x.srcSize ∧ ∀ g, g ∈ x.got → g.1 ≠ j))
          ∧ (n.done = true ↔ m.done = true ∨ (on m.dst x.dstSize ∧ ¬ (on m.src x.srcSize ∧ ∀ g, g ∈ x.got → g.1 ≠ j))))
  ∧ ∀ (s : State) (h : Held) (sl : Slot) (core ctx i : Nat) (p : Nat × Nat),
    s.held.find? (fun h => !h.peer && h.fn == s.inp.a && h.fid == s.inp.b) = some h → h.by_ = .slot core ctx i p →
    (s.tenant core ctx).slots.find? (fun q => q.1 == i) = some (i, sl) → sl.rc < 2 → sl.wait.gang = none → sl.img.task = none → h.cause < 256 →
    ∃ u f, exec .resumeFail s = .next u ∧ Tbl.has (u.tenant core ctx).slots i = false ∧ u.flights = s.flights ++ [f] ∧ f.msg.kind = 6
      ∧ f.msg.pay.take 3 = [w64 (h.cause + 256 * sl.rc), sl.img.pc, w64 p.1] ∧ (∀ b, b ∈ u.held → b ∈ s.held ∧ b ≠ h) ∧ u.mem = s.mem

namespace Sys2Proof.Spec

open Sys2Proof.Machine

/-! ## Tasks, barriers, bands -/

/-- A task of the partition is eligible (R117): queued, and no earlier task of its ordered domain writes what it reads. -/
def Eligible117 (s : State) (k : Task) : Prop :=
  k.st = .queued ∧ (k.dom = 0 ∨ ∀ e, e ∈ s.tasks → e.part = k.part → e.dom = k.dom → (e.ts < k.ts ∨ (e.ts = k.ts ∧ e.id < k.id)) → e.write.meets k.read = false)

/-- The effective priority (R333): the task's priority raised by the boost of its domain, 15 at most. -/
def prioOf (s : State) (k : Task) : Nat := min (k.prio + Tbl.get 0 (s.part k.part).dboost k.dom % 16) 15

/-- An earlier task of its domain is uncommitted. -/
def Behind (s : State) (k : Task) : Prop :=
  k.dom ≠ 0 ∧ ∃ e, e ∈ s.tasks ∧ e.part = k.part ∧ e.dom = k.dom ∧ (e.ts < k.ts ∨ (e.ts = k.ts ∧ e.id < k.id))

/-- Nothing keeps a task from committing but the tasks before it (R121, R159): of an ordered domain, no store of its handler is on its way, and no
message of an earlier task. -/
def MayCommit (s : State) (k : Task) : Prop := k.dom = 0 ∨ (s.taskWriting k = false ∧ s.domBusy k.part k.id = false)

/-- A held message of a task as it leaves: it keeps the task's number until it is resident, where the domain is ordered (R159). -/
def posted (k : Task) (f : Flight) : Flight := { f with task := if k.dom = 0 then 0 else k.id }

/-- A member of a band is quiet (R105). -/
structure QuietMember (s : State) (h ctx : Nat) : Prop where
  handlers : ∀ j, j < 3 → (s.rcx { core := h, ctx := ctx, rc := j }).run = .idle
  slots : (s.tenant h ctx).slots = []
  inbox : (s.tenant h ctx).inboxN = [] ∧ (s.tenant h ctx).inboxU = [] ∧ (s.tenant h ctx).log = []
  copies : ∀ c, c ∈ (s.tenant h ctx).chans → c.2.dcnt = 0
  watches : (s.tenant h ctx).vwPend = 0 ∧ (s.tenant h ctx).cwPend = 0
  flights : ∀ f, f ∈ s.flights → f.core ≠ h ∨ f.ctx ≠ ctx
  tasks : ∀ k, k ∈ s.tasks → (k.srcCore ≠ h ∨ k.ctx ≠ ctx) ∧ ∀ f, f ∈ k.msgs → f.core ≠ h ∨ f.ctx ≠ ctx
  arrivals : (∀ a, a ∈ s.arrivals → a.core ≠ h ∨ a.ctx ≠ ctx) ∧ ∀ b, b ∈ s.bars → ∀ a, a ∈ b.arr → a.core ≠ h ∨ a.ctx ≠ ctx
  arriving : (s.tenant h ctx).n.ops = []

/-- Nothing of a member is still on its way (R105). -/
structure LandedMember (s : State) (h ctx : Nat) : Prop where
  ops : ∀ j, j < 3 → (s.rcx { core := h, ctx := ctx, rc := j }).ops = []
  xfers : ∀ x, x ∈ s.xfers → x.who.core ≠ h ∨ x.who.ctx ≠ ctx
  walks : ∀ k, k ∈ s.walks → k.who.core ≠ h ∨ k.who.ctx ≠ ctx
  loads : ∀ k, k ∈ s.rkloads → k.who.core ≠ h ∨ k.who.ctx ≠ ctx
  cmds : ∀ m, m ∈ s.mcmds → m.src.core ≠ h ∨ m.src.ctx ≠ ctx
  unit : (s.tenant h ctx).mx.queue = [] ∧ (s.tenant h ctx).mx.recv = [] ∧ (s.tenant h ctx).mx.stores = [] ∧ (s.tenant h ctx).mx.pre = none

/-- A start at which a launch without gangs fits (R101, R102). -/
def FitsAt (s : State) (l : Launch) (h : Nat) : Prop :=
  (s.part l.part).cbase ≤ h ∧ h + l.cores ≤ (s.part l.part).cbase + (s.part l.part).clen ∧ (∀ c, c ∈ s.cfail → c < h ∨ h + l.cores ≤ c)
    ∧ ∀ b, b ∈ s.bands → h + l.cores ≤ b.h0 ∨ b.h0 + b.len ≤ h

end Sys2Proof.Spec

/-! ## Tasks -/

/-- TENQ (R113–R116) takes a descriptor from own TCM: the task joins the queue with its timestamp, domain, channel, priority, affinity, arguments and
footprints, x[rd] is its id, quota category 6 counts, and no other register changes. A misaligned or outlying descriptor traps, the latter (TASK_DESC) with x[rs1] in
the address slot (the model's choice, log 24). TCANCEL (R124)
answers 2 for a task that is not the context's, 1 for one already dispatched, 0 for one that it takes back. -/
def Obligations.TasksEnterAndLeave : Prop :=
  (∀ (rd a gr gw : Nat) (s : State), (Instr.tenq rd a gr gw).wf = true → s.cur.rc = 0 → s.cur.core < 4096 → s.cur.ctx < 8 → Unmasked s [7] → NoneLeft s → Fresh s → Plain s →
    let at_ := (s.x a).toNat
    let home := tcmHome s.cur.core s.cur.ctx + at_
    let d := leNat (s.bytes home 32)
    let f := fun (o n : Nat) => d / 2 ^ (8 * o) % 2 ^ (8 * n)
    let p := s.tn.partid
    let q := s.part p
    let n := Tbl.get 0 q.nextSeq (f 9 1)
    let r := if f 9 1 = 0 then Region.empty 0 else s.g gr
    let w := if f 9 1 = 0 then Region.empty 0 else s.g gw
    (at_ % 32 ≠ 0 → exec (.tenq rd a gr gw) s = .next (s.trap s.cur 0x20 s.rc.pc (s.x a) 0))
    ∧ (at_ % 32 = 0 → 0x40000 ≤ at_ → exec (.tenq rd a gr gw) s = .next (s.trap s.cur 0x8A s.rc.pc (s.x a) 0))
    ∧ (at_ % 32 = 0 → at_ < 0x40000 → s.poisoned home 32 = false → f 8 1 < 64 → f 9 1 < 64 → f 10 1 < 16 → f 11 1 < 2 → f 12 2 < 4096 → f 14 2 = 0 →
        (f 11 1 = 1 → f 12 2 < s.tn.bandsz) → r.ragged = false → w.ragged = false → (r.boxes = [] ∨ r.rank = 2) → (w.boxes = [] ∨ w.rank = 2) →
        (s.rc.task = none ∨ s.rc.tdomain ≠ f 9 1 ∨ s.rc.tstamp.toNat ≤ f 0 8) → (f 9 1 = 0 ∨ Tbl.get 0 q.lastTs (f 9 1) ≤ f 0 8) →
        (∀ k, k ∈ s.tasks → k.part = p → k.dom ≠ f 9 1 ∧ k.st ≠ .queued ∧ k.st ≠ .held) → Tbl.get 0 q.qlim 6 = 0 →
        ∃ t k, exec (.tenq rd a gr gw) s = .next t ∧ Advanced s t ∧ t.tasks = s.tasks ++ [k] ∧ (rd ≠ 0 → t.x rd = w64 k.id) ∧ (∀ j, j ≠ rd → t.x j = s.x j)
          ∧ t.mem = s.mem ∧ t.flights = s.flights ∧ k.id = f 9 1 * 2 ^ 58 + n % 2 ^ 58 ∧ k.part = p ∧ k.ctx = s.cur.ctx ∧ k.ts = f 0 8 ∧ k.dom = f 9 1
          ∧ k.chan = f 8 1 ∧ k.prio = f 10 1 ∧ k.aff = (if f 11 1 = 1 then some (f 12 2) else none) ∧ k.args = [f 16 4, f 20 4, f 24 4, f 28 4]
          ∧ k.read = r ∧ k.write = w ∧ k.parent = s.rc.task ∧ k.st = .queued ∧ k.stores = [] ∧ k.msgs = []
          ∧ Tbl.get 0 (t.part p).nextSeq (f 9 1) = n + 1 ∧ Tbl.get 0 (t.part p).quse 6 = min (Tbl.get 0 q.quse 6 + 1) (2 ^ 64 - 1)))
  ∧ ∀ (rd a : Nat) (s : State), (Instr.tcancel rd a).wf = true → Live s → Ready s [rd, a] → Unmasked s [7] → Plain s →
    let p := s.tn.partid
    let id := (s.x a).toNat
    (s.findTask p id = none → ∃ t, exec (.tcancel rd a) s = .next t ∧ Advanced s t ∧ OnlyX s t rd ∧ (rd ≠ 0 → t.x rd = 2))
    ∧ (∀ k, s.findTask p id = some k → k.ctx ≠ s.cur.ctx → ∃ t, exec (.tcancel rd a) s = .next t ∧ Advanced s t ∧ OnlyX s t rd ∧ (rd ≠ 0 → t.x rd = 2))
    ∧ (∀ k, s.findTask p id = some k → k.ctx = s.cur.ctx → k.st ≠ .queued → k.st ≠ .held →
        ∃ t, exec (.tcancel rd a) s = .next t ∧ Advanced s t ∧ OnlyX s t rd ∧ (rd ≠ 0 → t.x rd = 1))
    ∧ ∀ k, s.findTask p id = some k → k.ctx = s.cur.ctx → k.st = .queued ∨ k.st = .held → (∀ u, u ∈ s.tasks → u.part = p → u.st ≠ .spec) →
        ∃ t, exec (.tcancel rd a) s = .next t ∧ Advanced s t ∧ OnlyX { s with tasks := t.tasks } t rd ∧ (rd ≠ 0 → t.x rd = 0)
          ∧ t.tasks = s.tasks.filter fun u => !(u.part == p && u.id == id)

/-- TASK_DISPATCH (R117, R119): the eligible task of the highest effective priority, once the stores before its TENQ are performed (R116, R158), is sent to the core of its affinity, oldest of its domain or speculative, its
message carrying its arguments and its id. TASK_COMMIT (R120, R121, R159): of a task whose earlier ones have committed, whose own stores are performed and
whose domain's earlier messages are resident, an ended one applies its buffered stores and posts its messages, a failed one leaves its trap
records alone, one that runs becomes the oldest; the tasks that were held with one that commits are queued; of a task behind an uncommitted earlier one
nothing changes. Of buffered stores one is stated, which sets D in its leaves (R133). -/
def Obligations.TasksRunInOrder : Prop :=
  (∀ (s : State) (k : Task) (l : Nat), s.inp.a = k.part → s.thermal = false → k ∈ s.tasks → s.findTask k.part k.id = some k → Eligible117 s k → k.dom < 64 →
    (∀ w q, k.after = some (w, q) → ∀ e, e ∈ s.opsOf w → e.k.isStore = true → q ≤ e.seq) →
    (∀ e, e ∈ s.tasks → e.part = k.part → Eligible117 s e → e ≠ k → prioOf s e < prioOf s k) → (∀ e, e ∈ s.tasks → e.st ≠ .spec ∧ e.st ≠ .ended ∧ e.st ≠ .failed) →
    k.aff = some l → (s.tenant ((s.tenant k.srcCore k.ctx).ctab.getD l k.srcCore) k.ctx).gangidx = 0 →
    ∃ t f h, exec .taskDispatch s = .next t ∧ h = (s.tenant k.srcCore k.ctx).ctab.getD l k.srcCore ∧ t.flights = s.flights ++ [f] ∧ f.core = h ∧ f.ctx = k.ctx
      ∧ f.msg.kind = 1 ∧ f.msg.chan = k.chan % 64 ∧ f.msg.pay = k.args.map (fun (a : Nat) => w64 a) ++ [w64 k.id] ∧ t.mem = s.mem
      ∧ (Behind s k → t.findTask k.part k.id = some { k with st := .spec, core := h })
      ∧ (¬ Behind s k → t.findTask k.part k.id = some { k with st := .oldest, core := h }))
  ∧ (∀ (s : State) (k : Task), s.findTask s.inp.a s.inp.b = some k → Behind s k → exec .taskCommit s = .next s)
  ∧ ∀ (s : State) (k : Task), s.findTask s.inp.a s.inp.b = some k → s.inp.c = 0 → ¬ Behind s k → MayCommit s k → (∀ u, u ∈ s.tasks → u.part = k.part → u ≠ k → u.st ≠ .spec) → s.watches = [] →
    (∀ m : MxStore, k.st = .ended → k.stores = [m] → space m.home ≠ .peer → s.heldLine m.home = false → s.markWaits k.part 0x80 m.leaves = false →
      s.poisoned m.home m.bytes.length = false →
      s.opsOf { core := m.core, ctx := k.ctx, rc := 0 } = [] → (s.rcx { core := m.core, ctx := k.ctx, rc := 0 }).fences = [] →
      s.garbled { home := m.home, gen := m.gen, v := false } = false →
      ∃ t, exec .taskCommit s = .next t ∧ t.findTask k.part k.id = none ∧ t.flights = s.flights ++ k.msgs.map (posted k) ∧ t.bytes m.home m.bytes.length = m.bytes
        ∧ SameOutsideOf (s.mark k.part 0x80 m.leaves) t m.home m.bytes.length
        ∧ ∀ u, u ∈ s.tasks → u.part = k.part → u.parent = some k.id → u.st = .held → u.id ≠ k.id → { u with st := .queued } ∈ t.tasks)
    ∧ (k.st = .failed →
      ∃ t, exec .taskCommit s = .next t ∧ t.findTask k.part k.id = none ∧ t.flights = s.flights ++ k.traps.map (posted k) ∧ t.mem = s.mem)
    ∧ (k.st = .spec → k.dom ≠ 0 → k.stores = [] →
      ∃ t, exec .taskCommit s = .next t ∧ t.findTask k.part k.id = some { k with st := .oldest, msgs := [] } ∧ t.flights = s.flights ++ k.msgs.map (posted k)
        ∧ t.mem = s.mem ∧ ((s.rcx { core := k.core, ctx := k.ctx, rc := 0 }).task = some k.id → (s.tenant k.core k.ctx).gangsz ≤ 1 →
            (t.rcx { core := k.core, ctx := k.ctx, rc := 0 }) = { s.rcx { core := k.core, ctx := k.ctx, rc := 0 } with spec := false }))

/-! ## Barriers -/

/-- BARRIER_ARRIVAL (R109–R112): an arrival short of the band's size is held at the tree; the last one ends the phase: with one operation, every member gets
one message on the channel and with the generation it gave, with the value (the sum, for SUM; the inclusive or, for OR; 0 for none), the phase and the operation;
with different operations every member gets the record BARRIER_MISMATCH and its arrival bit clears. CT_HUNG (R321): the next die's tree takes over. -/
def Obligations.BarriersCombine : Prop :=
  (∀ (s : State) (a : Arrival) (b : Bar), s.arrivals[s.inp.a]? = some a →
    s.bars.find? (fun (b : Bar) => b.part == a.part && b.ticket == a.ticket && b.bar == a.bar) = some b →
    let size := (s.tenant a.core a.ctx).bandsz
    let all := a :: b.arr
    (b.arr.length + 1 < size →
      ∃ t c, exec .barrierArrival s = .next t ∧ t.arrivals = s.arrivals.eraseIdx s.inp.a ∧ t.flights = s.flights ∧ c ∈ t.bars
        ∧ (∀ x, x ∈ c.arr ↔ x ∈ all) ∧ c.arr.length = all.length ∧ c.phases = b.phases ∧ c.part = b.part ∧ c.ticket = b.ticket ∧ c.bar = b.bar)
    ∧ (∀ op, b.arr.length + 1 = size → b.bar < 8 → (∀ x, x ∈ all → x.op = op) → op = 0 ∨ op = 1 ∨ op = 6 →
      ∃ t out, exec .barrierArrival s = .next t ∧ t.arrivals = s.arrivals.eraseIdx s.inp.a ∧ t.flights = s.flights ++ out ∧ out.length = size
        ∧ (∀ x, x ∈ all → ∃ f, f ∈ out ∧ f.core = x.core ∧ f.ctx = x.ctx ∧ f.msg.chan = x.chan % 64 ∧ f.msg.gen = x.gen % 65536 ∧ f.msg.kind = 3)
        ∧ (∀ f, f ∈ out → f.msg.bar = some b.bar ∧ f.msg.pay =
            [if op = 0 then 0 else if op = 1 then all.foldl (fun v x => v + x.v) 0 else all.foldl (fun v x => v ||| x.v) 0,
             w64 ((b.phases + 1) % 2 ^ 32 * 2 ^ 32 + op * 8 + b.bar : Nat)])
        ∧ ∃ c, c ∈ t.bars ∧ c.part = b.part ∧ c.ticket = b.ticket ∧ c.bar = b.bar ∧ c.phases = b.phases + 1 ∧ c.arr = [])
    ∧ (∀ x y, b.arr.length + 1 = size → x ∈ all → y ∈ all → x.op ≠ y.op →
      ∃ t out, exec .barrierArrival s = .next t ∧ t.flights = s.flights ++ out ∧ out.length = size
        ∧ (∀ f, f ∈ out → f.msg.kind = 6 ∧ f.msg.pay.head? = some (w64 (3 * 256 + 0x88)))
        ∧ ∀ x, x ∈ all → Tbl.get false (t.tenant x.core x.ctx).arrived b.bar = false))
  ∧ ∀ s : State, (∃ b, b ∈ s.bars ∧ b.die = s.inp.a ∧ b.arr ≠ []) →
    ∃ t, exec .ctHung s = .next t ∧ t.bars = s.bars.map (fun (b : Bar) => if b.die = s.inp.a then { b with die := (s.inp.a + 1) % 8 } else b)
      ∧ t.arrivals = s.arrivals ∧ t.flights.length ≥ s.flights.length

/-! ## Bands -/

/-- LSUBMIT (R99, R332): the record's 64 bytes become a launch with the next ticket; a full queue sets LFULL. LAUNCH_PLACE (R100–R103, R352): the only launch
of a partition, of a single gang size, takes the lowest start at which it fits; every member has its number, the table of the band and its stack pointers, and the
start message goes to each; a context with no image ends it with BAND_UNPLACEABLE. The record of a launch at a peer module is asked for in 16-byte reads (R358). That sp
is 0x40000, 0x3C000 and 0x38000 in the three contexts, and fntab and fnlen are the image's, is what the loader sets (R352, R353; the model's reading, log 42). -/
def Obligations.LaunchesStartBands : Prop :=
  (∀ (s : State) (b : List Byte), s.inp.a < 64 → (s.part s.inp.a).flr = false → s.hostHeld = [] → (s.launches.filter fun l => l.part == s.inp.a).length < 256 →
    let a := s.inp.b / 64 % 2 ^ 42 * 64
    s.read2 s.inp.a a 64 = some b → b.length = 64 → s.unreached2 s.inp.a a 64 = false →
    (∀ sp, (s.locate2 s.inp.a a 1 false).res = .ok sp → space sp.home ≠ .peer) →
    let f := fun (o n : Nat) => leNat b / 2 ^ (8 * o) % 2 ^ (8 * n)
    ∃ t l, exec .lsubmit s = .next t ∧ t.launches = s.launches ++ [l] ∧ l.part = s.inp.a ∧ l.ctx = s.inp.b % 8 ∧ l.ticket = (s.part s.inp.a).lticket % 2 ^ 32 ∧ l.bad = false
      ∧ l.submitted = s.time ∧ l.mtype = f 0 2 ∧ l.cores = f 2 2 ∧ l.tx = f 4 2 ∧ l.ty = f 6 2 ∧ l.gang = f 8 1 ∧ l.prio = f 9 1 % 16
      ∧ l.args = [w64 (f 16 8), w64 (f 24 8), w64 (f 32 8), w64 (f 40 8)] ∧ l.comp = f 48 8 ∧ l.routes = f 56 8
      ∧ l.rsv = (f 9 1 / 16 != 0 || f 10 6 != 0)
      ∧ (t.part s.inp.a).lticket = (s.part s.inp.a).lticket + 1 ∧ (t.part s.inp.a).lfull = false)
  ∧ (∀ (s : State) (sp : Spot), s.inp.a < 64 → (s.part s.inp.a).flr = false → (s.launches.filter fun l => l.part == s.inp.a).length < 256 →
    let a := s.inp.b / 64 % 2 ^ 42 * 64
    s.held2 s.inp.a a 64 = false → (s.locate2 s.inp.a a 1 false).res = .ok sp → space sp.home = .peer →
    ∃ t l rs, exec .lsubmit s = .next t ∧ t.launches = s.launches ++ [l] ∧ l.part = s.inp.a ∧ l.at_ = some a ∧ l.ticket = (s.part s.inp.a).lticket % 2 ^ 32
      ∧ t.peerReqs = (s.locate2 s.inp.a a 1 false).s.peerReqs ++ rs ∧ rs.map (fun r => (r.va, r.n)) = [(a, 16), (a + 16, 16), (a + 32, 16), (a + 48, 16)] ∧ ∀ r, r ∈ rs → r.k = .load)
  ∧ (∀ s : State, s.inp.a < 64 → (s.part s.inp.a).flr = false → s.held2 s.inp.a (s.inp.b / 64 % 2 ^ 42 * 64) 64 = false → 256 ≤ (s.launches.filter fun l => l.part == s.inp.a).length →
    ∃ t, exec .lsubmit s = .next t ∧ (t.part s.inp.a).lfull = true ∧ t.launches = s.launches ∧ (t.part s.inp.a).lticket = (s.part s.inp.a).lticket)
  ∧ (∀ (s : State) (l : Launch), s.launches = [l] → l.at_ = none → l.part = s.inp.a → (s.part l.part).flr = false → s.thermal = false → l.bad = false →
    (∀ m, m ∈ s.images → m.part ≠ l.part ∨ m.ctx ≠ l.ctx) →
    ∃ t x, exec .launchPlace s = .next t ∧ t.launches = [] ∧ t.bands = s.bands ∧ t.lstats = s.lstats ++ [x] ∧ x.status = 0x87 ∧ x.ticket = l.ticket
      ∧ x.part = l.part ∧ x.comp = l.comp)
  ∧ ∀ (s : State) (l : Launch) (im : Image) (e : HEntry) (h : Nat), s.launches = [l] → l.at_ = none → l.part = s.inp.a → (s.part l.part).flr = false → s.thermal = false → l.bad = false → l.rsv = false →
    s.images.find? (fun m => m.part == l.part && m.ctx == l.ctx) = some im → (s.part l.part).ctxen / 2 ^ l.ctx % 2 = 1 → 0 < l.cores → l.cores ≤ 4095 → l.ctx < 8 →
    l.tx * l.ty = l.cores → l.gang = 1 → im.handlers[l.mtype]? = some e → l.routes = 0 → Tbl.get 0 (s.part l.part).qlim 7 = 0 → FitsAt s l h →
    (∀ k, k < h → ¬ FitsAt s l k) → im.tcm = [] → im.pans = [] →
    ∃ t b, exec .launchPlace s = .next t ∧ t.launches = [] ∧ t.mem = s.mem ∧ t.bands = s.bands ++ [b] ∧ b.part = l.part ∧ b.ctx = l.ctx ∧ b.ticket = l.ticket ∧ b.h0 = h
      ∧ b.len = l.cores ∧ b.members = (List.range l.cores).map (h + ·) ∧ b.comp = l.comp ∧ b.ended = false
      ∧ (∀ i, i < l.cores →
          let m := t.tenant (h + i) l.ctx
          m.lcore = i ∧ m.bandsz = l.cores ∧ m.ctab = b.members ∧ m.torusX = l.tx ∧ m.torusY = l.ty ∧ m.gangsz = 1 ∧ m.partid = l.part ∧ m.fntab = im.fntab
            ∧ m.fnlen = im.fnlen ∧ m.n.rx 2 = 0x40000 ∧ m.u.rx 2 = 0x3C000 ∧ m.o.rx 2 = 0x38000)
      ∧ ∃ out, t.flights = s.flights ++ out ∧ out.map (·.core) = b.members ∧ ∀ f, f ∈ out → f.ctx = l.ctx ∧ f.msg.kind = 2 ∧ f.msg.chan = e.chan % 64
          ∧ f.msg.urg = e.urg ∧ f.msg.pay = l.args

/-- BAND_END, LAUNCH_COMPLETE, LAUNCH_STATUS_WRITE (R105, R332): a band ends once every member is quiet; once everything of its members has landed its
sub-interval is free and its status waits; the oldest status is written to the ring of its function, 16 bytes with ticket, status and time, or waits while the ring has no base or no room. -/
def Sys2Proof.Spec.BandsEnd : Prop :=
  (∀ (s : State) (b : Band), s.bands.find? (fun b => b.part == s.inp.a && b.ticket == s.inp.b) = some b → b.ended = false → (∀ h, h ∈ b.members → QuietMember s h b.ctx) →
    ∃ t, exec .bandEnd s = .next t ∧ t.bands = s.bands.map (fun x => if x.part = b.part ∧ x.ticket = b.ticket then { b with ended := true } else x)
      ∧ { t with bands := s.bands } = s)
  ∧ (∀ (s : State) (b : Band), s.bands.find? (fun b => b.part == s.inp.a && b.ticket == s.inp.b) = some b → b.ended = true → (∀ h, h ∈ b.members → LandedMember s h b.ctx) →
    ∃ t x, exec .launchComplete s = .next t ∧ t.bands = s.bands.filter (fun y => !(y.part == b.part && y.ticket == b.ticket)) ∧ t.lstats = s.lstats ++ [x]
      ∧ x.part = b.part ∧ x.ticket = b.ticket ∧ x.status = (if b.killed then 0x8C else 0) ∧ x.comp = b.comp ∧ x.submitted = b.submitted ∧ x.completed = s.time)
  ∧ ∀ (s : State) (x : LStatus), s.lstats.find? (fun x => x.part == s.inp.a) = some x →
    let q := s.part s.inp.a
    (q.lstatbase = 0 ∨ (q.lstathead + 1) % 256 = q.lstattail % 256 → exec .launchStatusWrite s = .next s)
    ∧ ∀ sp, q.lstatbase ≠ 0 → q.lstatbase % 16 = 0 → s.hostHeld = [] → (q.lstathead + 1) % 256 ≠ q.lstattail % 256 → q.log.recs = [] → q.log.sigs = [] → q.log.batchCount < 64 →
        q.logbase = 0 → x.comp = 0 → (s.locate2 s.inp.a (q.lstatbase + 16 * q.lstathead) 2 true).res = .ok sp → space sp.home ≠ .peer →
        (s.locate2 s.inp.a (q.lstatbase + 16 * q.lstathead) 2 true).s.poisonedPart sp.home 16 = false →
        ∃ t, exec .launchStatusWrite s = .next t ∧ t.lstats = s.lstats.erase x ∧ (t.part s.inp.a).lstathead = (q.lstathead + 1) % 256
          ∧ t.bytes sp.home 16 = leBytes (x.ticket % 2 ^ 32 + x.status % 256 * 2 ^ 32 + s.time * 2 ^ 64) 16

/-- KILLH and KILLB (R324): a killed handler ends with the record HANDLER_KILLED of its context, a register context with nothing to kill stays as it is; a band that is killed
has no handler running, empty inboxes, no watch or arrival, no MMUL held on fault service (R374), no task of its own and no message on its way to a member: those under way are discarded at once (the model's choice, log 32). -/
def Sys2Proof.Spec.KillsEndHandlers : Prop :=
  (∀ (s : State) (b : Band) (h : Nat),
    let v := s.inp.b
    let w : Who := { core := h, ctx := v / 2 ^ 12 % 8, rc := v / 2 ^ 16 % 4 }
    s.bands.find? (fun b => b.part == s.inp.a && b.ticket == v / 2 ^ 32 % 2 ^ 32 && b.ctx == w.ctx) = some b → b.members[v % 2 ^ 12]? = some h → w.rc < 3 →
    (s.tenant w.core w.ctx).slots = [] →
    ((s.rcx w).run = .running → (s.rcx w).wait = none → (s.rcx w).task = none → NoGang s w → w.rc ≠ 2 →
      ∃ t, exec .killh s = .next t ∧ Ended (t.rcx w) ∧ (t.rcx w).x = (s.rcx w).x ∧ t.mem = s.mem ∧ t.flights = s.flights ++ [recordOf s w 0x81 (s.rcx w).pc 0 0])
    ∧ ((s.rcx w).run = .idle → (s.rcx w).wait = none → exec .killh s = .next s))
  ∧ ∀ (s : State) (b : Band), s.bands.find? (fun b => b.part == s.inp.a && b.ticket == s.inp.b % 2 ^ 32) = some b → b.killed = false →
    (s.eager = false ∨ ∀ k, k ∈ s.tasks → k.part = b.part → k.st = .spec → k.srcCore ∈ b.members ∧ k.ctx = b.ctx) →
    ∃ t c, exec .killb s = .next t ∧ t.bands.find? (fun b => b.part == s.inp.a && b.ticket == s.inp.b % 2 ^ 32) = some c ∧ c.killed = true ∧ c.ended = true ∧ c.members = b.members
      ∧ (∀ h, h ∈ b.members → (∀ j, j < 3 → (t.rcx { core := h, ctx := b.ctx, rc := j }).run = .idle) ∧ (t.tenant h b.ctx).inboxN = [] ∧ (t.tenant h b.ctx).inboxU = []
          ∧ (t.tenant h b.ctx).vwPend = 0 ∧ (t.tenant h b.ctx).cwPend = 0
          ∧ (∀ j, j ∈ (t.tenant h b.ctx).mx.queue → j.held = false) ∧ ∀ x, x ∈ t.held → x.by_ ≠ .matrix h b.ctx)
      ∧ (∀ k, k ∈ t.tasks → k.part ≠ b.part ∨ k.srcCore ∉ b.members ∨ k.ctx ≠ b.ctx)
      ∧ (∀ f, f ∈ t.flights → f.core ∉ b.members ∨ f.ctx ≠ b.ctx) ∧ (∀ w, w ∈ t.watches → w.core ∉ b.members ∨ w.ctx ≠ b.ctx)
      ∧ ∀ a, a ∈ t.arrivals → a.core ∉ b.members ∨ a.ctx ≠ b.ctx

namespace Sys2Proof.Spec

open Sys2Proof.Machine

/-! ## The Sluice -/

/-- The region of the bytes lo, …, lo + n − 1. -/
def flatRegion (lo n : Nat) : Region :=
  { rank := 1, boxes := [[{ lo := lo, hi := lo + n - 1, step := 1 }]], ragged := false, inexact := false, row0 := 0, rbase := 0, lenvec := 0 }

/-- The cells of a transfer between flat tensors: bytes src + i go to dst + i. -/
def flatMoves (lo n : Nat) (src dst : Option Nat) : List Mv :=
  (List.range n).map fun i => { cell := [lo + i], src := src.map (· + lo + i), dst := dst.map (· + lo + i), bad := false }

/-- The flat tensor at a base as an operation samples it (R229). -/
def flatOperand (base : Nat) : Operand :=
  { tsr := { fmt := 0, rank := 1, wrap := 0, layout := 0, bed := none, rights := 3, rot := 0, base := base, ext := [2 ^ 32 - 1], origin := [0], rotbase := 0,
             stride := [1], grant := 0 }, fmt := 0, scale := 0x3F800000 }

/-- The engine commands of the Sluice: kind, source, destination and index operands, region, and port (0: none). -/
def transferRule (i : Instr) (s : State) : Option (XK × Option Nat × Option Nat × Option Nat × Region × Nat) :=
  match i with
  | .rcopy rd a g => some (.copy, some (s.x rd).toNat, some (s.x a).toNat, none, s.g g, 0)
  | .rstream q a g => some (.stream, some (s.x a).toNat, none, none, s.g g, q - 24)
  | .rsink rd q g => some (.sink, none, some (s.x rd).toNat, none, s.g g, q - 24)
  | .rgather rd a b g =>
    if (s.x rd).toNat < 2 ^ 63 then some (.gather, some (s.x a).toNat, some (s.x rd).toNat, some (s.x b).toNat, s.g g, 0)
    else some (.gather, some (s.x a).toNat, none, some (s.x b).toNat, s.g g, (s.x rd).toNat / 2 ^ 56 % 8)
  | .rscatterSet rd a b g => some (.scatterSet, some (s.x a).toNat, some (s.x rd).toNat, some (s.x b).toNat, s.g g, 0)
  | .rscatterAdd rd a b g => some (.scatterAdd, some (s.x a).toNat, some (s.x rd).toNat, some (s.x b).toNat, s.g g, 0)
  | _ => none

/-- The port of a stream is bound as its command needs; the destination of a gather that begins with 1 names a port and nothing else (R255–R257). -/
def PortFits (i : Instr) (s : State) (q : Nat) : Prop :=
  (q ≠ 0 → (s.tn.port q).kind = (match i with | .rsink .. => 2 | _ => 1))
    ∧ ∀ rd a b g, i = .rgather rd a b g → 2 ^ 63 ≤ (s.x rd).toNat → 2 ≤ q ∧ (s.x rd).toNat = 2 ^ 63 + q * 2 ^ 56

/-- The normal context, with no operation outstanding, no fence that keeps anything back, and no task. -/
abbrev Calm (s : State) : Prop := s.cur.rc = 0 ∧ NoneLeft s ∧ s.rc.task = none ∧ s.rc.spec = false

end Sys2Proof.Spec

/-! ## Transfers -/

/-- RCOPY, RSTREAM, RSINK, RGATHER, RSCATTER (R241, R242, R251, R255–R257): an empty region is accepted and moves nothing (txstat is 0, once no earlier transfer is undecided); otherwise the transfer joins
those undecided and the instruction retires. A check that fails traps on the state as it stands. The address slot 0 of CONTEXT_RESOURCE, of the port traps and of
SPEC_FORBIDDEN is the model's choice (log 24). An RCOPY between flat tensors in own TCM moves
the bytes of its region in order, and memory is as before until it is carried out. -/
def Sys2Proof.Spec.TransfersJoin : Prop :=
  (∀ (i : Instr) (s u : State) (k : XK) (src dst idx : Option Nat) (g : Region) (q : Nat), transferRule i s = some (k, src, dst, idx, g, q) → i.wf = true → Calm s →
    u.eager = false → PortFits i s q →
    (∀ x, s.prep s.cur k g src dst idx q s.rc.txcomp.toNat = .ok u (some x) →
      ∃ t, exec i s = .next t ∧ t.xfers = u.xfers ++ [x] ∧ t.nextId = u.nextId + 1 ∧ t.mem = u.mem ∧ t.rc = { u.rc with pc := u.rc.pc + 4, kept := [] }
        ∧ t.tn.instret = u.tn.instret + 1)
    ∧ (s.prep s.cur k g src dst idx q s.rc.txcomp.toNat = .ok u none → (∀ x, x ∈ u.xfers → x.who = u.cur → x.accepted = true) →
      ∃ t, exec i s = .next t ∧ t.xfers = u.xfers ∧ t.mem = u.mem ∧ t.rc = { u.rc with pc := u.rc.pc + 4, txstat := 0, kept := [] })
    ∧ (∀ c va n, s.prep s.cur k g src dst idx q s.rc.txcomp.toNat = .fault u c va n → c < 0x40 → exec i s = .next (u.trap u.cur c u.rc.pc (w64 va) 0)))
  ∧ (∀ (rd a g lo n sb db : Nat) (s : State), (Instr.rcopy rd a g).wf = true → Calm s → s.eager = false → s.g g = flatRegion lo n → 0 < n →
    (s.x rd).toNat = sb + 1 → (s.x a).toNat = db + 1 → sb % 64 = 0 → db % 64 = 0 → sb + lo + n ≤ 0x40000 → db + lo + n ≤ 0x40000 → s.rc.txcomp = 0 → s.tags = [] →
    s.xfers = [] →
    ∃ t x, exec (.rcopy rd a g) s = .next t ∧ Advanced s t ∧ OnlyContext { s with xfers := t.xfers, nextId := t.nextId } t ∧ t.rc = { s.rc with pc := s.rc.pc + 4, kept := [] }
      ∧ t.xfers = [x] ∧ x.kind = .copy ∧ x.who = s.cur ∧ x.accepted = false ∧ x.done = 0 ∧ x.port = 0 ∧ x.comp = 0 ∧ x.id = s.nextId ∧ x.cluster = s.cur.core / 16
      ∧ x.moves = flatMoves lo n (some sb) (some db) ∧ x.src = some (flatOperand sb) ∧ x.dst = some (flatOperand db))
  ∧ (∀ (i : Instr) (s : State) (k : XK) (src dst idx : Option Nat) (g : Region) (q : Nat), transferRule i s = some (k, src, dst, idx, g, q) → i.wf = true →
    (s.cur.rc ≠ 0 → s.rc.ops = [] → exec i s = .next (s.trap s.cur 0x08 s.rc.pc 0 0))
    ∧ (Calm s → 2 ≤ q → (s.tn.port q).kind = 0 → (∀ rd a b h, i = .rgather rd a b h → (s.x rd).toNat = 2 ^ 63 + q * 2 ^ 56) → exec i s = .next (s.trap s.cur 0x29 s.rc.pc 0 0))
    ∧ (s.cur.rc = 0 → NoneLeft s → s.rc.spec = true → PortFits i s q → dst ≠ none → exec i s = .next (s.trap s.cur 0x85 s.rc.pc 0 0)))

/-- The plan of a resource (R245): the frames that follow the current one, each filled to what is free of the reservation before the next is used; none where 64
frames do not carry the cost. -/
def Sys2Proof.Spec.ReservationsAreGreedy : Prop :=
  ∀ (s : State) (p r f c : Nat),
    let free := fun (k : Nat) => s.freeRes p r (f + k)
    let before := fun (k : Nat) => ((List.range k).map free).sum
    (before 64 < c → s.planRes p r 64 f c = none)
    ∧ (c ≤ before 64 → ∃ l, s.planRes p r 64 f c = some l ∧ (l.map (·.n)).sum = c
        ∧ (∀ k, k < 64 → ((l.filter fun t => t.f == f + k).map (·.n)).sum = min (free k) (c - before k))
        ∧ ∀ t, t ∈ l → t.part = p ∧ t.r = r ∧ 0 < t.n ∧ f ≤ t.f ∧ t.f < f + 64)

/-- TRANSFER_DECISION (R245, R246): the oldest undecided transfer of its Sluice, once what R158 and its fences put before it is performed, is accepted, with the deadline of its plan in txstat, or refused with the reason in
txstat, counted in evc7; no cell has moved. During a thermal emergency none is decided (R323; logs 44 and 51). What a decision waits for is log 12. TRANSFER_COMPLETE (R247, R251): a copy in own TCM has
written at each destination what stood at its source, and EVERY OTHER BYTE reads as before. STREAM_DELIVER (R255): the next 16 bytes join the port's
buffer. A sink (R256) writes the element that was pushed. -/
def Obligations.TransfersMove : Prop :=
  (∀ (s : State) (x : Xfer), s.xfers.find? (fun x => x.id == s.inp.a) = some x → x.accepted = false → s.thermal = false →
    s.xfers.find? (fun y => y.cluster == x.cluster && !y.accepted) = some x → x.who.rc = 0 → s.cmdWaits x.who x.seq 2 = false →
    (∀ k, s.admission (s.rowsX x) = .error k →
      ∃ t, exec .transferDecision s = .next t ∧ t.xfers = s.xfers.filter (fun y => y.id != x.id) ∧ t.mem = s.mem
        ∧ (t.rcx x.who).txstat = w64 (2 ^ 63 + k * 2 ^ 56 : Nat) ∧ Tbl.get 0 (t.tenant x.who.core x.who.ctx).evc 7 = min (Tbl.get 0 (s.tenant x.who.core x.who.ctx).evc 7 + 1) (2 ^ 32 - 1))
    ∧ (∀ plan rec, s.admission (s.rowsX x) = .ok (plan, rec) → x.comp = 0 →
      let last := plan.foldl (fun m (k : Taken) => max m k.f) (s.time / 100)
      ∃ t, exec .transferDecision s = .next t ∧ t.mem = s.mem ∧ t.taken = s.taken.filter (fun k => decide (s.time / 100 ≤ k.f)) ++ plan
        ∧ (∃ since, t.xfers.find? (fun y => y.id == s.inp.a) = some { s.rowsX x with accepted := true, recno := rec, deadline := 100 * (last + 1) + 200, since := since })
        ∧ (t.rcx x.who).txstat = w64 (100 * (last + 1) + 200 - s.time : Nat)))
  ∧ (∀ s : State, s.thermal = true → exec .transferDecision s = .next s)
  ∧ (∀ (s : State) (x : Xfer) (lo n sb db : Nat), s.xfers = [x] → x.id = s.inp.a → s.inp.b = 0 → x.accepted = true → x.heldPg = [] → x.got = [] → x.port = 0 → x.kind = .copy → s.asking x = false → x.comp = 0 → x.done = 0 →
    x.moves = flatMoves lo n (some sb) (some db) → x.src = some (flatOperand sb) → x.dst = some (flatOperand db) → sb + lo + n ≤ 0x40000 → db + lo + n ≤ 0x40000 → x.takeovers = 0 →
    x.fault = none → (∀ i, i < n → ∀ j, j < n → sb + lo + i ≠ db + lo + j) → s.poison = [] → s.hostHeld = [] → x.who.core < 4096 → x.who.ctx < 8 →
    let from_ := tcmHome x.who.core x.who.ctx + sb + lo
    let dest := tcmHome x.who.core x.who.ctx + db + lo
    ∃ t, exec .transferComplete s = .next t ∧ t.xfers = [] ∧ t.bytes dest n = s.bytes from_ n ∧ SameOutsideOf s t dest n)
  ∧ (∀ (s : State) (x : Xfer) (lo n sb : Nat), s.xfers = [x] → x.id = s.inp.a → s.inp.b = 0 → x.accepted = true → x.heldPg = [] → x.got = [] → s.asking x = false → x.kind = .stream → 0 < x.port → x.fault = none →
    x.moves = flatMoves lo n (some sb) none → x.src = some (flatOperand sb) → sb + lo + n ≤ 0x40000 → 16 * x.done < n → s.poison = [] → s.hostHeld = [] →
    x.who.core < 4096 → x.who.ctx < 8 →
    let p := (s.tenant x.who.core x.who.ctx).port x.port
    let from_ := tcmHome x.who.core x.who.ctx + sb + lo + 16 * x.done
    p.buf.length < 8 → p.stage = [] →
    ∃ t, exec .streamDeliver s = .next t ∧ t.mem = s.mem ∧ t.xfers = [{ x with done := x.done + 1 }]
      ∧ (t.tenant x.who.core x.who.ctx).port x.port = { p with buf := p.buf ++ [BitVec.ofNat 128 (leNat (s.bytes from_ (min 16 (n - 16 * x.done))))] })
  ∧ ∀ (s : State) (x : Xfer) (lo n db : Nat) (v : Gran) (rest : List Gran), s.xfers = [x] → x.id = s.inp.a → s.inp.b = 0 → x.accepted = true → x.heldPg = [] → x.got = [] → x.kind = .sink → 0 < x.port → x.comp = 0 → s.asking x = false →
    x.done = 0 → x.fault = none → x.takeovers = 0 → x.moves = flatMoves lo n none (some db) → x.src = none → x.dst = some (flatOperand db) → 0 < n → n ≤ 16 → db + lo + n ≤ 0x40000 → s.poison = [] → s.hostHeld = [] →
    x.who.core < 4096 → x.who.ctx < 8 → ((s.tenant x.who.core x.who.ctx).port x.port).buf = v :: rest →
    let dest := tcmHome x.who.core x.who.ctx + db + lo
    ∃ t, exec .transferComplete s = .next t ∧ t.xfers = [] ∧ ((t.tenant x.who.core x.who.ctx).port x.port).buf = rest ∧ t.bytes dest n = leBytes v.toNat n ∧ SameOutsideOf s t dest n

/-- NEIGHBOUR_ELEMENT_ARRIVE and NEIGHBOUR_CREDIT_RETURN (R260): an element joins the buffer of the port that is bound for it, or its credit starts back; a credit adds
to those of its port, 8 at most. SL_HUNG (R321): the next Sluice of the die takes the transfers over. -/
def Obligations.NeighboursExchange : Prop :=
  (∀ (s : State) (e : NElem), s.nelems[s.inp.a]? = some e → (∀ f, f ∈ s.nelems.take s.inp.a → f.fromCore ≠ e.fromCore ∨ f.fromQ ≠ e.fromQ ∨ f.ctx ≠ e.ctx) →
    s.away e.core e.ctx = false →
    let t := s.tenant e.core e.ctx
    let p := t.port e.q
    (p.kind = 4 → t.ctab[p.peer]? = some e.fromCore → p.peerPort = e.fromQ → p.buf.length < 8 →
      ∃ u, exec .neighbourElementArrive s = .next u ∧ u.nelems = s.nelems.eraseIdx s.inp.a ∧ (u.tenant e.core e.ctx).port e.q = { p with buf := p.buf ++ [e.v] }
        ∧ u.ncredits = s.ncredits ∧ u.mem = s.mem)
    ∧ (p.kind ≠ 4 →
      ∃ u c, exec .neighbourElementArrive s = .next u ∧ u.nelems = s.nelems.eraseIdx s.inp.a ∧ u.ncredits = s.ncredits ++ [c] ∧ c.core = e.fromCore ∧ c.q = e.fromQ ∧ c.ctx = e.ctx
        ∧ u.tenant e.core e.ctx = t))
  ∧ (∀ (s : State) (e : NElem), s.ncredits[s.inp.a]? = some e → s.away e.core e.ctx = false →
    let t := s.tenant e.core e.ctx
    let p := t.port e.q
    (p.kind = 5 → t.ctab[p.peer]? = some e.fromCore → p.peerPort = e.fromQ →
      ∃ u, exec .neighbourCreditReturn s = .next u ∧ u.ncredits = s.ncredits.eraseIdx s.inp.a ∧ (u.tenant e.core e.ctx).port e.q = { p with credits := min (p.credits + 1) 8 } ∧ u.mem = s.mem)
    ∧ (p.kind ≠ 5 → exec .neighbourCreditReturn s = .next { s with ncredits := s.ncredits.eraseIdx s.inp.a }))
  ∧ ∀ (s : State) (x : Xfer), s.xfers = [x] → x.cluster = s.inp.a → x.accepted = true → x.heldPg = [] →
    ∃ t y, exec .slHung s = .next t ∧ t.xfers = [y] ∧ y.takeovers = x.takeovers + 1 ∧ y.cluster = nextCluster x.cluster ∧ y.moves = x.moves ∧ y.done = x.done ∧ y.who = x.who

/-! ## Waiting for cells, capabilities, ports, beds -/

/-- RWAIT (R258) on bytes of own TCM: with no transfer under way it retires where every granule has landed, and traps WAIT_UNCOVERED at the first cell that has not. RCAPMK (R266):
the low half of w[rd] holds the address, what is granted and the partition. QBIND and QFREE (R259): with no
stream or walk on the port it is bound with its kind and empty, or left unbound. BEDSET (R188, R267): the bed's register of the cluster and context
holds scale and format, a reserved format leaves it; it waits while a transfer of the context there is undecided (log 51);
the address slot 0 of its SPEC_FORBIDDEN is the model's choice (log 24). -/
def Obligations.WaitsPortsAndBeds : Prop :=
  (∀ (a g lo n base : Nat) (s : State), (Instr.rwait a g).wf = true → Calm s → s.g g = flatRegion lo n → 0 < n → (s.x a).toNat = base + 1 → base % 64 = 0 → base + lo + n ≤ 0x40000 →
    s.xfers = [] →
    let home := tcmHome s.cur.core s.cur.ctx + base + lo
    s.cur.core < 4096 → s.cur.ctx < 8 →
    ((∀ i, i < n → Tbl.get false s.landed ((home + i) / 16) = true) → ∃ t, exec (.rwait a g) s = .next t ∧ Advanced s t ∧ OnlyPc s t)
    ∧ ∀ i, i < n → Tbl.get false s.landed ((home + i) / 16) = false → (∀ j, j < i → Tbl.get false s.landed ((home + j) / 16) = true) →
        exec (.rwait a g) s = .next (s.trap s.cur 0x27 s.rc.pc (w64 (base + lo + i : Nat)) 0))
  ∧ (∀ (i : Instr) (rd a g want base lo n : Nat) (s : State), (i, want) ∈ [(Instr.rcapmkR rd a g, 1), (.rcapmkW rd a g, 2), (.rcapmkRw rd a g, 3)] → i.wf = true → Calm s → Unmasked s [10] →
    rd < 24 → s.g g = flatRegion lo n → 0 < n → lo + n < 2 ^ 32 → (s.x a).toNat = base + 1 → base % 64 = 0 → base + 1 < 2 ^ 48 → s.tn.partid < 256 →
    ∃ t, exec i s = .next t ∧ Advanced s t ∧ OnlyW s t rd ∧ (t.rc.rw rd).toNat % 2 ^ 64 = base + 1 + want * 2 ^ 48 + s.tn.partid * 2 ^ 56 ∧ t.rc.fflags = s.rc.fflags)
  ∧ (∀ (rd a b : Nat) (s : State), (Instr.qbind rd a b).wf = true → Calm s → s.xfers = [] → s.walks = [] →
    let kind := fieldOf (s.x a) 0 3
    let peer := fieldOf (s.x b) 0 12
    let q := fieldOf (s.x b) 16 3
    let neighbour := kind = 4 ∨ kind = 5
    let ok := (1 ≤ kind ∧ kind ≤ 3) ∨ (neighbour ∧ peer < s.tn.bandsz ∧ 2 ≤ q)
    (∃ t, exec (.qbind rd a b) s = .next t ∧ Advanced s t ∧ OnlyTenant s t ∧ t.rc.x = s.rc.x ∧ (∀ k, k ≠ rd - 24 → t.tn.port k = s.tn.port k)
      ∧ (¬ ok → t.tn.port (rd - 24) = .reset)
      ∧ (ok → (t.tn.port (rd - 24)).kind = kind ∧ (t.tn.port (rd - 24)).buf = [] ∧ (t.tn.port (rd - 24)).stage = [] ∧ (kind = 5 → (t.tn.port (rd - 24)).credits = 8)
          ∧ (neighbour → (t.tn.port (rd - 24)).peer = peer ∧ (t.tn.port (rd - 24)).peerPort = q)))
    ∧ ∃ t, exec (.qfree rd) s = .next t ∧ Advanced s t ∧ OnlyTenant s t ∧ t.rc.x = s.rc.x ∧ t.tn.port (rd - 24) = .reset ∧ ∀ k, k ≠ rd - 24 → t.tn.port k = s.tn.port k)
  ∧ ∀ (a b : Nat) (s : State), (Instr.bedset a b).wf = true → Live s → Ready s [a, b] →
    let bed := bedKey s.tn.partid (s.cur.core / 16) s.cur.ctx (fieldOf (s.x a) 0 4)
    (s.rc.spec = true → exec (.bedset a b) s = .next (s.trap s.cur 0x85 s.rc.pc 0 0))
    ∧ (Plain s → fieldOf (s.x b) 0 4 ≤ 8 → (∀ x, x ∈ s.xfers → x.accepted = true) →
        ∃ t, exec (.bedset a b) s = .next t ∧ Advanced s t ∧ OnlyPc { s with beds := t.beds } t ∧ (∀ k, k ≠ bed → Tbl.get .reset t.beds k = Tbl.get .reset s.beds k)
          ∧ (Tbl.get .reset t.beds bed).fmt = fieldOf (s.x b) 0 4 ∧ (Tbl.get .reset t.beds bed).scale.toNat = fieldOf (s.x b) 32 32)
    ∧ (Plain s → fieldOf (s.x b) 0 4 ≤ 8 → s.thermal = false → (∃ x, x ∈ s.xfers ∧ x.accepted = false ∧ x.part = s.tn.partid ∧ x.who.ctx = s.cur.ctx ∧ x.who.core / 16 = s.cur.core / 16) →
        exec (.bedset a b) s = .next { s with stalled := true })
    ∧ (Plain s → 8 < fieldOf (s.x b) 0 4 → ∃ t, exec (.bedset a b) s = .next t ∧ Advanced s t ∧ OnlyPc s t)

namespace Sys2Proof.Spec

open Sys2Proof.Machine

/-! ## The matrix unit and the Rake -/

/-- A register context that may use the matrix unit: calm, the feature there, no deferred fault, no MMUL held. -/
abbrev MxCalm (s : State) : Prop := Calm s ∧ Unmasked s [5] ∧ s.tn.mx.deferred = none ∧ s.tn.mx.held = false

/-- The 32 bytes of an operand descriptor at an address of own TCM (R273). -/
def descOf (s : State) (a : Nat) : Desc :=
  let d := leNat (s.bytes (tcmHome s.cur.core s.cur.ctx + a) 32)
  let f := fun (o n : Nat) => d / 2 ^ (8 * o) % 2 ^ (8 * n)
  { at_ := a, tsr := f 0 8, orgr := f 8 4, orgc := f 12 4, ksteps := f 16 4, flags := f 20 2, pnc := f 22 1, rsv := f 23 1, spix := f 24 8 }

/-- A descriptor that can be read (R276, step 4) and is in order (step 5). -/
abbrev DescFits (s : State) (a : Nat) : Prop :=
  a % 32 = 0 ∧ a + 32 ≤ 0x40000 ∧ s.poisoned (tcmHome s.cur.core s.cur.ctx + a) 32 = false ∧ (descOf s a).flags < 2 ∧ (descOf s a).pnc < 64 ∧ (descOf s a).rsv = 0
    ∧ ((descOf s a).flags = 0 → (descOf s a).spix = 0) ∧ ((descOf s a).flags = 1 → (descOf s a).spix % 4 = 0)

/-- The terms present in row r of A and column c of B (R277). -/
def termsAt (a b : List (List (Option Nat))) (r c : Nat) : List (Nat × Nat) :=
  ((a.getD r []).zip b).filterMap fun x => match x.1, x.2.getD c none with | some u, some v => some (u, v) | _, _ => none

/-- R187: one LNS6 product in units of 2^-20: the logarithms add, and a code whose logarithm is −16 is zero. -/
def lnsTerm (a b : Nat) : Int :=
  let x := simm (a % 32) 5
  let y := simm (b % 32) 5
  let p : Int := [4096, 4871, 5793, 6889].getD ((x + y) % 4).toNat 0 * 2 ^ ((x + y) / 4 + 8).toNat
  if x = -16 ∨ y = -16 then 0 else if a / 32 % 2 = b / 32 % 2 then p else -p

/-- R300: an action, its argument and the rule that it stands in, of a program whose last rule is n. -/
def actionFits (n r act arg : Nat) : Prop :=
  act < 6 ∧ (act = 0 ∨ act = 1 ∨ act = 5 → arg = 0) ∧ (act = 2 → arg < 8) ∧ (act = 3 ∨ act = 4 → arg ≤ n)
    ∧ (act = 3 → 4 ≤ r / 2 ^ 19 % 32 ∧ 16 * (r / 2 ^ 24 % 64 + 1) ≤ 2 ^ (r / 2 ^ 19 % 32))
/-- The programs that RKLOAD accepts (R296, R297, R300), by the bits of the header and of each rule. -/
def admitted (h : Nat) (rules : List Nat) : Prop :=
  1 ≤ h % 2 ^ 16 ∧ h / 2 ^ 16 % 4 ≠ 3 ∧ h / 2 ^ 18 % 4 = 0 ∧ h / 2 ^ 24 = 0
    ∧ ∀ r, r ∈ rules → r % 2 ^ 19 = 0 ∧ r / 2 ^ 39 % 64 + r / 2 ^ 33 % 64 ≤ 63
        ∧ actionFits (h / 2 ^ 20 % 16) r (r / 2 ^ 61 % 8) (r / 2 ^ 57 % 16) ∧ actionFits (h / 2 ^ 20 % 16) r (r / 2 ^ 54 % 8) (r / 2 ^ 50 % 16)

/-- R299: does a rule hold of the dwords read and the key? -/
def ruleHolds (r : Rule) (data : List Gran) (key : Word) : Bool :=
  let d := (data.getD (r.cdw / 2) 0).toNat / 2 ^ (64 * (r.cdw % 2)) % 2 ^ 64
  let f := d / 2 ^ r.csh % 2 ^ (r.clen + 1)
  let k := key.toNat % 2 ^ (r.clen + 1)
  if r.cmp = 0 then f == k else if r.cmp = 1 then f == 0 else if r.cmp = 2 then decide (k < f) else true

/-- A walk that can take a whole step where it is: the only one, accepted, not held, not ended, its granules read, below its limit. -/
abbrev Stepping (s : State) (k : Walk) : Prop :=
  s.walks = [k] ∧ s.inp.a = k.id ∧ s.inp.flag = false ∧ k.ready = none ∧ k.held = false ∧ k.begun = false ∧ k.need = false ∧ k.steps < progLimit k.header
    ∧ k.slot = none

/-- A walk in the middle of a step, at the station where its read lies, that is to read: RAKE_STEP with the flag takes one act of it. -/
abbrev Reading (s : State) (k : Walk) : Prop :=
  s.walks = [k] ∧ s.inp.a = k.id ∧ s.inp.flag = true ∧ k.ready = none ∧ k.held = false ∧ k.slot = none ∧ k.begun = true ∧ k.need = true
    ∧ s.mustGo k = false

/-- The status granule of R301 as a number: version, pointer, steps, code, rule, status. -/
def statusNat (k : Walk) (steps rule st code : Nat) : Nat :=
  k.vers.getD ((Rule.ofWord (k.prog.getD (rule + 1) 0)).cdw / 2) 0 * 2 ^ 112 + k.ptr % 2 ^ 48 * 2 ^ 64 + steps % 2 ^ 16 * 2 ^ 48 + code * 2 ^ 40 + rule % 16 * 2 ^ 36 + st

end Sys2Proof.Spec

/-! ## The matrix unit -/

/-- MCFG, MZERO, MWAIT (R272, R283, R285): the tile count changes and every tile is emptied; one tile is emptied; nothing but the pc moves once the
unit has no work. A reserved count and a tile beyond the count trap, with x[rs1] and the tile in the address slot (the model's choice, log 24); a
deferred fault is raised first (R288). -/
def Sys2Proof.Spec.TileInstructionResults : Prop :=
  (∀ (a : Nat) (s : State), (Instr.mcfg a).wf = true → MxCalm s → s.tn.mx.queue = [] → s.tn.mx.pre = none →
    let c := fieldOf (s.x a) 0 2
    (c = 3 → exec (.mcfg a) s = .next (s.trap s.cur 0x6D s.rc.pc (s.x a) 0))
    ∧ (c ≠ 3 → ∃ t, exec (.mcfg a) s = .next t ∧ Advanced s t ∧ OnlyTenant s t ∧ t.tn.mx = { s.tn.mx with cfg := c, tiles := [], pre := none, atCfg := false }
        ∧ t.rc = { s.rc with pc := s.rc.pc + 4, kept := [] }))
  ∧ (∀ (tile : Nat) (s : State), (Instr.mzero tile).wf = true → s.cur.rc = 0 → Unmasked s [5] → s.tn.mx.deferred = none → s.tn.mx.held = false →
    (2 ^ s.tn.mx.cfg ≤ tile → exec (.mzero tile) s = .next (s.trap s.cur 0x6D s.rc.pc (w64 tile) 0))
    ∧ (tile < 2 ^ s.tn.mx.cfg → (∀ j, j ∈ s.tn.mx.queue → j.tile ≠ tile) →
        ∃ t, exec (.mzero tile) s = .next t ∧ Advanced s t ∧ OnlyTenant s t ∧ t.rc = { s.rc with pc := s.rc.pc + 4, kept := [] } ∧ t.tn.mx.tile tile = .reset
          ∧ (∀ k, k ≠ tile → t.tn.mx.tile k = s.tn.mx.tile k) ∧ { t.tn.mx with tiles := s.tn.mx.tiles } = s.tn.mx)
    ∧ (tile < 2 ^ s.tn.mx.cfg → (∃ j, j ∈ s.tn.mx.queue ∧ j.tile = tile) → exec (.mzero tile) s = .next { s with stalled := true }))
  ∧ (∀ s : State, s.cur.rc = 0 → Unmasked s [5] → s.tn.mx.queue = [] → s.tn.mx.recv = [] → s.tn.mx.stores = [] → s.mxAway = false → s.tn.mx.deferred = none →
    ∃ t, exec .mwait s = .next t ∧ Advanced s t ∧ OnlyPc s t)
  ∧ ∀ (s : State) (d : Deferred), s.cur.rc = 0 → Unmasked s [5] → s.tn.mx.queue = [] → s.tn.mx.recv = [] → s.tn.mx.stores = [] → s.mxAway = false → s.tn.mx.deferred = some d →
    ∃ u, exec .mwait s = .next (u.trap s.cur d.cause s.rc.pc (w64 d.addr) (w64 (d.tile % 4 + d.k % 65536 * 65536 : Nat))) ∧ u.tn.mx.deferred = none ∧ OnlyTenant s u

/-- MMUL, MLDS, MSTC, MCMD (R276, R281, R284, R291): with its checks passed an MMUL joins the queue with the operands of its descriptors, and a tile with no
shape takes its shape, kind and scales; MLDS sets the preload; MSTC leaves the writes of its tile, and memory is as its checks have left it; MCMD sends the block and the image to the core of the
destination. Each retires at once, waiting for none of the work. -/
def Sys2Proof.Spec.MatrixCommandsIssue : Prop :=
  (∀ (b a tile mode mcode ncode : Nat) (s u : State) (A B : MOperand), (Instr.mmul b a tile mode mcode ncode).wf = true → MxCalm s → Fresh s → tile < 2 ^ s.tn.mx.cfg →
    DescFits s (s.x a).toNat → DescFits s (s.x b).toNat →
    let m := 8 * 2 ^ mcode
    let n := 16 * (ncode + 1)
    s.pairChecks s.cur tile m n (descOf s (s.x a).toNat) (descOf s (s.x b).toNat) = .ok u (A, B) → u.cur = s.cur → u.tn.mx.queue.length < 3 →
    ∃ t j, exec (.mmul b a tile mode mcode ncode) s = .next t ∧ Advanced u t ∧ t.mem = u.mem ∧ t.tn.mx.queue = u.tn.mx.queue ++ [j]
      ∧ j.tile = tile ∧ j.mode = mode ∧ j.m = m ∧ j.n = n ∧ j.a = A ∧ j.b = B ∧ j.k = 0 ∧ j.src = none ∧ j.held = false ∧ j.pc = u.rc.pc
      ∧ ((u.tn.mx.tile tile).shape = none → (t.tn.mx.tile tile).shape = some (m, n) ∧ (t.tn.mx.tile tile).kind = (kindOf A.op.fmt B.op.fmt).getD 0
          ∧ (t.tn.mx.tile tile).sA = A.op.scale ∧ (t.tn.mx.tile tile).sB = B.op.scale)
      ∧ (∀ k, k ≠ tile → t.tn.mx.tile k = u.tn.mx.tile k) ∧ ∀ k, (t.tn.mx.tile k).slot = (u.tn.mx.tile k).slot)
  ∧ (∀ (a : Nat) (s u v : State) (B : MOperand), (Instr.mlds a).wf = true → MxCalm s → Fresh s → DescFits s (s.x a).toNat →
    let d := descOf s (s.x a).toNat
    s.operandOf s.cur d = .ok u B → B.op.fmt ∈ [0, 4, 5, 6, 8] → u.operandChecks s.cur [(B, termsOf B.op.fmt, 16 * (d.pnc % 64 + 1))] = .ok v () → v.cur = s.cur → v.tn.mx.pre = none →
    ∃ t p, exec (.mlds a) s = .next t ∧ Advanced v t ∧ t.mem = v.mem ∧ t.tn.mx = { v.tn.mx with pre := some p } ∧ p.addr = (s.x a).toNat ∧ p.ncode = d.pnc % 64 ∧ p.b = B
      ∧ p.cells = none ∧ p.failed = false ∧ p.claimed = false)
  ∧ (∀ (a tile : Nat) (s u v w : State) (m n : Nat) (D : MOperand) (l : List MxStore), (Instr.mstc a tile).wf = true → MxCalm s → Fresh s → s.eager = false → tile < 2 ^ s.tn.mx.cfg →
    (∀ j, j ∈ s.tn.mx.queue → j.tile ≠ tile) → (s.tn.mx.tile tile).shape = some (m, n) → DescFits s (s.x a).toNat →
    s.operandOf s.cur (descOf s (s.x a).toNat) = .ok u D → u.cur = s.cur → v.cur = s.cur → D.op.tsr.rights / 2 % 2 = 1 → D.sparse = false → inDomain D.op [D.box m n] = true →
    u.grantOf s.cur D.op = .ok v none → v.orderedTask s.cur = none → v.mstcPlaces s.cur (mstcWrites (s.tn.mx.tile tile) m n D).1 = .ok w l → w.cur = s.cur → w.eager = false →
    ∃ t, exec (.mstc a tile) s = .next t ∧ Advanced w t ∧ t.tn.mx = { w.tn.mx with stores := w.tn.mx.stores ++ l } ∧ t.mem = w.mem)
  ∧ ∀ (rd a b : Nat) (s : State), (Instr.mcmd rd a b).wf = true → NoneLeft s → Fresh s → Live s → Plain s → Unmasked s [5, 9] →
    let at_ := (s.x a).toNat
    let d := fieldOf (s.x b) 0 12
    let home := tcmHome s.cur.core s.cur.ctx
    let g := leNat (s.bytes (home + at_ + 56) 8)
    (at_ % 64 ≠ 0 → exec (.mcmd rd a b) s = .next (s.trap s.cur 0x20 s.rc.pc (s.x a) 0))
    ∧ (at_ % 64 = 0 → at_ ≤ 0x3FFC0 → s.tn.bandsz ≤ d → ∃ t, exec (.mcmd rd a b) s = .next t ∧ Advanced s t ∧ OnlyX s t rd ∧ (rd ≠ 0 → t.x rd = 2))
    ∧ (at_ % 64 = 0 → at_ ≤ 0x3FFC0 → d < s.tn.bandsz → s.poisoned (home + at_) 64 = false → g % 16 = 0 → g + 512 ≤ 0x40000 → s.poisoned (home + g) 512 = false →
        ∃ t c, exec (.mcmd rd a b) s = .next t ∧ Advanced s t ∧ OnlyX { s with mcmds := t.mcmds } t rd ∧ (rd ≠ 0 → t.x rd = 0) ∧ t.mcmds = s.mcmds ++ [c]
          ∧ c.core = s.tn.ctab.getD d s.cur.core ∧ c.ctx = s.cur.ctx ∧ c.src = s.cur ∧ c.block = s.bytes (home + at_) 64 ∧ c.image = s.bytes (home + g) 512)

/-- MMUL_KSTEP (R186, R187, R277): one k-step of the oldest MMUL: every slot with a term present is present, an INT32 accumulator becomes the sum of the old
value and the products modulo 2^32, an LNS64 one the sum of the old value and the exact products modulo 2^48, read as signed, and an FP32 one the exact sum of the
old value and the products, rounded once to nearest even (a NaN among them gives the default NaN); every other slot, tile and job is as it was, and the MMUL leaves
the queue after its last step. A fault that does not suspend ends it and is deferred (R288); one that does holds the unit (R287, OPERAND_FETCH_FAULT). PRELOAD_READ (R281, R282)
keeps what it read, or is marked failed. MX_HUNG (R289) leaves only its record, which says the tile and the
completed k-steps in INFO. -/
def Sys2Proof.Spec.MatrixUnitSteps : Prop :=
  (∀ (s u : State) (j : MJob) (rest : List MJob) (a b : List (List (Option Nat))) (gs : List Nat),
    let h := s.inp.a
    let ctx := s.live h
    let w : Who := { core := h, ctx := ctx, rc := 0 }
    let q := (s.tenant h ctx).mx
    q.queue = j :: rest → q.recv = [] → j.held = false → j.pre = false → s.jobWaits w j = false → s.inp.b = 0 → s.mxFetch w j = .ok u (some (a, b, gs)) → u.tenant h ctx = s.tenant h ctx →
    ∃ t, exec .mmulKstep s = .next t ∧ t.mem = u.mem
      ∧ (∀ r c, r < j.m → c < j.n →
          let i := r * j.n + c
          let ts := termsAt a b r c
          let old := Tbl.get 0 (q.tile j.tile).slot i
          (ts = [] → Tbl.get 0 ((t.tenant h ctx).mx.tile j.tile).slot i = old
            ∧ Tbl.get false ((t.tenant h ctx).mx.tile j.tile).pres i = Tbl.get false (q.tile j.tile).pres i)
          ∧ (ts ≠ [] → Tbl.get false ((t.tenant h ctx).mx.tile j.tile).pres i = true
            ∧ (let now := Tbl.get 0 ((t.tenant h ctx).mx.tile j.tile).slot i
              let f := formOf j.a.op.fmt
              let g := formOf j.b.op.fmt
              let sum := valueOf (formOf 6) old.toNat + (ts.map fun x => valueOf f x.1 * valueOf g x.2).sum
              ((q.tile j.tile).kind = 0 → now = w64 ((old.toNat + (ts.map fun x => simm (x.1 % 256) 8 * simm (x.2 % 256) 8).sum) % 2 ^ 32))
              ∧ ((q.tile j.tile).kind = 1 → 4 ≤ j.a.op.fmt → j.a.op.fmt ≤ 6 → 4 ≤ j.b.op.fmt → j.b.op.fmt ≤ 6 →
                (finiteOf (formOf 6) old.toNat = true → (∀ x, x ∈ ts → finiteOf f x.1 = true ∧ finiteOf g x.2 = true) → sum ≠ 0 →
                  ∃ l, Rounds (formOf 6) 0 l sum ∧ now = w64 l.v)
                ∧ ((nanOf (formOf 6) old.toNat = true ∨ ∃ x, x ∈ ts ∧ (nanOf f x.1 = true ∨ nanOf g x.2 = true)) → now = w64 (theNan (formOf 6))))
              ∧ ((q.tile j.tile).kind = 2 → now = w64 (simm ((old.toNat + (ts.map fun (x : Nat × Nat) => lnsTerm x.1 x.2).sum) % 2 ^ 48).toNat 48)))))
      ∧ (∀ k, k ≠ j.tile → (t.tenant h ctx).mx.tile k = q.tile k)
      ∧ (t.tenant h ctx).mx.queue = (if j.k + 1 = j.a.ksteps then rest else { j with k := j.k + 1 } :: rest))
  ∧ (∀ (s u : State) (j : MJob) (rest : List MJob) (c va n : Nat),
    let h := s.inp.a
    let ctx := s.live h
    let w : Who := { core := h, ctx := ctx, rc := 0 }
    let q := (s.tenant h ctx).mx
    q.queue = j :: rest → q.recv = [] → j.held = false → j.src = none → q.deferred = none → s.jobWaits w j = false → s.mxFetch w j = .fault u c va n → u.tenant h ctx = s.tenant h ctx →
    s.inp.b = 0 → j.k < j.a.ksteps →
    (suspends c = false →
      ∃ t, exec .mmulKstep s = .next t ∧ (t.tenant h ctx).mx.queue = rest ∧ (t.tenant h ctx).mx.tiles = q.tiles
        ∧ (t.tenant h ctx).mx.deferred = some { cause := c, addr := va, tile := j.tile, k := j.k } ∧ exec .operandFetchFault s = .next s)
    ∧ (suspends c = true → u.held = s.held →
      ∃ t x, exec .operandFetchFault s = .next t ∧ (t.tenant h ctx).mx.held = true ∧ (t.tenant h ctx).mx.queue = { j with held := true, at_ := j.k } :: rest
        ∧ (t.tenant h ctx).mx.tiles = q.tiles ∧ t.held = s.held ++ [x] ∧ x.cause = c ∧ x.va = va ∧ x.by_ = .matrix h ctx ∧ exec .mmulKstep s = .next s))
  ∧ (∀ (s u : State) (p : Preload),
    let h := s.inp.a
    let ctx := s.live h
    let w : Who := { core := h, ctx := ctx, rc := 0 }
    (s.tenant h ctx).mx.pre = some p → p.cells = none → p.failed = false → s.cmdWaits w p.seq 0 = false → s.inp.b = 0 →
    (∀ r gs, s.mxB w .preload p.b (16 * (p.ncode + 1)) 0 = .ok u (r, gs) →
      ∃ t, exec .preloadRead s = .next t ∧ t.mem = u.mem
        ∧ (t.tenant h ctx).mx.pre = some { p with cells := some (r.flatMap fun l => l.map fun v => v.map (BitVec.ofNat 64)), got := [] })
    ∧ ∀ c va n, s.mxB w .preload p.b (16 * (p.ncode + 1)) 0 = .fault u c va n →
      ∃ t, exec .preloadRead s = .next t ∧ t.held = u.held ∧ t.frecs = u.frecs ∧ (t.tenant h ctx).mx.pre = some { p with failed := true })
  ∧ ∀ (s s0 : State) (j : MJob) (rest : List MJob) (fid : Nat),
    let ctx := s.live s.inp.a
    let m := s.tenant s.inp.a ctx
    let f := m.partid
    let q := s0.part f
    let r : FRec := { fn := f, fid := fid, cause := 0x68, source := 2, ctx := ctx, rc := 0, resumable := false, addr := 0, pc := j.pc, lcore := m.lcore, part := f,
                      info := j.tile % 4 + j.k % 65536 * 65536 }
    m.mx.queue = j :: rest → j.held = false → s.takeFid f = (s0, fid) →
    (∃ t, exec .mxHung s = .next t ∧ t.tenants = s.tenants ∧ t.held = s.held)
    ∧ (q.fqRoom = false → ∃ t, exec .mxHung s = .next t ∧ t.mem = s.mem ∧ (t.part f).lost = true)
    ∧ ∀ s1 s2, q.fqRoom = true → s0.held2 f (q.fqbase + 32 * q.fqhead) 32 = false →
        s0.write2 f (q.fqbase + 32 * q.fqhead) (leBytes (recordNat r q.lost) 16) = (s1, true) →
        s1.write2 f (q.fqbase + 32 * q.fqhead + 16) (leBytes (recordNat r q.lost / 2 ^ 128) 16) = (s2, true) →
        ∃ t, exec .mxHung s = .next t ∧ t.mem = s2.mem ∧ (t.part f).fqhead = ((s2.part f).fqhead + 1) % (s2.part f).fqlen

/-- MCMD_RECEIVE (R291, R292): a command whose first word is not as it must be, or that finds the receive buffer full, or whose capability is for another
partition, is refused: its sender is told by a record of the cause and counts it in evc14. One that finds the queue full waits in the buffer, and is checked only as it
leaves it (the model's reading, log 36); that the record names register context 3 is the model's reading too (log 23). -/
def Sys2Proof.Spec.CommandsAreChecked : Prop :=
  ∀ (s : State) (c : MCmd), s.mcmds[s.inp.a]? = some c → s.away c.core c.ctx = false → s.away c.src.core c.ctx = false → s.mcmdWaits c = false →
    let m := (s.tenant c.core c.ctx).mx
    let word := leNat (c.block.take 4)
    let refused := fun (cause : Nat) =>
      ∃ t f, exec .mcmdReceive s = .next t ∧ t.mcmds = s.mcmds.eraseIdx s.inp.a ∧ t.flights = s.flights ++ [f] ∧ f.msg.kind = 6
        ∧ f.msg.pay.head? = some (w64 (3 * 256 + cause : Nat)) ∧ (t.tenant c.core c.ctx).mx.queue = m.queue ∧ (t.tenant c.core c.ctx).mx.recv = m.recv
        ∧ Tbl.get 0 (t.tenant c.src.core c.ctx).evc 14 = min (Tbl.get 0 (s.tenant c.src.core c.ctx).evc 14 + 1) (2 ^ 32 - 1)
    (word % 2 ^ 7 ≠ 0x7B → refused 0x6B)
    ∧ (wordOk word = true → 4 ≤ m.recv.length → refused 0x6F)
    ∧ (wordOk word = true → m.recv = [] → m.queue = [] → m.atCfg = false →
        (∀ r, r ∈ s.peerReqs → r.by_ = .mcmd → r.who ≠ { core := c.core, ctx := c.ctx, rc := 2 }) → leNat ((c.block.drop 40).take 8) / 2 ^ 56 % 256 ≠ (s.tenant c.core c.ctx).partid →
        refused 0x69)
    ∧ (wordOk word = true → m.recv.length < 4 → 3 ≤ m.queue.length →
        ∃ t, exec .mcmdReceive s = .next t ∧ t.mcmds = s.mcmds.eraseIdx s.inp.a ∧ (t.tenant c.core c.ctx).mx = { m with recv := m.recv ++ [c] } ∧ t.flights = s.flights)

/-! ## The Rake -/

/-- RKLOAD and RKWALK (R307, R308): a program that R300 admits starts for every station of the slice, each takes it in an act of its own, and x[rd] is filled when
the last has it (RAKE_SLOT_LOAD); a walk starts with its pointer and key, owed to its port, and takes the program that its slot holds when it is accepted (R294): that of its Rake, or, where that
Rake has none, that of another of the partition (the model's choice, log 64). Misaligned operands, a slot with no program and a port that is not bound for
results trap; the address slots of the traps other than MISALIGNED (0 of the port traps, x[rs1] of 0x73, the port of 0x71, the slot of 0x74) are the model's choice
(log 24). -/
def Obligations.WalksStart : Prop :=
  (∀ (rd a b : Nat) (s : State) (prog : List Word), (Instr.rkload rd a b).wf = true → Live s → NoneLeft s → Fresh s → Plain s → Unmasked s [6] → s.eager = false →
    let at_ := (s.x a).toNat
    let home := tcmHome s.cur.core s.cur.ctx + at_
    let h : Word := BitVec.ofNat 64 (leNat (s.bytes home 8))
    let n := h.toNat / 2 ^ 20 % 16 + 1
    (at_ % 8 ≠ 0 → exec (.rkload rd a b) s = .next (s.trap s.cur 0x20 s.rc.pc (s.x a) 0))
    ∧ (at_ % 8 = 0 → at_ + 8 + 8 * n ≤ 0x40000 → s.poisoned home (8 + 8 * n) = false →
        prog = (List.range n).map (fun i => BitVec.ofNat 64 (leNat (s.bytes (home + 8 + 8 * i) 8))) →
        (¬ admitted h.toNat (prog.map (·.toNat)) → exec (.rkload rd a b) s = .next (s.trap s.cur 0x73 s.rc.pc (s.x a) 0))
        ∧ (admitted h.toNat (prog.map (·.toNat)) → (s.part s.tn.partid).slice ≠ [] →
            ∃ t k o, exec (.rkload rd a b) s = .next t ∧ Advanced s t ∧ t.rkloads = s.rkloads ++ [k] ∧ t.rc.ops = [o] ∧ o.k = .rkload k.slot k.id ∧ o.dest = .x rd 8 false
              ∧ k.slot = fieldOf (s.x b) 0 4 ∧ k.who = s.cur ∧ k.part = s.tn.partid ∧ k.prog = h :: prog ∧ (∀ x, x ∈ k.todo ↔ x ∈ (s.part s.tn.partid).slice)
              ∧ k.total = k.todo.length ∧ t.rc.x = s.rc.x)))
  ∧ (∀ (s : State) (k : RkLoad) (o : Op) (rd : Nat), s.rkloads = [k] → k.id = s.inp.a → k.todo = [s.inp.b] → k.who.rc = 0 → (s.rcx k.who).ops = [o] → o.k = .rkload k.slot k.id →
    o.dest = .x rd 8 false → o.va = 0 → o.n = 8 →
    ∃ t x, exec .rakeSlotLoad s = .next t ∧ t.rkloads = [] ∧ (t.rcx k.who).ops = [] ∧ (rd ≠ 0 → (t.rcx k.who).rx rd = w64 k.total) ∧ x ∈ t.rkslots ∧ x.part = k.part ∧ x.ctx = k.who.ctx
      ∧ x.slot = k.slot ∧ x.station = s.inp.b ∧ x.prog = k.prog)
  ∧ (∀ (s : State) (k : RkLoad), s.rkloads = [k] → k.id = s.inp.a → s.inp.b ∈ k.todo → k.todo.erase s.inp.b ≠ [] →
    exec .rakeSlotLoad s = .next { s with
      rkloads := [{ k with todo := k.todo.erase s.inp.b }],
      rkslots := (s.rkslots.filter fun x => !(x.part == k.part && x.ctx == k.who.ctx && x.slot == k.slot && x.station == s.inp.b))
        ++ [{ part := k.part, ctx := k.who.ctx, slot := k.slot, station := s.inp.b, prog := k.prog }] })
  ∧ (∀ (s : State) (k : Walk) (n : Nat) (x : RkSlot), s.walks = [k] → s.inp.a = k.id → s.inp.flag = true → k.slot = some n → k.ready = none → k.held = false → s.walkWaits k = false →
    s.mustGo k = false →
    let mine := s.rkslots.filter fun x => x.part == k.part && x.ctx == k.who.ctx && x.slot == n
    (x ∈ mine ∧ x.station = k.station ∧ (∀ y, y ∈ mine → y.station = k.station → y = x)) ∨ ((∀ y, y ∈ mine → y.station ≠ k.station) ∧ mine.head? = some x) →
    exec .rakeStep s = .next { s with walks := [{ k with slot := none, prog := x.prog }] })
  ∧ ∀ (qd a b slot : Nat) (s : State), (Instr.rkwalk qd a b slot).wf = true → Calm s → Unmasked s [6] →
    let p := s.tn.port (qd - 24)
    let traps := fun (c : Nat) (v : Word) => exec (.rkwalk qd a b slot) s = .next (s.trap s.cur c s.rc.pc v 0)
    let mine := s.rkslots.filter fun x => x.part == s.tn.partid && x.ctx == s.cur.ctx && x.slot == slot
    let owed := (s.walks.filter fun k => k.who.core == s.cur.core && k.who.ctx == s.cur.ctx && k.port == qd - 24).length
    (p.kind = 0 → traps 0x29 0)
    ∧ (p.kind ≠ 0 → p.kind ≠ 3 → traps 0x2F 0)
    ∧ (p.kind = 3 → (∃ k, k ∈ s.rkloads ∧ k.who = s.cur) → exec (.rkwalk qd a b slot) s = .next { s with stalled := true })
    ∧ ((∀ k, k ∈ s.rkloads → k.who ≠ s.cur) →
      (p.kind = 3 → mine = [] → traps 0x74 (w64 slot))
      ∧ (p.kind = 3 → mine ≠ [] → 16 ≤ owed → traps 0x71 (w64 (qd - 24 : Nat)))
      ∧ (p.kind = 3 → mine ≠ [] → owed < 16 → (s.x a).toNat % 16 ≠ 0 → traps 0x20 (s.x a))
      ∧ (p.kind = 3 → mine ≠ [] → owed < 16 → (s.x a).toNat % 16 = 0 → s.window s.cur (s.x a).toNat ≠ .global → traps 0x5E (s.x a))
      ∧ (p.kind = 3 → mine ≠ [] → owed < 16 → (s.x a).toNat % 16 = 0 → s.window s.cur (s.x a).toNat = .global →
          ∃ t k x, exec (.rkwalk qd a b slot) s = .next t ∧ Advanced s t ∧ OnlyPc { s with walks := t.walks, nextId := t.nextId } t ∧ t.walks = s.walks ++ [k] ∧ k.ptr = (s.x a).toNat
            ∧ k.key = s.x b ∧ x ∈ mine ∧ k.prog = x.prog ∧ k.slot = some slot ∧ k.port = qd - 24 ∧ k.who = s.cur ∧ k.cur = 0 ∧ k.steps = 0 ∧ k.need = true
            ∧ k.begun = false ∧ k.ready = none))

/-- RAKE_STEP (R298–R302): a rule is evaluated on the data read. RETURN and PENDING deliver the status granule and the four granules of the record, NOTFOUND the status
with four zero granules, FOLLOW goes on at the pointer of its dword with rule 0 (a null pointer ends the walk with NOTFOUND, one outside global space with FAULT),
ADVANCE moves inside its wrap, GOTO goes on with another rule on the same data; a walk at its limit ends with STEPLIMIT (RULE of its status is that of the step
before, the model's reading, log 25). RAKE_HANDOFF (R295): the walk goes behind those of the station where its next read lies. RK_HUNG (R305)
moves the walks of the station to another, whose Rake reads for it. -/
def Sys2Proof.Spec.WalksStepOn : Prop :=
  (∀ (s : State) (k : Walk), Stepping s k →
    let r := k.ruleAt k.cur
    let p := (s.tenant k.who.core k.who.ctx).port k.port
    let hold := ruleHolds r k.data k.key
    let act := if hold then r.tact else r.fact
    let arg := if hold then r.targ else r.farg
    let ends := fun (st code : Nat) (g : List Gran) =>
      ∃ t, exec .rakeStep s = .next t ∧ t.walks = [] ∧ t.mem = s.mem
        ∧ ((t.tenant k.who.core k.who.ctx).port k.port).buf = BitVec.ofNat 128 (statusNat k (k.steps + 1) k.cur st code) :: g
        ∧ ((t.tenant k.who.core k.who.ctx).port k.port).stage = []
    let goes := fun (n : Walk) => ∃ t, exec .rakeStep s = .next t ∧ t.walks = [n] ∧ t.mem = s.mem ∧ t.tenants = s.tenants
    let next : Walk := { k with steps := k.steps + 1, rule := k.cur, look := [], seen := 0, attempt := 0, turn := s.rakeTurn }
    let ptr := (k.data.getD (arg / 2) 0).toNat / 2 ^ (64 * (arg % 2)) % 2 ^ 64 / 16 % 2 ^ 44 * 16
    (p.buf = [] → p.stage = [] → act = 0 → ends 0 0 ((List.range 4).map fun i => k.data.getD i 0))
    ∧ (p.buf = [] → p.stage = [] → act = 1 → ends 1 0 [0, 0, 0, 0])
    ∧ (p.buf = [] → p.stage = [] → act = 5 → ends 2 0 ((List.range 4).map fun i => k.data.getD i 0))
    ∧ (p.buf = [] → p.stage = [] → act = 2 → ptr = 0 → ends 1 0 [0, 0, 0, 0])
    ∧ (p.buf = [] → p.stage = [] → act = 2 → ptr ≠ 0 → ptr < 0x10000000000 → ends 4 0x5E [0, 0, 0, 0])
    ∧ (act = 2 → 0x10000000000 ≤ ptr → goes { next with ptr := ptr, cur := 0, need := true })
    ∧ (act = 3 → goes { next with ptr := k.ptr / 2 ^ r.wrap * 2 ^ r.wrap + (k.ptr + 16 * (r.stride + 1)) % 2 ^ r.wrap, cur := arg, need := true })
    ∧ (act = 4 → goes { next with cur := arg, need := false }))
  ∧ (∀ (s : State) (k : Walk), s.walks = [k] → s.inp.a = k.id → k.ready = none → k.held = false → k.begun = false → k.slot = none → progLimit k.header ≤ k.steps → s.away k.who.core k.who.ctx = false →
    let p := (s.tenant k.who.core k.who.ctx).port k.port
    p.buf = [] → p.stage = [] →
    ∃ t, exec .rakeStep s = .next t ∧ t.walks = [] ∧ t.mem = s.mem
      ∧ ((t.tenant k.who.core k.who.ctx).port k.port).buf = BitVec.ofNat 128 (statusNat k k.steps k.rule 3 0x72) :: [0, 0, 0, 0]
      ∧ Tbl.get 0 (t.tenant k.who.core k.who.ctx).evc 9 = min (Tbl.get 0 (s.tenant k.who.core k.who.ctx).evc 9 + 1) (2 ^ 32 - 1))
  ∧ (∀ (s : State) (k : Walk) (sp : Spot), s.walks.find? (fun k => k.id == s.inp.a) = some k → k.ready = none → k.held = false → k.need = true → k.look = [] → k.attempt = 0 →
    (k.begun = true ∨ k.steps < progLimit k.header) → s.walkWaits k = false →
    (s.walkAt k k.ptr).res = .ok sp → space sp.home = .hbm → stationOf sp.home ≠ k.station →
    exec .rakeHandoff s = .next { s with
      walks := s.walks.filter (fun x => x.id != s.inp.a) ++ [{ k with station := stationOf sp.home, turn := s.rakeTurn, remote := none }], rakeTurn := s.rakeTurn + 1 })
  ∧ ∀ (s : State) (k : Walk) (n : Nat), s.walks = [k] → k.station = s.inp.a → s.inp.a < 384 → k.ready = none → k.held = false → (s.part k.part).slice = [s.inp.a, n] → n / 48 = s.inp.a / 48 → n ≠ s.inp.a →
    ∃ t, exec .rkHung s = .next t ∧ t.walks = [{ k with station := n, remote := some s.inp.a }] ∧ t.tenants = s.tenants

/-- The read of a step (R303, R304): each granule is looked at once, and the rule is then evaluated on what was seen; with VS every version is read again before they are compared, a changed one
starts the read anew, and after five attempts the walk ends UNSTABLE (the status granule of a walk that ends in its read has the RULE of this step, the model's reading, log 25). A fault ends the walk with its code and the versions that its step has read, as a null pointer where the policy says so, or holds it. -/
def Sys2Proof.Spec.WalksRead : Prop :=
  ∀ (s l : State) (k : Walk), Reading s k → l.walks = s.walks → l.tenants = s.tenants → l.rakeTurn = s.rakeTurn →
    let r := k.ruleAt k.cur
    let p := (s.tenant k.who.core k.who.ctx).port k.port
    let ends := fun (n : Walk) (st code : Nat) =>
      ∃ t, exec .rakeStep s = .next t ∧ t.walks = [] ∧ t.mem = l.mem
        ∧ ((t.tenant k.who.core k.who.ctx).port k.port).buf = [BitVec.ofNat 128 (statusNat n k.steps k.rule st code), 0, 0, 0, 0]
    let goes := fun (n : Walk) => ∃ t, exec .rakeStep s = .next t ∧ t.walks = [n] ∧ t.mem = l.mem ∧ t.tenants = s.tenants
    (∀ d v, s.walkLook k k.lookAt = .ok l d v →
      (k.look.length < r.rlen → goes { k with look := k.look ++ [(d, v)] })
      ∧ (k.look.length = r.rlen → r.vs = true → goes { k with look := k.look ++ [(d, v)], vers := (k.look ++ [(d, v)]).map (·.2) })
      ∧ (k.look.length = r.rlen → r.vs = false → r.tact = 4 → r.fact = 4 → r.targ = r.farg →
          goes { k with data := (k.look ++ [(d, v)]).map (·.1), vers := (k.look ++ [(d, v)]).map (·.2), need := false, cur := r.targ, begun := false, look := [], seen := 0, attempt := 0,
                        turn := s.rakeTurn })
      ∧ (k.look.length = r.rlen + 1 →
          let again := k.vers.set k.seen v
          (k.seen < r.rlen → goes { k with vers := again, seen := k.seen + 1 })
          ∧ (k.seen = r.rlen → again = k.look.map (·.2) → r.tact = 4 → r.fact = 4 → r.targ = r.farg →
              goes { k with data := k.look.map (·.1), vers := again, need := false, cur := r.targ, begun := false, look := [], seen := 0, attempt := 0, turn := s.rakeTurn })
          ∧ (k.seen = r.rlen → again ≠ k.look.map (·.2) → k.attempt < 4 → goes { k with vers := again, look := [], seen := 0, attempt := k.attempt + 1 })
          ∧ (k.seen = r.rlen → again ≠ k.look.map (·.2) → k.attempt = 4 → p.buf = [] → p.stage = [] → ends { k with vers := again } 5 0)))
    ∧ ∀ c, s.walkLook k k.lookAt = .bad l c →
      let last := { k with vers := if r.rlen < k.look.length then k.vers else k.look.map (·.2) ++ (if k.attempt = 0 then [] else k.vers).drop k.look.length }
      (p.buf = [] → p.stage = [] → (suspends c = false ∨ progPolicy k.header = 0) → ends last 4 c)
      ∧ (p.buf = [] → p.stage = [] → suspends c = true → progPolicy k.header = 1 → ends last 1 c)
      ∧ (suspends c = true → progPolicy k.header = 2 →
          ∃ t x, exec .rakeStep s = .next t ∧ t.walks = [{ k with held := true }] ∧ t.held = l.held ++ [x] ∧ x.by_ = .walk k.id ∧ x.cause = c ∧ x.va = k.lookAt)

namespace Sys2Proof.Spec

open Sys2Proof.Machine

/-! ## Peers, the host, the physical function -/

/-- One granule of HBM, or of another home of this module, that a walk finds (leaving the state l): no line held, no poison, the key it was written under. -/
abbrev Reached (s l : State) (sp : Spot) (n : Nat) : Prop :=
  space sp.home ≠ .peer ∧ s.heldLine sp.home = false ∧ l.heldLine sp.home = false ∧ s.poison = [] ∧ l.poison = [] ∧ l.garbled sp = false ∧ 0 < n

/-- What locating an access leaves, and what it finds. -/
abbrev Finds (x : Located) (l : State) (r : Place) : Prop := x.s = l ∧ x.res = r

/-- Nothing but the function's registers has changed, and no other function's. -/
abbrev OnlyPart (s t : State) (p : Nat) : Prop := { t with parts := s.parts } = s ∧ ∀ k, k ≠ p → t.part k = s.part k

/-- The bits [hi:lo] of a value, in place. -/
def inPlace (v lo hi : Nat) : Nat := v / 2 ^ lo % 2 ^ (hi + 1 - lo) * 2 ^ lo

/-- An INVAL value names a page of 2^b bytes (R334). -/
def named334 (v page b : Nat) : Prop :=
  v / 2 ^ 63 % 2 = 1 ∨ (page * 2 ^ b < v / 2 ^ 12 % 2 ^ 36 * 4096 + (v / 2 ^ 48 % 2 ^ 12 + 1) * 4096 ∧ v / 2 ^ 12 % 2 ^ 36 * 4096 < (page + 1) * 2 ^ b)

/-- The pages that an S2INVCTL value names, from those of S2INVADDR on (R338). -/
def named338 (addr v g : Nat) : Prop := v / 2 ^ 31 % 2 = 1 ∨ (addr / 4096 ≤ g ∧ g < addr / 4096 + v / 2 ^ 6 % 2 ^ 12 + 1)

/-- It names an entry of a translation cache: a page that the walk passed through, or for stage 2 one of those that the entry maps. -/
def hits338 (addr v : Nat) (e : TEntry) : Prop :=
  let b := leafBits e.leaf.lvl e.leaf.pte
  v / 2 ^ 31 % 2 = 1 ∨ (∃ g, g ∈ e.via ∧ named338 addr v g)
    ∨ (e.stage = 2 ∧ ∃ g, e.page * 2 ^ b / 4096 ≤ g ∧ g * 4096 < (e.page + 1) * 2 ^ b ∧ named338 addr v g)

/-- No copy of its capability list is kept in the partition's memory. -/
abbrev NoCopies (s : State) (p : Nat) : Prop := ∀ c, c < 8 → (s.tenant (s.part p).cbase c).caplist = 0

/-- A request to a peer module that fails: its link does, or it has had no completion for 5,000 ticks (R323, R359). It is the only one out, and nothing is held. -/
def PeerFails (ev : Instr) (s : State) (r : PeerReq) : Prop :=
  s.peerReqs = [r] ∧ s.held = [] ∧ s.tasks = [] ∧ r.port < 16
    ∧ ((ev = .linkFatal ∧ s.inp.a = r.port + 2 ∧ s.inp.a ∉ s.failedLinks) ∨ (ev = .peerTimeout ∧ s.inp.a = 0 ∧ r.issued + 5000 ≤ s.time ∧ r.held = false))

/-- The register context whose operation a request is, that operation, in a handler that runs. -/
def AskedFor (s : State) (r : PeerReq) (o : Op) : Prop :=
  r.xfer = none ∧ r.by_ = .other ∧ r.who.core < 4096 ∧ r.who.rc < 2 ∧ (s.tenant r.who.core r.who.ctx).slots = [] ∧ NoGang s r.who ∧ (s.rcx r.who).findOp r.seq = some o
    ∧ o.parts = [(r.va, r.n)] ∧ (s.rcx r.who).run = .running ∧ (s.rcx r.who).wait = none ∧ (s.rcx r.who).inv = o.inv ∧ (s.rcx r.who).task = none

/-- The cores of a partition. -/
abbrev OfPart (s : State) (p h : Nat) : Prop := (s.part p).cbase ≤ h ∧ h < (s.part p).cbase + (s.part p).clen

end Sys2Proof.Spec

/-! ## Peers and links -/

/-- PEER_COMPLETION (R358, R359): a load gets the value the peer read; a fault of the peer that does not suspend ends the handler with the cause of its access. PEER_SERVICE_SIGNAL: the
operation is no longer held, or, with the flag, its handler ends with its cause. LINK_FATAL and PEER_TIMEOUT (R323, R359): the link is failed, and none of the requests that were in flight on it is left: a load ends its
handler with cause 0x47, a posted store is given up and its handler goes on, a transfer records 0x5F; a request 5,000 ticks old is such a
timeout, a younger one is not. PEER_REQUEST (R358): a load answers what stands there, a store writes its bytes and nothing else, an atomic does both, an arrival at a completion object of this module and an expectation act on it as those of a core do; a fault answers its kind. The form of requests and
the numbers of links are the model's (logs 28 and 44). -/
def Obligations.PeersAnswerAndFail : Prop :=
  (∀ (s : State) (r : PeerReq) (o : Op) (rd : Nat) (sx : Bool), s.peerReqs[s.inp.a]? = some r → r.xfer = none → r.by_ = .other → r.held = false → r.leaves = [] → s.time < r.issued + 5000 →
    r.who.core < 4096 → r.who.rc < 2 → (s.tenant r.who.core r.who.ctx).slots = [] → NoGang s r.who →
    (s.rcx r.who).findOp r.seq = some o → o.k = .load → o.dest = .x rd r.n sx → o.got = [] → o.va = r.va → o.n = r.n → r.n ∈ [1, 2, 4, 8] →
    o.parts = [(r.va, r.n)] →
    (s.inp.flag = false →
      ∃ t, exec .peerCompletion s = .next t ∧ t.peerReqs = s.peerReqs.eraseIdx s.inp.a ∧ t.mem = s.mem ∧ (t.rcx r.who).findOp r.seq = none
        ∧ (rd ≠ 0 → (t.rcx r.who).rx rd = (if sx then w64 (simm (s.inp.b % 2 ^ (8 * r.n)) (8 * r.n)) else w64 (s.inp.b % 2 ^ (8 * r.n) : Nat))))
    ∧ (s.inp.flag = true → 4 ≤ s.inp.c → s.inp.c < 8 → (s.rcx r.who).run = .running → (s.rcx r.who).wait = none → (s.rcx r.who).inv = o.inv → (s.rcx r.who).task = none →
      ∃ t f, exec .peerCompletion s = .next t ∧ (t.rcx r.who).run = .idle ∧ t.mem = s.mem ∧ t.flights = s.flights ++ [f] ∧ f.msg.kind = 6
        ∧ f.msg.pay.take 3 = [w64 (0x40 + s.inp.c + 256 * r.who.rc : Nat), o.pc, w64 r.va]))
  ∧ (∀ (s : State) (h : Held) (w : Who) (q : Nat) (o : Op), s.held.find? (fun h => h.peer && h.fid == s.inp.a) = some h → h.by_ = .op w q → w.rc < 3 →
    (s.rcx w).findOp q = some o →
    (s.inp.flag = false → (∀ b, b ∈ s.held.erase h → b.by_ ≠ .op w q) →
      ∃ t, exec .peerServiceSignal s = .next t ∧ t.held = s.held.erase h ∧ (t.rcx w).findOp q = some { o with held := false } ∧ t.mem = s.mem)
    ∧ (s.inp.flag = true → w.rc < 2 → (s.tenant w.core w.ctx).slots = [] → NoGang s w → (s.rcx w).run = .running → (s.rcx w).wait = none → (s.rcx w).inv = o.inv → (s.rcx w).task = none →
        h.cause < 256 →
      ∃ t f, exec .peerServiceSignal s = .next t ∧ (t.rcx w).run = .idle ∧ t.mem = s.mem ∧ (∀ b, b ∈ t.held → b.by_ ≠ .op w q) ∧ t.flights = s.flights ++ [f] ∧ f.msg.kind = 6
        ∧ f.msg.pay.take 3 = [w64 (h.cause + 256 * w.rc : Nat), o.pc, w64 h.va]))
  ∧ (∀ s : State, (22 ≤ s.inp.a ∨ s.inp.a = 1 → exec .linkFatal s = .next s)
    ∧ (s.inp.a < 22 → s.inp.a ≠ 1 → s.inp.a ∉ s.failedLinks →
      ∃ t, exec .linkFatal s = .next t ∧ t.failedLinks = s.inp.a :: s.failedLinks ∧ (∀ r, r ∈ s.peerReqs → r.port + 2 ≠ s.inp.a → r.by_ ≠ .mmul → r ∈ t.peerReqs)
        ∧ (∀ r, r ∈ t.peerReqs → r.port + 2 = s.inp.a → r.issued = s.time) ∧ ∀ r, r ∈ s.peerReqs → r.port + 2 = s.inp.a → r.issued < s.time → r ∉ t.peerReqs))
  ∧ (∀ (s : State) (r : PeerReq), s.peerReqs[s.inp.a]? = some r →
    (s.time < r.issued + 5000 ∨ r.held = true → exec .peerTimeout s = .next s)
    ∧ (r.issued + 5000 ≤ s.time → r.held = false → r.port + 2 ∉ s.failedLinks →
        ∃ t, exec .peerTimeout s = .next t ∧ t.failedLinks = (r.port + 2) :: s.failedLinks))
  ∧ (∀ (ev : Instr) (s : State) (r : PeerReq), PeerFails ev s r →
    (∀ o, AskedFor s r o →
      (∀ rd sx, o.k = .load → o.dest = .x rd r.n sx →
        ∃ t f l, exec ev s = .next t ∧ (t.rcx r.who).run = .idle ∧ t.flights = s.flights ++ f :: l ∧ f.msg.kind = 6 ∧ f.msg.pay.take 3 = [w64 (0x47 + 256 * r.who.rc : Nat), o.pc, w64 r.va])
      ∧ (o.k = .store → ∃ t, exec ev s = .next t ∧ (t.rcx r.who).findOp r.seq = none ∧ (t.rcx r.who).run = .running))
    ∧ ∀ (id c : Nat) (x : Xfer), r.xfer = some (id, c + 1) → s.xfers.find? (fun x => x.id == id) = some x → x.heldPg = [] →
      ∃ t y, exec ev s = .next t ∧ t.xfers.find? (fun x => x.id == id) = some y ∧ y.fault = (match x.fault with | some k => some k | none => some 0x5F)
        ∧ (r.k = .load → ∀ m, x.moves[c]? = some m → ∃ n, y.moves[c]? = some n ∧ n.bad = true))
  ∧ ∀ (s l : State), s.inp.a < 16 → s.inp.b < 64 → 0 < s.inp.d → s.inp.c % 16 + s.inp.d ≤ 16 →
    (∀ sp, s.inp.pacc = .load → Finds (s.locate2 s.inp.b s.inp.c 1 false) l (.ok sp) → Reached s l sp s.inp.d →
      ∃ t, exec .peerRequest s = .next t ∧ t.peerOut = l.peerOut ++ [(s.inp.a, 0, leNat (l.bytes sp.home s.inp.d))] ∧ t.mem = l.mem)
    ∧ (∀ sp, s.inp.pacc = .store → Finds (s.locate2 s.inp.b s.inp.c 2 true) l (.ok sp) → Reached s l sp s.inp.d →
      ∃ t, exec .peerRequest s = .next t ∧ t.peerOut = l.peerOut ++ [(s.inp.a, 0, 0)] ∧ t.bytes sp.home s.inp.d = leBytes s.inp.e s.inp.d ∧ SameOutsideOf l t sp.home s.inp.d)
    ∧ (∀ op sp, s.inp.pacc = .amo op → op < 10 → s.inp.d ∈ [4, 8, 16] → s.inp.c % s.inp.d = 0 → Finds (s.locate2 s.inp.b s.inp.c 3 true) l (.ok sp) → Reached s l sp s.inp.d →
        space sp.home = .hbm → sp.home % 16 + s.inp.d ≤ 16 →
      let old := leNat (l.bytes sp.home s.inp.d)
      let m := 2 ^ (8 * s.inp.d)
      ∃ t, exec .peerRequest s = .next t ∧ t.peerOut = l.peerOut ++ [(s.inp.a, 0, old)] ∧ SameOutsideOf l t sp.home s.inp.d
        ∧ t.bytes sp.home s.inp.d = leBytes (amoRule op s.inp.d old (s.inp.e % m) (s.inp.f % m)) s.inp.d)
    ∧ (∀ sp, s.inp.d = 16 → (s.inp.pacc = .arrive ∨ s.inp.pacc = .expect) → Finds (s.locate2 s.inp.b s.inp.c 3 true) l (.ok sp) → Reached s l sp 16 → space sp.home = .hbm →
      let old := leNat (l.bytes sp.home 16)
      ∃ t, exec .peerRequest s = .next t ∧ t.peerOut = l.peerOut ++ [(s.inp.a, 0, 0)] ∧ SameOutsideOf l t sp.home 16
        ∧ leNat (t.bytes sp.home 16) = objectAfter old (if s.inp.pacc = .arrive then none else some s.inp.e))
    ∧ ∀ k, s.inp.pacc = .load → Finds (s.locate2 s.inp.b s.inp.c 1 false) l (.error k) → k < 8 →
      ∃ t, exec .peerRequest s = .next t ∧ t.peerOut = l.peerOut ++ [(s.inp.a, k + 1, 0)] ∧ (4 ≤ k → t.held = l.held)
        ∧ (k < 4 → ∃ h, t.held = l.held ++ [h] ∧ h.by_ = .remote s.inp.a ∧ h.cause = 0x40 + k)

/-! ## The host -/

/-- BAR2 and CXL.mem (R330, R338, R356): a read returns the bytes that stand at the address to which stage 2 takes it, a write puts its bytes there and changes no other, an
address that stage 2 does not reach completes poisoned; a line that the host keeps (CXL_MEM_READ with the flag) is held until BACK_INVALIDATION_RESPONSE gives it up, written back where it was
dirty (that these two events are what takes and gives up a line is the model's reading, log 43). -/
def Obligations.HostAccesses : Prop :=
  (∀ (s l : State) (sp : Spot), s.inp.a < 64 → s.inp.b % 8 + s.inp.c ≤ 8 → s.inp.b < 2 ^ 30 → s.bar2Busy s.inp.a = false → Reached s l sp s.inp.c → sp.home % 16 + s.inp.c ≤ 16 →
    (Finds (s.locate2 s.inp.a ((s.part s.inp.a).apbase + s.inp.b) 1 false) l (.ok sp) →
      ∃ t, exec .bar2Read s = .next t ∧ t.hostOut = l.hostOut ++ [(s.inp.a, leNat (l.bytes sp.home s.inp.c), false)] ∧ t.mem = l.mem)
    ∧ (Finds (s.locate2 s.inp.a ((s.part s.inp.a).apbase + s.inp.b) 2 true) l (.ok sp) →
      ∃ t, exec .bar2Write s = .next t ∧ t.hostOut = l.hostOut ∧ t.bytes sp.home s.inp.c = leBytes s.inp.d s.inp.c ∧ SameOutsideOf l t sp.home s.inp.c))
  ∧ (∀ (s l : State) (k : Nat), s.inp.a < 64 → s.inp.b % 8 + s.inp.c ≤ 8 → s.inp.b < 2 ^ 30 → s.bar2Busy s.inp.a = false → 0 < s.inp.c →
    Finds (s.locate2 s.inp.a ((s.part s.inp.a).apbase + s.inp.b) 1 false) l (.error k) →
    ∃ t, exec .bar2Read s = .next t ∧ t.hostOut = l.hostOut ++ [(s.inp.a, 0, true)])
  ∧ (∀ (s l : State) (i : Nat) (e : HDec) (sp : Spot), s.hdec = [(i, e)] → e.en = true → e.hpaBase * 2 ^ 30 ≤ s.inp.a / 64 * 64 → s.inp.a < (e.hpaBase + e.count) * 2 ^ 30 → space sp.home = .hbm →
    let ipa := e.ipaBase * 2 ^ 30 + (s.inp.a / 64 * 64 - e.hpaBase * 2 ^ 30)
    (Finds (s.locate2 e.part ipa 1 false) l (.ok sp) → Reached s l sp 64 → sp.home % 64 = 0 →
      ∃ t, exec .cxlMemRead s = .next t ∧ t.hostOut = l.hostOut ++ [(64, leNat (l.bytes sp.home 64), false)] ∧ t.mem = l.mem
        ∧ t.hostHeld = (if s.inp.flag then l.hostHeld ++ [{ line := sp.home / 64, entry := i, part := e.part, ipa := ipa }] else l.hostHeld))
    ∧ (Finds (s.locate2 e.part (e.ipaBase * 2 ^ 30 + (s.inp.a - e.hpaBase * 2 ^ 30)) 2 true) l (.ok sp) → Reached s l sp s.inp.b → s.inp.a % 64 + s.inp.b ≤ 64 →
        sp.home % 64 + s.inp.b ≤ 64 →
      ∃ t, exec .cxlMemWrite s = .next t ∧ t.bytes sp.home s.inp.b = leBytes s.inp.c s.inp.b ∧ SameOutsideOf l t sp.home s.inp.b))
  ∧ (∀ s : State, s.hdec = [] → ∃ t, exec .cxlMemRead s = .next t ∧ t.hostOut = s.hostOut ++ [(64, 0, true)] ∧ t.hostHeld = s.hostHeld)
  ∧ ∀ (s : State) (m : HostLine), s.hostHeld.find? (fun l => l.line == s.inp.a) = some m → space (64 * m.line) = .hbm →
    (s.inp.flag = false → exec .backInvalidationResponse s = .next { s with hostHeld := s.hostHeld.filter fun l => l.line != s.inp.a })
    ∧ let q := State.locate2 { s with hostHeld := s.hostHeld.filter fun l => l.line != s.inp.a } m.part m.ipa 2 true
      s.inp.flag = true → s.keyOf m.part 0 ≠ 0 → q.res ≠ .wait → q.res ≠ .asked → q.s.garbled { home := 64 * m.line, gen := s.keyOf m.part 0, v := false } = false →
        ∃ t, exec .backInvalidationResponse s = .next t ∧ t.hostHeld = s.hostHeld.filter (fun l => l.line != s.inp.a) ∧ t.bytes (64 * m.line) 64 = leBytes s.inp.b 64
          ∧ SameOutsideOf q.s t (64 * m.line) 64

/-! ## The hub -/

/-- REGISTER_WRITE (R330, R331): a register of a function's BAR0 holds the bits that its layout keeps of the value, and no other function's registers change. PTAB_WRITE (R337): a write that breaks
a rule, or of a field that needs a quiesced partition, sets PTERR and changes nothing else (of CTXMAX above 8, of PERIOD below 100,000, and the masks of the registers: log 37); QLIM and FEAT take the value, and a new CBASE moves the contexts of the partition with its
cores (R342). A read of BAR0 (R5, R330, R336): write-only registers read 0, the others what they hold; the table is the physical function's. HDEC_WRITE (R338): an entry is set while it is
disabled and meets no other; an enabled entry that stays enabled keeps its fields. -/
def Sys2Proof.Spec.FunctionRegistersHold : Prop :=
  (∀ s : State, s.inp.a < 64 →
    let p := s.inp.a
    let v := s.inp.b
    let t := s.modPart p fun q => q.write s.inp.br v
    let q := t.part p
    (∀ c, s.inp.br = .s1root c → c < 8 → exec .registerWrite s = .next t ∧ OnlyPart s t p ∧ Tbl.get 0 q.s1root c = inPlace v 12 51 ∧ { q with s1root := (s.part p).s1root } = s.part p)
    ∧ (∀ c, s.inp.br = .trapcfg c → c < 8 → exec .registerWrite s = .next t ∧ OnlyPart s t p ∧ Tbl.get 0 q.trapcfg c = v % 2 ^ 21 ∧ { q with trapcfg := (s.part p).trapcfg } = s.part p)
    ∧ (∀ c, s.inp.br = .slice c → c < 8 → exec .registerWrite s = .next t ∧ OnlyPart s t p ∧ Tbl.get 100000 q.slices c = max (v % 2 ^ 32) 1000 ∧ { q with slices := (s.part p).slices } = s.part p)
    ∧ (s.inp.br = .lstatbase → exec .registerWrite s = .next t ∧ OnlyPart s t p ∧ q = { s.part p with lstatbase := inPlace v 12 47 })
    ∧ (s.inp.br = .fqbase → exec .registerWrite s = .next t ∧ OnlyPart s t p ∧ q = { s.part p with fqbase := inPlace v 12 47 })
    ∧ (s.inp.br = .apbase → exec .registerWrite s = .next t ∧ OnlyPart s t p ∧ q = { s.part p with apbase := inPlace v 30 47 })
    ∧ (s.inp.br = .ctxen → exec .registerWrite s = .next t ∧ OnlyPart s t p ∧ q = { s.part p with ctxen := v % 2 ^ min (s.part p).ctxmax 8 })
    ∧ (∀ k, s.inp.br = .fqlen → v = 2 ^ k → 7 ≤ k → k ≤ 16 → exec .registerWrite s = .next t ∧ OnlyPart s t p ∧ q = { s.part p with fqlen := v })
    ∧ (s.inp.br = .fqlen → (∀ k, 7 ≤ k → k ≤ 16 → v ≠ 2 ^ k) → exec .registerWrite s = .next t ∧ OnlyPart s t p ∧ q = s.part p))
  ∧ (∀ s : State, s.inp.a < 64 →
    let p := s.inp.a
    let v := s.inp.b
    NoCopies s p →
    let refused := ∃ t, exec .ptabWrite s = .next t ∧ OnlyPart s t p ∧ t.part p = { s.part p with pterr := true }
    (s.inp.pf = .cbase ∨ s.inp.pf = .clen ∨ s.inp.pf = .feat ∨ s.inp.pf = .s2root ∨ s.inp.pf = .slice ∨ s.inp.pf = .ctxmax →
      (∃ b, b ∈ s.bands ∧ b.part = p) ∨ (s.part p).resident ≠ none → refused)
    ∧ (s.inp.pf = .ctxmax → 8 < v % 16 → refused) ∧ (s.inp.pf = .cbase → 4096 < v + (s.part p).clen → refused) ∧ (s.inp.pf = .period → v < 100000 → refused)
    ∧ (∀ i, s.inp.pf = .qlim i → i < 8 →
        ∃ t, exec .ptabWrite s = .next t ∧ OnlyPart s t p ∧ Tbl.get 0 (t.part p).qlim i = v % 2 ^ 64 ∧ { t.part p with qlim := (s.part p).qlim } = { s.part p with pterr := false })
    ∧ (s.inp.pf = .feat → (∀ b, b ∈ s.bands → b.part ≠ p) → (s.part p).resident = none →
        ∃ t, exec .ptabWrite s = .next t ∧ (t.part p).feat = v % 2 ^ 14 ∧ (t.part p).pterr = false ∧ t.tenants = s.tenants ∧ (t.part p).log.seq = (s.part p).log.seq + 1)
    ∧ (s.inp.pf = .cbase → (∀ b, b ∈ s.bands → b.part ≠ p) → (s.part p).resident = none → (∀ o, o ∈ s.parts → o.1 = p) → (s.part p).resv = [] → v < 4096 → v + (s.part p).clen ≤ 4096 →
        (s.tenants.map (·.1)).Nodup →
        ∃ t, exec .ptabWrite s = .next t ∧ (t.part p).cbase = v ∧ ∀ i c, i < (s.part p).clen → c < 8 →
          { t.tenant (v + i) c with ctab := [] } = { s.tenant ((s.part p).cbase + i) c with ctab := [] }))
  ∧ (∀ (s : State) (fn : Nat), fn < 64 →
    let q := s.part fn
    s.bar0 fn 0x1000 = some 0 ∧ s.bar0 fn 0x4040 = some 0 ∧ s.bar0 fn 0x2020 = some 0 ∧ s.bar0 fn 0x2000 = some q.fqbase ∧ s.bar0 fn 0x4080 = some q.ctxen
      ∧ (q.lfull = false → 0 < q.lticket → q.lticket ≤ 2 ^ 32 → s.bar0 fn 0x1008 = some (q.lticket - 1)) ∧ (fn ≠ 0 → s.bar0 fn 0x10000 = none)
      ∧ s.bar0 0 (0x10000 + 512 * fn) = some (q.cbase + q.clen * 2 ^ 16 + q.feat * 2 ^ 32))
  ∧ ∀ s : State, s.inp.a < 16 →
    let i := s.inp.a
    let v := s.inp.b
    let f := fun (at_ n : Nat) => v / 2 ^ at_ % 2 ^ n
    let e : HDec := { ipaBase := f 94 22, hpaBase := f 30 34, count := f 8 8, en := f 7 1 == 1, part := f 0 6 }
    ((Tbl.get .reset s.hdec i).en = false → (∀ o, o ∈ s.hdec → o.1 = i ∨ o.2.en = false) →
      ∃ t, exec .hdecWrite s = .next t ∧ { t with hdec := s.hdec } = s ∧ Tbl.get .reset t.hdec i = e ∧ ∀ k, k ≠ i → Tbl.get .reset t.hdec k = Tbl.get .reset s.hdec k)
    ∧ ((Tbl.get .reset s.hdec i).en = true → f 7 1 = 1 → exec .hdecWrite s = .next s)
    ∧ ((Tbl.get .reset s.hdec i).en = true → f 7 1 = 0 → (∃ l, l ∈ s.hostHeld ∧ l.entry = i) → exec .hdecWrite s = .next s)

/-- KEY_LOAD and KEY_DESTROY (R344): a slot of a partition holds a key that was never used before, or none, also where it was empty (log 33); no other slot changes. INVAL, S2INVCTL and their completions (R243, R334,
R338): the cached translations that the value names are gone at the write, and at the completion the
transfers have to translate those pages again. Mailboxes (R335): the doorbell sends MBOUT, the reply fills MBIN,
a management message goes to the core, channel and context of MBDEST. -/
def Sys2Proof.Spec.KeysCachesMailboxes : Prop :=
  (∀ s : State, s.inp.a < 64 → s.inp.b < 16 →
    (∃ t, exec .keyLoad s = .next t ∧ t.keyGen = s.keyGen + 1 ∧ t.keyOf s.inp.a s.inp.b = s.keyGen ∧ ∀ p d, p ≠ s.inp.a ∨ d ≠ s.inp.b → t.keyOf p d = s.keyOf p d)
    ∧ ∃ t, exec .keyDestroy s = .next t ∧ t.keyGen = s.keyGen ∧ t.keyOf s.inp.a s.inp.b = 0 ∧ ∀ p d, p ≠ s.inp.a ∨ d ≠ s.inp.b → t.keyOf p d = s.keyOf p d)
  ∧ (∀ s : State, s.inp.a < 64 →
    ((s.part s.inp.a).invalstat = none →
      ∃ t, exec .inval s = .next t ∧ (t.part s.inp.a).invalstat = some s.inp.b ∧ OnlyPart { s with tcache := t.tcache, ptes := t.ptes } t s.inp.a ∧ t.ptes = s.ptes.filter (fun g => g.part != s.inp.a)
        ∧ ∀ e, e ∈ t.tcache ↔ e ∈ s.tcache ∧ ¬ (e.part = s.inp.a ∧ e.ctx = s.inp.b / 2 ^ 60 % 8 ∧ e.stage = 1
            ∧ named334 s.inp.b e.page (leafBits e.leaf.lvl e.leaf.pte)))
    ∧ ((s.part s.inp.a).invalstat ≠ none → exec .inval s = .next s)
    ∧ (∀ v, (s.part s.inp.a).invalstat = some v →
      ∃ t, exec .invalComplete s = .next t ∧ (t.part s.inp.a).invalstat = none ∧ OnlyPart { s with xfers := t.xfers } t s.inp.a
        ∧ ∀ x, x ∈ t.xfers → x.part = s.inp.a → ∀ l, l ∈ x.xl → x.who.ctx = v / 2 ^ 60 % 8 → named334 v l.1 12 → l.1 ∈ x.stale))
  ∧ (∀ s : State,
    (s.s2invstat = none →
      ∃ t, exec .s2invctl s = .next t ∧ t.s2invstat = some (s.s2invaddr, s.inp.a) ∧ { t with tcache := s.tcache, ptes := s.ptes, s2invstat := none } = s ∧ t.ptes = s.ptes.filter (fun g => g.part != s.inp.a % 64)
        ∧ ∀ e, e ∈ t.tcache ↔ e ∈ s.tcache ∧ ¬ (e.part = s.inp.a % 64 ∧ hits338 s.s2invaddr s.inp.a e))
    ∧ ∀ a v, s.s2invstat = some (a, v) →
      ∃ t, exec .s2invComplete s = .next t ∧ t.s2invstat = none ∧ { t with xfers := s.xfers, s2invstat := s.s2invstat } = s
        ∧ ∀ x, x ∈ t.xfers → x.part = v % 64 → ∀ l, l ∈ x.xl →
          (∃ g, (g ∈ l.2.via ∨ (l.2.ipa / 4096 ≤ g ∧ g * 4096 < l.2.ipa + 2 ^ l.2.bits)) ∧ named338 a v g) → l.1 ∈ x.stale)
  ∧ (∀ s : State, s.inp.a < 64 →
    let q := s.part s.inp.a
    (q.mbreq = false →
      ∃ t, exec .mbdoor s = .next t ∧ OnlyPart { s with mbq := t.mbq } t s.inp.a ∧ t.part s.inp.a = { q with mbreq := true, mbrep := false }
        ∧ t.mbq = s.mbq ++ [(s.inp.a, (List.range 256).map fun i => Tbl.get 0 q.mbout i)])
    ∧ (q.mbreq = true → exec .mbdoor s = .next s)
    ∧ ∃ t, exec .mbinReply s = .next t ∧ OnlyPart { s with mbq := t.mbq } t s.inp.a ∧ (t.part s.inp.a).mbreq = false ∧ (t.part s.inp.a).mbrep = true
        ∧ (∀ i, i < 256 → (Tbl.get 0 (t.part s.inp.a).mbin i).toNat = s.inp.b / 256 ^ i % 256) ∧ t.mbq = s.mbq.filter fun m => m.1 != s.inp.a)
  ∧ ∀ (s : State) (b : Band) (h : Nat),
    let d := (s.part s.inp.a).mbdest
    s.bands.find? (fun b => b.part == s.inp.a && b.ctx == d / 2 ^ 18 % 8) = some b → b.members[d / 2 ^ 6 % 2 ^ 12]? = some h →
    ∃ t f, exec .managementMessage s = .next t ∧ { t with flights := s.flights } = s ∧ t.flights = s.flights ++ [f] ∧ f.core = h ∧ f.ctx = b.ctx ∧ f.msg.kind = 7 ∧ f.msg.chan = d % 64
      ∧ f.msg.pay = (List.range 8).map fun i => w64 (s.inp.b / 2 ^ (64 * i) : Nat)

/-! ## Slices, periods, batches -/

/-- SLICE_END (R325, R341): a context that has run for its slice stops while another is enabled, and not before. CONTEXT_SWITCH (R326, R341): with every core still, the next enabled context is
resident; the registers of the outgoing one are kept, and its TCM where it names no live image. PERIOD_END and QUOTA_LIMIT_REACHED (R343): a period ends when its time has passed, and clears what was used and
hit; a limit that is reached ends the running handlers or stops the context, as QACT says. LOG_BATCH_CLOSE (R347): a full or old batch closes. -/
def Obligations.SlicesAndPeriods : Prop :=
  (∀ (s : State) (c t0 : Nat),
    let p := s.inp.a
    let q := s.part p
    q.resident = some c → q.sliceStart = some t0 → q.stopping = none →
    (t0 + (Tbl.get 100000 q.slices c - Tbl.get 0 q.deduct c) ≤ s.time → (∃ d, d < 8 ∧ d ≠ c ∧ q.ctxen / 2 ^ d % 2 = 1) →
      ∃ t, exec .sliceEnd s = .next t ∧ OnlyPart s t p ∧ (t.part p).stopping = some s.time ∧ { t.part p with stopping := none, deduct := q.deduct } = q)
    ∧ (s.time < t0 + (Tbl.get 100000 q.slices c - Tbl.get 0 q.deduct c) → exec .sliceEnd s = .next s)
    ∧ ((∀ d, d < 8 → d ≠ c → q.ctxen / 2 ^ d % 2 = 0) → q.ctxen / 2 ^ c % 2 = 1 → c < 8 → exec .sliceEnd s = .next s))
  ∧ (∀ (s : State) (c d t0 : Nat),
    let p := s.inp.a
    let q := s.part p
    q.resident = some c → q.stopping = some t0 → c < 8 → d < 8 → d ≠ c → q.cbase + q.clen ≤ 4096 → (∀ k, k < 8 → (q.ctxen / 2 ^ k % 2 = 1 ↔ k = c ∨ k = d)) →
    (∀ h, OfPart s p h → (∀ j, j < 3 → (s.rcx { core := h, ctx := c, rc := j }).run ≠ .running ∧ (s.rcx { core := h, ctx := c, rc := j }).ops = []) ∧ (s.tenant h c).mx.stores = []
      ∧ ∀ i, i ∈ (s.tenant h c).slots → i.2.img.ops = [] ∧ s.opensAt h c i.1 i.2.wait = false) →
    let r := s.snapLive c (s.coresOf p)
    r.2 = true →
    (s.saveWaits p = false → ∃ t, exec .contextSwitch s = .next t ∧ (t.part p).lastCtx = c ∧ (t.part p).stopping = none)
    ∧ (q.savebase = 0 → q.log.recs = [] → q.log.sigs = [] → q.flr = false → q.qhit = [] →
    ∃ t, exec .contextSwitch s = .next t ∧ (t.part p).resident = some d ∧ (t.part p).lastCtx = c ∧ (t.part p).stopping = none ∧ (t.part p).sliceStart = none
      ∧ ∀ h, OfPart s p h → t.tenant h c = { s.tenant h c with live := (r.1.tenant h c).live, liveGot := [], liveFail := false }
        ∧ ((s.tenant h c).liveimg = 0 → ∀ o, o < 0x40000 → t.byte (tcmHome h c + o) = r.1.byte (tcmHome h c + o)))
    ∧ ((∀ h, OfPart s p h → (s.tenant h c).liveimg = 0) → r.1.mem = s.mem))
  ∧ (∀ s : State,
    let p := s.inp.a
    let q := s.part p
    (q.period = 0 ∨ s.time < q.qstart + q.period → exec .periodEnd s = .next s)
    ∧ (q.period ≠ 0 → q.qstart + q.period ≤ s.time →
        ∃ t, exec .periodEnd s = .next t ∧ (t.part p).qperiod = (q.qperiod + 1) % 2 ^ 32 ∧ (t.part p).quse = [] ∧ (t.part p).qhit = [] ∧ (t.part p).qstart = q.qstart + q.period
          ∧ (t.part p).log.seq = q.log.seq + 1 ∧ t.tenants = s.tenants))
  ∧ (∀ s : State,
    let p := s.inp.a
    let cat := s.inp.b
    let q := s.part p
    cat < 2 → Tbl.get 0 q.qlim cat ≠ 0 →
    (Tbl.get 0 q.quse cat < Tbl.get 0 q.qlim cat → exec .quotaLimitReached s = .next s)
    ∧ (Tbl.get 0 q.qlim cat ≤ Tbl.get 0 q.quse cat → cat ∉ q.qhit → q.qact / 2 ^ cat % 2 = 1 →
        ∃ t, exec .quotaLimitReached s = .next t ∧ OnlyPart s t p ∧ (t.part p).qhit = cat :: q.qhit ∧ (q.resident ≠ none → (t.part p).stopping ≠ none))
    ∧ ∀ c, Tbl.get 0 q.qlim cat ≤ Tbl.get 0 q.quse cat → cat ∉ q.qhit → q.qact / 2 ^ cat % 2 = 0 → q.resident = some c →
        ∃ t, exec .quotaLimitReached s = .next t ∧ (t.part p).qhit = cat :: q.qhit ∧ ∀ h j, OfPart s p h → j < 3 → (t.rcx { core := h, ctx := c, rc := j }).run ≠ .running)
  ∧ ∀ s : State,
    let l := (s.part s.inp.a).log
    (l.batchCount = 0 ∨ (l.batchCount < 64 ∧ s.time < l.batchTime + 100000000) → exec .logBatchClose s = .next s)
    ∧ (l.batchCount ≠ 0 → 64 ≤ l.batchCount ∨ l.batchTime + 100000000 ≤ s.time →
        ∃ t, exec .logBatchClose s = .next t ∧ (t.part s.inp.a).log.batchCount = 0 ∧ (t.part s.inp.a).log.seq = l.seq ∧ t.tenants = s.tenants)

/-! ## Resets, power, errors -/

/-- MODULE_RESET (R361, R362; log 40): every register, inbox and table is as after reset, TCM, Pan and Pond read zero, and the other memories as before. FUNCTION_LEVEL_RESET (R361): not of function 0; the
bands are killed first, and once none is left the function's contexts are as after reset. ACLK_CHANGE, POWERCAP_WRITE, THERMAL_EMERGENCY (R19, R21, R323, R365): the step comes down with the cap at once, and an
emergency comes at the floor step alone (log 44). GET_MEASUREMENTS (R364; its length is log 29). SOFT_ERROR
(R322): a granule of memory is poisoned; a register's handler ends and the register is zero; an MMUL whose half of the stationary plane is lost ends, and its tile
reads zero (the details are log 35). -/
def Obligations.ResetsPowerAndErrors : Prop :=
  (∀ s : State, ∃ t, exec .moduleReset s = .next t ∧ t.tenants = [] ∧ t.parts = [] ∧ t.icache = [] ∧ t.tcache = [] ∧ t.bands = [] ∧ t.tasks = [] ∧ t.xfers = [] ∧ t.flights = [] ∧ t.held = []
    ∧ t.time = 0 ∧ t.aclk = 0 ∧ t.cur = State.reset.cur ∧ (∀ a, space a = .tcm ∨ space a = .pan ∨ space a = .pond → t.byte a = 0)
    ∧ (∀ a, space a = .hbm ∨ space a = .tier2 ∨ space a = .host ∨ space a = .peer → t.byte a = s.byte a) ∧ (∀ h, h ∈ t.cfail ↔ h < 4096 ∧ s.inp.a / 2 ^ h % 2 = 1) ∧ (∀ n, n ∈ t.failedStations ↔ n < 384 ∧ s.inp.b / 2 ^ n % 2 = 1)
    ∧ (∀ l, l ∈ t.failedLinks ↔ l < 22 ∧ l ≠ 1 ∧ s.inp.c / 2 ^ l % 2 = 1) ∧ t.nextLogKey = s.nextLogKey ∧ t.idIndex = s.idIndex)
  ∧ (∀ s : State,
    let p := s.inp.a
    (p = 0 ∨ 64 ≤ p → exec .functionLevelReset s = .next s)
    ∧ (p ≠ 0 → p < 64 → (s.part p).flr = false → (∃ b, b ∈ s.bands ∧ b.part = p) →
        ∃ t, exec .functionLevelReset s = .next t ∧ (t.part p).flr = true ∧ ∀ b, b ∈ t.bands → b.part = p → b.killed = true)
    ∧ (p ≠ 0 → p < 64 → (∀ b, b ∈ s.bands → b.part ≠ p) →
        ∃ t, exec .functionLevelReset s = .next t ∧ (∀ h c, OfPart s p h → c < 8 → t.tenant h c = .reset) ∧ (∀ x, x ∈ t.xfers → x.part ≠ p) ∧ (∀ x, x ∈ t.images → x.part ≠ p)
          ∧ (t.part p).cbase = (s.part p).cbase ∧ (t.part p).clen = (s.part p).clen ∧ (t.part p).lticket = 0 ∧ (t.part p).fqbase = 0 ∧ (t.part p).ctxen = 0 ∧ (t.part p).resident = none
          ∧ t.keyOf p 0 = s.keyGen ∧ (t.part p).capkey = s.keyGen + 1))
  ∧ (∀ s : State, (s.inp.a ≤ s.aclkMax → s.inp.a ≤ 9 → exec .aclkChange s = .next { s with aclkStep := s.inp.a }) ∧ (s.aclkMax < s.inp.a ∨ 9 < s.inp.a → exec .aclkChange s = .next s))
  ∧ (∀ s : State, exec .powercapWrite s = .next { s with aclkMax := min (s.inp.a % 16) 9, aclkStep := min s.aclkStep (min (s.inp.a % 16) 9) })
  ∧ (∀ s : State, (s.thermal = false → s.aclkStep = 0 → ∃ t, exec .thermalEmergency s = .next t ∧ t.thermal = true ∧ t.tenants = s.tenants)
    ∧ (s.aclkStep ≠ 0 → exec .thermalEmergency s = .next s))
  ∧ (∀ s : State, ∃ t m, exec .getMeasurements s = .next t ∧ t.attests = s.attests ++ [m] ∧ m.length = 136 + 2820 ∧ { t with attests := s.attests, idIndex := s.idIndex } = s)
  ∧ ∀ s : State,
    (∀ home, s.inp.loc = .gran home → space home ≠ .host → space home ≠ .peer →
      ∃ t, exec .softError s = .next t ∧ { t with poison := s.poison } = s ∧ Tbl.get false t.poison (home / 16) = true ∧ ∀ g, g ≠ home / 16 → Tbl.get false t.poison g = Tbl.get false s.poison g)
    ∧ (∀ core rc n, s.inp.loc = .xreg core rc n → rc < 3 → 0 < n → n < 32 →
      let w : Who := { core := core, ctx := s.live core, rc := rc }
      ∃ t, exec .softError s = .next t ∧ (t.rcx w).rx n = 0 ∧ (t.rcx w).run = .idle ∧ ∀ j, j ≠ n → (t.rcx w).rx j = (s.rcx w).rx j)
    ∧ (∀ core j rest, s.inp.loc = .plane core 0 → (s.tenant core (s.live core)).mx.queue = j :: rest → j.src = none → (s.tenant core (s.live core)).mx.deferred = none →
      ∃ t, exec .softError s = .next t ∧ (t.tenant core (s.live core)).mx.queue = rest ∧ (∀ i, Tbl.get 0 ((t.tenant core (s.live core)).mx.tile j.tile).slot i = 0)
        ∧ (t.tenant core (s.live core)).mx.deferred = some { cause := 0xAD, addr := 0, tile := j.tile, k := j.k })
    ∧ (s.inp.loc = .corrected → exec .softError s = .next { s with corrected := s.corrected + 1 })

/-! ## Words that are no instruction, masked features -/

/-- NOT_AN_INSTRUCTION (R56, R57): a word that no encoding defines raises ILLEGAL_OP, one with a reserved field RESERVED_FIELD, with the word in the record. -/
def Sys2Proof.Spec.WordsThatAreNone : Prop :=
  ∀ s : State, s.inp.a < 2 ^ 32 →
    (decode s.inp.a = .illegal → exec .notAnInstruction s = .next (s.trap s.cur 0x00 s.rc.pc (w64 s.inp.a) 0))
    ∧ (∀ i, decode s.inp.a = .reserved i → (s.part s.tn.partid).feat = 0 → exec .notAnInstruction s = .next (s.trap s.cur 0x01 s.rc.pc (w64 s.inp.a) 0))

/-- A masked feature (R56, R350): every instruction of a feature that is masked for its partition raises FEATURE_MASKED, with its word, in every mode and whatever its operands
are; nothing else of it happens. -/
def Sys2Proof.Spec.MaskedFeaturesTrap : Prop :=
  ∀ (i : Instr) (w : Nat) (s : State), i.wf = true → encode i = some w → ((wordFeatures w i).any fun f => (s.part s.tn.partid).feat / 2 ^ f % 2 == 1) = true →
    exec i s = .next (s.trap s.cur 0x02 s.rc.pc (w64 w) 0)

/-! ## Statements of several parts, each part above -/

/-- Integer instructions write their value to x[rd] and change nothing else. -/
def Obligations.IntegerInstructionResults : Prop := Spec.RegisterInstructionResults ∧ Spec.ImmediateInstructionResults

/-- Writes of x0 are discarded; an instruction with a busy register waits. -/
def Obligations.ZeroDestinationsAndBusyRegisters : Prop := Spec.ZeroDestinationWritesNothing ∧ Spec.BusyRegistersStall

/-- Accesses, watches and arrivals issue in program order, or trap before any part of them. -/
def Obligations.AccessesIssueOrTrap : Prop := Spec.AccessesIssue ∧ Spec.AccessesTrap ∧ Spec.WatchesAndArrivalsIssue

/-- Loads, stores and atomics on own TCM, and every byte that they leave. -/
def Obligations.OwnTcmAccessResults : Prop := Spec.LoadsFromOwnTcm ∧ Spec.StoresToOwnTcm ∧ Spec.AtomicsOnOwnTcm

/-- Fences retire and keep later accesses back; cache fences drop what they name. -/
def Obligations.FencesKeepOrder : Prop := Spec.FencesOrderAndRetire ∧ Spec.CacheFences

/-- CSR instructions: results, traps, and the write of ovfstat. -/
def Obligations.CsrInstructions : Prop := Spec.CsrInstructionResults ∧ Spec.CsrTrapsAndOvfstat

/-- DONE, ECALL and EBREAK end the handler or suspend it. -/
def Obligations.HandlersEndOrSuspend : Prop := Spec.HandlersEnd ∧ Spec.BreakpointsSuspendOrTrap

/-- Queue fields of accesses and integer vector instructions: elements taken and appended, and their traps. -/
def Obligations.QueueFieldResults : Prop := Spec.QueueFieldsIssue ∧ Spec.QueueFieldsTrap ∧ Spec.VectorQueueFields

/-- Integer vector instructions and moves of lanes. -/
def Obligations.VectorIntegerAndMoveResults : Prop := Spec.VectorIntegerResults ∧ Spec.VectorMoveResults

/-- Special functions and soft-maximum partials are the true values rounded once. -/
def Obligations.SpecialFunctions : Prop := Spec.SpecialFunctionsAreRounded ∧ Spec.SoftMergeRule

/-- Comparisons of floating lanes, and key-value instructions. -/
def Obligations.VectorOrderAndKeyResults : Prop := Spec.VectorOrderResults ∧ Spec.VectorKeyResults

/-- Reductions, conversions and the soft-maximum family. -/
def Obligations.VectorReductionsAndConversions : Prop := Spec.VectorReductionResults ∧ Spec.VectorConversionResults ∧ Spec.ConversionValues ∧ Spec.SoftMaximumResults

/-- Reads of regions, ragged regions, and the traps of both. -/
def Obligations.RegionReadsAndTraps : Prop := Spec.RegionInstructionsTrap ∧ Spec.RegionReadResults ∧ Spec.RegionLoadsIssue ∧ Spec.RegionLoadsComplete ∧ Spec.RaggedRegionResults

/-- UNBIND, SEND and LOOPB. -/
def Obligations.UnbindSendAndLoopback : Prop := Spec.UnbindDiscards ∧ Spec.SendAndLoopbackResults

/-- The homes perform loads, stores and atomics, and register watches. -/
def Obligations.HomesPerform : Prop := Spec.HomesPerformOperations ∧ Spec.WatchesRegister

/-- Bands end, report their status, and are killed. -/
def Obligations.BandsEndAndAreKilled : Prop := Spec.BandsEnd ∧ Spec.KillsEndHandlers

/-- Transfers are checked and join those undecided; the plan of a reservation. -/
def Obligations.TransfersIssue : Prop := Spec.TransfersJoin ∧ Spec.ReservationsAreGreedy

/-- The instructions of the matrix unit. -/
def Obligations.MatrixInstructionResults : Prop := Spec.TileInstructionResults ∧ Spec.MatrixCommandsIssue

/-- The steps of the matrix unit, and the checks of a remote command. -/
def Obligations.MatrixUnitWorks : Prop := Spec.MatrixUnitSteps ∧ Spec.CommandsAreChecked

/-- The steps of a walk, its reads and rules. -/
def Obligations.WalksStep : Prop := Spec.WalksStepOn ∧ Spec.WalksRead

/-- Registers of the functions, the partition table, keys, invalidations and mailboxes. -/
def Obligations.FunctionRegisters : Prop := Spec.FunctionRegistersHold ∧ Spec.KeysCachesMailboxes

/-- Words that are no instruction, and masked features. -/
def Obligations.WordsThatTrapAtDecode : Prop := Spec.WordsThatAreNone ∧ Spec.MaskedFeaturesTrap
end

