-- ==== Sys2Proof/Laws/Table.lean ====
section
/-! SUPPORT. The laws of `Tbl`: reading after writing, and the canonical form, which every write keeps and in which equal tables are
equal data. -/

namespace Sys2Proof

variable {α : Type}

@[simp] theorem Tbl.get_set_same (d : α) (t : Tbl α) (i : Nat) (v : α) : Tbl.get d (Tbl.set t i v) i = v := by
  induction t with
  | nil => simp [Tbl.set, Tbl.get]
  | cons p t ih =>
    obtain ⟨k, w⟩ := p
    simp only [Tbl.set]
    split
    · simp [Tbl.get]
    · split
      · simp [Tbl.get]
      · simp [Tbl.get, *]

theorem Tbl.get_set_other (d : α) (t : Tbl α) (i j : Nat) (v : α) (h : j ≠ i) :
    Tbl.get d (Tbl.set t i v) j = Tbl.get d t j := by
  induction t with
  | nil => simp [Tbl.set, Tbl.get, h]
  | cons p t ih =>
    obtain ⟨k, w⟩ := p
    simp only [Tbl.set]
    split
    · simp [Tbl.get, h]
    · split
      · next e => subst e; simp [Tbl.get, h]
      · simp [Tbl.get, ih]

theorem Tbl.get_set (d : α) (t : Tbl α) (i j : Nat) (v : α) :
    Tbl.get d (Tbl.set t i v) j = if j = i then v else Tbl.get d t j := by
  by_cases h : j = i
  · subst h; simp
  · rw [Tbl.get_set_other d t i j v h]; simp [h]

@[simp] theorem Tbl.get_del_same (d : α) (t : Tbl α) (i : Nat) : Tbl.get d (Tbl.del t i) i = d := by
  induction t with
  | nil => rfl
  | cons p t ih =>
    obtain ⟨k, w⟩ := p
    simp only [Tbl.del]
    split
    · exact ih
    · simp [Tbl.get, *]

theorem Tbl.get_del_other (d : α) (t : Tbl α) (i j : Nat) (h : j ≠ i) : Tbl.get d (Tbl.del t i) j = Tbl.get d t j := by
  induction t with
  | nil => rfl
  | cons p t ih =>
    obtain ⟨k, w⟩ := p
    simp only [Tbl.del]
    split
    · next e => subst e; simp [Tbl.get, h, ih]
    · simp [Tbl.get, ih]

/-- Reading after a write in canonical form. -/
theorem Tbl.get_put [DecidableEq α] (d : α) (t : Tbl α) (i j : Nat) (v : α) :
    Tbl.get d (Tbl.put d t i v) j = if j = i then v else Tbl.get d t j := by
  unfold Tbl.put
  split
  · next e =>
    subst e
    by_cases h : j = i
    · subst h; simp
    · simp [Tbl.get_del_other v t i j h, h]
  · exact Tbl.get_set d t i j v

@[simp] theorem Tbl.get_put_same [DecidableEq α] (d : α) (t : Tbl α) (i : Nat) (v : α) :
    Tbl.get d (Tbl.put d t i v) i = v := by simp [Tbl.get_put]

theorem Tbl.get_put_other [DecidableEq α] (d : α) (t : Tbl α) (i j : Nat) (v : α) (h : j ≠ i) :
    Tbl.get d (Tbl.put d t i v) j = Tbl.get d t j := by simp [Tbl.get_put, h]

/-! ## The keys stay in order -/

theorem Tbl.above_mono (m n : Nat) (h : m ≤ n) (t : Tbl α) (a : Tbl.above n t = true) : Tbl.above m t = true := by
  induction t with
  | nil => rfl
  | cons p t ih =>
    obtain ⟨k, w⟩ := p
    simp only [Tbl.above, Bool.and_eq_true, decide_eq_true_eq] at a ⊢
    exact ⟨by omega, ih a.2⟩

theorem Tbl.above_set (n : Nat) (t : Tbl α) (i : Nat) (v : α) (h : n < i) (a : Tbl.above n t = true) :
    Tbl.above n (Tbl.set t i v) = true := by
  induction t with
  | nil => simp [Tbl.set, Tbl.above, h]
  | cons p t ih =>
    obtain ⟨k, w⟩ := p
    simp only [Tbl.above, Bool.and_eq_true, decide_eq_true_eq] at a
    simp only [Tbl.set]
    split
    · simp [Tbl.above, h, a.1, a.2]
    · split
      · next e => subst e; simp [Tbl.above, a.1, a.2]
      · simp [Tbl.above, a.1, ih a.2]

theorem Tbl.rising_set (t : Tbl α) (i : Nat) (v : α) (r : Tbl.rising t = true) : Tbl.rising (Tbl.set t i v) = true := by
  induction t with
  | nil => rfl
  | cons p t ih =>
    obtain ⟨k, w⟩ := p
    simp only [Tbl.rising, Bool.and_eq_true] at r
    simp only [Tbl.set]
    split
    · next e => simp [Tbl.rising, Tbl.above, e, r.1, r.2, Tbl.above_mono i k (by omega) t r.1]
    · split
      · next e => subst e; simp [Tbl.rising, r.1, r.2]
      · simp [Tbl.rising, ih r.2, Tbl.above_set k t i v (by omega) r.1]

theorem Tbl.above_del (n : Nat) (t : Tbl α) (i : Nat) (a : Tbl.above n t = true) : Tbl.above n (Tbl.del t i) = true := by
  induction t with
  | nil => rfl
  | cons p t ih =>
    obtain ⟨k, w⟩ := p
    simp only [Tbl.above, Bool.and_eq_true, decide_eq_true_eq] at a
    simp only [Tbl.del]
    split
    · exact ih a.2
    · simp [Tbl.above, a.1, ih a.2]

theorem Tbl.rising_del (t : Tbl α) (i : Nat) (r : Tbl.rising t = true) : Tbl.rising (Tbl.del t i) = true := by
  induction t with
  | nil => rfl
  | cons p t ih =>
    obtain ⟨k, w⟩ := p
    simp only [Tbl.rising, Bool.and_eq_true] at r
    simp only [Tbl.del]
    split
    · exact ih r.2
    · simp [Tbl.rising, ih r.2, Tbl.above_del k t i r.1]

theorem Tbl.above_filter (n : Nat) (t : Tbl α) (p : Nat × α → Bool) (a : Tbl.above n t = true) :
    Tbl.above n (t.filter p) = true := by
  induction t with
  | nil => rfl
  | cons q t ih =>
    obtain ⟨k, w⟩ := q
    simp only [Tbl.above, Bool.and_eq_true, decide_eq_true_eq] at a
    simp only [List.filter]
    split
    · simp [Tbl.above, a.1, ih a.2]
    · exact ih a.2

theorem Tbl.rising_filter (t : Tbl α) (p : Nat × α → Bool) (r : Tbl.rising t = true) : Tbl.rising (t.filter p) = true := by
  induction t with
  | nil => rfl
  | cons q t ih =>
    obtain ⟨k, w⟩ := q
    simp only [Tbl.rising, Bool.and_eq_true] at r
    simp only [List.filter]
    split
    · simp [Tbl.rising, ih r.2, Tbl.above_filter k t p r.1]
    · exact ih r.2

/-! ## No default is listed -/

variable [DecidableEq α]

theorem Tbl.lean_set (d : α) (t : Tbl α) (i : Nat) (v : α) (h : v ≠ d) (l : Tbl.lean d t = true) :
    Tbl.lean d (Tbl.set t i v) = true := by
  induction t with
  | nil => simp [Tbl.set, Tbl.lean, h]
  | cons p t ih =>
    obtain ⟨k, w⟩ := p
    simp only [Tbl.lean, Bool.and_eq_true, decide_eq_true_eq] at l
    simp only [Tbl.set]
    split
    · simp [Tbl.lean, h, l.1, l.2]
    · split
      · simp [Tbl.lean, h, l.2]
      · simp [Tbl.lean, l.1, ih l.2]

theorem Tbl.lean_del (d : α) (t : Tbl α) (i : Nat) (l : Tbl.lean d t = true) : Tbl.lean d (Tbl.del t i) = true := by
  induction t with
  | nil => rfl
  | cons p t ih =>
    obtain ⟨k, w⟩ := p
    simp only [Tbl.lean, Bool.and_eq_true, decide_eq_true_eq] at l
    simp only [Tbl.del]
    split
    · exact ih l.2
    · simp [Tbl.lean, l.1, ih l.2]

theorem Tbl.lean_filter (d : α) (t : Tbl α) (p : Nat × α → Bool) (l : Tbl.lean d t = true) : Tbl.lean d (t.filter p) = true := by
  induction t with
  | nil => rfl
  | cons q t ih =>
    obtain ⟨k, w⟩ := q
    simp only [Tbl.lean, Bool.and_eq_true, decide_eq_true_eq] at l
    simp only [List.filter]
    split
    · simp [Tbl.lean, l.1, ih l.2]
    · exact ih l.2

/-- A write keeps the canonical form. -/
theorem Tbl.canon_put (d : α) (t : Tbl α) (i : Nat) (v : α) (c : Tbl.canon d t = true) : Tbl.canon d (Tbl.put d t i v) = true := by
  simp only [Tbl.canon, Bool.and_eq_true] at c ⊢
  unfold Tbl.put
  split
  · exact ⟨Tbl.rising_del t i c.1, Tbl.lean_del d t i c.2⟩
  · next h => exact ⟨Tbl.rising_set t i v c.1, Tbl.lean_set d t i v h c.2⟩

/-- Taking entries out keeps the canonical form. -/
theorem Tbl.canon_filter (d : α) (t : Tbl α) (p : Nat × α → Bool) (c : Tbl.canon d t = true) : Tbl.canon d (t.filter p) = true := by
  simp only [Tbl.canon, Bool.and_eq_true] at c ⊢
  exact ⟨Tbl.rising_filter t p c.1, Tbl.lean_filter d t p c.2⟩

omit [DecidableEq α] in
theorem Tbl.get_above (d : α) (n i : Nat) (t : Tbl α) (h : i ≤ n) (a : Tbl.above n t = true) : Tbl.get d t i = d := by
  induction t with
  | nil => rfl
  | cons p t ih =>
    obtain ⟨k, w⟩ := p
    simp only [Tbl.above, Bool.and_eq_true, decide_eq_true_eq] at a
    have : i ≠ k := by omega
    simp [Tbl.get, this, ih a.2]

/-- Canonical tables that read the same everywhere are equal data. -/
theorem Tbl.canon_ext (d : α) (s t : Tbl α) (cs : Tbl.canon d s = true) (ct : Tbl.canon d t = true)
    (h : ∀ i, Tbl.get d s i = Tbl.get d t i) : s = t := by
  induction s generalizing t with
  | nil =>
    cases t with
    | nil => rfl
    | cons p t =>
      obtain ⟨k, w⟩ := p
      have e := h k
      simp [Tbl.get] at e
      simp [Tbl.canon, Tbl.lean, ← e] at ct
  | cons p s ih =>
    obtain ⟨k, w⟩ := p
    simp only [Tbl.canon, Tbl.rising, Tbl.lean, Bool.and_eq_true, decide_eq_true_eq] at cs
    cases t with
    | nil =>
      have e := h k
      simp [Tbl.get] at e
      exact absurd e cs.2.1
    | cons q t =>
      obtain ⟨l, x⟩ := q
      simp only [Tbl.canon, Tbl.rising, Tbl.lean, Bool.and_eq_true, decide_eq_true_eq] at ct
      have kl : k = l := by
        rcases Nat.lt_trichotomy k l with g | g | g
        · have e := h k
          have n : k ≠ l := by omega
          simp [Tbl.get, n, Tbl.get_above d l k t (by omega) ct.1.1] at e
          exact absurd e cs.2.1
        · exact g
        · have e := h l
          have n : l ≠ k := by omega
          simp [Tbl.get, n, Tbl.get_above d k l s (by omega) cs.1.1] at e
          exact absurd e.symm ct.2.1
      subst kl
      have wx : w = x := by simpa [Tbl.get] using h k
      subst wx
      have rest : s = t := by
        refine ih t (by simp [Tbl.canon, cs.1.2, cs.2.2]) (by simp [Tbl.canon, ct.1.2, ct.2.2]) fun i => ?_
        by_cases e : i = k
        · subst e
          rw [Tbl.get_above d i i s (Nat.le_refl i) cs.1.1, Tbl.get_above d i i t (Nat.le_refl i) ct.1.1]
        · simpa [Tbl.get, e] using h i
      rw [rest]

end Sys2Proof
end

