-- ==== Sys2Proof/Laws/State.lean ====
section
/-! SUPPORT. One lemma for each field of a record and each update of Machine/Ops that leaves the field alone, true by definition; and what
an update writes is what is read back. -/

namespace Sys2Proof.Machine

/-! ## State.setTenant -/

@[simp] theorem State.setTenant_cur (s : State) (c x : Nat) (t : Tenant) : (s.setTenant c x t).cur = s.cur := rfl
@[simp] theorem State.setTenant_inp (s : State) (c x : Nat) (t : Tenant) : (s.setTenant c x t).inp = s.inp := rfl
@[simp] theorem State.setTenant_agenda (s : State) (c x : Nat) (t : Tenant) : (s.setTenant c x t).agenda = s.agenda := rfl
@[simp] theorem State.setTenant_eager (s : State) (c x : Nat) (t : Tenant) : (s.setTenant c x t).eager = s.eager := rfl
@[simp] theorem State.setTenant_stalled (s : State) (c x : Nat) (t : Tenant) : (s.setTenant c x t).stalled = s.stalled := rfl
@[simp] theorem State.setTenant_solo (s : State) (c x : Nat) (t : Tenant) : (s.setTenant c x t).solo = s.solo := rfl
@[simp] theorem State.setTenant_look (s : State) (c x : Nat) (t : Tenant) : (s.setTenant c x t).look = s.look := rfl
@[simp] theorem State.setTenant_fresh (s : State) (c x : Nat) (t : Tenant) : (s.setTenant c x t).fresh = s.fresh := rfl
@[simp] theorem State.setTenant_icache (s : State) (c x : Nat) (t : Tenant) : (s.setTenant c x t).icache = s.icache := rfl
@[simp] theorem State.setTenant_cyc (s : State) (c x : Nat) (t : Tenant) : (s.setTenant c x t).cyc = s.cyc := rfl
@[simp] theorem State.setTenant_lostCsr (s : State) (c x : Nat) (t : Tenant) : (s.setTenant c x t).lostCsr = s.lostCsr := rfl
@[simp] theorem State.setTenant_beds (s : State) (c x : Nat) (t : Tenant) : (s.setTenant c x t).beds = s.beds := rfl
@[simp] theorem State.setTenant_workq (s : State) (c x : Nat) (t : Tenant) : (s.setTenant c x t).workq = s.workq := rfl
@[simp] theorem State.setTenant_xfers (s : State) (c x : Nat) (t : Tenant) : (s.setTenant c x t).xfers = s.xfers := rfl
@[simp] theorem State.setTenant_nextId (s : State) (c x : Nat) (t : Tenant) : (s.setTenant c x t).nextId = s.nextId := rfl
@[simp] theorem State.setTenant_mem (s : State) (c x : Nat) (t : Tenant) : (s.setTenant c x t).mem = s.mem := rfl
@[simp] theorem State.setTenant_vers (s : State) (c x : Nat) (t : Tenant) : (s.setTenant c x t).vers = s.vers := rfl
@[simp] theorem State.setTenant_poison (s : State) (c x : Nat) (t : Tenant) : (s.setTenant c x t).poison = s.poison := rfl
@[simp] theorem State.setTenant_landed (s : State) (c x : Nat) (t : Tenant) : (s.setTenant c x t).landed = s.landed := rfl
@[simp] theorem State.setTenant_tags (s : State) (c x : Nat) (t : Tenant) : (s.setTenant c x t).tags = s.tags := rfl
@[simp] theorem State.setTenant_keytag (s : State) (c x : Nat) (t : Tenant) : (s.setTenant c x t).keytag = s.keytag := rfl
@[simp] theorem State.setTenant_tcache (s : State) (c x : Nat) (t : Tenant) : (s.setTenant c x t).tcache = s.tcache := rfl
@[simp] theorem State.setTenant_ptes (s : State) (c x : Nat) (t : Tenant) : (s.setTenant c x t).ptes = s.ptes := rfl
@[simp] theorem State.setTenant_flights (s : State) (c x : Nat) (t : Tenant) : (s.setTenant c x t).flights = s.flights := rfl
@[simp] theorem State.setTenant_arrivals (s : State) (c x : Nat) (t : Tenant) : (s.setTenant c x t).arrivals = s.arrivals := rfl
@[simp] theorem State.setTenant_mcmds (s : State) (c x : Nat) (t : Tenant) : (s.setTenant c x t).mcmds = s.mcmds := rfl
@[simp] theorem State.setTenant_nelems (s : State) (c x : Nat) (t : Tenant) : (s.setTenant c x t).nelems = s.nelems := rfl
@[simp] theorem State.setTenant_ncredits (s : State) (c x : Nat) (t : Tenant) : (s.setTenant c x t).ncredits = s.ncredits := rfl
@[simp] theorem State.setTenant_walks (s : State) (c x : Nat) (t : Tenant) : (s.setTenant c x t).walks = s.walks := rfl
@[simp] theorem State.setTenant_rakeTurn (s : State) (c x : Nat) (t : Tenant) : (s.setTenant c x t).rakeTurn = s.rakeTurn := rfl
@[simp] theorem State.setTenant_rkslots (s : State) (c x : Nat) (t : Tenant) : (s.setTenant c x t).rkslots = s.rkslots := rfl
@[simp] theorem State.setTenant_rkloads (s : State) (c x : Nat) (t : Tenant) : (s.setTenant c x t).rkloads = s.rkloads := rfl
@[simp] theorem State.setTenant_watches (s : State) (c x : Nat) (t : Tenant) : (s.setTenant c x t).watches = s.watches := rfl
@[simp] theorem State.setTenant_held (s : State) (c x : Nat) (t : Tenant) : (s.setTenant c x t).held = s.held := rfl
@[simp] theorem State.setTenant_frecs (s : State) (c x : Nat) (t : Tenant) : (s.setTenant c x t).frecs = s.frecs := rfl
@[simp] theorem State.setTenant_peerReqs (s : State) (c x : Nat) (t : Tenant) : (s.setTenant c x t).peerReqs = s.peerReqs := rfl
@[simp] theorem State.setTenant_bands (s : State) (c x : Nat) (t : Tenant) : (s.setTenant c x t).bands = s.bands := rfl
@[simp] theorem State.setTenant_bars (s : State) (c x : Nat) (t : Tenant) : (s.setTenant c x t).bars = s.bars := rfl
@[simp] theorem State.setTenant_tasks (s : State) (c x : Nat) (t : Tenant) : (s.setTenant c x t).tasks = s.tasks := rfl
@[simp] theorem State.setTenant_launches (s : State) (c x : Nat) (t : Tenant) : (s.setTenant c x t).launches = s.launches := rfl
@[simp] theorem State.setTenant_lstats (s : State) (c x : Nat) (t : Tenant) : (s.setTenant c x t).lstats = s.lstats := rfl
@[simp] theorem State.setTenant_taken (s : State) (c x : Nat) (t : Tenant) : (s.setTenant c x t).taken = s.taken := rfl
@[simp] theorem State.setTenant_images (s : State) (c x : Nat) (t : Tenant) : (s.setTenant c x t).images = s.images := rfl
@[simp] theorem State.setTenant_parts (s : State) (c x : Nat) (t : Tenant) : (s.setTenant c x t).parts = s.parts := rfl
@[simp] theorem State.setTenant_time (s : State) (c x : Nat) (t : Tenant) : (s.setTenant c x t).time = s.time := rfl
@[simp] theorem State.setTenant_aclk (s : State) (c x : Nat) (t : Tenant) : (s.setTenant c x t).aclk = s.aclk := rfl
@[simp] theorem State.setTenant_aclkStep (s : State) (c x : Nat) (t : Tenant) : (s.setTenant c x t).aclkStep = s.aclkStep := rfl
@[simp] theorem State.setTenant_aclkMax (s : State) (c x : Nat) (t : Tenant) : (s.setTenant c x t).aclkMax = s.aclkMax := rfl
@[simp] theorem State.setTenant_thermal (s : State) (c x : Nat) (t : Tenant) : (s.setTenant c x t).thermal = s.thermal := rfl
@[simp] theorem State.setTenant_failedLinks (s : State) (c x : Nat) (t : Tenant) : (s.setTenant c x t).failedLinks = s.failedLinks := rfl
@[simp] theorem State.setTenant_cfail (s : State) (c x : Nat) (t : Tenant) : (s.setTenant c x t).cfail = s.cfail := rfl
@[simp] theorem State.setTenant_failedStations (s : State) (c x : Nat) (t : Tenant) : (s.setTenant c x t).failedStations = s.failedStations := rfl
@[simp] theorem State.setTenant_t2empty (s : State) (c x : Nat) (t : Tenant) : (s.setTenant c x t).t2empty = s.t2empty := rfl
@[simp] theorem State.setTenant_s2invaddr (s : State) (c x : Nat) (t : Tenant) : (s.setTenant c x t).s2invaddr = s.s2invaddr := rfl
@[simp] theorem State.setTenant_s2invstat (s : State) (c x : Nat) (t : Tenant) : (s.setTenant c x t).s2invstat = s.s2invstat := rfl
@[simp] theorem State.setTenant_hdec (s : State) (c x : Nat) (t : Tenant) : (s.setTenant c x t).hdec = s.hdec := rfl
@[simp] theorem State.setTenant_twpair (s : State) (c x : Nat) (t : Tenant) : (s.setTenant c x t).twpair = s.twpair := rfl
@[simp] theorem State.setTenant_keyGen (s : State) (c x : Nat) (t : Tenant) : (s.setTenant c x t).keyGen = s.keyGen := rfl
@[simp] theorem State.setTenant_nextLogKey (s : State) (c x : Nat) (t : Tenant) : (s.setTenant c x t).nextLogKey = s.nextLogKey := rfl
@[simp] theorem State.setTenant_idIndex (s : State) (c x : Nat) (t : Tenant) : (s.setTenant c x t).idIndex = s.idIndex := rfl
@[simp] theorem State.setTenant_corrected (s : State) (c x : Nat) (t : Tenant) : (s.setTenant c x t).corrected = s.corrected := rfl
@[simp] theorem State.setTenant_mbq (s : State) (c x : Nat) (t : Tenant) : (s.setTenant c x t).mbq = s.mbq := rfl
@[simp] theorem State.setTenant_hostHeld (s : State) (c x : Nat) (t : Tenant) : (s.setTenant c x t).hostHeld = s.hostHeld := rfl
@[simp] theorem State.setTenant_hostOut (s : State) (c x : Nat) (t : Tenant) : (s.setTenant c x t).hostOut = s.hostOut := rfl
@[simp] theorem State.setTenant_peerOut (s : State) (c x : Nat) (t : Tenant) : (s.setTenant c x t).peerOut = s.peerOut := rfl
@[simp] theorem State.setTenant_attests (s : State) (c x : Nat) (t : Tenant) : (s.setTenant c x t).attests = s.attests := rfl

/-! ## State.modTenant -/

@[simp] theorem State.modTenant_cur (s : State) (c x : Nat) (f : Tenant → Tenant) : (s.modTenant c x f).cur = s.cur := rfl
@[simp] theorem State.modTenant_inp (s : State) (c x : Nat) (f : Tenant → Tenant) : (s.modTenant c x f).inp = s.inp := rfl
@[simp] theorem State.modTenant_agenda (s : State) (c x : Nat) (f : Tenant → Tenant) : (s.modTenant c x f).agenda = s.agenda := rfl
@[simp] theorem State.modTenant_eager (s : State) (c x : Nat) (f : Tenant → Tenant) : (s.modTenant c x f).eager = s.eager := rfl
@[simp] theorem State.modTenant_stalled (s : State) (c x : Nat) (f : Tenant → Tenant) : (s.modTenant c x f).stalled = s.stalled := rfl
@[simp] theorem State.modTenant_solo (s : State) (c x : Nat) (f : Tenant → Tenant) : (s.modTenant c x f).solo = s.solo := rfl
@[simp] theorem State.modTenant_look (s : State) (c x : Nat) (f : Tenant → Tenant) : (s.modTenant c x f).look = s.look := rfl
@[simp] theorem State.modTenant_fresh (s : State) (c x : Nat) (f : Tenant → Tenant) : (s.modTenant c x f).fresh = s.fresh := rfl
@[simp] theorem State.modTenant_icache (s : State) (c x : Nat) (f : Tenant → Tenant) : (s.modTenant c x f).icache = s.icache := rfl
@[simp] theorem State.modTenant_cyc (s : State) (c x : Nat) (f : Tenant → Tenant) : (s.modTenant c x f).cyc = s.cyc := rfl
@[simp] theorem State.modTenant_lostCsr (s : State) (c x : Nat) (f : Tenant → Tenant) : (s.modTenant c x f).lostCsr = s.lostCsr := rfl
@[simp] theorem State.modTenant_beds (s : State) (c x : Nat) (f : Tenant → Tenant) : (s.modTenant c x f).beds = s.beds := rfl
@[simp] theorem State.modTenant_workq (s : State) (c x : Nat) (f : Tenant → Tenant) : (s.modTenant c x f).workq = s.workq := rfl
@[simp] theorem State.modTenant_xfers (s : State) (c x : Nat) (f : Tenant → Tenant) : (s.modTenant c x f).xfers = s.xfers := rfl
@[simp] theorem State.modTenant_nextId (s : State) (c x : Nat) (f : Tenant → Tenant) : (s.modTenant c x f).nextId = s.nextId := rfl
@[simp] theorem State.modTenant_mem (s : State) (c x : Nat) (f : Tenant → Tenant) : (s.modTenant c x f).mem = s.mem := rfl
@[simp] theorem State.modTenant_vers (s : State) (c x : Nat) (f : Tenant → Tenant) : (s.modTenant c x f).vers = s.vers := rfl
@[simp] theorem State.modTenant_poison (s : State) (c x : Nat) (f : Tenant → Tenant) : (s.modTenant c x f).poison = s.poison := rfl
@[simp] theorem State.modTenant_landed (s : State) (c x : Nat) (f : Tenant → Tenant) : (s.modTenant c x f).landed = s.landed := rfl
@[simp] theorem State.modTenant_tags (s : State) (c x : Nat) (f : Tenant → Tenant) : (s.modTenant c x f).tags = s.tags := rfl
@[simp] theorem State.modTenant_keytag (s : State) (c x : Nat) (f : Tenant → Tenant) : (s.modTenant c x f).keytag = s.keytag := rfl
@[simp] theorem State.modTenant_tcache (s : State) (c x : Nat) (f : Tenant → Tenant) : (s.modTenant c x f).tcache = s.tcache := rfl
@[simp] theorem State.modTenant_ptes (s : State) (c x : Nat) (f : Tenant → Tenant) : (s.modTenant c x f).ptes = s.ptes := rfl
@[simp] theorem State.modTenant_flights (s : State) (c x : Nat) (f : Tenant → Tenant) : (s.modTenant c x f).flights = s.flights := rfl
@[simp] theorem State.modTenant_arrivals (s : State) (c x : Nat) (f : Tenant → Tenant) : (s.modTenant c x f).arrivals = s.arrivals := rfl
@[simp] theorem State.modTenant_mcmds (s : State) (c x : Nat) (f : Tenant → Tenant) : (s.modTenant c x f).mcmds = s.mcmds := rfl
@[simp] theorem State.modTenant_nelems (s : State) (c x : Nat) (f : Tenant → Tenant) : (s.modTenant c x f).nelems = s.nelems := rfl
@[simp] theorem State.modTenant_ncredits (s : State) (c x : Nat) (f : Tenant → Tenant) : (s.modTenant c x f).ncredits = s.ncredits := rfl
@[simp] theorem State.modTenant_walks (s : State) (c x : Nat) (f : Tenant → Tenant) : (s.modTenant c x f).walks = s.walks := rfl
@[simp] theorem State.modTenant_rakeTurn (s : State) (c x : Nat) (f : Tenant → Tenant) : (s.modTenant c x f).rakeTurn = s.rakeTurn := rfl
@[simp] theorem State.modTenant_rkslots (s : State) (c x : Nat) (f : Tenant → Tenant) : (s.modTenant c x f).rkslots = s.rkslots := rfl
@[simp] theorem State.modTenant_rkloads (s : State) (c x : Nat) (f : Tenant → Tenant) : (s.modTenant c x f).rkloads = s.rkloads := rfl
@[simp] theorem State.modTenant_watches (s : State) (c x : Nat) (f : Tenant → Tenant) : (s.modTenant c x f).watches = s.watches := rfl
@[simp] theorem State.modTenant_held (s : State) (c x : Nat) (f : Tenant → Tenant) : (s.modTenant c x f).held = s.held := rfl
@[simp] theorem State.modTenant_frecs (s : State) (c x : Nat) (f : Tenant → Tenant) : (s.modTenant c x f).frecs = s.frecs := rfl
@[simp] theorem State.modTenant_peerReqs (s : State) (c x : Nat) (f : Tenant → Tenant) : (s.modTenant c x f).peerReqs = s.peerReqs := rfl
@[simp] theorem State.modTenant_bands (s : State) (c x : Nat) (f : Tenant → Tenant) : (s.modTenant c x f).bands = s.bands := rfl
@[simp] theorem State.modTenant_bars (s : State) (c x : Nat) (f : Tenant → Tenant) : (s.modTenant c x f).bars = s.bars := rfl
@[simp] theorem State.modTenant_tasks (s : State) (c x : Nat) (f : Tenant → Tenant) : (s.modTenant c x f).tasks = s.tasks := rfl
@[simp] theorem State.modTenant_launches (s : State) (c x : Nat) (f : Tenant → Tenant) : (s.modTenant c x f).launches = s.launches := rfl
@[simp] theorem State.modTenant_lstats (s : State) (c x : Nat) (f : Tenant → Tenant) : (s.modTenant c x f).lstats = s.lstats := rfl
@[simp] theorem State.modTenant_taken (s : State) (c x : Nat) (f : Tenant → Tenant) : (s.modTenant c x f).taken = s.taken := rfl
@[simp] theorem State.modTenant_images (s : State) (c x : Nat) (f : Tenant → Tenant) : (s.modTenant c x f).images = s.images := rfl
@[simp] theorem State.modTenant_parts (s : State) (c x : Nat) (f : Tenant → Tenant) : (s.modTenant c x f).parts = s.parts := rfl
@[simp] theorem State.modTenant_time (s : State) (c x : Nat) (f : Tenant → Tenant) : (s.modTenant c x f).time = s.time := rfl
@[simp] theorem State.modTenant_aclk (s : State) (c x : Nat) (f : Tenant → Tenant) : (s.modTenant c x f).aclk = s.aclk := rfl
@[simp] theorem State.modTenant_aclkStep (s : State) (c x : Nat) (f : Tenant → Tenant) : (s.modTenant c x f).aclkStep = s.aclkStep := rfl
@[simp] theorem State.modTenant_aclkMax (s : State) (c x : Nat) (f : Tenant → Tenant) : (s.modTenant c x f).aclkMax = s.aclkMax := rfl
@[simp] theorem State.modTenant_thermal (s : State) (c x : Nat) (f : Tenant → Tenant) : (s.modTenant c x f).thermal = s.thermal := rfl
@[simp] theorem State.modTenant_failedLinks (s : State) (c x : Nat) (f : Tenant → Tenant) : (s.modTenant c x f).failedLinks = s.failedLinks := rfl
@[simp] theorem State.modTenant_cfail (s : State) (c x : Nat) (f : Tenant → Tenant) : (s.modTenant c x f).cfail = s.cfail := rfl
@[simp] theorem State.modTenant_failedStations (s : State) (c x : Nat) (f : Tenant → Tenant) : (s.modTenant c x f).failedStations = s.failedStations := rfl
@[simp] theorem State.modTenant_t2empty (s : State) (c x : Nat) (f : Tenant → Tenant) : (s.modTenant c x f).t2empty = s.t2empty := rfl
@[simp] theorem State.modTenant_s2invaddr (s : State) (c x : Nat) (f : Tenant → Tenant) : (s.modTenant c x f).s2invaddr = s.s2invaddr := rfl
@[simp] theorem State.modTenant_s2invstat (s : State) (c x : Nat) (f : Tenant → Tenant) : (s.modTenant c x f).s2invstat = s.s2invstat := rfl
@[simp] theorem State.modTenant_hdec (s : State) (c x : Nat) (f : Tenant → Tenant) : (s.modTenant c x f).hdec = s.hdec := rfl
@[simp] theorem State.modTenant_twpair (s : State) (c x : Nat) (f : Tenant → Tenant) : (s.modTenant c x f).twpair = s.twpair := rfl
@[simp] theorem State.modTenant_keyGen (s : State) (c x : Nat) (f : Tenant → Tenant) : (s.modTenant c x f).keyGen = s.keyGen := rfl
@[simp] theorem State.modTenant_nextLogKey (s : State) (c x : Nat) (f : Tenant → Tenant) : (s.modTenant c x f).nextLogKey = s.nextLogKey := rfl
@[simp] theorem State.modTenant_idIndex (s : State) (c x : Nat) (f : Tenant → Tenant) : (s.modTenant c x f).idIndex = s.idIndex := rfl
@[simp] theorem State.modTenant_corrected (s : State) (c x : Nat) (f : Tenant → Tenant) : (s.modTenant c x f).corrected = s.corrected := rfl
@[simp] theorem State.modTenant_mbq (s : State) (c x : Nat) (f : Tenant → Tenant) : (s.modTenant c x f).mbq = s.mbq := rfl
@[simp] theorem State.modTenant_hostHeld (s : State) (c x : Nat) (f : Tenant → Tenant) : (s.modTenant c x f).hostHeld = s.hostHeld := rfl
@[simp] theorem State.modTenant_hostOut (s : State) (c x : Nat) (f : Tenant → Tenant) : (s.modTenant c x f).hostOut = s.hostOut := rfl
@[simp] theorem State.modTenant_peerOut (s : State) (c x : Nat) (f : Tenant → Tenant) : (s.modTenant c x f).peerOut = s.peerOut := rfl
@[simp] theorem State.modTenant_attests (s : State) (c x : Nat) (f : Tenant → Tenant) : (s.modTenant c x f).attests = s.attests := rfl

/-! ## State.setRcx -/

@[simp] theorem State.setRcx_cur (s : State) (w : Who) (r : RegCtx) : (s.setRcx w r).cur = s.cur := rfl
@[simp] theorem State.setRcx_inp (s : State) (w : Who) (r : RegCtx) : (s.setRcx w r).inp = s.inp := rfl
@[simp] theorem State.setRcx_agenda (s : State) (w : Who) (r : RegCtx) : (s.setRcx w r).agenda = s.agenda := rfl
@[simp] theorem State.setRcx_eager (s : State) (w : Who) (r : RegCtx) : (s.setRcx w r).eager = s.eager := rfl
@[simp] theorem State.setRcx_stalled (s : State) (w : Who) (r : RegCtx) : (s.setRcx w r).stalled = s.stalled := rfl
@[simp] theorem State.setRcx_solo (s : State) (w : Who) (r : RegCtx) : (s.setRcx w r).solo = s.solo := rfl
@[simp] theorem State.setRcx_look (s : State) (w : Who) (r : RegCtx) : (s.setRcx w r).look = s.look := rfl
@[simp] theorem State.setRcx_fresh (s : State) (w : Who) (r : RegCtx) : (s.setRcx w r).fresh = s.fresh := rfl
@[simp] theorem State.setRcx_icache (s : State) (w : Who) (r : RegCtx) : (s.setRcx w r).icache = s.icache := rfl
@[simp] theorem State.setRcx_cyc (s : State) (w : Who) (r : RegCtx) : (s.setRcx w r).cyc = s.cyc := rfl
@[simp] theorem State.setRcx_lostCsr (s : State) (w : Who) (r : RegCtx) : (s.setRcx w r).lostCsr = s.lostCsr := rfl
@[simp] theorem State.setRcx_beds (s : State) (w : Who) (r : RegCtx) : (s.setRcx w r).beds = s.beds := rfl
@[simp] theorem State.setRcx_workq (s : State) (w : Who) (r : RegCtx) : (s.setRcx w r).workq = s.workq := rfl
@[simp] theorem State.setRcx_xfers (s : State) (w : Who) (r : RegCtx) : (s.setRcx w r).xfers = s.xfers := rfl
@[simp] theorem State.setRcx_nextId (s : State) (w : Who) (r : RegCtx) : (s.setRcx w r).nextId = s.nextId := rfl
@[simp] theorem State.setRcx_mem (s : State) (w : Who) (r : RegCtx) : (s.setRcx w r).mem = s.mem := rfl
@[simp] theorem State.setRcx_vers (s : State) (w : Who) (r : RegCtx) : (s.setRcx w r).vers = s.vers := rfl
@[simp] theorem State.setRcx_poison (s : State) (w : Who) (r : RegCtx) : (s.setRcx w r).poison = s.poison := rfl
@[simp] theorem State.setRcx_landed (s : State) (w : Who) (r : RegCtx) : (s.setRcx w r).landed = s.landed := rfl
@[simp] theorem State.setRcx_tags (s : State) (w : Who) (r : RegCtx) : (s.setRcx w r).tags = s.tags := rfl
@[simp] theorem State.setRcx_keytag (s : State) (w : Who) (r : RegCtx) : (s.setRcx w r).keytag = s.keytag := rfl
@[simp] theorem State.setRcx_tcache (s : State) (w : Who) (r : RegCtx) : (s.setRcx w r).tcache = s.tcache := rfl
@[simp] theorem State.setRcx_ptes (s : State) (w : Who) (r : RegCtx) : (s.setRcx w r).ptes = s.ptes := rfl
@[simp] theorem State.setRcx_flights (s : State) (w : Who) (r : RegCtx) : (s.setRcx w r).flights = s.flights := rfl
@[simp] theorem State.setRcx_arrivals (s : State) (w : Who) (r : RegCtx) : (s.setRcx w r).arrivals = s.arrivals := rfl
@[simp] theorem State.setRcx_mcmds (s : State) (w : Who) (r : RegCtx) : (s.setRcx w r).mcmds = s.mcmds := rfl
@[simp] theorem State.setRcx_nelems (s : State) (w : Who) (r : RegCtx) : (s.setRcx w r).nelems = s.nelems := rfl
@[simp] theorem State.setRcx_ncredits (s : State) (w : Who) (r : RegCtx) : (s.setRcx w r).ncredits = s.ncredits := rfl
@[simp] theorem State.setRcx_walks (s : State) (w : Who) (r : RegCtx) : (s.setRcx w r).walks = s.walks := rfl
@[simp] theorem State.setRcx_rakeTurn (s : State) (w : Who) (r : RegCtx) : (s.setRcx w r).rakeTurn = s.rakeTurn := rfl
@[simp] theorem State.setRcx_rkslots (s : State) (w : Who) (r : RegCtx) : (s.setRcx w r).rkslots = s.rkslots := rfl
@[simp] theorem State.setRcx_rkloads (s : State) (w : Who) (r : RegCtx) : (s.setRcx w r).rkloads = s.rkloads := rfl
@[simp] theorem State.setRcx_watches (s : State) (w : Who) (r : RegCtx) : (s.setRcx w r).watches = s.watches := rfl
@[simp] theorem State.setRcx_held (s : State) (w : Who) (r : RegCtx) : (s.setRcx w r).held = s.held := rfl
@[simp] theorem State.setRcx_frecs (s : State) (w : Who) (r : RegCtx) : (s.setRcx w r).frecs = s.frecs := rfl
@[simp] theorem State.setRcx_peerReqs (s : State) (w : Who) (r : RegCtx) : (s.setRcx w r).peerReqs = s.peerReqs := rfl
@[simp] theorem State.setRcx_bands (s : State) (w : Who) (r : RegCtx) : (s.setRcx w r).bands = s.bands := rfl
@[simp] theorem State.setRcx_bars (s : State) (w : Who) (r : RegCtx) : (s.setRcx w r).bars = s.bars := rfl
@[simp] theorem State.setRcx_tasks (s : State) (w : Who) (r : RegCtx) : (s.setRcx w r).tasks = s.tasks := rfl
@[simp] theorem State.setRcx_launches (s : State) (w : Who) (r : RegCtx) : (s.setRcx w r).launches = s.launches := rfl
@[simp] theorem State.setRcx_lstats (s : State) (w : Who) (r : RegCtx) : (s.setRcx w r).lstats = s.lstats := rfl
@[simp] theorem State.setRcx_taken (s : State) (w : Who) (r : RegCtx) : (s.setRcx w r).taken = s.taken := rfl
@[simp] theorem State.setRcx_images (s : State) (w : Who) (r : RegCtx) : (s.setRcx w r).images = s.images := rfl
@[simp] theorem State.setRcx_parts (s : State) (w : Who) (r : RegCtx) : (s.setRcx w r).parts = s.parts := rfl
@[simp] theorem State.setRcx_time (s : State) (w : Who) (r : RegCtx) : (s.setRcx w r).time = s.time := rfl
@[simp] theorem State.setRcx_aclk (s : State) (w : Who) (r : RegCtx) : (s.setRcx w r).aclk = s.aclk := rfl
@[simp] theorem State.setRcx_aclkStep (s : State) (w : Who) (r : RegCtx) : (s.setRcx w r).aclkStep = s.aclkStep := rfl
@[simp] theorem State.setRcx_aclkMax (s : State) (w : Who) (r : RegCtx) : (s.setRcx w r).aclkMax = s.aclkMax := rfl
@[simp] theorem State.setRcx_thermal (s : State) (w : Who) (r : RegCtx) : (s.setRcx w r).thermal = s.thermal := rfl
@[simp] theorem State.setRcx_failedLinks (s : State) (w : Who) (r : RegCtx) : (s.setRcx w r).failedLinks = s.failedLinks := rfl
@[simp] theorem State.setRcx_cfail (s : State) (w : Who) (r : RegCtx) : (s.setRcx w r).cfail = s.cfail := rfl
@[simp] theorem State.setRcx_failedStations (s : State) (w : Who) (r : RegCtx) : (s.setRcx w r).failedStations = s.failedStations := rfl
@[simp] theorem State.setRcx_t2empty (s : State) (w : Who) (r : RegCtx) : (s.setRcx w r).t2empty = s.t2empty := rfl
@[simp] theorem State.setRcx_s2invaddr (s : State) (w : Who) (r : RegCtx) : (s.setRcx w r).s2invaddr = s.s2invaddr := rfl
@[simp] theorem State.setRcx_s2invstat (s : State) (w : Who) (r : RegCtx) : (s.setRcx w r).s2invstat = s.s2invstat := rfl
@[simp] theorem State.setRcx_hdec (s : State) (w : Who) (r : RegCtx) : (s.setRcx w r).hdec = s.hdec := rfl
@[simp] theorem State.setRcx_twpair (s : State) (w : Who) (r : RegCtx) : (s.setRcx w r).twpair = s.twpair := rfl
@[simp] theorem State.setRcx_keyGen (s : State) (w : Who) (r : RegCtx) : (s.setRcx w r).keyGen = s.keyGen := rfl
@[simp] theorem State.setRcx_nextLogKey (s : State) (w : Who) (r : RegCtx) : (s.setRcx w r).nextLogKey = s.nextLogKey := rfl
@[simp] theorem State.setRcx_idIndex (s : State) (w : Who) (r : RegCtx) : (s.setRcx w r).idIndex = s.idIndex := rfl
@[simp] theorem State.setRcx_corrected (s : State) (w : Who) (r : RegCtx) : (s.setRcx w r).corrected = s.corrected := rfl
@[simp] theorem State.setRcx_mbq (s : State) (w : Who) (r : RegCtx) : (s.setRcx w r).mbq = s.mbq := rfl
@[simp] theorem State.setRcx_hostHeld (s : State) (w : Who) (r : RegCtx) : (s.setRcx w r).hostHeld = s.hostHeld := rfl
@[simp] theorem State.setRcx_hostOut (s : State) (w : Who) (r : RegCtx) : (s.setRcx w r).hostOut = s.hostOut := rfl
@[simp] theorem State.setRcx_peerOut (s : State) (w : Who) (r : RegCtx) : (s.setRcx w r).peerOut = s.peerOut := rfl
@[simp] theorem State.setRcx_attests (s : State) (w : Who) (r : RegCtx) : (s.setRcx w r).attests = s.attests := rfl

/-! ## State.modRcx -/

@[simp] theorem State.modRcx_cur (s : State) (w : Who) (f : RegCtx → RegCtx) : (s.modRcx w f).cur = s.cur := rfl
@[simp] theorem State.modRcx_inp (s : State) (w : Who) (f : RegCtx → RegCtx) : (s.modRcx w f).inp = s.inp := rfl
@[simp] theorem State.modRcx_agenda (s : State) (w : Who) (f : RegCtx → RegCtx) : (s.modRcx w f).agenda = s.agenda := rfl
@[simp] theorem State.modRcx_eager (s : State) (w : Who) (f : RegCtx → RegCtx) : (s.modRcx w f).eager = s.eager := rfl
@[simp] theorem State.modRcx_stalled (s : State) (w : Who) (f : RegCtx → RegCtx) : (s.modRcx w f).stalled = s.stalled := rfl
@[simp] theorem State.modRcx_solo (s : State) (w : Who) (f : RegCtx → RegCtx) : (s.modRcx w f).solo = s.solo := rfl
@[simp] theorem State.modRcx_look (s : State) (w : Who) (f : RegCtx → RegCtx) : (s.modRcx w f).look = s.look := rfl
@[simp] theorem State.modRcx_fresh (s : State) (w : Who) (f : RegCtx → RegCtx) : (s.modRcx w f).fresh = s.fresh := rfl
@[simp] theorem State.modRcx_icache (s : State) (w : Who) (f : RegCtx → RegCtx) : (s.modRcx w f).icache = s.icache := rfl
@[simp] theorem State.modRcx_cyc (s : State) (w : Who) (f : RegCtx → RegCtx) : (s.modRcx w f).cyc = s.cyc := rfl
@[simp] theorem State.modRcx_lostCsr (s : State) (w : Who) (f : RegCtx → RegCtx) : (s.modRcx w f).lostCsr = s.lostCsr := rfl
@[simp] theorem State.modRcx_beds (s : State) (w : Who) (f : RegCtx → RegCtx) : (s.modRcx w f).beds = s.beds := rfl
@[simp] theorem State.modRcx_workq (s : State) (w : Who) (f : RegCtx → RegCtx) : (s.modRcx w f).workq = s.workq := rfl
@[simp] theorem State.modRcx_xfers (s : State) (w : Who) (f : RegCtx → RegCtx) : (s.modRcx w f).xfers = s.xfers := rfl
@[simp] theorem State.modRcx_nextId (s : State) (w : Who) (f : RegCtx → RegCtx) : (s.modRcx w f).nextId = s.nextId := rfl
@[simp] theorem State.modRcx_mem (s : State) (w : Who) (f : RegCtx → RegCtx) : (s.modRcx w f).mem = s.mem := rfl
@[simp] theorem State.modRcx_vers (s : State) (w : Who) (f : RegCtx → RegCtx) : (s.modRcx w f).vers = s.vers := rfl
@[simp] theorem State.modRcx_poison (s : State) (w : Who) (f : RegCtx → RegCtx) : (s.modRcx w f).poison = s.poison := rfl
@[simp] theorem State.modRcx_landed (s : State) (w : Who) (f : RegCtx → RegCtx) : (s.modRcx w f).landed = s.landed := rfl
@[simp] theorem State.modRcx_tags (s : State) (w : Who) (f : RegCtx → RegCtx) : (s.modRcx w f).tags = s.tags := rfl
@[simp] theorem State.modRcx_keytag (s : State) (w : Who) (f : RegCtx → RegCtx) : (s.modRcx w f).keytag = s.keytag := rfl
@[simp] theorem State.modRcx_tcache (s : State) (w : Who) (f : RegCtx → RegCtx) : (s.modRcx w f).tcache = s.tcache := rfl
@[simp] theorem State.modRcx_ptes (s : State) (w : Who) (f : RegCtx → RegCtx) : (s.modRcx w f).ptes = s.ptes := rfl
@[simp] theorem State.modRcx_flights (s : State) (w : Who) (f : RegCtx → RegCtx) : (s.modRcx w f).flights = s.flights := rfl
@[simp] theorem State.modRcx_arrivals (s : State) (w : Who) (f : RegCtx → RegCtx) : (s.modRcx w f).arrivals = s.arrivals := rfl
@[simp] theorem State.modRcx_mcmds (s : State) (w : Who) (f : RegCtx → RegCtx) : (s.modRcx w f).mcmds = s.mcmds := rfl
@[simp] theorem State.modRcx_nelems (s : State) (w : Who) (f : RegCtx → RegCtx) : (s.modRcx w f).nelems = s.nelems := rfl
@[simp] theorem State.modRcx_ncredits (s : State) (w : Who) (f : RegCtx → RegCtx) : (s.modRcx w f).ncredits = s.ncredits := rfl
@[simp] theorem State.modRcx_walks (s : State) (w : Who) (f : RegCtx → RegCtx) : (s.modRcx w f).walks = s.walks := rfl
@[simp] theorem State.modRcx_rakeTurn (s : State) (w : Who) (f : RegCtx → RegCtx) : (s.modRcx w f).rakeTurn = s.rakeTurn := rfl
@[simp] theorem State.modRcx_rkslots (s : State) (w : Who) (f : RegCtx → RegCtx) : (s.modRcx w f).rkslots = s.rkslots := rfl
@[simp] theorem State.modRcx_rkloads (s : State) (w : Who) (f : RegCtx → RegCtx) : (s.modRcx w f).rkloads = s.rkloads := rfl
@[simp] theorem State.modRcx_watches (s : State) (w : Who) (f : RegCtx → RegCtx) : (s.modRcx w f).watches = s.watches := rfl
@[simp] theorem State.modRcx_held (s : State) (w : Who) (f : RegCtx → RegCtx) : (s.modRcx w f).held = s.held := rfl
@[simp] theorem State.modRcx_frecs (s : State) (w : Who) (f : RegCtx → RegCtx) : (s.modRcx w f).frecs = s.frecs := rfl
@[simp] theorem State.modRcx_peerReqs (s : State) (w : Who) (f : RegCtx → RegCtx) : (s.modRcx w f).peerReqs = s.peerReqs := rfl
@[simp] theorem State.modRcx_bands (s : State) (w : Who) (f : RegCtx → RegCtx) : (s.modRcx w f).bands = s.bands := rfl
@[simp] theorem State.modRcx_bars (s : State) (w : Who) (f : RegCtx → RegCtx) : (s.modRcx w f).bars = s.bars := rfl
@[simp] theorem State.modRcx_tasks (s : State) (w : Who) (f : RegCtx → RegCtx) : (s.modRcx w f).tasks = s.tasks := rfl
@[simp] theorem State.modRcx_launches (s : State) (w : Who) (f : RegCtx → RegCtx) : (s.modRcx w f).launches = s.launches := rfl
@[simp] theorem State.modRcx_lstats (s : State) (w : Who) (f : RegCtx → RegCtx) : (s.modRcx w f).lstats = s.lstats := rfl
@[simp] theorem State.modRcx_taken (s : State) (w : Who) (f : RegCtx → RegCtx) : (s.modRcx w f).taken = s.taken := rfl
@[simp] theorem State.modRcx_images (s : State) (w : Who) (f : RegCtx → RegCtx) : (s.modRcx w f).images = s.images := rfl
@[simp] theorem State.modRcx_parts (s : State) (w : Who) (f : RegCtx → RegCtx) : (s.modRcx w f).parts = s.parts := rfl
@[simp] theorem State.modRcx_time (s : State) (w : Who) (f : RegCtx → RegCtx) : (s.modRcx w f).time = s.time := rfl
@[simp] theorem State.modRcx_aclk (s : State) (w : Who) (f : RegCtx → RegCtx) : (s.modRcx w f).aclk = s.aclk := rfl
@[simp] theorem State.modRcx_aclkStep (s : State) (w : Who) (f : RegCtx → RegCtx) : (s.modRcx w f).aclkStep = s.aclkStep := rfl
@[simp] theorem State.modRcx_aclkMax (s : State) (w : Who) (f : RegCtx → RegCtx) : (s.modRcx w f).aclkMax = s.aclkMax := rfl
@[simp] theorem State.modRcx_thermal (s : State) (w : Who) (f : RegCtx → RegCtx) : (s.modRcx w f).thermal = s.thermal := rfl
@[simp] theorem State.modRcx_failedLinks (s : State) (w : Who) (f : RegCtx → RegCtx) : (s.modRcx w f).failedLinks = s.failedLinks := rfl
@[simp] theorem State.modRcx_cfail (s : State) (w : Who) (f : RegCtx → RegCtx) : (s.modRcx w f).cfail = s.cfail := rfl
@[simp] theorem State.modRcx_failedStations (s : State) (w : Who) (f : RegCtx → RegCtx) : (s.modRcx w f).failedStations = s.failedStations := rfl
@[simp] theorem State.modRcx_t2empty (s : State) (w : Who) (f : RegCtx → RegCtx) : (s.modRcx w f).t2empty = s.t2empty := rfl
@[simp] theorem State.modRcx_s2invaddr (s : State) (w : Who) (f : RegCtx → RegCtx) : (s.modRcx w f).s2invaddr = s.s2invaddr := rfl
@[simp] theorem State.modRcx_s2invstat (s : State) (w : Who) (f : RegCtx → RegCtx) : (s.modRcx w f).s2invstat = s.s2invstat := rfl
@[simp] theorem State.modRcx_hdec (s : State) (w : Who) (f : RegCtx → RegCtx) : (s.modRcx w f).hdec = s.hdec := rfl
@[simp] theorem State.modRcx_twpair (s : State) (w : Who) (f : RegCtx → RegCtx) : (s.modRcx w f).twpair = s.twpair := rfl
@[simp] theorem State.modRcx_keyGen (s : State) (w : Who) (f : RegCtx → RegCtx) : (s.modRcx w f).keyGen = s.keyGen := rfl
@[simp] theorem State.modRcx_nextLogKey (s : State) (w : Who) (f : RegCtx → RegCtx) : (s.modRcx w f).nextLogKey = s.nextLogKey := rfl
@[simp] theorem State.modRcx_idIndex (s : State) (w : Who) (f : RegCtx → RegCtx) : (s.modRcx w f).idIndex = s.idIndex := rfl
@[simp] theorem State.modRcx_corrected (s : State) (w : Who) (f : RegCtx → RegCtx) : (s.modRcx w f).corrected = s.corrected := rfl
@[simp] theorem State.modRcx_mbq (s : State) (w : Who) (f : RegCtx → RegCtx) : (s.modRcx w f).mbq = s.mbq := rfl
@[simp] theorem State.modRcx_hostHeld (s : State) (w : Who) (f : RegCtx → RegCtx) : (s.modRcx w f).hostHeld = s.hostHeld := rfl
@[simp] theorem State.modRcx_hostOut (s : State) (w : Who) (f : RegCtx → RegCtx) : (s.modRcx w f).hostOut = s.hostOut := rfl
@[simp] theorem State.modRcx_peerOut (s : State) (w : Who) (f : RegCtx → RegCtx) : (s.modRcx w f).peerOut = s.peerOut := rfl
@[simp] theorem State.modRcx_attests (s : State) (w : Who) (f : RegCtx → RegCtx) : (s.modRcx w f).attests = s.attests := rfl

/-! ## State.setX -/

@[simp] theorem State.setX_cur (s : State) (i : Nat) (v : Word) : (s.setX i v).cur = s.cur := rfl
@[simp] theorem State.setX_inp (s : State) (i : Nat) (v : Word) : (s.setX i v).inp = s.inp := rfl
@[simp] theorem State.setX_agenda (s : State) (i : Nat) (v : Word) : (s.setX i v).agenda = s.agenda := rfl
@[simp] theorem State.setX_eager (s : State) (i : Nat) (v : Word) : (s.setX i v).eager = s.eager := rfl
@[simp] theorem State.setX_stalled (s : State) (i : Nat) (v : Word) : (s.setX i v).stalled = s.stalled := rfl
@[simp] theorem State.setX_solo (s : State) (i : Nat) (v : Word) : (s.setX i v).solo = s.solo := rfl
@[simp] theorem State.setX_look (s : State) (i : Nat) (v : Word) : (s.setX i v).look = s.look := rfl
@[simp] theorem State.setX_fresh (s : State) (i : Nat) (v : Word) : (s.setX i v).fresh = s.fresh := rfl
@[simp] theorem State.setX_icache (s : State) (i : Nat) (v : Word) : (s.setX i v).icache = s.icache := rfl
@[simp] theorem State.setX_cyc (s : State) (i : Nat) (v : Word) : (s.setX i v).cyc = s.cyc := rfl
@[simp] theorem State.setX_lostCsr (s : State) (i : Nat) (v : Word) : (s.setX i v).lostCsr = s.lostCsr := rfl
@[simp] theorem State.setX_beds (s : State) (i : Nat) (v : Word) : (s.setX i v).beds = s.beds := rfl
@[simp] theorem State.setX_workq (s : State) (i : Nat) (v : Word) : (s.setX i v).workq = s.workq := rfl
@[simp] theorem State.setX_xfers (s : State) (i : Nat) (v : Word) : (s.setX i v).xfers = s.xfers := rfl
@[simp] theorem State.setX_nextId (s : State) (i : Nat) (v : Word) : (s.setX i v).nextId = s.nextId := rfl
@[simp] theorem State.setX_mem (s : State) (i : Nat) (v : Word) : (s.setX i v).mem = s.mem := rfl
@[simp] theorem State.setX_vers (s : State) (i : Nat) (v : Word) : (s.setX i v).vers = s.vers := rfl
@[simp] theorem State.setX_poison (s : State) (i : Nat) (v : Word) : (s.setX i v).poison = s.poison := rfl
@[simp] theorem State.setX_landed (s : State) (i : Nat) (v : Word) : (s.setX i v).landed = s.landed := rfl
@[simp] theorem State.setX_tags (s : State) (i : Nat) (v : Word) : (s.setX i v).tags = s.tags := rfl
@[simp] theorem State.setX_keytag (s : State) (i : Nat) (v : Word) : (s.setX i v).keytag = s.keytag := rfl
@[simp] theorem State.setX_tcache (s : State) (i : Nat) (v : Word) : (s.setX i v).tcache = s.tcache := rfl
@[simp] theorem State.setX_ptes (s : State) (i : Nat) (v : Word) : (s.setX i v).ptes = s.ptes := rfl
@[simp] theorem State.setX_flights (s : State) (i : Nat) (v : Word) : (s.setX i v).flights = s.flights := rfl
@[simp] theorem State.setX_arrivals (s : State) (i : Nat) (v : Word) : (s.setX i v).arrivals = s.arrivals := rfl
@[simp] theorem State.setX_mcmds (s : State) (i : Nat) (v : Word) : (s.setX i v).mcmds = s.mcmds := rfl
@[simp] theorem State.setX_nelems (s : State) (i : Nat) (v : Word) : (s.setX i v).nelems = s.nelems := rfl
@[simp] theorem State.setX_ncredits (s : State) (i : Nat) (v : Word) : (s.setX i v).ncredits = s.ncredits := rfl
@[simp] theorem State.setX_walks (s : State) (i : Nat) (v : Word) : (s.setX i v).walks = s.walks := rfl
@[simp] theorem State.setX_rakeTurn (s : State) (i : Nat) (v : Word) : (s.setX i v).rakeTurn = s.rakeTurn := rfl
@[simp] theorem State.setX_rkslots (s : State) (i : Nat) (v : Word) : (s.setX i v).rkslots = s.rkslots := rfl
@[simp] theorem State.setX_rkloads (s : State) (i : Nat) (v : Word) : (s.setX i v).rkloads = s.rkloads := rfl
@[simp] theorem State.setX_watches (s : State) (i : Nat) (v : Word) : (s.setX i v).watches = s.watches := rfl
@[simp] theorem State.setX_held (s : State) (i : Nat) (v : Word) : (s.setX i v).held = s.held := rfl
@[simp] theorem State.setX_frecs (s : State) (i : Nat) (v : Word) : (s.setX i v).frecs = s.frecs := rfl
@[simp] theorem State.setX_peerReqs (s : State) (i : Nat) (v : Word) : (s.setX i v).peerReqs = s.peerReqs := rfl
@[simp] theorem State.setX_bands (s : State) (i : Nat) (v : Word) : (s.setX i v).bands = s.bands := rfl
@[simp] theorem State.setX_bars (s : State) (i : Nat) (v : Word) : (s.setX i v).bars = s.bars := rfl
@[simp] theorem State.setX_tasks (s : State) (i : Nat) (v : Word) : (s.setX i v).tasks = s.tasks := rfl
@[simp] theorem State.setX_launches (s : State) (i : Nat) (v : Word) : (s.setX i v).launches = s.launches := rfl
@[simp] theorem State.setX_lstats (s : State) (i : Nat) (v : Word) : (s.setX i v).lstats = s.lstats := rfl
@[simp] theorem State.setX_taken (s : State) (i : Nat) (v : Word) : (s.setX i v).taken = s.taken := rfl
@[simp] theorem State.setX_images (s : State) (i : Nat) (v : Word) : (s.setX i v).images = s.images := rfl
@[simp] theorem State.setX_parts (s : State) (i : Nat) (v : Word) : (s.setX i v).parts = s.parts := rfl
@[simp] theorem State.setX_time (s : State) (i : Nat) (v : Word) : (s.setX i v).time = s.time := rfl
@[simp] theorem State.setX_aclk (s : State) (i : Nat) (v : Word) : (s.setX i v).aclk = s.aclk := rfl
@[simp] theorem State.setX_aclkStep (s : State) (i : Nat) (v : Word) : (s.setX i v).aclkStep = s.aclkStep := rfl
@[simp] theorem State.setX_aclkMax (s : State) (i : Nat) (v : Word) : (s.setX i v).aclkMax = s.aclkMax := rfl
@[simp] theorem State.setX_thermal (s : State) (i : Nat) (v : Word) : (s.setX i v).thermal = s.thermal := rfl
@[simp] theorem State.setX_failedLinks (s : State) (i : Nat) (v : Word) : (s.setX i v).failedLinks = s.failedLinks := rfl
@[simp] theorem State.setX_cfail (s : State) (i : Nat) (v : Word) : (s.setX i v).cfail = s.cfail := rfl
@[simp] theorem State.setX_failedStations (s : State) (i : Nat) (v : Word) : (s.setX i v).failedStations = s.failedStations := rfl
@[simp] theorem State.setX_t2empty (s : State) (i : Nat) (v : Word) : (s.setX i v).t2empty = s.t2empty := rfl
@[simp] theorem State.setX_s2invaddr (s : State) (i : Nat) (v : Word) : (s.setX i v).s2invaddr = s.s2invaddr := rfl
@[simp] theorem State.setX_s2invstat (s : State) (i : Nat) (v : Word) : (s.setX i v).s2invstat = s.s2invstat := rfl
@[simp] theorem State.setX_hdec (s : State) (i : Nat) (v : Word) : (s.setX i v).hdec = s.hdec := rfl
@[simp] theorem State.setX_twpair (s : State) (i : Nat) (v : Word) : (s.setX i v).twpair = s.twpair := rfl
@[simp] theorem State.setX_keyGen (s : State) (i : Nat) (v : Word) : (s.setX i v).keyGen = s.keyGen := rfl
@[simp] theorem State.setX_nextLogKey (s : State) (i : Nat) (v : Word) : (s.setX i v).nextLogKey = s.nextLogKey := rfl
@[simp] theorem State.setX_idIndex (s : State) (i : Nat) (v : Word) : (s.setX i v).idIndex = s.idIndex := rfl
@[simp] theorem State.setX_corrected (s : State) (i : Nat) (v : Word) : (s.setX i v).corrected = s.corrected := rfl
@[simp] theorem State.setX_mbq (s : State) (i : Nat) (v : Word) : (s.setX i v).mbq = s.mbq := rfl
@[simp] theorem State.setX_hostHeld (s : State) (i : Nat) (v : Word) : (s.setX i v).hostHeld = s.hostHeld := rfl
@[simp] theorem State.setX_hostOut (s : State) (i : Nat) (v : Word) : (s.setX i v).hostOut = s.hostOut := rfl
@[simp] theorem State.setX_peerOut (s : State) (i : Nat) (v : Word) : (s.setX i v).peerOut = s.peerOut := rfl
@[simp] theorem State.setX_attests (s : State) (i : Nat) (v : Word) : (s.setX i v).attests = s.attests := rfl

/-! ## State.retire -/

@[simp] theorem State.retire_cur (s : State)  : (s.retire).cur = s.cur := rfl
@[simp] theorem State.retire_inp (s : State)  : (s.retire).inp = s.inp := rfl
@[simp] theorem State.retire_agenda (s : State)  : (s.retire).agenda = s.agenda := rfl
@[simp] theorem State.retire_eager (s : State)  : (s.retire).eager = s.eager := rfl
@[simp] theorem State.retire_stalled (s : State)  : (s.retire).stalled = s.stalled := rfl
@[simp] theorem State.retire_solo (s : State)  : (s.retire).solo = s.solo := rfl
@[simp] theorem State.retire_look (s : State)  : (s.retire).look = s.look := rfl
@[simp] theorem State.retire_fresh (s : State)  : (s.retire).fresh = s.fresh := rfl
@[simp] theorem State.retire_icache (s : State)  : (s.retire).icache = s.icache := rfl
@[simp] theorem State.retire_cyc (s : State)  : (s.retire).cyc = s.cyc := rfl
@[simp] theorem State.retire_lostCsr (s : State)  : (s.retire).lostCsr = s.lostCsr := rfl
@[simp] theorem State.retire_beds (s : State)  : (s.retire).beds = s.beds := rfl
@[simp] theorem State.retire_workq (s : State)  : (s.retire).workq = s.workq := rfl
@[simp] theorem State.retire_xfers (s : State)  : (s.retire).xfers = s.xfers := rfl
@[simp] theorem State.retire_nextId (s : State)  : (s.retire).nextId = s.nextId := rfl
@[simp] theorem State.retire_mem (s : State)  : (s.retire).mem = s.mem := rfl
@[simp] theorem State.retire_vers (s : State)  : (s.retire).vers = s.vers := rfl
@[simp] theorem State.retire_poison (s : State)  : (s.retire).poison = s.poison := rfl
@[simp] theorem State.retire_landed (s : State)  : (s.retire).landed = s.landed := rfl
@[simp] theorem State.retire_tags (s : State)  : (s.retire).tags = s.tags := rfl
@[simp] theorem State.retire_keytag (s : State)  : (s.retire).keytag = s.keytag := rfl
@[simp] theorem State.retire_tcache (s : State)  : (s.retire).tcache = s.tcache := rfl
@[simp] theorem State.retire_ptes (s : State)  : (s.retire).ptes = s.ptes := rfl
@[simp] theorem State.retire_flights (s : State)  : (s.retire).flights = s.flights := rfl
@[simp] theorem State.retire_arrivals (s : State)  : (s.retire).arrivals = s.arrivals := rfl
@[simp] theorem State.retire_mcmds (s : State)  : (s.retire).mcmds = s.mcmds := rfl
@[simp] theorem State.retire_nelems (s : State)  : (s.retire).nelems = s.nelems := rfl
@[simp] theorem State.retire_ncredits (s : State)  : (s.retire).ncredits = s.ncredits := rfl
@[simp] theorem State.retire_walks (s : State)  : (s.retire).walks = s.walks := rfl
@[simp] theorem State.retire_rakeTurn (s : State)  : (s.retire).rakeTurn = s.rakeTurn := rfl
@[simp] theorem State.retire_rkslots (s : State)  : (s.retire).rkslots = s.rkslots := rfl
@[simp] theorem State.retire_rkloads (s : State)  : (s.retire).rkloads = s.rkloads := rfl
@[simp] theorem State.retire_watches (s : State)  : (s.retire).watches = s.watches := rfl
@[simp] theorem State.retire_held (s : State)  : (s.retire).held = s.held := rfl
@[simp] theorem State.retire_frecs (s : State)  : (s.retire).frecs = s.frecs := rfl
@[simp] theorem State.retire_peerReqs (s : State)  : (s.retire).peerReqs = s.peerReqs := rfl
@[simp] theorem State.retire_bands (s : State)  : (s.retire).bands = s.bands := rfl
@[simp] theorem State.retire_bars (s : State)  : (s.retire).bars = s.bars := rfl
@[simp] theorem State.retire_tasks (s : State)  : (s.retire).tasks = s.tasks := rfl
@[simp] theorem State.retire_launches (s : State)  : (s.retire).launches = s.launches := rfl
@[simp] theorem State.retire_lstats (s : State)  : (s.retire).lstats = s.lstats := rfl
@[simp] theorem State.retire_taken (s : State)  : (s.retire).taken = s.taken := rfl
@[simp] theorem State.retire_images (s : State)  : (s.retire).images = s.images := rfl
@[simp] theorem State.retire_parts (s : State)  : (s.retire).parts = s.parts := rfl
@[simp] theorem State.retire_time (s : State)  : (s.retire).time = s.time := rfl
@[simp] theorem State.retire_aclk (s : State)  : (s.retire).aclk = s.aclk := rfl
@[simp] theorem State.retire_aclkStep (s : State)  : (s.retire).aclkStep = s.aclkStep := rfl
@[simp] theorem State.retire_aclkMax (s : State)  : (s.retire).aclkMax = s.aclkMax := rfl
@[simp] theorem State.retire_thermal (s : State)  : (s.retire).thermal = s.thermal := rfl
@[simp] theorem State.retire_failedLinks (s : State)  : (s.retire).failedLinks = s.failedLinks := rfl
@[simp] theorem State.retire_cfail (s : State)  : (s.retire).cfail = s.cfail := rfl
@[simp] theorem State.retire_failedStations (s : State)  : (s.retire).failedStations = s.failedStations := rfl
@[simp] theorem State.retire_t2empty (s : State)  : (s.retire).t2empty = s.t2empty := rfl
@[simp] theorem State.retire_s2invaddr (s : State)  : (s.retire).s2invaddr = s.s2invaddr := rfl
@[simp] theorem State.retire_s2invstat (s : State)  : (s.retire).s2invstat = s.s2invstat := rfl
@[simp] theorem State.retire_hdec (s : State)  : (s.retire).hdec = s.hdec := rfl
@[simp] theorem State.retire_twpair (s : State)  : (s.retire).twpair = s.twpair := rfl
@[simp] theorem State.retire_keyGen (s : State)  : (s.retire).keyGen = s.keyGen := rfl
@[simp] theorem State.retire_nextLogKey (s : State)  : (s.retire).nextLogKey = s.nextLogKey := rfl
@[simp] theorem State.retire_idIndex (s : State)  : (s.retire).idIndex = s.idIndex := rfl
@[simp] theorem State.retire_corrected (s : State)  : (s.retire).corrected = s.corrected := rfl
@[simp] theorem State.retire_mbq (s : State)  : (s.retire).mbq = s.mbq := rfl
@[simp] theorem State.retire_hostHeld (s : State)  : (s.retire).hostHeld = s.hostHeld := rfl
@[simp] theorem State.retire_hostOut (s : State)  : (s.retire).hostOut = s.hostOut := rfl
@[simp] theorem State.retire_peerOut (s : State)  : (s.retire).peerOut = s.peerOut := rfl
@[simp] theorem State.retire_attests (s : State)  : (s.retire).attests = s.attests := rfl

/-! ## State.jump -/

@[simp] theorem State.jump_cur (s : State) (pc : Word) : (s.jump pc).cur = s.cur := rfl
@[simp] theorem State.jump_inp (s : State) (pc : Word) : (s.jump pc).inp = s.inp := rfl
@[simp] theorem State.jump_agenda (s : State) (pc : Word) : (s.jump pc).agenda = s.agenda := rfl
@[simp] theorem State.jump_eager (s : State) (pc : Word) : (s.jump pc).eager = s.eager := rfl
@[simp] theorem State.jump_stalled (s : State) (pc : Word) : (s.jump pc).stalled = s.stalled := rfl
@[simp] theorem State.jump_solo (s : State) (pc : Word) : (s.jump pc).solo = s.solo := rfl
@[simp] theorem State.jump_look (s : State) (pc : Word) : (s.jump pc).look = s.look := rfl
@[simp] theorem State.jump_fresh (s : State) (pc : Word) : (s.jump pc).fresh = s.fresh := rfl
@[simp] theorem State.jump_icache (s : State) (pc : Word) : (s.jump pc).icache = s.icache := rfl
@[simp] theorem State.jump_cyc (s : State) (pc : Word) : (s.jump pc).cyc = s.cyc := rfl
@[simp] theorem State.jump_lostCsr (s : State) (pc : Word) : (s.jump pc).lostCsr = s.lostCsr := rfl
@[simp] theorem State.jump_beds (s : State) (pc : Word) : (s.jump pc).beds = s.beds := rfl
@[simp] theorem State.jump_workq (s : State) (pc : Word) : (s.jump pc).workq = s.workq := rfl
@[simp] theorem State.jump_xfers (s : State) (pc : Word) : (s.jump pc).xfers = s.xfers := rfl
@[simp] theorem State.jump_nextId (s : State) (pc : Word) : (s.jump pc).nextId = s.nextId := rfl
@[simp] theorem State.jump_mem (s : State) (pc : Word) : (s.jump pc).mem = s.mem := rfl
@[simp] theorem State.jump_vers (s : State) (pc : Word) : (s.jump pc).vers = s.vers := rfl
@[simp] theorem State.jump_poison (s : State) (pc : Word) : (s.jump pc).poison = s.poison := rfl
@[simp] theorem State.jump_landed (s : State) (pc : Word) : (s.jump pc).landed = s.landed := rfl
@[simp] theorem State.jump_tags (s : State) (pc : Word) : (s.jump pc).tags = s.tags := rfl
@[simp] theorem State.jump_keytag (s : State) (pc : Word) : (s.jump pc).keytag = s.keytag := rfl
@[simp] theorem State.jump_tcache (s : State) (pc : Word) : (s.jump pc).tcache = s.tcache := rfl
@[simp] theorem State.jump_ptes (s : State) (pc : Word) : (s.jump pc).ptes = s.ptes := rfl
@[simp] theorem State.jump_flights (s : State) (pc : Word) : (s.jump pc).flights = s.flights := rfl
@[simp] theorem State.jump_arrivals (s : State) (pc : Word) : (s.jump pc).arrivals = s.arrivals := rfl
@[simp] theorem State.jump_mcmds (s : State) (pc : Word) : (s.jump pc).mcmds = s.mcmds := rfl
@[simp] theorem State.jump_nelems (s : State) (pc : Word) : (s.jump pc).nelems = s.nelems := rfl
@[simp] theorem State.jump_ncredits (s : State) (pc : Word) : (s.jump pc).ncredits = s.ncredits := rfl
@[simp] theorem State.jump_walks (s : State) (pc : Word) : (s.jump pc).walks = s.walks := rfl
@[simp] theorem State.jump_rakeTurn (s : State) (pc : Word) : (s.jump pc).rakeTurn = s.rakeTurn := rfl
@[simp] theorem State.jump_rkslots (s : State) (pc : Word) : (s.jump pc).rkslots = s.rkslots := rfl
@[simp] theorem State.jump_rkloads (s : State) (pc : Word) : (s.jump pc).rkloads = s.rkloads := rfl
@[simp] theorem State.jump_watches (s : State) (pc : Word) : (s.jump pc).watches = s.watches := rfl
@[simp] theorem State.jump_held (s : State) (pc : Word) : (s.jump pc).held = s.held := rfl
@[simp] theorem State.jump_frecs (s : State) (pc : Word) : (s.jump pc).frecs = s.frecs := rfl
@[simp] theorem State.jump_peerReqs (s : State) (pc : Word) : (s.jump pc).peerReqs = s.peerReqs := rfl
@[simp] theorem State.jump_bands (s : State) (pc : Word) : (s.jump pc).bands = s.bands := rfl
@[simp] theorem State.jump_bars (s : State) (pc : Word) : (s.jump pc).bars = s.bars := rfl
@[simp] theorem State.jump_tasks (s : State) (pc : Word) : (s.jump pc).tasks = s.tasks := rfl
@[simp] theorem State.jump_launches (s : State) (pc : Word) : (s.jump pc).launches = s.launches := rfl
@[simp] theorem State.jump_lstats (s : State) (pc : Word) : (s.jump pc).lstats = s.lstats := rfl
@[simp] theorem State.jump_taken (s : State) (pc : Word) : (s.jump pc).taken = s.taken := rfl
@[simp] theorem State.jump_images (s : State) (pc : Word) : (s.jump pc).images = s.images := rfl
@[simp] theorem State.jump_parts (s : State) (pc : Word) : (s.jump pc).parts = s.parts := rfl
@[simp] theorem State.jump_time (s : State) (pc : Word) : (s.jump pc).time = s.time := rfl
@[simp] theorem State.jump_aclk (s : State) (pc : Word) : (s.jump pc).aclk = s.aclk := rfl
@[simp] theorem State.jump_aclkStep (s : State) (pc : Word) : (s.jump pc).aclkStep = s.aclkStep := rfl
@[simp] theorem State.jump_aclkMax (s : State) (pc : Word) : (s.jump pc).aclkMax = s.aclkMax := rfl
@[simp] theorem State.jump_thermal (s : State) (pc : Word) : (s.jump pc).thermal = s.thermal := rfl
@[simp] theorem State.jump_failedLinks (s : State) (pc : Word) : (s.jump pc).failedLinks = s.failedLinks := rfl
@[simp] theorem State.jump_cfail (s : State) (pc : Word) : (s.jump pc).cfail = s.cfail := rfl
@[simp] theorem State.jump_failedStations (s : State) (pc : Word) : (s.jump pc).failedStations = s.failedStations := rfl
@[simp] theorem State.jump_t2empty (s : State) (pc : Word) : (s.jump pc).t2empty = s.t2empty := rfl
@[simp] theorem State.jump_s2invaddr (s : State) (pc : Word) : (s.jump pc).s2invaddr = s.s2invaddr := rfl
@[simp] theorem State.jump_s2invstat (s : State) (pc : Word) : (s.jump pc).s2invstat = s.s2invstat := rfl
@[simp] theorem State.jump_hdec (s : State) (pc : Word) : (s.jump pc).hdec = s.hdec := rfl
@[simp] theorem State.jump_twpair (s : State) (pc : Word) : (s.jump pc).twpair = s.twpair := rfl
@[simp] theorem State.jump_keyGen (s : State) (pc : Word) : (s.jump pc).keyGen = s.keyGen := rfl
@[simp] theorem State.jump_nextLogKey (s : State) (pc : Word) : (s.jump pc).nextLogKey = s.nextLogKey := rfl
@[simp] theorem State.jump_idIndex (s : State) (pc : Word) : (s.jump pc).idIndex = s.idIndex := rfl
@[simp] theorem State.jump_corrected (s : State) (pc : Word) : (s.jump pc).corrected = s.corrected := rfl
@[simp] theorem State.jump_mbq (s : State) (pc : Word) : (s.jump pc).mbq = s.mbq := rfl
@[simp] theorem State.jump_hostHeld (s : State) (pc : Word) : (s.jump pc).hostHeld = s.hostHeld := rfl
@[simp] theorem State.jump_hostOut (s : State) (pc : Word) : (s.jump pc).hostOut = s.hostOut := rfl
@[simp] theorem State.jump_peerOut (s : State) (pc : Word) : (s.jump pc).peerOut = s.peerOut := rfl
@[simp] theorem State.jump_attests (s : State) (pc : Word) : (s.jump pc).attests = s.attests := rfl

/-! ## State.result -/

@[simp] theorem State.result_cur (s : State) (rd : Nat) (v : Word) : (s.result rd v).cur = s.cur := rfl
@[simp] theorem State.result_inp (s : State) (rd : Nat) (v : Word) : (s.result rd v).inp = s.inp := rfl
@[simp] theorem State.result_agenda (s : State) (rd : Nat) (v : Word) : (s.result rd v).agenda = s.agenda := rfl
@[simp] theorem State.result_eager (s : State) (rd : Nat) (v : Word) : (s.result rd v).eager = s.eager := rfl
@[simp] theorem State.result_stalled (s : State) (rd : Nat) (v : Word) : (s.result rd v).stalled = s.stalled := rfl
@[simp] theorem State.result_solo (s : State) (rd : Nat) (v : Word) : (s.result rd v).solo = s.solo := rfl
@[simp] theorem State.result_look (s : State) (rd : Nat) (v : Word) : (s.result rd v).look = s.look := rfl
@[simp] theorem State.result_fresh (s : State) (rd : Nat) (v : Word) : (s.result rd v).fresh = s.fresh := rfl
@[simp] theorem State.result_icache (s : State) (rd : Nat) (v : Word) : (s.result rd v).icache = s.icache := rfl
@[simp] theorem State.result_cyc (s : State) (rd : Nat) (v : Word) : (s.result rd v).cyc = s.cyc := rfl
@[simp] theorem State.result_lostCsr (s : State) (rd : Nat) (v : Word) : (s.result rd v).lostCsr = s.lostCsr := rfl
@[simp] theorem State.result_beds (s : State) (rd : Nat) (v : Word) : (s.result rd v).beds = s.beds := rfl
@[simp] theorem State.result_workq (s : State) (rd : Nat) (v : Word) : (s.result rd v).workq = s.workq := rfl
@[simp] theorem State.result_xfers (s : State) (rd : Nat) (v : Word) : (s.result rd v).xfers = s.xfers := rfl
@[simp] theorem State.result_nextId (s : State) (rd : Nat) (v : Word) : (s.result rd v).nextId = s.nextId := rfl
@[simp] theorem State.result_mem (s : State) (rd : Nat) (v : Word) : (s.result rd v).mem = s.mem := rfl
@[simp] theorem State.result_vers (s : State) (rd : Nat) (v : Word) : (s.result rd v).vers = s.vers := rfl
@[simp] theorem State.result_poison (s : State) (rd : Nat) (v : Word) : (s.result rd v).poison = s.poison := rfl
@[simp] theorem State.result_landed (s : State) (rd : Nat) (v : Word) : (s.result rd v).landed = s.landed := rfl
@[simp] theorem State.result_tags (s : State) (rd : Nat) (v : Word) : (s.result rd v).tags = s.tags := rfl
@[simp] theorem State.result_keytag (s : State) (rd : Nat) (v : Word) : (s.result rd v).keytag = s.keytag := rfl
@[simp] theorem State.result_tcache (s : State) (rd : Nat) (v : Word) : (s.result rd v).tcache = s.tcache := rfl
@[simp] theorem State.result_ptes (s : State) (rd : Nat) (v : Word) : (s.result rd v).ptes = s.ptes := rfl
@[simp] theorem State.result_flights (s : State) (rd : Nat) (v : Word) : (s.result rd v).flights = s.flights := rfl
@[simp] theorem State.result_arrivals (s : State) (rd : Nat) (v : Word) : (s.result rd v).arrivals = s.arrivals := rfl
@[simp] theorem State.result_mcmds (s : State) (rd : Nat) (v : Word) : (s.result rd v).mcmds = s.mcmds := rfl
@[simp] theorem State.result_nelems (s : State) (rd : Nat) (v : Word) : (s.result rd v).nelems = s.nelems := rfl
@[simp] theorem State.result_ncredits (s : State) (rd : Nat) (v : Word) : (s.result rd v).ncredits = s.ncredits := rfl
@[simp] theorem State.result_walks (s : State) (rd : Nat) (v : Word) : (s.result rd v).walks = s.walks := rfl
@[simp] theorem State.result_rakeTurn (s : State) (rd : Nat) (v : Word) : (s.result rd v).rakeTurn = s.rakeTurn := rfl
@[simp] theorem State.result_rkslots (s : State) (rd : Nat) (v : Word) : (s.result rd v).rkslots = s.rkslots := rfl
@[simp] theorem State.result_rkloads (s : State) (rd : Nat) (v : Word) : (s.result rd v).rkloads = s.rkloads := rfl
@[simp] theorem State.result_watches (s : State) (rd : Nat) (v : Word) : (s.result rd v).watches = s.watches := rfl
@[simp] theorem State.result_held (s : State) (rd : Nat) (v : Word) : (s.result rd v).held = s.held := rfl
@[simp] theorem State.result_frecs (s : State) (rd : Nat) (v : Word) : (s.result rd v).frecs = s.frecs := rfl
@[simp] theorem State.result_peerReqs (s : State) (rd : Nat) (v : Word) : (s.result rd v).peerReqs = s.peerReqs := rfl
@[simp] theorem State.result_bands (s : State) (rd : Nat) (v : Word) : (s.result rd v).bands = s.bands := rfl
@[simp] theorem State.result_bars (s : State) (rd : Nat) (v : Word) : (s.result rd v).bars = s.bars := rfl
@[simp] theorem State.result_tasks (s : State) (rd : Nat) (v : Word) : (s.result rd v).tasks = s.tasks := rfl
@[simp] theorem State.result_launches (s : State) (rd : Nat) (v : Word) : (s.result rd v).launches = s.launches := rfl
@[simp] theorem State.result_lstats (s : State) (rd : Nat) (v : Word) : (s.result rd v).lstats = s.lstats := rfl
@[simp] theorem State.result_taken (s : State) (rd : Nat) (v : Word) : (s.result rd v).taken = s.taken := rfl
@[simp] theorem State.result_images (s : State) (rd : Nat) (v : Word) : (s.result rd v).images = s.images := rfl
@[simp] theorem State.result_parts (s : State) (rd : Nat) (v : Word) : (s.result rd v).parts = s.parts := rfl
@[simp] theorem State.result_time (s : State) (rd : Nat) (v : Word) : (s.result rd v).time = s.time := rfl
@[simp] theorem State.result_aclk (s : State) (rd : Nat) (v : Word) : (s.result rd v).aclk = s.aclk := rfl
@[simp] theorem State.result_aclkStep (s : State) (rd : Nat) (v : Word) : (s.result rd v).aclkStep = s.aclkStep := rfl
@[simp] theorem State.result_aclkMax (s : State) (rd : Nat) (v : Word) : (s.result rd v).aclkMax = s.aclkMax := rfl
@[simp] theorem State.result_thermal (s : State) (rd : Nat) (v : Word) : (s.result rd v).thermal = s.thermal := rfl
@[simp] theorem State.result_failedLinks (s : State) (rd : Nat) (v : Word) : (s.result rd v).failedLinks = s.failedLinks := rfl
@[simp] theorem State.result_cfail (s : State) (rd : Nat) (v : Word) : (s.result rd v).cfail = s.cfail := rfl
@[simp] theorem State.result_failedStations (s : State) (rd : Nat) (v : Word) : (s.result rd v).failedStations = s.failedStations := rfl
@[simp] theorem State.result_t2empty (s : State) (rd : Nat) (v : Word) : (s.result rd v).t2empty = s.t2empty := rfl
@[simp] theorem State.result_s2invaddr (s : State) (rd : Nat) (v : Word) : (s.result rd v).s2invaddr = s.s2invaddr := rfl
@[simp] theorem State.result_s2invstat (s : State) (rd : Nat) (v : Word) : (s.result rd v).s2invstat = s.s2invstat := rfl
@[simp] theorem State.result_hdec (s : State) (rd : Nat) (v : Word) : (s.result rd v).hdec = s.hdec := rfl
@[simp] theorem State.result_twpair (s : State) (rd : Nat) (v : Word) : (s.result rd v).twpair = s.twpair := rfl
@[simp] theorem State.result_keyGen (s : State) (rd : Nat) (v : Word) : (s.result rd v).keyGen = s.keyGen := rfl
@[simp] theorem State.result_nextLogKey (s : State) (rd : Nat) (v : Word) : (s.result rd v).nextLogKey = s.nextLogKey := rfl
@[simp] theorem State.result_idIndex (s : State) (rd : Nat) (v : Word) : (s.result rd v).idIndex = s.idIndex := rfl
@[simp] theorem State.result_corrected (s : State) (rd : Nat) (v : Word) : (s.result rd v).corrected = s.corrected := rfl
@[simp] theorem State.result_mbq (s : State) (rd : Nat) (v : Word) : (s.result rd v).mbq = s.mbq := rfl
@[simp] theorem State.result_hostHeld (s : State) (rd : Nat) (v : Word) : (s.result rd v).hostHeld = s.hostHeld := rfl
@[simp] theorem State.result_hostOut (s : State) (rd : Nat) (v : Word) : (s.result rd v).hostOut = s.hostOut := rfl
@[simp] theorem State.result_peerOut (s : State) (rd : Nat) (v : Word) : (s.result rd v).peerOut = s.peerOut := rfl
@[simp] theorem State.result_attests (s : State) (rd : Nat) (v : Word) : (s.result rd v).attests = s.attests := rfl

/-! ## State.count -/

@[simp] theorem State.count_cur (s : State) (c x i n : Nat) : (s.count c x i n).cur = s.cur := rfl
@[simp] theorem State.count_inp (s : State) (c x i n : Nat) : (s.count c x i n).inp = s.inp := rfl
@[simp] theorem State.count_agenda (s : State) (c x i n : Nat) : (s.count c x i n).agenda = s.agenda := rfl
@[simp] theorem State.count_eager (s : State) (c x i n : Nat) : (s.count c x i n).eager = s.eager := rfl
@[simp] theorem State.count_stalled (s : State) (c x i n : Nat) : (s.count c x i n).stalled = s.stalled := rfl
@[simp] theorem State.count_solo (s : State) (c x i n : Nat) : (s.count c x i n).solo = s.solo := rfl
@[simp] theorem State.count_look (s : State) (c x i n : Nat) : (s.count c x i n).look = s.look := rfl
@[simp] theorem State.count_fresh (s : State) (c x i n : Nat) : (s.count c x i n).fresh = s.fresh := rfl
@[simp] theorem State.count_icache (s : State) (c x i n : Nat) : (s.count c x i n).icache = s.icache := rfl
@[simp] theorem State.count_cyc (s : State) (c x i n : Nat) : (s.count c x i n).cyc = s.cyc := rfl
@[simp] theorem State.count_lostCsr (s : State) (c x i n : Nat) : (s.count c x i n).lostCsr = s.lostCsr := rfl
@[simp] theorem State.count_beds (s : State) (c x i n : Nat) : (s.count c x i n).beds = s.beds := rfl
@[simp] theorem State.count_workq (s : State) (c x i n : Nat) : (s.count c x i n).workq = s.workq := rfl
@[simp] theorem State.count_xfers (s : State) (c x i n : Nat) : (s.count c x i n).xfers = s.xfers := rfl
@[simp] theorem State.count_nextId (s : State) (c x i n : Nat) : (s.count c x i n).nextId = s.nextId := rfl
@[simp] theorem State.count_mem (s : State) (c x i n : Nat) : (s.count c x i n).mem = s.mem := rfl
@[simp] theorem State.count_vers (s : State) (c x i n : Nat) : (s.count c x i n).vers = s.vers := rfl
@[simp] theorem State.count_poison (s : State) (c x i n : Nat) : (s.count c x i n).poison = s.poison := rfl
@[simp] theorem State.count_landed (s : State) (c x i n : Nat) : (s.count c x i n).landed = s.landed := rfl
@[simp] theorem State.count_tags (s : State) (c x i n : Nat) : (s.count c x i n).tags = s.tags := rfl
@[simp] theorem State.count_keytag (s : State) (c x i n : Nat) : (s.count c x i n).keytag = s.keytag := rfl
@[simp] theorem State.count_tcache (s : State) (c x i n : Nat) : (s.count c x i n).tcache = s.tcache := rfl
@[simp] theorem State.count_ptes (s : State) (c x i n : Nat) : (s.count c x i n).ptes = s.ptes := rfl
@[simp] theorem State.count_flights (s : State) (c x i n : Nat) : (s.count c x i n).flights = s.flights := rfl
@[simp] theorem State.count_arrivals (s : State) (c x i n : Nat) : (s.count c x i n).arrivals = s.arrivals := rfl
@[simp] theorem State.count_mcmds (s : State) (c x i n : Nat) : (s.count c x i n).mcmds = s.mcmds := rfl
@[simp] theorem State.count_nelems (s : State) (c x i n : Nat) : (s.count c x i n).nelems = s.nelems := rfl
@[simp] theorem State.count_ncredits (s : State) (c x i n : Nat) : (s.count c x i n).ncredits = s.ncredits := rfl
@[simp] theorem State.count_walks (s : State) (c x i n : Nat) : (s.count c x i n).walks = s.walks := rfl
@[simp] theorem State.count_rakeTurn (s : State) (c x i n : Nat) : (s.count c x i n).rakeTurn = s.rakeTurn := rfl
@[simp] theorem State.count_rkslots (s : State) (c x i n : Nat) : (s.count c x i n).rkslots = s.rkslots := rfl
@[simp] theorem State.count_rkloads (s : State) (c x i n : Nat) : (s.count c x i n).rkloads = s.rkloads := rfl
@[simp] theorem State.count_watches (s : State) (c x i n : Nat) : (s.count c x i n).watches = s.watches := rfl
@[simp] theorem State.count_held (s : State) (c x i n : Nat) : (s.count c x i n).held = s.held := rfl
@[simp] theorem State.count_frecs (s : State) (c x i n : Nat) : (s.count c x i n).frecs = s.frecs := rfl
@[simp] theorem State.count_peerReqs (s : State) (c x i n : Nat) : (s.count c x i n).peerReqs = s.peerReqs := rfl
@[simp] theorem State.count_bands (s : State) (c x i n : Nat) : (s.count c x i n).bands = s.bands := rfl
@[simp] theorem State.count_bars (s : State) (c x i n : Nat) : (s.count c x i n).bars = s.bars := rfl
@[simp] theorem State.count_tasks (s : State) (c x i n : Nat) : (s.count c x i n).tasks = s.tasks := rfl
@[simp] theorem State.count_launches (s : State) (c x i n : Nat) : (s.count c x i n).launches = s.launches := rfl
@[simp] theorem State.count_lstats (s : State) (c x i n : Nat) : (s.count c x i n).lstats = s.lstats := rfl
@[simp] theorem State.count_taken (s : State) (c x i n : Nat) : (s.count c x i n).taken = s.taken := rfl
@[simp] theorem State.count_images (s : State) (c x i n : Nat) : (s.count c x i n).images = s.images := rfl
@[simp] theorem State.count_parts (s : State) (c x i n : Nat) : (s.count c x i n).parts = s.parts := rfl
@[simp] theorem State.count_time (s : State) (c x i n : Nat) : (s.count c x i n).time = s.time := rfl
@[simp] theorem State.count_aclk (s : State) (c x i n : Nat) : (s.count c x i n).aclk = s.aclk := rfl
@[simp] theorem State.count_aclkStep (s : State) (c x i n : Nat) : (s.count c x i n).aclkStep = s.aclkStep := rfl
@[simp] theorem State.count_aclkMax (s : State) (c x i n : Nat) : (s.count c x i n).aclkMax = s.aclkMax := rfl
@[simp] theorem State.count_thermal (s : State) (c x i n : Nat) : (s.count c x i n).thermal = s.thermal := rfl
@[simp] theorem State.count_failedLinks (s : State) (c x i n : Nat) : (s.count c x i n).failedLinks = s.failedLinks := rfl
@[simp] theorem State.count_cfail (s : State) (c x i n : Nat) : (s.count c x i n).cfail = s.cfail := rfl
@[simp] theorem State.count_failedStations (s : State) (c x i n : Nat) : (s.count c x i n).failedStations = s.failedStations := rfl
@[simp] theorem State.count_t2empty (s : State) (c x i n : Nat) : (s.count c x i n).t2empty = s.t2empty := rfl
@[simp] theorem State.count_s2invaddr (s : State) (c x i n : Nat) : (s.count c x i n).s2invaddr = s.s2invaddr := rfl
@[simp] theorem State.count_s2invstat (s : State) (c x i n : Nat) : (s.count c x i n).s2invstat = s.s2invstat := rfl
@[simp] theorem State.count_hdec (s : State) (c x i n : Nat) : (s.count c x i n).hdec = s.hdec := rfl
@[simp] theorem State.count_twpair (s : State) (c x i n : Nat) : (s.count c x i n).twpair = s.twpair := rfl
@[simp] theorem State.count_keyGen (s : State) (c x i n : Nat) : (s.count c x i n).keyGen = s.keyGen := rfl
@[simp] theorem State.count_nextLogKey (s : State) (c x i n : Nat) : (s.count c x i n).nextLogKey = s.nextLogKey := rfl
@[simp] theorem State.count_idIndex (s : State) (c x i n : Nat) : (s.count c x i n).idIndex = s.idIndex := rfl
@[simp] theorem State.count_corrected (s : State) (c x i n : Nat) : (s.count c x i n).corrected = s.corrected := rfl
@[simp] theorem State.count_mbq (s : State) (c x i n : Nat) : (s.count c x i n).mbq = s.mbq := rfl
@[simp] theorem State.count_hostHeld (s : State) (c x i n : Nat) : (s.count c x i n).hostHeld = s.hostHeld := rfl
@[simp] theorem State.count_hostOut (s : State) (c x i n : Nat) : (s.count c x i n).hostOut = s.hostOut := rfl
@[simp] theorem State.count_peerOut (s : State) (c x i n : Nat) : (s.count c x i n).peerOut = s.peerOut := rfl
@[simp] theorem State.count_attests (s : State) (c x i n : Nat) : (s.count c x i n).attests = s.attests := rfl

/-! ## State.setPart -/

@[simp] theorem State.setPart_cur (s : State) (p : Nat) (q : Part) : (s.setPart p q).cur = s.cur := rfl
@[simp] theorem State.setPart_inp (s : State) (p : Nat) (q : Part) : (s.setPart p q).inp = s.inp := rfl
@[simp] theorem State.setPart_agenda (s : State) (p : Nat) (q : Part) : (s.setPart p q).agenda = s.agenda := rfl
@[simp] theorem State.setPart_eager (s : State) (p : Nat) (q : Part) : (s.setPart p q).eager = s.eager := rfl
@[simp] theorem State.setPart_stalled (s : State) (p : Nat) (q : Part) : (s.setPart p q).stalled = s.stalled := rfl
@[simp] theorem State.setPart_solo (s : State) (p : Nat) (q : Part) : (s.setPart p q).solo = s.solo := rfl
@[simp] theorem State.setPart_look (s : State) (p : Nat) (q : Part) : (s.setPart p q).look = s.look := rfl
@[simp] theorem State.setPart_fresh (s : State) (p : Nat) (q : Part) : (s.setPart p q).fresh = s.fresh := rfl
@[simp] theorem State.setPart_tenants (s : State) (p : Nat) (q : Part) : (s.setPart p q).tenants = s.tenants := rfl
@[simp] theorem State.setPart_icache (s : State) (p : Nat) (q : Part) : (s.setPart p q).icache = s.icache := rfl
@[simp] theorem State.setPart_cyc (s : State) (p : Nat) (q : Part) : (s.setPart p q).cyc = s.cyc := rfl
@[simp] theorem State.setPart_lostCsr (s : State) (p : Nat) (q : Part) : (s.setPart p q).lostCsr = s.lostCsr := rfl
@[simp] theorem State.setPart_beds (s : State) (p : Nat) (q : Part) : (s.setPart p q).beds = s.beds := rfl
@[simp] theorem State.setPart_workq (s : State) (p : Nat) (q : Part) : (s.setPart p q).workq = s.workq := rfl
@[simp] theorem State.setPart_xfers (s : State) (p : Nat) (q : Part) : (s.setPart p q).xfers = s.xfers := rfl
@[simp] theorem State.setPart_nextId (s : State) (p : Nat) (q : Part) : (s.setPart p q).nextId = s.nextId := rfl
@[simp] theorem State.setPart_mem (s : State) (p : Nat) (q : Part) : (s.setPart p q).mem = s.mem := rfl
@[simp] theorem State.setPart_vers (s : State) (p : Nat) (q : Part) : (s.setPart p q).vers = s.vers := rfl
@[simp] theorem State.setPart_poison (s : State) (p : Nat) (q : Part) : (s.setPart p q).poison = s.poison := rfl
@[simp] theorem State.setPart_landed (s : State) (p : Nat) (q : Part) : (s.setPart p q).landed = s.landed := rfl
@[simp] theorem State.setPart_tags (s : State) (p : Nat) (q : Part) : (s.setPart p q).tags = s.tags := rfl
@[simp] theorem State.setPart_keytag (s : State) (p : Nat) (q : Part) : (s.setPart p q).keytag = s.keytag := rfl
@[simp] theorem State.setPart_tcache (s : State) (p : Nat) (q : Part) : (s.setPart p q).tcache = s.tcache := rfl
@[simp] theorem State.setPart_ptes (s : State) (p : Nat) (q : Part) : (s.setPart p q).ptes = s.ptes := rfl
@[simp] theorem State.setPart_flights (s : State) (p : Nat) (q : Part) : (s.setPart p q).flights = s.flights := rfl
@[simp] theorem State.setPart_arrivals (s : State) (p : Nat) (q : Part) : (s.setPart p q).arrivals = s.arrivals := rfl
@[simp] theorem State.setPart_mcmds (s : State) (p : Nat) (q : Part) : (s.setPart p q).mcmds = s.mcmds := rfl
@[simp] theorem State.setPart_nelems (s : State) (p : Nat) (q : Part) : (s.setPart p q).nelems = s.nelems := rfl
@[simp] theorem State.setPart_ncredits (s : State) (p : Nat) (q : Part) : (s.setPart p q).ncredits = s.ncredits := rfl
@[simp] theorem State.setPart_walks (s : State) (p : Nat) (q : Part) : (s.setPart p q).walks = s.walks := rfl
@[simp] theorem State.setPart_rakeTurn (s : State) (p : Nat) (q : Part) : (s.setPart p q).rakeTurn = s.rakeTurn := rfl
@[simp] theorem State.setPart_rkslots (s : State) (p : Nat) (q : Part) : (s.setPart p q).rkslots = s.rkslots := rfl
@[simp] theorem State.setPart_rkloads (s : State) (p : Nat) (q : Part) : (s.setPart p q).rkloads = s.rkloads := rfl
@[simp] theorem State.setPart_watches (s : State) (p : Nat) (q : Part) : (s.setPart p q).watches = s.watches := rfl
@[simp] theorem State.setPart_held (s : State) (p : Nat) (q : Part) : (s.setPart p q).held = s.held := rfl
@[simp] theorem State.setPart_frecs (s : State) (p : Nat) (q : Part) : (s.setPart p q).frecs = s.frecs := rfl
@[simp] theorem State.setPart_peerReqs (s : State) (p : Nat) (q : Part) : (s.setPart p q).peerReqs = s.peerReqs := rfl
@[simp] theorem State.setPart_bands (s : State) (p : Nat) (q : Part) : (s.setPart p q).bands = s.bands := rfl
@[simp] theorem State.setPart_bars (s : State) (p : Nat) (q : Part) : (s.setPart p q).bars = s.bars := rfl
@[simp] theorem State.setPart_tasks (s : State) (p : Nat) (q : Part) : (s.setPart p q).tasks = s.tasks := rfl
@[simp] theorem State.setPart_launches (s : State) (p : Nat) (q : Part) : (s.setPart p q).launches = s.launches := rfl
@[simp] theorem State.setPart_lstats (s : State) (p : Nat) (q : Part) : (s.setPart p q).lstats = s.lstats := rfl
@[simp] theorem State.setPart_taken (s : State) (p : Nat) (q : Part) : (s.setPart p q).taken = s.taken := rfl
@[simp] theorem State.setPart_images (s : State) (p : Nat) (q : Part) : (s.setPart p q).images = s.images := rfl
@[simp] theorem State.setPart_time (s : State) (p : Nat) (q : Part) : (s.setPart p q).time = s.time := rfl
@[simp] theorem State.setPart_aclk (s : State) (p : Nat) (q : Part) : (s.setPart p q).aclk = s.aclk := rfl
@[simp] theorem State.setPart_aclkStep (s : State) (p : Nat) (q : Part) : (s.setPart p q).aclkStep = s.aclkStep := rfl
@[simp] theorem State.setPart_aclkMax (s : State) (p : Nat) (q : Part) : (s.setPart p q).aclkMax = s.aclkMax := rfl
@[simp] theorem State.setPart_thermal (s : State) (p : Nat) (q : Part) : (s.setPart p q).thermal = s.thermal := rfl
@[simp] theorem State.setPart_failedLinks (s : State) (p : Nat) (q : Part) : (s.setPart p q).failedLinks = s.failedLinks := rfl
@[simp] theorem State.setPart_cfail (s : State) (p : Nat) (q : Part) : (s.setPart p q).cfail = s.cfail := rfl
@[simp] theorem State.setPart_failedStations (s : State) (p : Nat) (q : Part) : (s.setPart p q).failedStations = s.failedStations := rfl
@[simp] theorem State.setPart_t2empty (s : State) (p : Nat) (q : Part) : (s.setPart p q).t2empty = s.t2empty := rfl
@[simp] theorem State.setPart_s2invaddr (s : State) (p : Nat) (q : Part) : (s.setPart p q).s2invaddr = s.s2invaddr := rfl
@[simp] theorem State.setPart_s2invstat (s : State) (p : Nat) (q : Part) : (s.setPart p q).s2invstat = s.s2invstat := rfl
@[simp] theorem State.setPart_hdec (s : State) (p : Nat) (q : Part) : (s.setPart p q).hdec = s.hdec := rfl
@[simp] theorem State.setPart_twpair (s : State) (p : Nat) (q : Part) : (s.setPart p q).twpair = s.twpair := rfl
@[simp] theorem State.setPart_keyGen (s : State) (p : Nat) (q : Part) : (s.setPart p q).keyGen = s.keyGen := rfl
@[simp] theorem State.setPart_nextLogKey (s : State) (p : Nat) (q : Part) : (s.setPart p q).nextLogKey = s.nextLogKey := rfl
@[simp] theorem State.setPart_idIndex (s : State) (p : Nat) (q : Part) : (s.setPart p q).idIndex = s.idIndex := rfl
@[simp] theorem State.setPart_corrected (s : State) (p : Nat) (q : Part) : (s.setPart p q).corrected = s.corrected := rfl
@[simp] theorem State.setPart_mbq (s : State) (p : Nat) (q : Part) : (s.setPart p q).mbq = s.mbq := rfl
@[simp] theorem State.setPart_hostHeld (s : State) (p : Nat) (q : Part) : (s.setPart p q).hostHeld = s.hostHeld := rfl
@[simp] theorem State.setPart_hostOut (s : State) (p : Nat) (q : Part) : (s.setPart p q).hostOut = s.hostOut := rfl
@[simp] theorem State.setPart_peerOut (s : State) (p : Nat) (q : Part) : (s.setPart p q).peerOut = s.peerOut := rfl
@[simp] theorem State.setPart_attests (s : State) (p : Nat) (q : Part) : (s.setPart p q).attests = s.attests := rfl

/-! ## State.modPart -/

@[simp] theorem State.modPart_cur (s : State) (p : Nat) (f : Part → Part) : (s.modPart p f).cur = s.cur := rfl
@[simp] theorem State.modPart_inp (s : State) (p : Nat) (f : Part → Part) : (s.modPart p f).inp = s.inp := rfl
@[simp] theorem State.modPart_agenda (s : State) (p : Nat) (f : Part → Part) : (s.modPart p f).agenda = s.agenda := rfl
@[simp] theorem State.modPart_eager (s : State) (p : Nat) (f : Part → Part) : (s.modPart p f).eager = s.eager := rfl
@[simp] theorem State.modPart_stalled (s : State) (p : Nat) (f : Part → Part) : (s.modPart p f).stalled = s.stalled := rfl
@[simp] theorem State.modPart_solo (s : State) (p : Nat) (f : Part → Part) : (s.modPart p f).solo = s.solo := rfl
@[simp] theorem State.modPart_look (s : State) (p : Nat) (f : Part → Part) : (s.modPart p f).look = s.look := rfl
@[simp] theorem State.modPart_fresh (s : State) (p : Nat) (f : Part → Part) : (s.modPart p f).fresh = s.fresh := rfl
@[simp] theorem State.modPart_tenants (s : State) (p : Nat) (f : Part → Part) : (s.modPart p f).tenants = s.tenants := rfl
@[simp] theorem State.modPart_icache (s : State) (p : Nat) (f : Part → Part) : (s.modPart p f).icache = s.icache := rfl
@[simp] theorem State.modPart_cyc (s : State) (p : Nat) (f : Part → Part) : (s.modPart p f).cyc = s.cyc := rfl
@[simp] theorem State.modPart_lostCsr (s : State) (p : Nat) (f : Part → Part) : (s.modPart p f).lostCsr = s.lostCsr := rfl
@[simp] theorem State.modPart_beds (s : State) (p : Nat) (f : Part → Part) : (s.modPart p f).beds = s.beds := rfl
@[simp] theorem State.modPart_workq (s : State) (p : Nat) (f : Part → Part) : (s.modPart p f).workq = s.workq := rfl
@[simp] theorem State.modPart_xfers (s : State) (p : Nat) (f : Part → Part) : (s.modPart p f).xfers = s.xfers := rfl
@[simp] theorem State.modPart_nextId (s : State) (p : Nat) (f : Part → Part) : (s.modPart p f).nextId = s.nextId := rfl
@[simp] theorem State.modPart_mem (s : State) (p : Nat) (f : Part → Part) : (s.modPart p f).mem = s.mem := rfl
@[simp] theorem State.modPart_vers (s : State) (p : Nat) (f : Part → Part) : (s.modPart p f).vers = s.vers := rfl
@[simp] theorem State.modPart_poison (s : State) (p : Nat) (f : Part → Part) : (s.modPart p f).poison = s.poison := rfl
@[simp] theorem State.modPart_landed (s : State) (p : Nat) (f : Part → Part) : (s.modPart p f).landed = s.landed := rfl
@[simp] theorem State.modPart_tags (s : State) (p : Nat) (f : Part → Part) : (s.modPart p f).tags = s.tags := rfl
@[simp] theorem State.modPart_keytag (s : State) (p : Nat) (f : Part → Part) : (s.modPart p f).keytag = s.keytag := rfl
@[simp] theorem State.modPart_tcache (s : State) (p : Nat) (f : Part → Part) : (s.modPart p f).tcache = s.tcache := rfl
@[simp] theorem State.modPart_ptes (s : State) (p : Nat) (f : Part → Part) : (s.modPart p f).ptes = s.ptes := rfl
@[simp] theorem State.modPart_flights (s : State) (p : Nat) (f : Part → Part) : (s.modPart p f).flights = s.flights := rfl
@[simp] theorem State.modPart_arrivals (s : State) (p : Nat) (f : Part → Part) : (s.modPart p f).arrivals = s.arrivals := rfl
@[simp] theorem State.modPart_mcmds (s : State) (p : Nat) (f : Part → Part) : (s.modPart p f).mcmds = s.mcmds := rfl
@[simp] theorem State.modPart_nelems (s : State) (p : Nat) (f : Part → Part) : (s.modPart p f).nelems = s.nelems := rfl
@[simp] theorem State.modPart_ncredits (s : State) (p : Nat) (f : Part → Part) : (s.modPart p f).ncredits = s.ncredits := rfl
@[simp] theorem State.modPart_walks (s : State) (p : Nat) (f : Part → Part) : (s.modPart p f).walks = s.walks := rfl
@[simp] theorem State.modPart_rakeTurn (s : State) (p : Nat) (f : Part → Part) : (s.modPart p f).rakeTurn = s.rakeTurn := rfl
@[simp] theorem State.modPart_rkslots (s : State) (p : Nat) (f : Part → Part) : (s.modPart p f).rkslots = s.rkslots := rfl
@[simp] theorem State.modPart_rkloads (s : State) (p : Nat) (f : Part → Part) : (s.modPart p f).rkloads = s.rkloads := rfl
@[simp] theorem State.modPart_watches (s : State) (p : Nat) (f : Part → Part) : (s.modPart p f).watches = s.watches := rfl
@[simp] theorem State.modPart_held (s : State) (p : Nat) (f : Part → Part) : (s.modPart p f).held = s.held := rfl
@[simp] theorem State.modPart_frecs (s : State) (p : Nat) (f : Part → Part) : (s.modPart p f).frecs = s.frecs := rfl
@[simp] theorem State.modPart_peerReqs (s : State) (p : Nat) (f : Part → Part) : (s.modPart p f).peerReqs = s.peerReqs := rfl
@[simp] theorem State.modPart_bands (s : State) (p : Nat) (f : Part → Part) : (s.modPart p f).bands = s.bands := rfl
@[simp] theorem State.modPart_bars (s : State) (p : Nat) (f : Part → Part) : (s.modPart p f).bars = s.bars := rfl
@[simp] theorem State.modPart_tasks (s : State) (p : Nat) (f : Part → Part) : (s.modPart p f).tasks = s.tasks := rfl
@[simp] theorem State.modPart_launches (s : State) (p : Nat) (f : Part → Part) : (s.modPart p f).launches = s.launches := rfl
@[simp] theorem State.modPart_lstats (s : State) (p : Nat) (f : Part → Part) : (s.modPart p f).lstats = s.lstats := rfl
@[simp] theorem State.modPart_taken (s : State) (p : Nat) (f : Part → Part) : (s.modPart p f).taken = s.taken := rfl
@[simp] theorem State.modPart_images (s : State) (p : Nat) (f : Part → Part) : (s.modPart p f).images = s.images := rfl
@[simp] theorem State.modPart_time (s : State) (p : Nat) (f : Part → Part) : (s.modPart p f).time = s.time := rfl
@[simp] theorem State.modPart_aclk (s : State) (p : Nat) (f : Part → Part) : (s.modPart p f).aclk = s.aclk := rfl
@[simp] theorem State.modPart_aclkStep (s : State) (p : Nat) (f : Part → Part) : (s.modPart p f).aclkStep = s.aclkStep := rfl
@[simp] theorem State.modPart_aclkMax (s : State) (p : Nat) (f : Part → Part) : (s.modPart p f).aclkMax = s.aclkMax := rfl
@[simp] theorem State.modPart_thermal (s : State) (p : Nat) (f : Part → Part) : (s.modPart p f).thermal = s.thermal := rfl
@[simp] theorem State.modPart_failedLinks (s : State) (p : Nat) (f : Part → Part) : (s.modPart p f).failedLinks = s.failedLinks := rfl
@[simp] theorem State.modPart_cfail (s : State) (p : Nat) (f : Part → Part) : (s.modPart p f).cfail = s.cfail := rfl
@[simp] theorem State.modPart_failedStations (s : State) (p : Nat) (f : Part → Part) : (s.modPart p f).failedStations = s.failedStations := rfl
@[simp] theorem State.modPart_t2empty (s : State) (p : Nat) (f : Part → Part) : (s.modPart p f).t2empty = s.t2empty := rfl
@[simp] theorem State.modPart_s2invaddr (s : State) (p : Nat) (f : Part → Part) : (s.modPart p f).s2invaddr = s.s2invaddr := rfl
@[simp] theorem State.modPart_s2invstat (s : State) (p : Nat) (f : Part → Part) : (s.modPart p f).s2invstat = s.s2invstat := rfl
@[simp] theorem State.modPart_hdec (s : State) (p : Nat) (f : Part → Part) : (s.modPart p f).hdec = s.hdec := rfl
@[simp] theorem State.modPart_twpair (s : State) (p : Nat) (f : Part → Part) : (s.modPart p f).twpair = s.twpair := rfl
@[simp] theorem State.modPart_keyGen (s : State) (p : Nat) (f : Part → Part) : (s.modPart p f).keyGen = s.keyGen := rfl
@[simp] theorem State.modPart_nextLogKey (s : State) (p : Nat) (f : Part → Part) : (s.modPart p f).nextLogKey = s.nextLogKey := rfl
@[simp] theorem State.modPart_idIndex (s : State) (p : Nat) (f : Part → Part) : (s.modPart p f).idIndex = s.idIndex := rfl
@[simp] theorem State.modPart_corrected (s : State) (p : Nat) (f : Part → Part) : (s.modPart p f).corrected = s.corrected := rfl
@[simp] theorem State.modPart_mbq (s : State) (p : Nat) (f : Part → Part) : (s.modPart p f).mbq = s.mbq := rfl
@[simp] theorem State.modPart_hostHeld (s : State) (p : Nat) (f : Part → Part) : (s.modPart p f).hostHeld = s.hostHeld := rfl
@[simp] theorem State.modPart_hostOut (s : State) (p : Nat) (f : Part → Part) : (s.modPart p f).hostOut = s.hostOut := rfl
@[simp] theorem State.modPart_peerOut (s : State) (p : Nat) (f : Part → Part) : (s.modPart p f).peerOut = s.peerOut := rfl
@[simp] theorem State.modPart_attests (s : State) (p : Nat) (f : Part → Part) : (s.modPart p f).attests = s.attests := rfl

/-! ## State.charge -/

@[simp] theorem State.charge_cur (s : State) (p c n : Nat) : (s.charge p c n).cur = s.cur := rfl
@[simp] theorem State.charge_inp (s : State) (p c n : Nat) : (s.charge p c n).inp = s.inp := rfl
@[simp] theorem State.charge_agenda (s : State) (p c n : Nat) : (s.charge p c n).agenda = s.agenda := rfl
@[simp] theorem State.charge_eager (s : State) (p c n : Nat) : (s.charge p c n).eager = s.eager := rfl
@[simp] theorem State.charge_stalled (s : State) (p c n : Nat) : (s.charge p c n).stalled = s.stalled := rfl
@[simp] theorem State.charge_solo (s : State) (p c n : Nat) : (s.charge p c n).solo = s.solo := rfl
@[simp] theorem State.charge_look (s : State) (p c n : Nat) : (s.charge p c n).look = s.look := rfl
@[simp] theorem State.charge_fresh (s : State) (p c n : Nat) : (s.charge p c n).fresh = s.fresh := rfl
@[simp] theorem State.charge_tenants (s : State) (p c n : Nat) : (s.charge p c n).tenants = s.tenants := rfl
@[simp] theorem State.charge_icache (s : State) (p c n : Nat) : (s.charge p c n).icache = s.icache := rfl
@[simp] theorem State.charge_cyc (s : State) (p c n : Nat) : (s.charge p c n).cyc = s.cyc := rfl
@[simp] theorem State.charge_lostCsr (s : State) (p c n : Nat) : (s.charge p c n).lostCsr = s.lostCsr := rfl
@[simp] theorem State.charge_beds (s : State) (p c n : Nat) : (s.charge p c n).beds = s.beds := rfl
@[simp] theorem State.charge_workq (s : State) (p c n : Nat) : (s.charge p c n).workq = s.workq := rfl
@[simp] theorem State.charge_xfers (s : State) (p c n : Nat) : (s.charge p c n).xfers = s.xfers := rfl
@[simp] theorem State.charge_nextId (s : State) (p c n : Nat) : (s.charge p c n).nextId = s.nextId := rfl
@[simp] theorem State.charge_mem (s : State) (p c n : Nat) : (s.charge p c n).mem = s.mem := rfl
@[simp] theorem State.charge_vers (s : State) (p c n : Nat) : (s.charge p c n).vers = s.vers := rfl
@[simp] theorem State.charge_poison (s : State) (p c n : Nat) : (s.charge p c n).poison = s.poison := rfl
@[simp] theorem State.charge_landed (s : State) (p c n : Nat) : (s.charge p c n).landed = s.landed := rfl
@[simp] theorem State.charge_tags (s : State) (p c n : Nat) : (s.charge p c n).tags = s.tags := rfl
@[simp] theorem State.charge_keytag (s : State) (p c n : Nat) : (s.charge p c n).keytag = s.keytag := rfl
@[simp] theorem State.charge_tcache (s : State) (p c n : Nat) : (s.charge p c n).tcache = s.tcache := rfl
@[simp] theorem State.charge_ptes (s : State) (p c n : Nat) : (s.charge p c n).ptes = s.ptes := rfl
@[simp] theorem State.charge_flights (s : State) (p c n : Nat) : (s.charge p c n).flights = s.flights := rfl
@[simp] theorem State.charge_arrivals (s : State) (p c n : Nat) : (s.charge p c n).arrivals = s.arrivals := rfl
@[simp] theorem State.charge_mcmds (s : State) (p c n : Nat) : (s.charge p c n).mcmds = s.mcmds := rfl
@[simp] theorem State.charge_nelems (s : State) (p c n : Nat) : (s.charge p c n).nelems = s.nelems := rfl
@[simp] theorem State.charge_ncredits (s : State) (p c n : Nat) : (s.charge p c n).ncredits = s.ncredits := rfl
@[simp] theorem State.charge_walks (s : State) (p c n : Nat) : (s.charge p c n).walks = s.walks := rfl
@[simp] theorem State.charge_rakeTurn (s : State) (p c n : Nat) : (s.charge p c n).rakeTurn = s.rakeTurn := rfl
@[simp] theorem State.charge_rkslots (s : State) (p c n : Nat) : (s.charge p c n).rkslots = s.rkslots := rfl
@[simp] theorem State.charge_rkloads (s : State) (p c n : Nat) : (s.charge p c n).rkloads = s.rkloads := rfl
@[simp] theorem State.charge_watches (s : State) (p c n : Nat) : (s.charge p c n).watches = s.watches := rfl
@[simp] theorem State.charge_held (s : State) (p c n : Nat) : (s.charge p c n).held = s.held := rfl
@[simp] theorem State.charge_frecs (s : State) (p c n : Nat) : (s.charge p c n).frecs = s.frecs := rfl
@[simp] theorem State.charge_peerReqs (s : State) (p c n : Nat) : (s.charge p c n).peerReqs = s.peerReqs := rfl
@[simp] theorem State.charge_bands (s : State) (p c n : Nat) : (s.charge p c n).bands = s.bands := rfl
@[simp] theorem State.charge_bars (s : State) (p c n : Nat) : (s.charge p c n).bars = s.bars := rfl
@[simp] theorem State.charge_tasks (s : State) (p c n : Nat) : (s.charge p c n).tasks = s.tasks := rfl
@[simp] theorem State.charge_launches (s : State) (p c n : Nat) : (s.charge p c n).launches = s.launches := rfl
@[simp] theorem State.charge_lstats (s : State) (p c n : Nat) : (s.charge p c n).lstats = s.lstats := rfl
@[simp] theorem State.charge_taken (s : State) (p c n : Nat) : (s.charge p c n).taken = s.taken := rfl
@[simp] theorem State.charge_images (s : State) (p c n : Nat) : (s.charge p c n).images = s.images := rfl
@[simp] theorem State.charge_time (s : State) (p c n : Nat) : (s.charge p c n).time = s.time := rfl
@[simp] theorem State.charge_aclk (s : State) (p c n : Nat) : (s.charge p c n).aclk = s.aclk := rfl
@[simp] theorem State.charge_aclkStep (s : State) (p c n : Nat) : (s.charge p c n).aclkStep = s.aclkStep := rfl
@[simp] theorem State.charge_aclkMax (s : State) (p c n : Nat) : (s.charge p c n).aclkMax = s.aclkMax := rfl
@[simp] theorem State.charge_thermal (s : State) (p c n : Nat) : (s.charge p c n).thermal = s.thermal := rfl
@[simp] theorem State.charge_failedLinks (s : State) (p c n : Nat) : (s.charge p c n).failedLinks = s.failedLinks := rfl
@[simp] theorem State.charge_cfail (s : State) (p c n : Nat) : (s.charge p c n).cfail = s.cfail := rfl
@[simp] theorem State.charge_failedStations (s : State) (p c n : Nat) : (s.charge p c n).failedStations = s.failedStations := rfl
@[simp] theorem State.charge_t2empty (s : State) (p c n : Nat) : (s.charge p c n).t2empty = s.t2empty := rfl
@[simp] theorem State.charge_s2invaddr (s : State) (p c n : Nat) : (s.charge p c n).s2invaddr = s.s2invaddr := rfl
@[simp] theorem State.charge_s2invstat (s : State) (p c n : Nat) : (s.charge p c n).s2invstat = s.s2invstat := rfl
@[simp] theorem State.charge_hdec (s : State) (p c n : Nat) : (s.charge p c n).hdec = s.hdec := rfl
@[simp] theorem State.charge_twpair (s : State) (p c n : Nat) : (s.charge p c n).twpair = s.twpair := rfl
@[simp] theorem State.charge_keyGen (s : State) (p c n : Nat) : (s.charge p c n).keyGen = s.keyGen := rfl
@[simp] theorem State.charge_nextLogKey (s : State) (p c n : Nat) : (s.charge p c n).nextLogKey = s.nextLogKey := rfl
@[simp] theorem State.charge_idIndex (s : State) (p c n : Nat) : (s.charge p c n).idIndex = s.idIndex := rfl
@[simp] theorem State.charge_corrected (s : State) (p c n : Nat) : (s.charge p c n).corrected = s.corrected := rfl
@[simp] theorem State.charge_mbq (s : State) (p c n : Nat) : (s.charge p c n).mbq = s.mbq := rfl
@[simp] theorem State.charge_hostHeld (s : State) (p c n : Nat) : (s.charge p c n).hostHeld = s.hostHeld := rfl
@[simp] theorem State.charge_hostOut (s : State) (p c n : Nat) : (s.charge p c n).hostOut = s.hostOut := rfl
@[simp] theorem State.charge_peerOut (s : State) (p c n : Nat) : (s.charge p c n).peerOut = s.peerOut := rfl
@[simp] theorem State.charge_attests (s : State) (p c n : Nat) : (s.charge p c n).attests = s.attests := rfl

/-! ## State.post -/

@[simp] theorem State.post_cur (s : State) (f : Flight) : (s.post f).cur = s.cur := rfl
@[simp] theorem State.post_inp (s : State) (f : Flight) : (s.post f).inp = s.inp := rfl
@[simp] theorem State.post_agenda (s : State) (f : Flight) : (s.post f).agenda = s.agenda := rfl
@[simp] theorem State.post_eager (s : State) (f : Flight) : (s.post f).eager = s.eager := rfl
@[simp] theorem State.post_stalled (s : State) (f : Flight) : (s.post f).stalled = s.stalled := rfl
@[simp] theorem State.post_solo (s : State) (f : Flight) : (s.post f).solo = s.solo := rfl
@[simp] theorem State.post_look (s : State) (f : Flight) : (s.post f).look = s.look := rfl
@[simp] theorem State.post_fresh (s : State) (f : Flight) : (s.post f).fresh = s.fresh := rfl
@[simp] theorem State.post_tenants (s : State) (f : Flight) : (s.post f).tenants = s.tenants := rfl
@[simp] theorem State.post_icache (s : State) (f : Flight) : (s.post f).icache = s.icache := rfl
@[simp] theorem State.post_cyc (s : State) (f : Flight) : (s.post f).cyc = s.cyc := rfl
@[simp] theorem State.post_lostCsr (s : State) (f : Flight) : (s.post f).lostCsr = s.lostCsr := rfl
@[simp] theorem State.post_beds (s : State) (f : Flight) : (s.post f).beds = s.beds := rfl
@[simp] theorem State.post_workq (s : State) (f : Flight) : (s.post f).workq = s.workq := rfl
@[simp] theorem State.post_xfers (s : State) (f : Flight) : (s.post f).xfers = s.xfers := rfl
@[simp] theorem State.post_nextId (s : State) (f : Flight) : (s.post f).nextId = s.nextId := rfl
@[simp] theorem State.post_mem (s : State) (f : Flight) : (s.post f).mem = s.mem := rfl
@[simp] theorem State.post_vers (s : State) (f : Flight) : (s.post f).vers = s.vers := rfl
@[simp] theorem State.post_poison (s : State) (f : Flight) : (s.post f).poison = s.poison := rfl
@[simp] theorem State.post_landed (s : State) (f : Flight) : (s.post f).landed = s.landed := rfl
@[simp] theorem State.post_tags (s : State) (f : Flight) : (s.post f).tags = s.tags := rfl
@[simp] theorem State.post_keytag (s : State) (f : Flight) : (s.post f).keytag = s.keytag := rfl
@[simp] theorem State.post_tcache (s : State) (f : Flight) : (s.post f).tcache = s.tcache := rfl
@[simp] theorem State.post_ptes (s : State) (f : Flight) : (s.post f).ptes = s.ptes := rfl
@[simp] theorem State.post_arrivals (s : State) (f : Flight) : (s.post f).arrivals = s.arrivals := rfl
@[simp] theorem State.post_mcmds (s : State) (f : Flight) : (s.post f).mcmds = s.mcmds := rfl
@[simp] theorem State.post_nelems (s : State) (f : Flight) : (s.post f).nelems = s.nelems := rfl
@[simp] theorem State.post_ncredits (s : State) (f : Flight) : (s.post f).ncredits = s.ncredits := rfl
@[simp] theorem State.post_walks (s : State) (f : Flight) : (s.post f).walks = s.walks := rfl
@[simp] theorem State.post_rakeTurn (s : State) (f : Flight) : (s.post f).rakeTurn = s.rakeTurn := rfl
@[simp] theorem State.post_rkslots (s : State) (f : Flight) : (s.post f).rkslots = s.rkslots := rfl
@[simp] theorem State.post_rkloads (s : State) (f : Flight) : (s.post f).rkloads = s.rkloads := rfl
@[simp] theorem State.post_watches (s : State) (f : Flight) : (s.post f).watches = s.watches := rfl
@[simp] theorem State.post_held (s : State) (f : Flight) : (s.post f).held = s.held := rfl
@[simp] theorem State.post_frecs (s : State) (f : Flight) : (s.post f).frecs = s.frecs := rfl
@[simp] theorem State.post_peerReqs (s : State) (f : Flight) : (s.post f).peerReqs = s.peerReqs := rfl
@[simp] theorem State.post_bands (s : State) (f : Flight) : (s.post f).bands = s.bands := rfl
@[simp] theorem State.post_bars (s : State) (f : Flight) : (s.post f).bars = s.bars := rfl
@[simp] theorem State.post_tasks (s : State) (f : Flight) : (s.post f).tasks = s.tasks := rfl
@[simp] theorem State.post_launches (s : State) (f : Flight) : (s.post f).launches = s.launches := rfl
@[simp] theorem State.post_lstats (s : State) (f : Flight) : (s.post f).lstats = s.lstats := rfl
@[simp] theorem State.post_taken (s : State) (f : Flight) : (s.post f).taken = s.taken := rfl
@[simp] theorem State.post_images (s : State) (f : Flight) : (s.post f).images = s.images := rfl
@[simp] theorem State.post_parts (s : State) (f : Flight) : (s.post f).parts = s.parts := rfl
@[simp] theorem State.post_time (s : State) (f : Flight) : (s.post f).time = s.time := rfl
@[simp] theorem State.post_aclk (s : State) (f : Flight) : (s.post f).aclk = s.aclk := rfl
@[simp] theorem State.post_aclkStep (s : State) (f : Flight) : (s.post f).aclkStep = s.aclkStep := rfl
@[simp] theorem State.post_aclkMax (s : State) (f : Flight) : (s.post f).aclkMax = s.aclkMax := rfl
@[simp] theorem State.post_thermal (s : State) (f : Flight) : (s.post f).thermal = s.thermal := rfl
@[simp] theorem State.post_failedLinks (s : State) (f : Flight) : (s.post f).failedLinks = s.failedLinks := rfl
@[simp] theorem State.post_cfail (s : State) (f : Flight) : (s.post f).cfail = s.cfail := rfl
@[simp] theorem State.post_failedStations (s : State) (f : Flight) : (s.post f).failedStations = s.failedStations := rfl
@[simp] theorem State.post_t2empty (s : State) (f : Flight) : (s.post f).t2empty = s.t2empty := rfl
@[simp] theorem State.post_s2invaddr (s : State) (f : Flight) : (s.post f).s2invaddr = s.s2invaddr := rfl
@[simp] theorem State.post_s2invstat (s : State) (f : Flight) : (s.post f).s2invstat = s.s2invstat := rfl
@[simp] theorem State.post_hdec (s : State) (f : Flight) : (s.post f).hdec = s.hdec := rfl
@[simp] theorem State.post_twpair (s : State) (f : Flight) : (s.post f).twpair = s.twpair := rfl
@[simp] theorem State.post_keyGen (s : State) (f : Flight) : (s.post f).keyGen = s.keyGen := rfl
@[simp] theorem State.post_nextLogKey (s : State) (f : Flight) : (s.post f).nextLogKey = s.nextLogKey := rfl
@[simp] theorem State.post_idIndex (s : State) (f : Flight) : (s.post f).idIndex = s.idIndex := rfl
@[simp] theorem State.post_corrected (s : State) (f : Flight) : (s.post f).corrected = s.corrected := rfl
@[simp] theorem State.post_mbq (s : State) (f : Flight) : (s.post f).mbq = s.mbq := rfl
@[simp] theorem State.post_hostHeld (s : State) (f : Flight) : (s.post f).hostHeld = s.hostHeld := rfl
@[simp] theorem State.post_hostOut (s : State) (f : Flight) : (s.post f).hostOut = s.hostOut := rfl
@[simp] theorem State.post_peerOut (s : State) (f : Flight) : (s.post f).peerOut = s.peerOut := rfl
@[simp] theorem State.post_attests (s : State) (f : Flight) : (s.post f).attests = s.attests := rfl

/-! ## RegCtx.ww -/

@[simp] theorem RegCtx.ww_x (r : RegCtx) (i : Nat) (v : Gran) : (r.ww i v).x = r.x := rfl
@[simp] theorem RegCtx.ww_pc (r : RegCtx) (i : Nat) (v : Gran) : (r.ww i v).pc = r.pc := rfl
@[simp] theorem RegCtx.ww_run (r : RegCtx) (i : Nat) (v : Gran) : (r.ww i v).run = r.run := rfl
@[simp] theorem RegCtx.ww_msg (r : RegCtx) (i : Nat) (v : Gran) : (r.ww i v).msg = r.msg := rfl
@[simp] theorem RegCtx.ww_chan (r : RegCtx) (i : Nat) (v : Gran) : (r.ww i v).chan = r.chan := rfl
@[simp] theorem RegCtx.ww_q0 (r : RegCtx) (i : Nat) (v : Gran) : (r.ww i v).q0 = r.q0 := rfl
@[simp] theorem RegCtx.ww_outbox (r : RegCtx) (i : Nat) (v : Gran) : (r.ww i v).outbox = r.outbox := rfl
@[simp] theorem RegCtx.ww_hdr (r : RegCtx) (i : Nat) (v : Gran) : (r.ww i v).hdr = r.hdr := rfl
@[simp] theorem RegCtx.ww_tstamp (r : RegCtx) (i : Nat) (v : Gran) : (r.ww i v).tstamp = r.tstamp := rfl
@[simp] theorem RegCtx.ww_tdomain (r : RegCtx) (i : Nat) (v : Gran) : (r.ww i v).tdomain = r.tdomain := rfl
@[simp] theorem RegCtx.ww_task (r : RegCtx) (i : Nat) (v : Gran) : (r.ww i v).task = r.task := rfl
@[simp] theorem RegCtx.ww_spec (r : RegCtx) (i : Nat) (v : Gran) : (r.ww i v).spec = r.spec := rfl
@[simp] theorem RegCtx.ww_stackBase (r : RegCtx) (i : Nat) (v : Gran) : (r.ww i v).stackBase = r.stackBase := rfl
@[simp] theorem RegCtx.ww_txstat (r : RegCtx) (i : Nat) (v : Gran) : (r.ww i v).txstat = r.txstat := rfl
@[simp] theorem RegCtx.ww_vlast (r : RegCtx) (i : Nat) (v : Gran) : (r.ww i v).vlast = r.vlast := rfl
@[simp] theorem RegCtx.ww_wdcnt (r : RegCtx) (i : Nat) (v : Gran) : (r.ww i v).wdcnt = r.wdcnt := rfl
@[simp] theorem RegCtx.ww_fflags (r : RegCtx) (i : Nat) (v : Gran) : (r.ww i v).fflags = r.fflags := rfl
@[simp] theorem RegCtx.ww_frm (r : RegCtx) (i : Nat) (v : Gran) : (r.ww i v).frm = r.frm := rfl
@[simp] theorem RegCtx.ww_txcomp (r : RegCtx) (i : Nat) (v : Gran) : (r.ww i v).txcomp = r.txcomp := rfl
@[simp] theorem RegCtx.ww_ops (r : RegCtx) (i : Nat) (v : Gran) : (r.ww i v).ops = r.ops := rfl
@[simp] theorem RegCtx.ww_seq (r : RegCtx) (i : Nat) (v : Gran) : (r.ww i v).seq = r.seq := rfl
@[simp] theorem RegCtx.ww_inv (r : RegCtx) (i : Nat) (v : Gran) : (r.ww i v).inv = r.inv := rfl
@[simp] theorem RegCtx.ww_vseq (r : RegCtx) (i : Nat) (v : Gran) : (r.ww i v).vseq = r.vseq := rfl
@[simp] theorem RegCtx.ww_wait (r : RegCtx) (i : Nat) (v : Gran) : (r.ww i v).wait = r.wait := rfl
@[simp] theorem RegCtx.ww_fences (r : RegCtx) (i : Nat) (v : Gran) : (r.ww i v).fences = r.fences := rfl
@[simp] theorem RegCtx.ww_kept (r : RegCtx) (i : Nat) (v : Gran) : (r.ww i v).kept = r.kept := rfl
@[simp] theorem RegCtx.ww_msgNo (r : RegCtx) (i : Nat) (v : Gran) : (r.ww i v).msgNo = r.msgNo := rfl

/-! ## Tenant.setChan -/

@[simp] theorem Tenant.setChan_n (t : Tenant) (n : Nat) (c : Chan) : (t.setChan n c).n = t.n := rfl
@[simp] theorem Tenant.setChan_u (t : Tenant) (n : Nat) (c : Chan) : (t.setChan n c).u = t.u := rfl
@[simp] theorem Tenant.setChan_o (t : Tenant) (n : Nat) (c : Chan) : (t.setChan n c).o = t.o := rfl
@[simp] theorem Tenant.setChan_instret (t : Tenant) (n : Nat) (c : Chan) : (t.setChan n c).instret = t.instret := rfl
@[simp] theorem Tenant.setChan_lcore (t : Tenant) (n : Nat) (c : Chan) : (t.setChan n c).lcore = t.lcore := rfl
@[simp] theorem Tenant.setChan_bandsz (t : Tenant) (n : Nat) (c : Chan) : (t.setChan n c).bandsz = t.bandsz := rfl
@[simp] theorem Tenant.setChan_torusX (t : Tenant) (n : Nat) (c : Chan) : (t.setChan n c).torusX = t.torusX := rfl
@[simp] theorem Tenant.setChan_torusY (t : Tenant) (n : Nat) (c : Chan) : (t.setChan n c).torusY = t.torusY := rfl
@[simp] theorem Tenant.setChan_gangidx (t : Tenant) (n : Nat) (c : Chan) : (t.setChan n c).gangidx = t.gangidx := rfl
@[simp] theorem Tenant.setChan_gangsz (t : Tenant) (n : Nat) (c : Chan) : (t.setChan n c).gangsz = t.gangsz := rfl
@[simp] theorem Tenant.setChan_ctab (t : Tenant) (n : Nat) (c : Chan) : (t.setChan n c).ctab = t.ctab := rfl
@[simp] theorem Tenant.setChan_partid (t : Tenant) (n : Nat) (c : Chan) : (t.setChan n c).partid = t.partid := rfl
@[simp] theorem Tenant.setChan_caplist (t : Tenant) (n : Nat) (c : Chan) : (t.setChan n c).caplist = t.caplist := rfl
@[simp] theorem Tenant.setChan_evc (t : Tenant) (n : Nat) (c : Chan) : (t.setChan n c).evc = t.evc := rfl
@[simp] theorem Tenant.setChan_evcCredit (t : Tenant) (n : Nat) (c : Chan) : (t.setChan n c).evcCredit = t.evcCredit := rfl
@[simp] theorem Tenant.setChan_fntab (t : Tenant) (n : Nat) (c : Chan) : (t.setChan n c).fntab = t.fntab := rfl
@[simp] theorem Tenant.setChan_fnlen (t : Tenant) (n : Nat) (c : Chan) : (t.setChan n c).fnlen = t.fnlen := rfl
@[simp] theorem Tenant.setChan_ovfbase (t : Tenant) (n : Nat) (c : Chan) : (t.setChan n c).ovfbase = t.ovfbase := rfl
@[simp] theorem Tenant.setChan_ovflen (t : Tenant) (n : Nat) (c : Chan) : (t.setChan n c).ovflen = t.ovflen := rfl
@[simp] theorem Tenant.setChan_wdlim (t : Tenant) (n : Nat) (c : Chan) : (t.setChan n c).wdlim = t.wdlim := rfl
@[simp] theorem Tenant.setChan_liveimg (t : Tenant) (n : Nat) (c : Chan) : (t.setChan n c).liveimg = t.liveimg := rfl
@[simp] theorem Tenant.setChan_ovfEntry (t : Tenant) (n : Nat) (c : Chan) : (t.setChan n c).ovfEntry = t.ovfEntry := rfl
@[simp] theorem Tenant.setChan_rr (t : Tenant) (n : Nat) (c : Chan) : (t.setChan n c).rr = t.rr := rfl
@[simp] theorem Tenant.setChan_inboxN (t : Tenant) (n : Nat) (c : Chan) : (t.setChan n c).inboxN = t.inboxN := rfl
@[simp] theorem Tenant.setChan_inboxU (t : Tenant) (n : Nat) (c : Chan) : (t.setChan n c).inboxU = t.inboxU := rfl
@[simp] theorem Tenant.setChan_epiN (t : Tenant) (n : Nat) (c : Chan) : (t.setChan n c).epiN = t.epiN := rfl
@[simp] theorem Tenant.setChan_epiU (t : Tenant) (n : Nat) (c : Chan) : (t.setChan n c).epiU = t.epiU := rfl
@[simp] theorem Tenant.setChan_g (t : Tenant) (n : Nat) (c : Chan) : (t.setChan n c).g = t.g := rfl
@[simp] theorem Tenant.setChan_ports (t : Tenant) (n : Nat) (c : Chan) : (t.setChan n c).ports = t.ports := rfl
@[simp] theorem Tenant.setChan_slots (t : Tenant) (n : Nat) (c : Chan) : (t.setChan n c).slots = t.slots := rfl
@[simp] theorem Tenant.setChan_arrived (t : Tenant) (n : Nat) (c : Chan) : (t.setChan n c).arrived = t.arrived := rfl
@[simp] theorem Tenant.setChan_vwPend (t : Tenant) (n : Nat) (c : Chan) : (t.setChan n c).vwPend = t.vwPend := rfl
@[simp] theorem Tenant.setChan_cwPend (t : Tenant) (n : Nat) (c : Chan) : (t.setChan n c).cwPend = t.cwPend := rfl
@[simp] theorem Tenant.setChan_mx (t : Tenant) (n : Nat) (c : Chan) : (t.setChan n c).mx = t.mx := rfl
@[simp] theorem Tenant.setChan_tsrc (t : Tenant) (n : Nat) (c : Chan) : (t.setChan n c).tsrc = t.tsrc := rfl
@[simp] theorem Tenant.setChan_log (t : Tenant) (n : Nat) (c : Chan) : (t.setChan n c).log = t.log := rfl
@[simp] theorem Tenant.setChan_fresh (t : Tenant) (n : Nat) (c : Chan) : (t.setChan n c).fresh = t.fresh := rfl
@[simp] theorem Tenant.setChan_live (t : Tenant) (n : Nat) (c : Chan) : (t.setChan n c).live = t.live := rfl

/-! ## Tenant.setPort -/

@[simp] theorem Tenant.setPort_n (t : Tenant) (q : Nat) (p : Port) : (t.setPort q p).n = t.n := rfl
@[simp] theorem Tenant.setPort_u (t : Tenant) (q : Nat) (p : Port) : (t.setPort q p).u = t.u := rfl
@[simp] theorem Tenant.setPort_o (t : Tenant) (q : Nat) (p : Port) : (t.setPort q p).o = t.o := rfl
@[simp] theorem Tenant.setPort_instret (t : Tenant) (q : Nat) (p : Port) : (t.setPort q p).instret = t.instret := rfl
@[simp] theorem Tenant.setPort_lcore (t : Tenant) (q : Nat) (p : Port) : (t.setPort q p).lcore = t.lcore := rfl
@[simp] theorem Tenant.setPort_bandsz (t : Tenant) (q : Nat) (p : Port) : (t.setPort q p).bandsz = t.bandsz := rfl
@[simp] theorem Tenant.setPort_torusX (t : Tenant) (q : Nat) (p : Port) : (t.setPort q p).torusX = t.torusX := rfl
@[simp] theorem Tenant.setPort_torusY (t : Tenant) (q : Nat) (p : Port) : (t.setPort q p).torusY = t.torusY := rfl
@[simp] theorem Tenant.setPort_gangidx (t : Tenant) (q : Nat) (p : Port) : (t.setPort q p).gangidx = t.gangidx := rfl
@[simp] theorem Tenant.setPort_gangsz (t : Tenant) (q : Nat) (p : Port) : (t.setPort q p).gangsz = t.gangsz := rfl
@[simp] theorem Tenant.setPort_ctab (t : Tenant) (q : Nat) (p : Port) : (t.setPort q p).ctab = t.ctab := rfl
@[simp] theorem Tenant.setPort_partid (t : Tenant) (q : Nat) (p : Port) : (t.setPort q p).partid = t.partid := rfl
@[simp] theorem Tenant.setPort_caplist (t : Tenant) (q : Nat) (p : Port) : (t.setPort q p).caplist = t.caplist := rfl
@[simp] theorem Tenant.setPort_evc (t : Tenant) (q : Nat) (p : Port) : (t.setPort q p).evc = t.evc := rfl
@[simp] theorem Tenant.setPort_evcCredit (t : Tenant) (q : Nat) (p : Port) : (t.setPort q p).evcCredit = t.evcCredit := rfl
@[simp] theorem Tenant.setPort_fntab (t : Tenant) (q : Nat) (p : Port) : (t.setPort q p).fntab = t.fntab := rfl
@[simp] theorem Tenant.setPort_fnlen (t : Tenant) (q : Nat) (p : Port) : (t.setPort q p).fnlen = t.fnlen := rfl
@[simp] theorem Tenant.setPort_ovfbase (t : Tenant) (q : Nat) (p : Port) : (t.setPort q p).ovfbase = t.ovfbase := rfl
@[simp] theorem Tenant.setPort_ovflen (t : Tenant) (q : Nat) (p : Port) : (t.setPort q p).ovflen = t.ovflen := rfl
@[simp] theorem Tenant.setPort_wdlim (t : Tenant) (q : Nat) (p : Port) : (t.setPort q p).wdlim = t.wdlim := rfl
@[simp] theorem Tenant.setPort_liveimg (t : Tenant) (q : Nat) (p : Port) : (t.setPort q p).liveimg = t.liveimg := rfl
@[simp] theorem Tenant.setPort_chans (t : Tenant) (q : Nat) (p : Port) : (t.setPort q p).chans = t.chans := rfl
@[simp] theorem Tenant.setPort_ovfEntry (t : Tenant) (q : Nat) (p : Port) : (t.setPort q p).ovfEntry = t.ovfEntry := rfl
@[simp] theorem Tenant.setPort_rr (t : Tenant) (q : Nat) (p : Port) : (t.setPort q p).rr = t.rr := rfl
@[simp] theorem Tenant.setPort_inboxN (t : Tenant) (q : Nat) (p : Port) : (t.setPort q p).inboxN = t.inboxN := rfl
@[simp] theorem Tenant.setPort_inboxU (t : Tenant) (q : Nat) (p : Port) : (t.setPort q p).inboxU = t.inboxU := rfl
@[simp] theorem Tenant.setPort_epiN (t : Tenant) (q : Nat) (p : Port) : (t.setPort q p).epiN = t.epiN := rfl
@[simp] theorem Tenant.setPort_epiU (t : Tenant) (q : Nat) (p : Port) : (t.setPort q p).epiU = t.epiU := rfl
@[simp] theorem Tenant.setPort_g (t : Tenant) (q : Nat) (p : Port) : (t.setPort q p).g = t.g := rfl
@[simp] theorem Tenant.setPort_slots (t : Tenant) (q : Nat) (p : Port) : (t.setPort q p).slots = t.slots := rfl
@[simp] theorem Tenant.setPort_arrived (t : Tenant) (q : Nat) (p : Port) : (t.setPort q p).arrived = t.arrived := rfl
@[simp] theorem Tenant.setPort_vwPend (t : Tenant) (q : Nat) (p : Port) : (t.setPort q p).vwPend = t.vwPend := rfl
@[simp] theorem Tenant.setPort_cwPend (t : Tenant) (q : Nat) (p : Port) : (t.setPort q p).cwPend = t.cwPend := rfl
@[simp] theorem Tenant.setPort_mx (t : Tenant) (q : Nat) (p : Port) : (t.setPort q p).mx = t.mx := rfl
@[simp] theorem Tenant.setPort_tsrc (t : Tenant) (q : Nat) (p : Port) : (t.setPort q p).tsrc = t.tsrc := rfl
@[simp] theorem Tenant.setPort_log (t : Tenant) (q : Nat) (p : Port) : (t.setPort q p).log = t.log := rfl
@[simp] theorem Tenant.setPort_fresh (t : Tenant) (q : Nat) (p : Port) : (t.setPort q p).fresh = t.fresh := rfl
@[simp] theorem Tenant.setPort_live (t : Tenant) (q : Nat) (p : Port) : (t.setPort q p).live = t.live := rfl

/-! ## A write of x, and the register context of a tenant context -/

@[simp] theorem RegCtx.wx_w (r : RegCtx) (i : Nat) (v : Word) : (r.wx i v).w = r.w := by unfold RegCtx.wx; split <;> rfl
@[simp] theorem RegCtx.wx_pc (r : RegCtx) (i : Nat) (v : Word) : (r.wx i v).pc = r.pc := by unfold RegCtx.wx; split <;> rfl
@[simp] theorem RegCtx.wx_run (r : RegCtx) (i : Nat) (v : Word) : (r.wx i v).run = r.run := by unfold RegCtx.wx; split <;> rfl
@[simp] theorem RegCtx.wx_msg (r : RegCtx) (i : Nat) (v : Word) : (r.wx i v).msg = r.msg := by unfold RegCtx.wx; split <;> rfl
@[simp] theorem RegCtx.wx_chan (r : RegCtx) (i : Nat) (v : Word) : (r.wx i v).chan = r.chan := by unfold RegCtx.wx; split <;> rfl
@[simp] theorem RegCtx.wx_q0 (r : RegCtx) (i : Nat) (v : Word) : (r.wx i v).q0 = r.q0 := by unfold RegCtx.wx; split <;> rfl
@[simp] theorem RegCtx.wx_outbox (r : RegCtx) (i : Nat) (v : Word) : (r.wx i v).outbox = r.outbox := by unfold RegCtx.wx; split <;> rfl
@[simp] theorem RegCtx.wx_hdr (r : RegCtx) (i : Nat) (v : Word) : (r.wx i v).hdr = r.hdr := by unfold RegCtx.wx; split <;> rfl
@[simp] theorem RegCtx.wx_tstamp (r : RegCtx) (i : Nat) (v : Word) : (r.wx i v).tstamp = r.tstamp := by unfold RegCtx.wx; split <;> rfl
@[simp] theorem RegCtx.wx_tdomain (r : RegCtx) (i : Nat) (v : Word) : (r.wx i v).tdomain = r.tdomain := by unfold RegCtx.wx; split <;> rfl
@[simp] theorem RegCtx.wx_task (r : RegCtx) (i : Nat) (v : Word) : (r.wx i v).task = r.task := by unfold RegCtx.wx; split <;> rfl
@[simp] theorem RegCtx.wx_spec (r : RegCtx) (i : Nat) (v : Word) : (r.wx i v).spec = r.spec := by unfold RegCtx.wx; split <;> rfl
@[simp] theorem RegCtx.wx_stackBase (r : RegCtx) (i : Nat) (v : Word) : (r.wx i v).stackBase = r.stackBase := by unfold RegCtx.wx; split <;> rfl
@[simp] theorem RegCtx.wx_txstat (r : RegCtx) (i : Nat) (v : Word) : (r.wx i v).txstat = r.txstat := by unfold RegCtx.wx; split <;> rfl
@[simp] theorem RegCtx.wx_vlast (r : RegCtx) (i : Nat) (v : Word) : (r.wx i v).vlast = r.vlast := by unfold RegCtx.wx; split <;> rfl
@[simp] theorem RegCtx.wx_wdcnt (r : RegCtx) (i : Nat) (v : Word) : (r.wx i v).wdcnt = r.wdcnt := by unfold RegCtx.wx; split <;> rfl
@[simp] theorem RegCtx.wx_fflags (r : RegCtx) (i : Nat) (v : Word) : (r.wx i v).fflags = r.fflags := by unfold RegCtx.wx; split <;> rfl
@[simp] theorem RegCtx.wx_frm (r : RegCtx) (i : Nat) (v : Word) : (r.wx i v).frm = r.frm := by unfold RegCtx.wx; split <;> rfl
@[simp] theorem RegCtx.wx_txcomp (r : RegCtx) (i : Nat) (v : Word) : (r.wx i v).txcomp = r.txcomp := by unfold RegCtx.wx; split <;> rfl
@[simp] theorem RegCtx.wx_ops (r : RegCtx) (i : Nat) (v : Word) : (r.wx i v).ops = r.ops := by unfold RegCtx.wx; split <;> rfl
@[simp] theorem RegCtx.wx_seq (r : RegCtx) (i : Nat) (v : Word) : (r.wx i v).seq = r.seq := by unfold RegCtx.wx; split <;> rfl
@[simp] theorem RegCtx.wx_inv (r : RegCtx) (i : Nat) (v : Word) : (r.wx i v).inv = r.inv := by unfold RegCtx.wx; split <;> rfl
@[simp] theorem RegCtx.wx_vseq (r : RegCtx) (i : Nat) (v : Word) : (r.wx i v).vseq = r.vseq := by unfold RegCtx.wx; split <;> rfl
@[simp] theorem RegCtx.wx_wait (r : RegCtx) (i : Nat) (v : Word) : (r.wx i v).wait = r.wait := by unfold RegCtx.wx; split <;> rfl
@[simp] theorem RegCtx.wx_fences (r : RegCtx) (i : Nat) (v : Word) : (r.wx i v).fences = r.fences := by unfold RegCtx.wx; split <;> rfl
@[simp] theorem RegCtx.wx_kept (r : RegCtx) (i : Nat) (v : Word) : (r.wx i v).kept = r.kept := by unfold RegCtx.wx; split <;> rfl
@[simp] theorem RegCtx.wx_msgNo (r : RegCtx) (i : Nat) (v : Word) : (r.wx i v).msgNo = r.msgNo := by unfold RegCtx.wx; split <;> rfl
@[simp] theorem Tenant.setRcx_instret (t : Tenant) (j : Nat) (r : RegCtx) : (t.setRcx j r).instret = t.instret := by unfold Tenant.setRcx; split <;> rfl
@[simp] theorem Tenant.setRcx_lcore (t : Tenant) (j : Nat) (r : RegCtx) : (t.setRcx j r).lcore = t.lcore := by unfold Tenant.setRcx; split <;> rfl
@[simp] theorem Tenant.setRcx_bandsz (t : Tenant) (j : Nat) (r : RegCtx) : (t.setRcx j r).bandsz = t.bandsz := by unfold Tenant.setRcx; split <;> rfl
@[simp] theorem Tenant.setRcx_torusX (t : Tenant) (j : Nat) (r : RegCtx) : (t.setRcx j r).torusX = t.torusX := by unfold Tenant.setRcx; split <;> rfl
@[simp] theorem Tenant.setRcx_torusY (t : Tenant) (j : Nat) (r : RegCtx) : (t.setRcx j r).torusY = t.torusY := by unfold Tenant.setRcx; split <;> rfl
@[simp] theorem Tenant.setRcx_gangidx (t : Tenant) (j : Nat) (r : RegCtx) : (t.setRcx j r).gangidx = t.gangidx := by unfold Tenant.setRcx; split <;> rfl
@[simp] theorem Tenant.setRcx_gangsz (t : Tenant) (j : Nat) (r : RegCtx) : (t.setRcx j r).gangsz = t.gangsz := by unfold Tenant.setRcx; split <;> rfl
@[simp] theorem Tenant.setRcx_ctab (t : Tenant) (j : Nat) (r : RegCtx) : (t.setRcx j r).ctab = t.ctab := by unfold Tenant.setRcx; split <;> rfl
@[simp] theorem Tenant.setRcx_partid (t : Tenant) (j : Nat) (r : RegCtx) : (t.setRcx j r).partid = t.partid := by unfold Tenant.setRcx; split <;> rfl
@[simp] theorem Tenant.setRcx_caplist (t : Tenant) (j : Nat) (r : RegCtx) : (t.setRcx j r).caplist = t.caplist := by unfold Tenant.setRcx; split <;> rfl
@[simp] theorem Tenant.setRcx_evc (t : Tenant) (j : Nat) (r : RegCtx) : (t.setRcx j r).evc = t.evc := by unfold Tenant.setRcx; split <;> rfl
@[simp] theorem Tenant.setRcx_evcCredit (t : Tenant) (j : Nat) (r : RegCtx) : (t.setRcx j r).evcCredit = t.evcCredit := by unfold Tenant.setRcx; split <;> rfl
@[simp] theorem Tenant.setRcx_fntab (t : Tenant) (j : Nat) (r : RegCtx) : (t.setRcx j r).fntab = t.fntab := by unfold Tenant.setRcx; split <;> rfl
@[simp] theorem Tenant.setRcx_fnlen (t : Tenant) (j : Nat) (r : RegCtx) : (t.setRcx j r).fnlen = t.fnlen := by unfold Tenant.setRcx; split <;> rfl
@[simp] theorem Tenant.setRcx_ovfbase (t : Tenant) (j : Nat) (r : RegCtx) : (t.setRcx j r).ovfbase = t.ovfbase := by unfold Tenant.setRcx; split <;> rfl
@[simp] theorem Tenant.setRcx_ovflen (t : Tenant) (j : Nat) (r : RegCtx) : (t.setRcx j r).ovflen = t.ovflen := by unfold Tenant.setRcx; split <;> rfl
@[simp] theorem Tenant.setRcx_wdlim (t : Tenant) (j : Nat) (r : RegCtx) : (t.setRcx j r).wdlim = t.wdlim := by unfold Tenant.setRcx; split <;> rfl
@[simp] theorem Tenant.setRcx_liveimg (t : Tenant) (j : Nat) (r : RegCtx) : (t.setRcx j r).liveimg = t.liveimg := by unfold Tenant.setRcx; split <;> rfl
@[simp] theorem Tenant.setRcx_chans (t : Tenant) (j : Nat) (r : RegCtx) : (t.setRcx j r).chans = t.chans := by unfold Tenant.setRcx; split <;> rfl
@[simp] theorem Tenant.setRcx_ovfEntry (t : Tenant) (j : Nat) (r : RegCtx) : (t.setRcx j r).ovfEntry = t.ovfEntry := by unfold Tenant.setRcx; split <;> rfl
@[simp] theorem Tenant.setRcx_rr (t : Tenant) (j : Nat) (r : RegCtx) : (t.setRcx j r).rr = t.rr := by unfold Tenant.setRcx; split <;> rfl
@[simp] theorem Tenant.setRcx_inboxN (t : Tenant) (j : Nat) (r : RegCtx) : (t.setRcx j r).inboxN = t.inboxN := by unfold Tenant.setRcx; split <;> rfl
@[simp] theorem Tenant.setRcx_inboxU (t : Tenant) (j : Nat) (r : RegCtx) : (t.setRcx j r).inboxU = t.inboxU := by unfold Tenant.setRcx; split <;> rfl
@[simp] theorem Tenant.setRcx_epiN (t : Tenant) (j : Nat) (r : RegCtx) : (t.setRcx j r).epiN = t.epiN := by unfold Tenant.setRcx; split <;> rfl
@[simp] theorem Tenant.setRcx_epiU (t : Tenant) (j : Nat) (r : RegCtx) : (t.setRcx j r).epiU = t.epiU := by unfold Tenant.setRcx; split <;> rfl
@[simp] theorem Tenant.setRcx_g (t : Tenant) (j : Nat) (r : RegCtx) : (t.setRcx j r).g = t.g := by unfold Tenant.setRcx; split <;> rfl
@[simp] theorem Tenant.setRcx_ports (t : Tenant) (j : Nat) (r : RegCtx) : (t.setRcx j r).ports = t.ports := by unfold Tenant.setRcx; split <;> rfl
@[simp] theorem Tenant.setRcx_arrived (t : Tenant) (j : Nat) (r : RegCtx) : (t.setRcx j r).arrived = t.arrived := by unfold Tenant.setRcx; split <;> rfl
@[simp] theorem Tenant.setRcx_vwPend (t : Tenant) (j : Nat) (r : RegCtx) : (t.setRcx j r).vwPend = t.vwPend := by unfold Tenant.setRcx; split <;> rfl
@[simp] theorem Tenant.setRcx_cwPend (t : Tenant) (j : Nat) (r : RegCtx) : (t.setRcx j r).cwPend = t.cwPend := by unfold Tenant.setRcx; split <;> rfl
@[simp] theorem Tenant.setRcx_mx (t : Tenant) (j : Nat) (r : RegCtx) : (t.setRcx j r).mx = t.mx := by unfold Tenant.setRcx; split <;> rfl
@[simp] theorem Tenant.setRcx_tsrc (t : Tenant) (j : Nat) (r : RegCtx) : (t.setRcx j r).tsrc = t.tsrc := by unfold Tenant.setRcx; split <;> rfl
@[simp] theorem Tenant.setRcx_log (t : Tenant) (j : Nat) (r : RegCtx) : (t.setRcx j r).log = t.log := by unfold Tenant.setRcx; split <;> rfl
@[simp] theorem Tenant.setRcx_fresh (t : Tenant) (j : Nat) (r : RegCtx) : (t.setRcx j r).fresh = t.fresh := by unfold Tenant.setRcx; split <;> rfl
@[simp] theorem Tenant.setRcx_live (t : Tenant) (j : Nat) (r : RegCtx) : (t.setRcx j r).live = t.live := by unfold Tenant.setRcx; split <;> rfl

/-! ## What is written is read back -/

@[simp] theorem State.tenant_setTenant (s : State) (c x : Nat) (t : Tenant) : (s.setTenant c x t).tenant c x = t := by
  simp [State.tenant, State.setTenant]

theorem State.tenant_setTenant_other (s : State) (c x d y : Nat) (t : Tenant) (h : tkey d y ≠ tkey c x) :
    (s.setTenant c x t).tenant d y = s.tenant d y := by
  simp [State.tenant, State.setTenant, Tbl.get_set_other _ _ _ _ _ h]

@[simp] theorem State.tenant_modTenant (s : State) (c x : Nat) (f : Tenant → Tenant) : (s.modTenant c x f).tenant c x = f (s.tenant c x) := by
  simp [State.modTenant]

theorem State.tenant_modTenant_other (s : State) (c x d y : Nat) (f : Tenant → Tenant) (h : tkey d y ≠ tkey c x) :
    (s.modTenant c x f).tenant d y = s.tenant d y := State.tenant_setTenant_other s c x d y _ h

@[simp] theorem State.part_setPart (s : State) (p : Nat) (q : Part) : (s.setPart p q).part p = q := by simp [State.part, State.setPart]

theorem State.part_setPart_other (s : State) (p r : Nat) (q : Part) (h : r ≠ p) : (s.setPart p q).part r = s.part r := by
  simp [State.part, State.setPart, Tbl.get_set_other _ _ _ _ _ h]

@[simp] theorem State.part_modPart (s : State) (p : Nat) (f : Part → Part) : (s.modPart p f).part p = f (s.part p) := by simp [State.modPart]

theorem State.part_modPart_other (s : State) (p r : Nat) (f : Part → Part) (h : r ≠ p) : (s.modPart p f).part r = s.part r :=
  State.part_setPart_other s p r _ h

/-- A live register context reads back what was written. -/
@[simp] theorem Tenant.rcx_setRcx (t : Tenant) (j : Nat) (r : RegCtx) (h : j < 3) : (t.setRcx j r).rcx j = r := by
  match j, h with
  | 0, _ => rfl
  | 1, _ => rfl
  | 2, _ => rfl

/-- Writing one live register context leaves the other live ones. -/
theorem Tenant.rcx_setRcx_other (t : Tenant) (j k : Nat) (r : RegCtx) (h : j < 3) (hk : k < 3) (n : k ≠ j) :
    (t.setRcx j r).rcx k = t.rcx k := by
  match j, h, k, hk with
  | 0, _, 1, _ => rfl
  | 0, _, 2, _ => rfl
  | 1, _, 0, _ => rfl
  | 1, _, 2, _ => rfl
  | 2, _, 0, _ => rfl
  | 2, _, 1, _ => rfl
  | 0, _, 0, _ => exact absurd rfl n
  | 1, _, 1, _ => exact absurd rfl n
  | 2, _, 2, _ => exact absurd rfl n

@[simp] theorem Tenant.setRcx_setRcx (t : Tenant) (j : Nat) (r q : RegCtx) (h : j < 3) : (t.setRcx j r).setRcx j q = t.setRcx j q := by
  match j, h with
  | 0, _ => rfl
  | 1, _ => rfl
  | 2, _ => rfl

@[simp] theorem Tenant.setRcx_rcx (t : Tenant) (j : Nat) (h : j < 3) : t.setRcx j (t.rcx j) = t := by
  match j, h with
  | 0, _ => rfl
  | 1, _ => rfl
  | 2, _ => rfl

@[simp] theorem State.rcx_setRcx (s : State) (w : Who) (r : RegCtx) (h : w.rc < 3) : (s.setRcx w r).rcx w = r := by
  simp [State.rcx, State.setRcx, h]

@[simp] theorem State.rcx_modRcx (s : State) (w : Who) (f : RegCtx → RegCtx) (h : w.rc < 3) : (s.modRcx w f).rcx w = f (s.rcx w) := by
  simp [State.modRcx, h]

@[simp] theorem RegCtx.rx_zero (r : RegCtx) : r.rx 0 = 0 := rfl

/-- Reading x after a write of x: x0 reads zero (R60). -/
theorem RegCtx.rx_wx (r : RegCtx) (i j : Nat) (v : Word) : (r.wx i v).rx j = if j = 0 then 0 else if j = i then v else r.rx j := by
  unfold RegCtx.rx RegCtx.wx
  by_cases h : j = 0
  · simp [h]
  · by_cases k : i = 0
    · subst k; simp [h]
    · simp [h, k, Tbl.get_put]

@[simp] theorem RegCtx.rx_wx_same (r : RegCtx) (i : Nat) (v : Word) (h : i ≠ 0) : (r.wx i v).rx i = v := by simp [RegCtx.rx_wx, h]

@[simp] theorem RegCtx.wx_zero (r : RegCtx) (v : Word) : r.wx 0 v = r := rfl

theorem RegCtx.rw_ww (r : RegCtx) (i j : Nat) (v : Gran) : (r.ww i v).rw j = if j = i then v else r.rw j := by
  simp [RegCtx.rw, RegCtx.ww, Tbl.get_put]

/-- Reading g after a write of g: g0 reads as the empty region (R217). -/
theorem Tenant.rg_wg (t : Tenant) (i j : Nat) (v : Region) : (t.wg i v).rg j = if j = 0 then .empty 0 else if j = i then v else t.rg j := by
  unfold Tenant.rg Tenant.wg
  by_cases h : j = 0
  · simp [h]
  · by_cases k : i = 0
    · subst k; simp [h]
    · simp [h, k, Tbl.get_put]

end Sys2Proof.Machine
end

