-- ==== Sys2Proof/Laws/Memory.lean ====
section
/-! SUPPORT. The laws of memory: a read after a write gives the value written, a write leaves every other byte alone, and every operation
that writes keeps the canonical form. -/

namespace Sys2Proof.Machine

/-! ## Bytes -/

@[simp] theorem Memory.wf_nil : Memory.wf [] = true := rfl

theorem State.reset_memory : Memory.wf State.reset.mem = true := rfl

theorem putBytes_wf (m : Tbl Byte) (a : Nat) (bs : List Byte) (h : Memory.wf m = true) : Memory.wf (putBytes m a bs) = true := by
  induction bs generalizing m a with
  | nil => exact h
  | cons b t ih => exact ih _ _ (Tbl.canon_put unwritten m a b h)

/-- A byte after bytes are stored at `a`: the one stored there, or what it was. -/
theorem get_putBytes (m : Tbl Byte) (a i : Nat) (bs : List Byte) :
    Tbl.get unwritten (putBytes m a bs) i = if a ≤ i ∧ i < a + bs.length then bs.getD (i - a) 0 else Tbl.get unwritten m i := by
  induction bs generalizing m a with
  | nil => rw [if_neg (by rw [List.length_nil]; omega)]; rfl
  | cons b t ih =>
    simp only [putBytes, ih, Tbl.get_put, List.length_cons]
    by_cases h : i = a
    · subst h; rw [if_neg (by omega), if_pos rfl, if_pos (by omega)]; simp
    · by_cases g : a ≤ i ∧ i < a + (t.length + 1)
      · have e : i - a = (i - (a + 1)) + 1 := by omega
        rw [if_pos (by omega), if_pos g, e, List.getD_cons_succ]
      · rw [if_neg (by omega), if_neg g, if_neg h]

theorem get_putBytes_outside (m : Tbl Byte) (a i : Nat) (bs : List Byte) (h : i < a ∨ a + bs.length ≤ i) :
    Tbl.get unwritten (putBytes m a bs) i = Tbl.get unwritten m i := by
  rw [get_putBytes, if_neg (by omega)]

@[simp] theorem State.bytes_length (s : State) (a n : Nat) : (s.bytes a n).length = n := by
  induction n generalizing a with
  | zero => rfl
  | succ n ih => simp [State.bytes, ih]

/-- Byte i of those read at `a`. -/
theorem State.bytes_getElem? (s : State) (a n i : Nat) (h : i < n) : (s.bytes a n)[i]? = some (s.byte (a + i)) := by
  induction n generalizing a i with
  | zero => omega
  | succ n ih =>
    cases i with
    | zero => simp [State.bytes]
    | succ i => simp only [State.bytes, List.getElem?_cons_succ]; rw [ih (a + 1) i (by omega)]; congr 2; omega

/-- Memories in which the bytes of a range are the same give the same bytes. -/
theorem State.bytes_congr (s t : State) (a n : Nat) (h : ∀ i, i < n → t.byte (a + i) = s.byte (a + i)) : t.bytes a n = s.bytes a n := by
  induction n generalizing a with
  | zero => rfl
  | succ n ih =>
    simp only [State.bytes]
    rw [ih (a + 1) fun i hi => by have e := h (i + 1) (by omega); rwa [Nat.add_assoc, Nat.add_comm 1 i], show t.byte a = s.byte a from h 0 (by omega)]

/-- What was stored is read back. -/
theorem State.bytes_of_putBytes (s : State) (m : Tbl Byte) (a : Nat) (bs : List Byte) (h : s.mem = putBytes m a bs) : s.bytes a bs.length = bs := by
  refine List.ext_getElem? fun i => ?_
  by_cases g : i < bs.length
  · rw [State.bytes_getElem? s a _ i g]
    have e : s.byte (a + i) = bs.getD i 0 := by
      rw [State.byte, h, get_putBytes, if_pos (by omega)]
      congr 1; omega
    rw [e, List.getD_eq_getElem?_getD, List.getElem?_eq_getElem g]
    rfl
  · rw [List.getElem?_eq_none (by simpa using g), List.getElem?_eq_none (by simpa using g)]

@[simp] theorem freeBytes_length (k n : Nat) : (freeBytes k n).length = n := by
  induction n generalizing k with
  | zero => rfl
  | succ n ih => simp [freeBytes, ih]

/-! ## What an operation on memory keeps -/

/-- The register context that acts is the same, and memory keeps its canonical form. -/
structure Keeps (s t : State) : Prop where
  cur : t.cur = s.cur
  wf : Memory.wf s.mem = true → Memory.wf t.mem = true

theorem Keeps.refl (s : State) : Keeps s s := ⟨rfl, id⟩
theorem Keeps.trans {s t u : State} (h : Keeps s t) (g : Keeps t u) : Keeps s u := ⟨g.cur.trans h.cur, fun w => g.wf (h.wf w)⟩

/-- Neither the acting register context nor memory changes. -/
theorem Keeps.of_eq {s t : State} (c : t.cur = s.cur) (m : t.mem = s.mem) : Keeps s t := ⟨c, fun w => by rw [m]; exact w⟩

/-- Many operations keep what each keeps. -/
theorem Keeps.foldl {α : Type} (l : List α) (f : State → α → State) (h : ∀ s a, Keeps s (f s a)) (s : State) : Keeps s (l.foldl f s) := by
  induction l generalizing s with
  | nil => exact Keeps.refl s
  | cons a l ih => exact (h s a).trans (ih (f s a))

theorem Keeps.thenFold {α : Type} {s u : State} (k : Keeps s u) (l : List α) (f : State → α → State) (h : ∀ s a, Keeps s (f s a)) : Keeps s (l.foldl f u) :=
  k.trans (Keeps.foldl l f h u)

theorem Keeps.ite {c : Prop} [Decidable c] {s a b : State} (h : Keeps s a) (g : Keeps s b) : Keeps s (if c then a else b) := by
  split
  · exact h
  · exact g

/-! ## touch, rekey, writeAt -/

@[simp] theorem State.fireWatches_mem (s : State) (g : Nat) : (s.fireWatches g).mem = s.mem := rfl
@[simp] theorem State.fireWatches_cur (s : State) (g : Nat) : (s.fireWatches g).cur = s.cur := rfl
@[simp] theorem State.fireWatches_tenants (s : State) (g : Nat) : (s.fireWatches g).tenants = s.tenants := rfl

@[simp] theorem State.touch_mem (s : State) (w : Bool) (g : Nat) : (s.touch w g).mem = s.mem := by
  unfold State.touch; cases w <;> simp only [Bool.false_eq_true, if_false, if_true] <;> split <;> rfl
@[simp] theorem State.touch_cur (s : State) (w : Bool) (g : Nat) : (s.touch w g).cur = s.cur := by
  unfold State.touch; cases w <;> simp only [Bool.false_eq_true, if_false, if_true] <;> split <;> rfl
@[simp] theorem State.touch_tenants (s : State) (w : Bool) (g : Nat) : (s.touch w g).tenants = s.tenants := by
  unfold State.touch; cases w <;> simp only [Bool.false_eq_true, if_false, if_true] <;> split <;> rfl
@[simp] theorem State.touch_parts (s : State) (w : Bool) (g : Nat) : (s.touch w g).parts = s.parts := by
  unfold State.touch; cases w <;> simp only [Bool.false_eq_true, if_false, if_true] <;> split <;> rfl

/-- What the granules' bookkeeping leaves of a write. -/
theorem touchAll (l : List Nat) (f : Nat → Bool) (s : State) :
    (l.foldl (fun s g => s.touch (f g) g) s).mem = s.mem ∧ (l.foldl (fun s g => s.touch (f g) g) s).cur = s.cur
      ∧ (l.foldl (fun s g => s.touch (f g) g) s).tenants = s.tenants ∧ (l.foldl (fun s g => s.touch (f g) g) s).parts = s.parts := by
  induction l generalizing s with
  | nil => exact ⟨rfl, rfl, rfl, rfl⟩
  | cons g l ih =>
    obtain ⟨a, b, c, d⟩ := ih (s.touch (f g) g)
    exact ⟨by simpa using a, by simpa using b, by simpa using c, by simpa using d⟩

theorem State.rekey_keeps (s : State) (sp : Spot) : Keeps s (s.rekey sp) := by
  unfold State.rekey
  split
  · exact Keeps.refl s
  · simp only
    split
    · exact ⟨rfl, fun w => putBytes_wf _ _ _ w⟩
    · exact ⟨rfl, id⟩

/-- A place whose bytes are readable is written as it is: no other byte is lost. -/
theorem State.rekey_mem (s : State) (sp : Spot) (h : s.garbled sp = false) : (s.rekey sp).mem = s.mem := by
  unfold State.rekey
  split
  · rfl
  · simp [h]

@[simp] theorem State.rekey_tenants (s : State) (sp : Spot) : (s.rekey sp).tenants = s.tenants := by
  unfold State.rekey
  split
  · rfl
  · simp only; split <;> rfl
@[simp] theorem State.rekey_parts (s : State) (sp : Spot) : (s.rekey sp).parts = s.parts := by
  unfold State.rekey
  split
  · rfl
  · simp only; split <;> rfl

/-- What a write in one act does to memory. -/
theorem State.writeAt_mem (s : State) (sp : Spot) (bs : List Byte) (tag : Nat) (h : space sp.home ≠ .peer) :
    (s.writeAt sp bs tag).mem = putBytes (s.rekey sp).mem sp.home bs := by
  unfold State.writeAt
  rw [if_neg h]
  simp only
  rw [(touchAll _ _ _).1]
  split <;> rfl

theorem State.writeAt_keeps (s : State) (sp : Spot) (bs : List Byte) (tag : Nat) : Keeps s (s.writeAt sp bs tag) := by
  by_cases h : space sp.home = .peer
  · unfold State.writeAt; rw [if_pos h]; exact Keeps.refl s
  · refine ⟨?_, fun w => ?_⟩
    · unfold State.writeAt
      rw [if_neg h]
      simp only
      rw [(touchAll _ _ _).2.1]
      have e := (State.rekey_keeps s sp).cur
      split <;> exact e
    · rw [State.writeAt_mem s sp bs tag h]; exact putBytes_wf _ _ _ ((State.rekey_keeps s sp).wf w)

@[simp] theorem State.writeAt_tenants (s : State) (sp : Spot) (bs : List Byte) (tag : Nat) : (s.writeAt sp bs tag).tenants = s.tenants := by
  unfold State.writeAt
  split
  · rfl
  · simp only
    rw [(touchAll _ _ _).2.2.1]
    split <;> exact State.rekey_tenants s sp
@[simp] theorem State.writeAt_parts (s : State) (sp : Spot) (bs : List Byte) (tag : Nat) : (s.writeAt sp bs tag).parts = s.parts := by
  unfold State.writeAt
  split
  · rfl
  · simp only
    rw [(touchAll _ _ _).2.2.2]
    split <;> exact State.rekey_parts s sp

/-- A write where the key is the same: the bytes stand there, and every other byte is as it was. -/
theorem State.writeAt_bytes (s : State) (sp : Spot) (bs : List Byte) (tag : Nat) (h : space sp.home ≠ .peer) : (s.writeAt sp bs tag).bytes sp.home bs.length = bs :=
  State.bytes_of_putBytes _ _ _ _ (State.writeAt_mem s sp bs tag h)

theorem State.writeAt_outside (s : State) (sp : Spot) (bs : List Byte) (tag a : Nat) (g : s.garbled sp = false) (h : a < sp.home ∨ sp.home + bs.length ≤ a) :
    (s.writeAt sp bs tag).byte a = s.byte a := by
  by_cases p : space sp.home = .peer
  · unfold State.writeAt; rw [if_pos p]
  · rw [State.byte, State.writeAt_mem s sp bs tag p, get_putBytes_outside _ _ _ _ h, State.rekey_mem s sp g]; rfl

theorem Keeps.modPart (s : State) (p : Nat) (f : Part → Part) : Keeps s (s.modPart p f) := Keeps.of_eq rfl rfl
theorem Keeps.charge (s : State) (p c n : Nat) : Keeps s (s.charge p c n) := Keeps.of_eq rfl rfl
theorem Keeps.su (s : State) (p c k n : Nat) : Keeps s (s.su p c k n) := by
  unfold State.su; exact Keeps.ite (Keeps.refl s) (Keeps.modPart s p _)
theorem Keeps.suAt (s : State) (p c h n : Nat) (w : Bool) : Keeps s (s.suAt p c h n w) := by
  unfold State.suAt; split <;> first | exact Keeps.su _ _ _ _ _ | exact Keeps.refl s
theorem Keeps.chargeAt (s : State) (p c h n : Nat) (w : Bool) : Keeps s (s.chargeAt p c h n w) := by
  unfold State.chargeAt; exact (Keeps.ite (Keeps.refl s) (Keeps.charge s _ _ _)).trans (Keeps.suAt _ _ _ _ _ _)

/-! ## Reads -/

@[simp] theorem State.readAt_mem (s : State) (sp : Spot) (n : Nat) : (s.readAt sp n).1.mem = s.mem := by unfold State.readAt; split <;> rfl
@[simp] theorem State.readAt_cur (s : State) (sp : Spot) (n : Nat) : (s.readAt sp n).1.cur = s.cur := by unfold State.readAt; split <;> rfl
@[simp] theorem State.readAt_tenants (s : State) (sp : Spot) (n : Nat) : (s.readAt sp n).1.tenants = s.tenants := by unfold State.readAt; split <;> rfl
@[simp] theorem State.readAt_parts (s : State) (sp : Spot) (n : Nat) : (s.readAt sp n).1.parts = s.parts := by unfold State.readAt; split <;> rfl

/-- A read where the key is the same gives what stands there and changes nothing. -/
theorem State.readAt_plain (s : State) (sp : Spot) (n : Nat) (h : s.garbled sp = false) : s.readAt sp n = (s, s.bytes sp.home n) := by simp [State.readAt, h]

/-! ## Page-table entries, granules that a switch does not save, a module reset -/

theorem State.orPte_keeps (s : State) (p mask home : Nat) : Keeps s (s.orPte p mask home) := by
  unfold State.orPte
  simp only
  split
  · exact Keeps.refl s
  · split
    · exact Keeps.of_eq rfl rfl
    · split
      · exact Keeps.refl s
      · exact ⟨by simp, fun w => by simpa using putBytes_wf _ _ _ w⟩

theorem State.mark_keeps (s : State) (p mask : Nat) (l : List Nat) : Keeps s (s.mark p mask l) :=
  Keeps.foldl l _ (fun s h => State.orPte_keeps s p mask h) s

theorem State.drainOne_keeps (s : State) (t : Task) (m : MxStore) : Keeps s (s.drainOne t m) := by
  unfold State.drainOne
  refine Keeps.ite ?_ (Keeps.ite (Keeps.of_eq rfl rfl) ((State.mark_keeps s _ _ _).trans ((State.writeAt_keeps _ _ _ _).trans (Keeps.chargeAt _ _ _ _ _ _))))
  unfold State.storeToPeer
  exact Keeps.of_eq rfl rfl

theorem State.drain_keeps (s : State) (t : Task) (l : List MxStore) : Keeps s (s.drain t l) :=
  Keeps.foldl l _ (fun s m => State.drainOne_keeps s t m) s

theorem State.freeGran_keeps (s : State) (g : Nat) : Keeps s (s.freeGran g) := ⟨rfl, fun w => putBytes_wf _ _ _ w⟩

theorem State.unsave_keeps (s : State) (home n : Nat) (saved : Nat → Bool) : Keeps s (s.unsave home n saved) := by
  unfold State.unsave
  simp only
  refine (Keeps.foldl _ _ (fun s g => ?_) s).trans (Keeps.foldl _ _ (fun s b => ?_) _)
  · split
    · exact Keeps.refl s
    · exact State.freeGran_keeps s _
  · split
    · exact Keeps.refl s
    · exact Keeps.of_eq rfl rfl

/-- Memory that survives a reset keeps its form. -/
theorem Memory.wf_filter (m : Tbl Byte) (p : Nat × Byte → Bool) (h : Memory.wf m = true) : Memory.wf (m.filter p) = true := Tbl.canon_filter unwritten m p h

end Sys2Proof.Machine
end

