-- ==== Sys2Proof/Laws/Shared.lean ====
section
/-! SUPPORT. One lemma for each shared operation that says what it can do: the waits and checks before a meaning, results, branches, the end of a
handler and its trap. -/

namespace Sys2Proof.Machine

/-! ## What an outcome can be -/

/-- The outcome is a next state of which something holds. -/
def Ends (o : Out) (P : State → Prop) : Prop := ∃ t, o = .next t ∧ P t

theorem Ends.next {t : State} {P : State → Prop} (h : P t) : Ends (.next t) P := ⟨t, rfl, h⟩
theorem Ends.mono {o : Out} {P Q : State → Prop} (h : Ends o P) (f : ∀ t, P t → Q t) : Ends o Q := by
  obtain ⟨t, e, p⟩ := h; exact ⟨t, e, f t p⟩
/-- What is said of an outcome holds of the state it names. -/
theorem Ends.elim {o : Out} {P : State → Prop} {t : State} (h : Ends o P) (e : o = .next t) : P t := by
  obtain ⟨u, d, p⟩ := h
  rw [e] at d
  cases d
  exact p

theorem stall_eq (s : State) : stall s = .next { s with stalled := true } := rfl
theorem stall_ends (s : State) : Ends (stall s) (Keeps s) := Ends.next (Keeps.of_eq rfl rfl)

/-! ## Waits and checks at issue -/

/-- R59: a register in use makes the instruction wait; otherwise it goes on. -/
theorem useX_cases (s : State) (l : List Nat) (b : Out) :
    (l.any s.rc.busyX = true ∧ useX s l b = stall s) ∨ (l.any s.rc.busyX = false ∧ useX s l b = b) := by
  unfold useX
  cases l.any s.rc.busyX <;> simp
theorem useX_ready (s : State) (l : List Nat) (b : Out) (h : l.any s.rc.busyX = false) : useX s l b = b := by simp [useX, h]
theorem useX_busy (s : State) (l : List Nat) (b : Out) (h : l.any s.rc.busyX = true) : useX s l b = stall s := by simp [useX, h]
theorem useX_ends {s : State} {l : List Nat} {b : Out} (h : Ends b (Keeps s)) : Ends (useX s l b) (Keeps s) := by
  rcases useX_cases s l b with ⟨-, e⟩ | ⟨-, e⟩ <;> rw [e]
  · exact stall_ends s
  · exact h

/-- R350: a masked feature traps; otherwise the instruction goes on. -/
theorem feature_unmasked (i : Instr) (fs : List Nat) (s : State) (b : Out)
    (h : (fs.any fun f => bits (s.part s.tn.partid).feat f 1 == 1) = false) : feature i fs s b = b := by simp [feature, h]
theorem feature_masked (i : Instr) (fs : List Nat) (s : State) (b : Out)
    (h : (fs.any fun f => bits (s.part s.tn.partid).feat f 1 == 1) = true) :
    feature i fs s b = trapNow s 0x02 (BitVec.ofNat 64 ((encode i).getD 0)) 0 := by simp [feature, h]

/-- R71: outside the normal context the instruction traps. -/
theorem normalOnly_normal (s : State) (b : Out) (h : s.cur.rc = 0) : normalOnly s b = b := by simp [normalOnly, h]
theorem normalOnly_other (s : State) (b : Out) (h : s.cur.rc ≠ 0) : normalOnly s b = trapNow s 0x08 0 0 := by simp [normalOnly, h]

/-- R143, R158: the waits of later accesses and of engine commands. -/
theorem orderly_free (s : State) (b : Out) (h : s.acquiring = false) : orderly s b = b := by simp [orderly, h]
theorem orderly_waits (s : State) (b : Out) (h : s.acquiring = true) : orderly s b = stall s := by simp [orderly, h]
theorem orderly_ends {s : State} {b : Out} (h : Ends b (Keeps s)) : Ends (orderly s b) (Keeps s) := by
  unfold orderly; split
  · exact stall_ends s
  · exact h
theorem aligned_ok (s : State) (va n : Nat) (b : Out) (h : va % n = 0) : aligned s va n b = b := by simp [aligned, h]
theorem aligned_bad (s : State) (va n : Nat) (b : Out) (h : va % n ≠ 0) : aligned s va n b = trapNow s 0x20 (BitVec.ofNat 64 va) 0 := by simp [aligned, h]
theorem notSpec_plain (s : State) (va : Nat) (b : Out) (h : s.rc.spec = false) : notSpec s va b = b := by simp [notSpec, h]
theorem notSpec_spec (s : State) (va : Nat) (b : Out) (h : s.rc.spec = true) : notSpec s va b = trapNow s 0x85 (BitVec.ofNat 64 va) 0 := by simp [notSpec, h]

theorem access_good (s : State) (va n align acc : Nat) (w : Bool) (b : Out) (h : s.accessBad s.cur va n align acc w = none) : access s va n align acc w b = b := by
  simp [access, h]
theorem access_bad (s : State) (va n align acc c a : Nat) (w : Bool) (b : Out) (h : s.accessBad s.cur va n align acc w = some (c, a)) :
    access s va n align acc w b = trapNow s c (BitVec.ofNat 64 a) 0 := by simp [access, h]

/-- A read or a write made at issue: a result goes on, a wait stalls, a fault suspends or traps. -/
@[simp] theorem Acc.then_ok {α : Type} (u s0 : State) (a : α) (f : State → α → Out) : (Acc.ok u a).then s0 f = f u a := rfl
@[simp] theorem Acc.then_stall {α : Type} (s0 : State) (f : State → α → Out) : (Acc.stall : Acc α).then s0 f = Sys2Proof.Machine.stall s0 := rfl
@[simp] theorem Acc.then_again {α : Type} (u s0 : State) (f : State → α → Out) : (Acc.again u : Acc α).then s0 f = Sys2Proof.Machine.stall u := rfl
@[simp] theorem Acc.then_fault {α : Type} (u s0 : State) (c va n : Nat) (f : State → α → Out) : (Acc.fault u c va n : Acc α).then s0 f = memFault u c va n := rfl

/-! ## Results and branches -/

theorem Keeps.setTenant (s : State) (c x : Nat) (t : Tenant) : Keeps s (s.setTenant c x t) := Keeps.of_eq rfl rfl
theorem Keeps.post (s : State) (f : Flight) : Keeps s (s.post f) := Keeps.of_eq rfl rfl
theorem Keeps.tasks (s : State) (l : List Task) : Keeps s { s with tasks := l } := Keeps.of_eq rfl rfl
theorem Keeps.retire (s : State) : Keeps s s.retire := Keeps.of_eq rfl rfl
theorem Keeps.jump (s : State) (pc : Word) : Keeps s (s.jump pc) := Keeps.of_eq rfl rfl
theorem Keeps.setX (s : State) (i : Nat) (v : Word) : Keeps s (s.setX i v) := Keeps.of_eq rfl rfl
theorem Keeps.result (s : State) (rd : Nat) (v : Word) : Keeps s (s.result rd v) := Keeps.of_eq rfl rfl

/-- R59, R60: an instruction with one result writes it and retires; with x0 for its destination it only retires. -/
theorem alu_result (rd : Nat) (l : List Nat) (v : Word) (s : State) (h : rd ≠ 0) (g : (rd :: l).any s.rc.busyX = false) : alu rd l v s = .next (s.result rd v) := by
  unfold alu; rw [if_neg h, useX_ready s _ _ g]
theorem alu_zero (l : List Nat) (v : Word) (s : State) : alu 0 l v s = .next (s.result 0 0) := rfl
theorem alu_ends (rd : Nat) (l : List Nat) (v : Word) (s : State) : Ends (alu rd l v s) (Keeps s) := by
  unfold alu; split
  · exact Ends.next (Keeps.result s 0 0)
  · exact useX_ends (Ends.next (Keeps.result s rd v))

/-- R42: control goes to a target that is a multiple of 4; any other traps. -/
theorem goTo_aligned (s : State) (target : Word) (f : State → State) (h : target.toNat % 4 = 0) : goTo s target f = .next ((f s).jump target) := by simp [goTo, h]
theorem goTo_misaligned (s : State) (target : Word) (f : State → State) (h : target.toNat % 4 ≠ 0) : goTo s target f = trapNow s 0x20 target 0 := by simp [goTo, h]

theorem branch_taken (rs1 rs2 imm : Nat) (c : Word → Word → Bool) (s : State) (g : [rs1, rs2].any s.rc.busyX = false) (h : c (s.x rs1) (s.x rs2) = true) :
    branch rs1 rs2 imm c s = goTo s (s.rc.pc + sext64 imm 13) id := by unfold branch; rw [useX_ready s _ _ g, if_pos h]
theorem branch_not_taken (rs1 rs2 imm : Nat) (c : Word → Word → Bool) (s : State) (g : [rs1, rs2].any s.rc.busyX = false) (h : c (s.x rs1) (s.x rs2) = false) :
    branch rs1 rs2 imm c s = .next s.retire := by unfold branch; rw [useX_ready s _ _ g, if_neg (by simp [h])]

/-! ## The end of a handler, and its trap -/

theorem State.endRc_keeps (s : State) (w : Who) (d : Bool) : Keeps s (s.endRc w d) := by
  unfold State.endRc
  simp only
  split
  · split
    · exact Keeps.of_eq rfl rfl
    · split
      · exact Keeps.of_eq rfl rfl
      · exact Keeps.of_eq rfl rfl
  · exact Keeps.of_eq rfl rfl

theorem State.promote_keeps (s : State) (t : Task) : Keeps s (s.promote t) := by
  unfold State.promote
  simp only
  refine Keeps.thenFold ?_ _ _ fun u h => Keeps.of_eq rfl rfl
  exact (State.drain_keeps s t t.stores).trans (Keeps.of_eq rfl rfl)

theorem State.promoteNext_keeps (s : State) (p d : Nat) : Keeps s (s.promoteNext p d) := by
  unfold State.promoteNext
  split
  · exact Keeps.refl s
  · split
    · split
      · exact State.promote_keeps s _
      · exact Keeps.refl s
    · exact Keeps.refl s

theorem State.promoteAll_keeps (s : State) (p : Nat) : Keeps s (s.promoteAll p) := Keeps.foldl _ _ (fun s d => State.promoteNext_keeps s p d) s

theorem State.commit_keeps (s : State) (t : Task) : Keeps s (s.commit t) := by
  unfold State.commit
  simp only
  refine Keeps.trans ?_ (State.promoteAll_keeps _ t.part)
  have a : ∀ u : State, Keeps u (if t.dom = 0 then u.dropTask t.part t.id
      else (u.dropTask t.part t.id).modPart t.part fun q => { q with lastTs := Tbl.put 0 q.lastTs t.dom t.ts }) := by
    intro u; split <;> exact Keeps.of_eq rfl rfl
  refine Keeps.trans ?_ (a _)
  split
  · exact Keeps.of_eq rfl rfl
  · exact (State.drain_keeps s t t.stores).trans (Keeps.of_eq rfl rfl)

theorem State.taskEnd_keeps (s : State) (p id : Nat) (f : Option Flight) : Keeps s (s.taskEnd p id f) := by
  unfold State.taskEnd
  split
  · split
    · exact Keeps.of_eq rfl rfl
    · exact Keeps.refl s
  · split
    · exact Keeps.of_eq rfl rfl
    · exact Keeps.of_eq rfl rfl
    · exact Keeps.refl s
    · exact Keeps.refl s
    · exact Keeps.of_eq rfl rfl
    · exact Keeps.ite (State.commit_keeps s _) (Keeps.of_eq rfl rfl)
    · exact Keeps.ite (State.commit_keeps s _) (Keeps.of_eq rfl rfl)

theorem State.endOne_keeps (s : State) (w : Who) (d : Bool) (f : Option Flight) : Keeps s (s.endOne w d f) := by
  unfold State.endOne
  simp only
  split
  · exact (State.endRc_keeps s w d).trans (State.taskEnd_keeps _ _ _ _)
  · split
    · exact (State.endRc_keeps s w d).trans (Keeps.of_eq rfl rfl)
    · exact State.endRc_keeps s w d

theorem State.endGang_keeps (s : State) (w : Who) (n : Nat) : Keeps s (s.endGang w n) := by
  unfold State.endGang
  split
  · refine Keeps.foldl _ _ (fun s h => ?_) s
    split
    · exact Keeps.refl s
    · split
      · exact Keeps.refl s
      · exact (State.endRc_keeps s _ true).trans (Keeps.of_eq rfl rfl)
  · exact Keeps.refl s

/-- R314: taking a trap changes neither the register context that acts nor the form of memory. -/
theorem State.trap_keeps (s : State) (w : Who) (c : Nat) (pc a2 a6 : Word) : Keeps s (s.trap w c pc a2 a6) := by
  unfold State.trap
  exact (State.endOne_keeps s w false _).trans (State.endGang_keeps _ w 0)

/-- R94: the return from a handler. -/
theorem State.finish_keeps (s : State) (w : Who) : Keeps s (s.finish w) := by
  unfold State.finish
  exact (State.endOne_keeps s w true none).trans (State.endGang_keeps _ w 1)

theorem trapNow_ends (s : State) (c : Nat) (a2 a6 : Word) : Ends (trapNow s c a2 a6) (Keeps s) := Ends.next (State.trap_keeps s s.cur c s.rc.pc a2 a6)

/-! ## The checks again, with the trap they may take -/

theorem feature_ends {i : Instr} {fs : List Nat} {s : State} {b : Out} (h : Ends b (Keeps s)) : Ends (feature i fs s b) (Keeps s) := by
  unfold feature; split
  · exact trapNow_ends s _ _ _
  · exact h
theorem normalOnly_ends {s : State} {b : Out} (h : Ends b (Keeps s)) : Ends (normalOnly s b) (Keeps s) := by
  unfold normalOnly; split
  · exact trapNow_ends s _ _ _
  · exact h
theorem aligned_ends {s : State} {va n : Nat} {b : Out} (h : Ends b (Keeps s)) : Ends (aligned s va n b) (Keeps s) := by
  unfold aligned; split
  · exact trapNow_ends s _ _ _
  · exact h
theorem notSpec_ends {s : State} {va : Nat} {b : Out} (h : Ends b (Keeps s)) : Ends (notSpec s va b) (Keeps s) := by
  unfold notSpec; split
  · exact trapNow_ends s _ _ _
  · exact h
theorem access_ends {s : State} {va n align acc : Nat} {w : Bool} {b : Out} (h : Ends b (Keeps s)) : Ends (access s va n align acc w b) (Keeps s) := by
  unfold access; split
  · exact trapNow_ends s _ _ _
  · exact h
theorem goTo_ends {s : State} {target : Word} {f : State → State} (h : Keeps s (f s)) : Ends (goTo s target f) (Keeps s) := by
  unfold goTo; split
  · exact trapNow_ends s _ _ _
  · exact Ends.next (h.trans (Keeps.jump _ _))
theorem branch_ends (rs1 rs2 imm : Nat) (c : Word → Word → Bool) (s : State) : Ends (branch rs1 rs2 imm c s) (Keeps s) := by
  unfold branch
  refine useX_ends ?_
  split
  · exact goTo_ends (Keeps.refl s)
  · exact Ends.next (Keeps.retire s)

/-! ## Control and status registers (R70) -/

theorem State.setCsr_keeps (s : State) (n : Nat) (v : Word) : Keeps s (s.setCsr n v) := by
  unfold State.setCsr
  iterate 11 refine Keeps.ite (Keeps.of_eq rfl rfl) ?_
  exact Keeps.refl s

theorem csrInstr_ends (op : CsrOp) (rd f csr : Nat) (l : List Nat) (src : Word) (s : State) : Ends (csrInstr op rd f csr l src s) (Keeps s) := by
  unfold csrInstr
  refine useX_ends ?_
  simp only
  split
  · exact trapNow_ends s _ _ _
  · split
    · exact trapNow_ends s _ _ _
    · split
      · exact stall_ends s
      · refine Ends.next (Keeps.trans ?_ (Keeps.result _ _ _))
        split
        · exact State.setCsr_keeps s _ _
        · exact Keeps.refl s

/-! ## Events -/

/-- An event that cannot take place changes nothing. -/
theorem happens_none (s : State) : happens s none = .next s := rfl
theorem happens_some (s t : State) : happens s (some t) = .next t := rfl
theorem happens_ends {s : State} {r : Option State} (h : ∀ t, r = some t → Keeps s t) : Ends (happens s r) (Keeps s) := by
  cases r with
  | none => exact Ends.next (Keeps.refl s)
  | some t => exact Ends.next (h t rfl)

end Sys2Proof.Machine
end

