-- ==== Sys2Proof/Laws/Access.lean ====
section
/-! SUPPORT. What locating, performing and issuing an access keeps: the register context that acts, and the canonical form of memory. One lemma
for each shared operation of Machine/Translate and Machine/Access. -/

namespace Sys2Proof.Machine

/-! ## Records of a state that an access leaves -/

theorem Keeps.setPart (s : State) (p : Nat) (q : Part) : Keeps s (s.setPart p q) := Keeps.of_eq rfl rfl
theorem Keeps.modTenant (s : State) (c x : Nat) (f : Tenant → Tenant) : Keeps s (s.modTenant c x f) := Keeps.of_eq rfl rfl
theorem Keeps.setRcx (s : State) (w : Who) (r : RegCtx) : Keeps s (s.setRcx w r) := Keeps.of_eq rfl rfl
theorem Keeps.modRcx (s : State) (w : Who) (f : RegCtx → RegCtx) : Keeps s (s.modRcx w f) := Keeps.of_eq rfl rfl
theorem Keeps.count (s : State) (c x i n : Nat) : Keeps s (s.count c x i n) := Keeps.of_eq rfl rfl
theorem Keeps.tcache (s : State) (l : List TEntry) : Keeps s { s with tcache := l } := Keeps.of_eq rfl rfl
theorem Keeps.held (s : State) (l : List Held) : Keeps s { s with held := l } := Keeps.of_eq rfl rfl
theorem Keeps.dropHeld (s : State) (p : HeldBy → Bool) : Keeps s (s.dropHeld p) := Keeps.held s _

/-! ## Locating (R138, R384) -/

theorem State.cache_keeps (s : State) (e : TEntry) : Keeps s (s.cache e) := by unfold State.cache; exact Keeps.tcache s _

/-- What locating leaves, on the way to the checks that follow and with the bits of a write, keeps the state it began from. -/
abbrev Located.Keeps (s : State) (l : Located) : Prop := Machine.Keeps s l.s ∧ Machine.Keeps s l.clean

theorem Located.stop_keeps {s u : State} {r : Place} {t : Option Space} (h : Machine.Keeps s u) : Located.Keeps s (.stop u r t) := ⟨h, h⟩

theorem Keeps.spend (s : State) (p : Nat) (l : List Nat) : Keeps s (s.spend p l) := Keeps.of_eq rfl rfl

theorem State.askTable_keeps (s : State) (p h : Nat) : Keeps s (s.askTable p h).1 := by
  unfold State.askTable
  split
  · exact Keeps.refl s
  · exact Keeps.of_eq rfl rfl

/-- What keeps a walk from being done leaves what the walk began from. -/
theorem State.walkStop_keeps (s : State) (p : Nat) (l : List Nat) (x : Located) (h : s.walkStop p l = some x) : Located.Keeps s x := by
  unfold State.walkStop at h
  split at h
  · cases h; exact Located.stop_keeps (Keeps.refl s)
  · split at h
    · cases h; exact Located.stop_keeps (State.askTable_keeps s p _)
    · cases e : l.findSome? (s.pteBad p) <;> rw [e] at h <;> cases h
      exact Located.stop_keeps (Keeps.spend s p l)

theorem State.locateG_keeps (s : State) (st p c va need : Nat) (w : Bool) : Located.Keeps s (s.locateG st p c va need w) := by
  unfold State.locateG
  simp only
  have b : Keeps s (if (s.walk st p c va need).trail.reads.isEmpty = true then s
      else ((s.su p c 3 1).su p c 4 1).spend p (s.walk st p c va need).trail.reads) :=
    Keeps.ite (Keeps.refl s) (((Keeps.su s p c 3 1).trans (Keeps.su _ p c 4 1)).trans (Keeps.spend _ _ _))
  have f : ∀ (u : State) (l : List TEntry), Keeps u (l.foldl State.cache u) := fun u l => Keeps.foldl l _ (fun v e => State.cache_keeps v e) u
  split
  · next x e => exact State.walkStop_keeps s _ _ _ e
  · split
    · exact Located.stop_keeps (Keeps.refl s)
    · split
      · exact Located.stop_keeps ((Keeps.ite (Keeps.spend s _ _) b).trans (State.mark_keeps _ _ _ _))
      · have c1 := (b.trans (f _ (s.walk st p c va need).trail.fills)).trans (State.mark_keeps _ p 0x40 (s.walk st p c va need).trail.used)
        split
        · exact Located.stop_keeps c1
        · split
          · split
            · exact Located.stop_keeps (Keeps.refl s)
            · exact ⟨c1.trans (State.mark_keeps _ _ _ _), c1⟩
          · exact ⟨c1, c1⟩

theorem State.locate_keeps (s : State) (w : Who) (va need : Nat) (wr : Bool) : Located.Keeps s (s.locate w va need wr) := by
  unfold State.locate State.locateAt
  split
  · exact Located.stop_keeps (Keeps.refl s)
  · exact Located.stop_keeps (Keeps.refl s)
  · exact State.locateG_keeps s _ _ _ _ _ _

theorem State.locate2_keeps (s : State) (p ipa need : Nat) (w : Bool) : Located.Keeps s (s.locate2 p ipa need w) := by
  unfold State.locate2
  have k := fun l => Keeps.spend s p l
  have a := fun l h => (k l).trans (State.orPte_keeps _ p 0x40 h)
  simp only
  split
  · next x e => exact State.walkStop_keeps s _ _ _ e
  · split
    · exact Located.stop_keeps (k _)
    · split
      · exact Located.stop_keeps (k _)
      · split
        · exact Located.stop_keeps (a _ _)
        · split
          · exact Located.stop_keeps (a _ _)
          · exact ⟨Keeps.ite ((a _ _).trans (State.orPte_keeps _ _ _ _)) (a _ _), a _ _⟩

theorem State.write2_keeps (s : State) (p ipa : Nat) (bs : List Byte) : Keeps s (s.write2 p ipa bs).1 := by
  have l := State.locate2_keeps s p ipa 2 true
  unfold State.write2
  simp only
  split
  · split
    · exact l.2.trans (Keeps.of_eq rfl rfl)
    · split
      · exact l.2
      · exact l.1.trans (State.writeAt_keeps _ _ _ _)
  · exact l.2

theorem State.readAt_keeps (s : State) (sp : Spot) (n : Nat) : Keeps s (s.readAt sp n).1 := Keeps.of_eq (by simp) (by simp)

/-! ## Completion objects (R262) -/

theorem State.putComp_keeps (s : State) (sp : Spot) (o : CObj) (f : Bool) : Keeps s (s.putComp sp o f) := by
  unfold State.putComp
  simp only
  exact Keeps.ite ((State.writeAt_keeps s _ _ _).trans (Keeps.of_eq rfl rfl)) (State.writeAt_keeps s _ _ _)

theorem State.compEvent_keeps (s : State) (sp : Spot) (e : CEv) : Keeps s (s.compEvent sp e) := by
  unfold State.compEvent
  simp only
  exact Keeps.ite ((State.readAt_keeps s sp 16).trans (State.putComp_keeps _ _ _ _)) (Keeps.refl s)

/-! ## Fault queues (R318) -/

/-- What writing a record leaves keeps the state it began from. -/
def Posted.Keeps (s : State) (p : Posted) : Prop :=
  match p with
  | .written t => Machine.Keeps s t
  | .waits t => Machine.Keeps s t
  | _ => True

theorem State.ask2_keeps (s : State) (p a n : Nat) : Keeps s (s.ask2 p a n) := by
  unfold State.ask2
  refine Keeps.foldl _ _ (fun u g => ?_) s
  exact Keeps.ite (State.locate2_keeps u p _ 0 false).1 (Keeps.refl u)

theorem State.putRec_keeps (s : State) (r : FRec) : Posted.Keeps s (s.putRec r) := by
  unfold State.putRec
  simp only
  split
  · exact True.intro
  · split
    · exact State.ask2_keeps s _ _ _
    · split
      · exact ((State.write2_keeps s _ _ _).trans (State.write2_keeps _ _ _ _)).trans (Keeps.modPart _ _ _)
      · exact True.intro

/-- A record that is written, or that waits, leaves what its writing began from. -/
theorem State.putRec_written {s u : State} {r : FRec} (e : s.putRec r = .written u) : Keeps s u := by
  have k := State.putRec_keeps s r
  rw [e] at k; exact k

theorem State.putRec_waits {s u : State} {r : FRec} (e : s.putRec r = .waits u) : Keeps s u := by
  have k := State.putRec_keeps s r
  rw [e] at k; exact k

theorem State.takeFid_keeps (s : State) (fn : Nat) : Keeps s (s.takeFid fn).1 := by
  unfold State.takeFid
  dsimp only
  exact Keeps.modPart s fn _

theorem Keeps.loseRec (s : State) (fn : Nat) : Keeps s (s.loseRec fn) := Keeps.modPart s fn _

theorem State.pbound_keeps (s : State) (p a : Nat) : Keeps s (s.pbound p a) := by
  unfold State.pbound
  simp only
  have f := State.takeFid_keeps s 0
  split
  · next e => exact f.trans (State.putRec_written e)
  · next e => exact (f.trans (State.putRec_waits e)).trans (Keeps.of_eq rfl rfl)
  · exact f.trans (Keeps.loseRec _ _)

theorem State.boundRec_keeps (s : State) (r : FRec) : Keeps s (s.boundRec r) := State.pbound_keeps s _ _

theorem State.postInfo_keeps (s : State) (r : FRec) : Keeps s (s.postInfo r) := by
  unfold State.postInfo
  simp only
  have f := State.takeFid_keeps s r.fn
  split
  · next e => exact f.trans (State.putRec_written e)
  · next e => exact (f.trans (State.putRec_waits e)).trans (Keeps.of_eq rfl rfl)
  · exact f.trans (Keeps.loseRec _ _)
  · exact (f.trans (Keeps.loseRec _ _)).trans (State.boundRec_keeps _ _)

theorem State.flushRec_keeps (s : State) (fn : Nat) : Keeps s (s.flushRec fn).1 := by
  unfold State.flushRec
  split
  · exact Keeps.refl s
  · next r _ =>
    split
    · next e => exact Machine.Keeps.trans (State.putRec_written e) (Keeps.of_eq rfl rfl)
    · next e => exact State.putRec_waits e
    · split
      · exact Keeps.refl s
      · exact Keeps.trans (t := { s with frecs := s.frecs.erase r }) (Keeps.of_eq rfl rfl) (Keeps.loseRec _ _)
    · split
      · exact Keeps.refl s
      · exact Keeps.trans (t := { s with frecs := s.frecs.map fun x => if x == r then { x with told := true } else x }) (Keeps.of_eq rfl rfl) (State.boundRec_keeps _ _)

theorem State.postHeld_keeps (s : State) (d : Nat) (r : FRec) (b : HeldBy) (p : Bool) : Keeps s (s.postHeld d r b p) := by
  unfold State.postHeld
  refine Keeps.ite (Keeps.of_eq rfl rfl) ?_
  simp only
  have a : ∀ (f : List FRec) (h : List Held), Keeps s { (s.takeFid r.fn).1 with frecs := f, held := h } := fun f h =>
    (State.takeFid_keeps s r.fn).trans (Keeps.of_eq rfl rfl)
  exact Keeps.ite ((a _ _).trans (State.flushRec_keeps _ _)) (a _ _)

/-! ## Suspension (R317, R320) -/

theorem State.suspendGang_keeps (s : State) (w : Who) (g : Nat) : Keeps s (s.suspendGang w g) := by
  unfold State.suspendGang
  refine Keeps.foldl _ _ (fun u h => ?_) s
  exact Keeps.ite (Keeps.refl u) (Keeps.ite (Keeps.setTenant u _ _ _) (Keeps.refl u))

theorem State.suspend_keeps (s : State) (w : Who) (y : Resume) (pc cont : Word) (l : List (Nat × Nat × Nat)) (d : Nat) : Keeps s (s.suspend w y pc cont l d) := by
  unfold State.suspend
  simp only
  have n : ∀ c : Bool, Keeps s (if c = true then { s with nextId := s.nextId + 1 } else s) := fun c => by
    cases c
    · exact Keeps.refl s
    · exact Keeps.of_eq rfl rfl
  split
  · exact (Keeps.thenFold ((n _).trans (Keeps.setTenant _ _ _ _)) _ _ fun u p => State.postHeld_keeps u _ _ _ _).trans (State.suspendGang_keeps _ w _)
  · exact Keeps.thenFold ((n _).trans (Keeps.setTenant _ _ _ _)) _ _ fun u p => State.postHeld_keeps u _ _ _ _

theorem State.suspendFault_keeps (s : State) (w : Who) (y : Resume) (pc cont : Word) (l : List (Nat × Nat × Nat)) (d : Nat) :
    Keeps s (s.suspendFault w y pc cont l d) := by
  unfold State.suspendFault
  simp only
  split
  · exact (State.suspend_keeps s w y pc cont l d).trans (Keeps.count _ _ _ _ _)
  · exact State.suspend_keeps s w y pc cont l d

/-- A fault at issue suspends the handler or ends it. -/
theorem memFault_ends (s : State) (c va n : Nat) : Ends (memFault s c va n) (Keeps s) := by
  unfold memFault
  split
  · exact Ends.next (State.suspendFault_keeps s _ _ _ _ _ _)
  · exact trapNow_ends s _ _ _

/-! ## Reads at issue -/

/-- What a read or a write at issue leaves keeps the state it began from. -/
def Acc.Keeps {α : Type} (s : State) (a : Acc α) : Prop :=
  match a with
  | .ok u _ => Machine.Keeps s u
  | .stall => True
  | .again u => Machine.Keeps s u
  | .fault u _ _ _ => Machine.Keeps s u

theorem Acc.then_ends {α : Type} {s : State} {a : Acc α} {f : State → α → Out} (h : Acc.Keeps s a)
    (g : ∀ u x, a = .ok u x → Machine.Keeps s u → Ends (f u x) (Machine.Keeps s)) : Ends (a.then s f) (Machine.Keeps s) := by
  cases a with
  | ok u x => exact g u x rfl h
  | stall => exact stall_ends s
  | again u => exact (stall_ends u).mono fun t k => Machine.Keeps.trans h k
  | fault u c va n => exact (memFault_ends u c va n).mono fun t k => Machine.Keeps.trans h k

theorem Acc.bind_keeps {α β : Type} {s : State} {a : Acc α} {f : State → α → Acc β} (h : Acc.Keeps s a) (g : ∀ u x, Machine.Keeps s u → Acc.Keeps s (f u x)) :
    Acc.Keeps s (a.bind f) := by
  cases a with
  | ok u x => exact g u x h
  | stall => exact True.intro
  | again u => exact h
  | fault u c va n => exact h

theorem Acc.Keeps.after {α : Type} {s u : State} {a : Acc α} (k : Machine.Keeps s u) (h : Acc.Keeps u a) : Acc.Keeps s a := by
  cases a with
  | ok v x => exact k.trans h
  | stall => exact True.intro
  | again v => exact k.trans h
  | fault v c va n => exact k.trans h

theorem Keeps.keepRead (s : State) (w : Who) (va : Nat) (bs : List Byte) : Keeps s (s.keepRead w va bs) := Keeps.modRcx s w _

theorem State.readOnce_keeps (s : State) (w : Who) (acc va n : Nat) : Acc.Keeps s (s.readOnce w acc va n) := by
  have l := (State.locate_keeps s w va 1 false).1
  unfold State.readOnce
  split
  · exact Machine.Keeps.refl s
  · split
    · exact True.intro
    · simp only
      split
      · exact l
      · exact True.intro
      · exact l
      · split
        · exact True.intro
        · split
          · exact l
          · split
            · split
              · exact True.intro
              · exact l.trans (Keeps.of_eq rfl rfl)
            · exact (l.trans (State.readAt_keeps _ _ _)).trans (Keeps.chargeAt _ _ _ _ _ _)

theorem State.readAll_keeps (s : State) (w : Who) (acc : Nat) (l : List (Nat × Nat)) : Acc.Keeps s (s.readAll w acc l) := by
  induction l generalizing s with
  | nil => exact Machine.Keeps.refl s
  | cons p t ih =>
    exact Acc.bind_keeps (State.readOnce_keeps s w acc p.1 p.2) fun u _ k =>
      Acc.Keeps.after k (Acc.bind_keeps (ih u) fun _ _ k => k)

theorem State.readParts_keeps (s : State) (w : Who) (acc : Nat) (l : List (Nat × Nat)) : Acc.Keeps s (s.readParts w acc l) := by
  unfold State.readParts
  split
  · exact State.readAll_keeps s w acc l
  · split
    · exact State.readAll_keeps s w acc l
    · exact Acc.bind_keeps (State.readOnce_keeps s w acc _ _) fun u _ k => Machine.Keeps.trans k (Keeps.keepRead u w _ _)

theorem State.readRange_keeps (s : State) (w : Who) (va n : Nat) : Acc.Keeps s (s.readRange w va n) := State.readParts_keeps s w 0 _

theorem State.readWhole_keeps (s : State) (w : Who) (va n : Nat) : Acc.Keeps s (s.readWhole w va n) := by
  have l := (State.locate_keeps s w va 1 false).1
  have r : ∀ (m : List Nat) (sp : Spot) (q : State × List Byte), Keeps q.1 (m.foldl (fun (q : State × List Byte) i =>
      let r := q.1.readAt { sp with home := sp.home + 64 * i } 64; (r.1, q.2 ++ r.2)) q).1 := fun m sp => by
    induction m with
    | nil => exact fun q => Keeps.refl q.1
    | cons i m ih =>
      intro q
      have a := q.1.readAt_keeps { sp with home := sp.home + 64 * i } 64
      exact a.trans (ih ((q.1.readAt { sp with home := sp.home + 64 * i } 64).1, q.2 ++ (q.1.readAt { sp with home := sp.home + 64 * i } 64).2))
  unfold State.readWhole
  split
  · exact Machine.Keeps.refl s
  · split
    · exact True.intro
    · simp only
      split
      · exact l
      · exact True.intro
      · exact l
      · split
        · exact True.intro
        · split
          · exact l
          · next sp _ _ _ => exact (l.trans (r (List.range (n / 64)) sp ((s.locate w va 1 false).s, []))).trans (Keeps.chargeAt _ _ _ _ _ _)

theorem State.readTcm_keeps (s : State) (w : Who) (o n : Nat) : Acc.Keeps s (s.readTcm w o n) := by
  unfold State.readTcm
  extract_lets open_ p
  split
  · exact True.intro
  · split
    · exact Machine.Keeps.refl s
    · split
      · exact Keeps.keepRead s w _ _
      · exact Machine.Keeps.refl s

/-! ## The end of a suspended handler (R319) -/

theorem State.unwatch_keeps (s : State) (w : Who) (o : Op) : Keeps s (s.unwatch w o) := by
  unfold State.unwatch
  split
  · exact Keeps.modTenant s _ _ _
  · exact Keeps.modTenant s _ _ _
  · exact Keeps.refl s

theorem State.endWaiting_keeps (s : State) (w : Who) (x : Wait) (va : Option Nat) : Keeps s (s.endWaiting w x va) := by
  unfold State.endWaiting
  split
  · simp only
    exact Keeps.ite (State.unwatch_keeps s w _) ((State.unwatch_keeps s w _).trans (Keeps.modRcx _ _ _))
  · exact Keeps.refl s

theorem State.endGangSlots_keeps (s : State) (c x g : Nat) : Keeps s (s.endGangSlots c x g) := by
  unfold State.endGangSlots
  refine Keeps.foldl _ _ (fun u h => ?_) s
  refine Keeps.ite (Keeps.refl u) ?_
  simp only
  have a : ∀ (l : List (Nat × Slot)) (t : Tenant) (p : HeldBy → Bool),
      Keeps u (((l.foldl (fun s q => s.endWaiting { core := h, ctx := x, rc := 3 + q.1 } q.2.wait none) u).setTenant h x t).dropHeld p) := fun l t p =>
    ((Keeps.foldl l _ (fun v q => State.endWaiting_keeps v _ _ _) u).trans (Keeps.setTenant _ _ _ _)).trans (Keeps.dropHeld _ _)
  split
  · exact Keeps.ite (((a _ _ _).trans (State.endWaiting_keeps _ _ _ _)).trans ((State.endRc_keeps _ _ _).trans (Keeps.dropHeld _ _))) (a _ _ _)
  · exact a _ _ _

theorem State.endGangOf_keeps (s : State) (c x : Nat) (y : Wait) : Keeps s (s.endGangOf c x y) := by
  unfold State.endGangOf
  split
  · exact State.endGangSlots_keeps s c x _
  · exact Keeps.refl s

theorem State.endSlot_keeps (s : State) (c x i k : Nat) (a2 a6 : Word) : Keeps s (s.endSlot c x i k a2 a6) := by
  unfold State.endSlot
  simp only
  split
  · exact Keeps.refl s
  · have a : ∀ (t : Tenant) (y : Wait), Keeps s (((s.setTenant c x t).dropHeld (HeldBy.atSlot c x i)).endGangOf c x y) := fun t y =>
      ((Keeps.setTenant s c x t).trans (Keeps.dropHeld _ _)).trans (State.endGangOf_keeps _ c x y)
    split
    · exact (a _ _).trans (State.taskEnd_keeps _ _ _ _)
    · exact (a _ _).trans (Keeps.post _ _)

theorem State.endPlace_keeps (s : State) (w : Who) (x : Wait) (pc : Word) (k : Nat) (a2 a6 : Word) : Keeps s (s.endPlace w x pc k a2 a6) :=
  ((State.endGangOf_keeps s _ _ x).trans (State.trap_keeps _ w k pc a2 a6)).trans (Keeps.dropHeld _ _)

theorem State.opEnds_keeps (s : State) (w : Who) (o : Op) (c va : Nat) (a6 : Word) (l : List (Nat × Nat)) : Keeps s (s.opEnds w o c va a6 l) := by
  unfold State.opEnds
  simp only
  have a := (Keeps.modRcx s w fun r => r.dropOp o.seq).trans (State.unwatch_keeps _ w o)
  have b : ∀ u : State, Keeps s u → Keeps s (if l.isEmpty = true then u else u.modRcx (s.party w) fun r =>
      { r with ops := r.ops ++ [{ o with parts := l, dest := .none, got := [], peer := false, held := false }] }) := fun u k =>
    Keeps.ite k (k.trans (Keeps.modRcx _ _ _))
  refine b _ ?_
  split
  · refine Keeps.trans ?_ (State.endSlot_keeps _ _ _ _ _ _ _)
    split
    · exact a.trans (State.endWaiting_keeps _ _ _ _)
    · exact a
  · split
    · have d := a.trans (Keeps.setTenant _ w.core w.ctx
        { ((s.modRcx w fun r => r.dropOp o.seq).unwatch w o).tenant w.core w.ctx with
          instret := (((s.modRcx w fun r => r.dropOp o.seq).unwatch w o).tenant w.core w.ctx).instret - 1 })
      split
      · exact (d.trans (State.endWaiting_keeps _ _ _ _)).trans (State.endPlace_keeps _ _ _ _ _ _ _)
      · exact d.trans (State.trap_keeps _ _ _ _ _ _)
    · exact a.trans (Keeps.post _ _)

theorem State.opTrap_keeps (s : State) (w : Who) (o : Op) (c va : Nat) (l : List (Nat × Nat)) : Keeps s (s.opTrap w o c va l) := State.opEnds_keeps s w o c va _ l

/-! ## Performing an operation (R142–R150) -/

/-- What a part's performance leaves keeps the state it began from. -/
def PartRes.Keeps (s : State) (a : PartRes) : Prop :=
  match a with
  | .ok u _ => Machine.Keeps s u
  | .wait => True
  | .again u => Machine.Keeps s u
  | .peer u => Machine.Keeps s u
  | .bad u _ => Machine.Keeps s u

theorem Keeps.chargePart (s : State) (p c : Nat) (o : Op) (h va n : Nat) (w : Bool) : Keeps s (s.chargePart p c o h va n w) := by
  unfold State.chargePart; exact Keeps.ite (Keeps.suAt _ _ _ _ _ _) (Keeps.chargeAt _ _ _ _ _ _)

theorem State.actPart_keeps (s : State) (w : Who) (o : Op) (sp : Spot) (va n : Nat) : PartRes.Keeps s (s.actPart w o sp va n) := by
  have r := State.readAt_keeps s sp n
  have c : ∀ (u : State) (h : Bool), Machine.Keeps s u → Machine.Keeps s (u.chargePart (s.tenant w.core w.ctx).partid w.ctx o sp.home va n h) :=
    fun u h k => k.trans (Keeps.chargePart _ _ _ _ _ _ _ _)
  unfold State.actPart
  simp only
  split
  · split
    · exact Machine.Keeps.refl s
    · exact c _ _ r
  · split
    · exact Machine.Keeps.refl s
    · split
      · exact Machine.Keeps.refl s
      · exact c _ _ (r.trans (Keeps.modRcx _ _ _))
  · split
    · exact Machine.Keeps.refl s
    · exact c _ _ (State.writeAt_keeps s _ _ _)
  · split
    · exact Machine.Keeps.refl s
    · exact c _ _ (State.writeAt_keeps s _ _ _)
  · split
    · exact Machine.Keeps.refl s
    · refine c _ _ ?_
      split
      · exact r.trans (State.writeAt_keeps _ _ _ _)
      · exact r
  · split
    · exact Machine.Keeps.refl s
    · exact Machine.Keeps.of_eq rfl rfl
  · split
    · exact Machine.Keeps.refl s
    · exact c _ _ (State.writeAt_keeps s _ _ _)
  · split
    · exact Machine.Keeps.refl s
    · exact c _ _ (State.compEvent_keeps s _ _)
  · split
    · exact Machine.Keeps.refl s
    · exact c _ _ (State.compEvent_keeps s _ _)
  · split
    · exact Machine.Keeps.refl s
    · exact Machine.Keeps.of_eq rfl rfl
  · exact Machine.Keeps.refl s
  · exact Machine.Keeps.refl s

theorem State.buffer_keeps (s : State) (w : Who) (id : Option Nat) (sp : Spot) (va : Nat) (bs : List Byte) (q : Nat) (rl : Bool) :
    Keeps s (s.buffer w id sp va bs q rl) := by
  unfold State.buffer
  split
  · exact Keeps.tasks s _
  · exact Keeps.refl s

theorem State.doPart_keeps (s : State) (w : Who) (o : Op) (va n : Nat) (p : Bool) : PartRes.Keeps s (s.doPart w o va n p) := by
  unfold State.doPart
  extract_lets l
  have k : Located.Keeps s l := State.locate_keeps s w va (needOf o.k.acc) (o.k.isStore && !s.toSpec w o va)
  clear_value l
  split
  · exact k.2
  · split
    · exact k.2
    · split
      · exact k.2
      · exact True.intro
      · exact k.1
      · next sp _ =>
        split
        · split
          · exact k.2
          · exact Machine.Keeps.trans k.1 (State.buffer_keeps _ _ _ _ _ _ _ _)
        · split
          · exact True.intro
          · split
            · exact k.2
            · have b := State.actPart_keeps l.s w o sp va n
              revert b
              cases l.s.actPart w o sp va n <;> intro b
              · exact Machine.Keeps.trans k.1 b
              · exact True.intro
              · exact Machine.Keeps.trans k.1 b
              · exact Machine.Keeps.trans k.1 b
              · exact k.2

theorem State.push_keeps (s : State) (c x q : Nat) (v : Gran) : Keeps s (s.push c x q v) := by
  unfold State.push
  simp only
  split
  · exact Keeps.of_eq rfl rfl
  · exact Keeps.setTenant s c x _

theorem State.deliver_keeps (s : State) (w : Who) (o : Op) : Keeps s (s.deliver w o) := by
  unfold State.deliver
  simp only
  split
  · exact Keeps.refl s
  · exact Keeps.modRcx s w _
  · exact Keeps.modRcx s w _
  · exact Keeps.ite (Keeps.refl s) (Keeps.modRcx s w _)
  · exact Keeps.modRcx s w _
  · exact State.push_keeps s _ _ _ _
  · exact Keeps.refl s

theorem Keeps.putG (s : State) (w : Who) (rd : Nat) (v : Region) : Keeps s (s.putG w rd v) := Keeps.modTenant s _ _ _

theorem State.completeFill_keeps (s : State) (w : Who) (o : Op) (f : Fill) : Keeps s (s.completeFill w o f) := by
  unfold State.completeFill
  simp only
  split
  · exact State.opEnds_keeps s w o _ _ _ _
  · exact (Keeps.modRcx s w _).trans (Keeps.modRcx _ w _)
  · exact (Keeps.ite ((Keeps.putG s w _ _).trans (Keeps.count _ _ _ _ _)) (Keeps.putG s w _ _)).trans (Keeps.modRcx _ w _)

theorem State.complete_keeps (s : State) (w : Who) (o : Op) : Keeps s (s.complete w o) := by
  unfold State.complete
  split
  · exact State.completeFill_keeps s w o _
  · simp only
    refine Keeps.trans ?_ (Keeps.modRcx _ w _)
    split
    · exact (State.deliver_keeps s w o).trans (Keeps.of_eq rfl rfl)
    · exact State.deliver_keeps s w o

theorem Rest.part_keeps (w : Who) (r : Rest) (p : Nat × Nat) : Keeps r.s (Rest.part w r p).s := by
  have a := State.doPart_keeps r.s w { r.o with parts := r.o.parts.erase p } p.1 p.2 false
  unfold Rest.part
  split
  · next h => rw [h] at a; exact a
  · exact Keeps.refl r.s
  · next h => rw [h] at a; exact a
  · next h => rw [h] at a; exact a
  · next h => rw [h] at a; split <;> exact a

theorem Rest.parts_keeps (w : Who) (l : List (Nat × Nat)) (r : Rest) : Keeps r.s (l.foldl (Rest.part w) r).s := by
  induction l generalizing r with
  | nil => exact Keeps.refl r.s
  | cons p l ih => exact (Rest.part_keeps w r p).trans (ih _)

theorem State.opFault_keeps (s : State) (w : Who) (o : Op) : Keeps s (s.opFault w o) := by
  have a := Rest.parts_keeps w (s.cutParts w o.parts) { s := s, o := { o with parts := s.cutParts w o.parts }, sus := [], wait := [], bad := none }
  unfold State.opFault
  simp only
  split
  · exact a.trans (State.opTrap_keeps _ _ _ _ _ _)
  · split
    · exact (a.trans (Keeps.setRcx _ _ _)).trans (State.suspendFault_keeps _ _ _ _ _ _ _)
    · exact Keeps.thenFold (a.trans (Keeps.modRcx _ _ _)) _ _ fun u p => State.postHeld_keeps u _ _ _ _

theorem State.perform_keeps (s t : State) (w : Who) (o : Op) (d : Nat) (h : s.perform w o d = some t) : Keeps s t := by
  unfold State.perform at h
  split at h
  · cases h
  · split at h
    · split at h
      · cases h
      · cases h; exact State.complete_keeps s w o
    · split at h
      · cases h
      · next va n o' _ =>
        have a := State.doPart_keeps s w o' va n false
        split at h
        · cases h
        · next e => rw [e] at a; cases h; exact a
        · next e => rw [e] at a; cases h; exact Machine.Keeps.trans a (Keeps.of_eq rfl rfl)
        · cases h; exact State.opFault_keeps s w o
        · next e =>
          rw [e] at a
          split at h
          · cases h; exact Machine.Keeps.trans a (State.complete_keeps _ _ _)
          · cases h; exact Machine.Keeps.trans a (Keeps.modRcx _ _ _)

theorem State.settle_keeps (s : State) (w : Who) (q n : Nat) : Keeps s (s.settle w q n) := by
  induction n generalizing s with
  | zero => exact Keeps.refl s
  | succ n ih =>
    unfold State.settle
    split
    · exact Keeps.refl s
    · split
      · next t h => exact (State.perform_keeps s t w _ 0 h).trans (ih t)
      · exact Keeps.refl s

/-- R58: issuing an operation, whether it is performed at once or later. -/
theorem State.issue_keeps (s : State) (o : Op) : Keeps s (s.issue o) := by
  unfold State.issue
  simp only
  have a : ∀ r, Keeps s (s.setRcx s.cur r).retire := fun r => (Keeps.setRcx s s.cur r).trans (Keeps.retire _)
  exact Keeps.ite ((a _).trans (State.settle_keeps _ _ _ _)) (a _)

theorem loadOp_ends (s : State) (va n : Nat) (d : Dest) (aq : Bool) : Ends (loadOp s va n d aq) (Keeps s) := by
  unfold loadOp; split
  · exact stall_ends s
  · exact Ends.next (State.issue_keeps s _)

end Sys2Proof.Machine
end

