-- ==== Sys2Proof/Tests/Slice0.lean ====
section
/-! SUPPORT. Tests of the model on small states, with expected results from the manual's tables and examples; and for each statement a state
and operands that meet its hypotheses together. -/

namespace Sys2Proof.Tests

set_option Elab.async false

open Sys2Proof Sys2Proof.Machine Sys2Proof.Safety Sys2Proof.Spec


/-! ## Helpers -/

/-- The state after an instruction or event; the state itself where it stops. -/
def after (i : Instr) (s : State) : State :=
  match exec i s with
  | .next t => t
  | _ => s

/-- The state after one step; the state itself where it stops. -/
def afterStep (s : State) : State :=
  match step s with
  | .next t => t
  | _ => s

/-- An instruction or event gives a next state. -/
def goes (i : Instr) (s : State) : Bool :=
  match exec i s with
  | .next _ => true
  | _ => false

/-- The acting context takes a trap with this cause and address slot, on the state as it was. -/
def trapsWith (i : Instr) (s : State) (c a2 : Nat) : Bool :=
  match exec i s with
  | .next t => decide (t = s.trap s.cur c s.rc.pc (w64 a2) 0)
  | _ => false

/-- x registers of the acting context set to values. -/
def withX (s : State) (l : List (Nat × Word)) : State := l.foldl (fun s p => s.setX p.1 p.2) s

/-- A running handler of the normal context, with a word to fetch. -/
def base : State := State.reset.withFetchWord 32 0xFFD10093

/-- That handler with three registers set. -/
def regs : State := withX base [(1, 5), (2, 7), (3, w64 (-1))]

/-- The word of a fetch. -/
def fetchedWord : Fetched → Option Nat
  | .word _ w => some w
  | _ => none

/-- A word with a reserved field. -/
def isReserved : Decoded → Bool
  | .reserved _ => true
  | _ => false

/-! ## Fetch and decode -/

theorem test_step_runs_decoded :
    base.agenda = [] ∧ base.stalled = false ∧ base.tn.active = some base.cur.rc ∧ base.rc.run = .running ∧ base.evWatchdog base.cur.core base.cur.rc = none
      ∧ (base.gang base.cur.core base.cur.ctx).length ≤ 1 ∧ fetchedWord base.fetch = some 0xFFD10093
      ∧ (afterStep (withX base [(2, 7)])).x 1 = 4 := by decide +kernel

/-- The page of an address as a station's cache holds it, in both stages: at intermediate address 0x8000, and at a frame address of a tier. -/
def page (station va frame tier : Nat) (v : Bool) : List TEntry :=
  [{ station := station, part := 0, ctx := 0, stage := 1, page := va / 4096, leaf := { pte := 0x800F + (if v then 2 ^ 63 else 0), home := hbmHome 0xF0000, lvl := 0 }, via := [] },
    { station := station, part := 0, ctx := 0, stage := 2, page := 8, leaf := { pte := frame + 0xF + tier * 2 ^ 54, home := hbmHome 0xF0008, lvl := 0 }, via := [] }]

/-- That handler with its line not cached, and the page of the pc translated to host memory. -/
def uncached : State :=
  { base with icache := [], tcache := page 0 0x10000000000 0 2 false,
              mem := [(2 ^ 54, 0x93), (2 ^ 54 + 1, 0x00), (2 ^ 54 + 2, 0xD1), (2 ^ 54 + 3, 0xFF)] }

theorem test_fetch_reads_bytes :
    base.window base.cur base.rc.pc.toNat = .global ∧ Tbl.has base.icache (lineKey base.cur.core base.cur.ctx (base.rc.pc.toNat / 64)) = true
      ∧ uncached.window uncached.cur uncached.rc.pc.toNat = .global ∧ Tbl.has uncached.icache (lineKey 0 0 (uncached.rc.pc.toNat / 64)) = false ∧ base.rc.kept = [] ∧ uncached.rc.kept = []
      ∧ (let l := uncached.locate uncached.cur (uncached.rc.pc.toNat / 64 * 64) 4 false
         (match l.res with
          | .ok sp => !uncached.heldLine sp.home && !l.s.poisoned sp.home 64 && !l.s.garbled sp
          | _ => false) = true)
      ∧ fetchedWord uncached.fetch = some 0xFFD10093 := by decide +kernel


/-! ## Decoding: a word for each instruction, its fixed bits and fields placed as the opcode table places them -/

theorem test_decode_loads :
    decode 0xA5C30283 = .instr (.lb 5 6 2652) ∧ decode 0xA5C31283 = .instr (.lh 5 6 2652) ∧ decode 0xA5C32283 = .instr (.lw 5 6 2652)
       ∧ decode 0xA5C33283 = .instr (.ld 5 6 2652) ∧ decode 0xA5C34283 = .instr (.lbu 5 6 2652) ∧ decode 0xA5C35283 = .instr (.lhu 5 6 2652)
       ∧ decode 0xA5C36283 = .instr (.lwu 5 6 2652) := by decide +kernel

theorem test_decode_fences :
    decode 0x0313028F = .instr (.fence 5 6 1 3) ∧ decode 0x8333028F = .instr (.fenceTso 5 6) ∧ decode 0x8313028F = .instr (.fenceFm8 5 6 1 3) := by decide +kernel

theorem test_decode_immediate :
    decode 0xA5C30293 = .instr (.addi 5 6 2652) ∧ decode 0xA5C32293 = .instr (.slti 5 6 2652) ∧ decode 0xA5C33293 = .instr (.sltiu 5 6 2652)
       ∧ decode 0xA5C34293 = .instr (.xori 5 6 2652) ∧ decode 0xA5C36293 = .instr (.ori 5 6 2652) ∧ decode 0xA5C37293 = .instr (.andi 5 6 2652)
       ∧ decode 0x00D31293 = .instr (.slli 5 6 13) ∧ decode 0x60031293 = .instr (.clz 5 6) ∧ decode 0x60131293 = .instr (.ctz 5 6)
       ∧ decode 0x60231293 = .instr (.cpop 5 6) ∧ decode 0x60431293 = .instr (.sextB 5 6) ∧ decode 0x60531293 = .instr (.sextH 5 6)
       ∧ decode 0x00D35293 = .instr (.srli 5 6 13) ∧ decode 0x40D35293 = .instr (.srai 5 6 13) ∧ decode 0x60D35293 = .instr (.rori 5 6 13) := by decide +kernel

theorem test_decode_upper :
    decode 0xABCDE297 = .instr (.auipc 5 703710) ∧ decode 0xABCDE2B7 = .instr (.lui 5 703710) := by decide +kernel

theorem test_decode_immediate_word :
    decode 0xA5C3029B = .instr (.addiw 5 6 2652) ∧ decode 0x00D3129B = .instr (.slliw 5 6 13) ∧ decode 0x00D3529B = .instr (.srliw 5 6 13)
       ∧ decode 0x40D3529B = .instr (.sraiw 5 6 13) := by decide +kernel

theorem test_decode_stores :
    decode 0xA4730E23 = .instr (.sb 6 7 2652) ∧ decode 0xA4731E23 = .instr (.sh 6 7 2652) ∧ decode 0xA4732E23 = .instr (.sw 6 7 2652)
       ∧ decode 0xA4733E23 = .instr (.sd 6 7 2652) := by decide +kernel

theorem test_decode_atomics_1 :
    decode 0x047322AF = .instr (.amoaddW 5 6 7 1 0) ∧ decode 0x0C7322AF = .instr (.amoswapW 5 6 7 1 0) ∧ decode 0x247322AF = .instr (.amoxorW 5 6 7 1 0)
       ∧ decode 0x447322AF = .instr (.amoorW 5 6 7 1 0) ∧ decode 0x647322AF = .instr (.amoandW 5 6 7 1 0) ∧ decode 0x847322AF = .instr (.amominW 5 6 7 1 0)
       ∧ decode 0xA47322AF = .instr (.amomaxW 5 6 7 1 0) ∧ decode 0xC47322AF = .instr (.amominuW 5 6 7 1 0) ∧ decode 0xE47322AF = .instr (.amomaxuW 5 6 7 1 0)
       ∧ decode 0x2C7322AF = .instr (.amocasW 5 6 7 1 0) ∧ decode 0x047332AF = .instr (.amoaddD 5 6 7 1 0) ∧ decode 0x0C7332AF = .instr (.amoswapD 5 6 7 1 0)
       ∧ decode 0x247332AF = .instr (.amoxorD 5 6 7 1 0) ∧ decode 0x447332AF = .instr (.amoorD 5 6 7 1 0) ∧ decode 0x647332AF = .instr (.amoandD 5 6 7 1 0)
       ∧ decode 0x847332AF = .instr (.amominD 5 6 7 1 0) := by decide +kernel

theorem test_decode_atomics_2 :
    decode 0xA47332AF = .instr (.amomaxD 5 6 7 1 0) ∧ decode 0xC47332AF = .instr (.amominuD 5 6 7 1 0) ∧ decode 0xE47332AF = .instr (.amomaxuD 5 6 7 1 0)
       ∧ decode 0x2C7332AF = .instr (.amocasD 5 6 7 1 0) ∧ decode 0x2C83422F = .instr (.amocasQ 4 6 8 1 0) := by decide +kernel

theorem test_decode_register_1 :
    decode 0x007302B3 = .instr (.add 5 6 7) ∧ decode 0x007312B3 = .instr (.sll 5 6 7) ∧ decode 0x007322B3 = .instr (.slt 5 6 7)
       ∧ decode 0x007332B3 = .instr (.sltu 5 6 7) ∧ decode 0x007342B3 = .instr (.xorr 5 6 7) ∧ decode 0x007352B3 = .instr (.srl 5 6 7)
       ∧ decode 0x007362B3 = .instr (.orr 5 6 7) ∧ decode 0x007372B3 = .instr (.andd 5 6 7) ∧ decode 0x407302B3 = .instr (.sub 5 6 7)
       ∧ decode 0x407352B3 = .instr (.sra 5 6 7) ∧ decode 0x407372B3 = .instr (.andn 5 6 7) ∧ decode 0x027302B3 = .instr (.mul 5 6 7)
       ∧ decode 0x027312B3 = .instr (.mulh 5 6 7) ∧ decode 0x027322B3 = .instr (.mulhsu 5 6 7) ∧ decode 0x027332B3 = .instr (.mulhu 5 6 7)
       ∧ decode 0x027342B3 = .instr (.div 5 6 7) := by decide +kernel

theorem test_decode_register_2 :
    decode 0x027352B3 = .instr (.divu 5 6 7) ∧ decode 0x027362B3 = .instr (.rem 5 6 7) ∧ decode 0x027372B3 = .instr (.remu 5 6 7)
       ∧ decode 0x0A7342B3 = .instr (.minn 5 6 7) ∧ decode 0x0A7352B3 = .instr (.minu 5 6 7) ∧ decode 0x0A7362B3 = .instr (.maxx 5 6 7)
       ∧ decode 0x0A7372B3 = .instr (.maxu 5 6 7) ∧ decode 0x207322B3 = .instr (.sh1add 5 6 7) ∧ decode 0x207342B3 = .instr (.sh2add 5 6 7)
       ∧ decode 0x207362B3 = .instr (.sh3add 5 6 7) ∧ decode 0x607312B3 = .instr (.rol 5 6 7) ∧ decode 0x607352B3 = .instr (.ror 5 6 7) := by decide +kernel

theorem test_decode_register_word :
    decode 0x007302BB = .instr (.addw 5 6 7) ∧ decode 0x007312BB = .instr (.sllw 5 6 7) ∧ decode 0x007352BB = .instr (.srlw 5 6 7)
       ∧ decode 0x407302BB = .instr (.subw 5 6 7) ∧ decode 0x407352BB = .instr (.sraw 5 6 7) ∧ decode 0x027302BB = .instr (.mulw 5 6 7)
       ∧ decode 0x027342BB = .instr (.divw 5 6 7) ∧ decode 0x027352BB = .instr (.divuw 5 6 7) ∧ decode 0x027362BB = .instr (.remw 5 6 7)
       ∧ decode 0x027372BB = .instr (.remuw 5 6 7) ∧ decode 0x080342BB = .instr (.zextH 5 6) := by decide +kernel

theorem test_decode_branches :
    decode 0xAA730BE3 = .instr (.beq 6 7 6838) ∧ decode 0xAA731BE3 = .instr (.bne 6 7 6838) ∧ decode 0xAA734BE3 = .instr (.blt 6 7 6838)
       ∧ decode 0xAA735BE3 = .instr (.bge 6 7 6838) ∧ decode 0xAA736BE3 = .instr (.bltu 6 7 6838) ∧ decode 0xAA737BE3 = .instr (.bgeu 6 7 6838) := by decide +kernel

theorem test_decode_jumps :
    decode 0xA5C302E7 = .instr (.jalr 5 6 2652) ∧ decode 0xB6B5A2EF = .instr (.jal 5 1420138) := by decide +kernel

theorem test_decode_system :
    decode 0x00000073 = .instr .ecall ∧ decode 0x00100073 = .instr .ebreak ∧ decode 0x802312F3 = .instr (.csrrw 5 6 2050) ∧ decode 0x802322F3 = .instr (.csrrs 5 6 2050)
       ∧ decode 0x802332F3 = .instr (.csrrc 5 6 2050) ∧ decode 0x8028D2F3 = .instr (.csrrwi 5 17 2050) ∧ decode 0x8028E2F3 = .instr (.csrrsi 5 17 2050)
       ∧ decode 0x8028F2F3 = .instr (.csrrci 5 17 2050) := by decide +kernel

theorem test_decode_handlers :
    decode 0x0000000B = .instr .done ∧ decode 0x0273028B = .instr (.bind 5 6 7) ∧ decode 0x0403028B = .instr (.unbind 5 6) ∧ decode 0x0603028B = .instr (.loopb 5 6)
       ∧ decode 0x0803028B = .instr (.tcancel 5 6) ∧ decode 0x9E13128B = .instr (.send 5 6 33 7 0 1) ∧ decode 0x0433228B = .instr (.tenq 5 6 3 2)
       ∧ decode 0x8553300B = .instr (.barrive 6 5 2 33) ∧ decode 0x0073428B = .instr (.callt 5 6 7) := by decide +kernel

theorem test_decode_access :
    decode 0xA5C302AB = .instr (.ldaqD 5 6 2652) ∧ decode 0xA5C312AB = .instr (.ldaqQ 5 6 2652) ∧ decode 0xA4732E2B = .instr (.strlD 6 7 2652)
       ∧ decode 0xA4733E2B = .instr (.strlQ 6 7 2652) ∧ decode 0x000342AB = .instr (.ldvD 5 6) ∧ decode 0x020342AB = .instr (.ldvQ 5 6)
       ∧ decode 0x047342AB = .instr (.stvD 5 6 7) ∧ decode 0x067342AB = .instr (.stvQ 5 6 7) ∧ decode 0x087342AB = .instr (.vwatch 5 6 7)
       ∧ decode 0x0A20C02B = .instr (.dfence 1 2) ∧ decode 0x0C00402B = .instr .tfence ∧ decode 0x0E73402B = .instr (.iflush 6 7)
       ∧ decode 0x107342AB = .instr (.rkload 5 6 7) ∧ decode 0x36734E2B = .instr (.rkwalk 28 6 7 11) ∧ decode 0xA5C352AB = .instr (.wld 5 6 2652)
       ∧ decode 0xA4736E2B = .instr (.wst 6 7 2652) := by decide +kernel

theorem test_decode_vector_1 :
    decode 0x009312DB = .instr (.vadd 5 6 9 1) ∧ decode 0x029312DB = .instr (.vsub 5 6 9 1) ∧ decode 0x049312DB = .instr (.vmul 5 6 9 1)
       ∧ decode 0x069312DB = .instr (.vmulhS 5 6 9 1) ∧ decode 0x089312DB = .instr (.vmulhZ 5 6 9 1) ∧ decode 0x0A9312DB = .instr (.vminS 5 6 9 1)
       ∧ decode 0x0C9312DB = .instr (.vminZ 5 6 9 1) ∧ decode 0x0E9312DB = .instr (.vmaxS 5 6 9 1) ∧ decode 0x109312DB = .instr (.vmaxZ 5 6 9 1)
       ∧ decode 0x129312DB = .instr (.vsaddS 5 6 9 1) ∧ decode 0x149312DB = .instr (.vsaddZ 5 6 9 1) ∧ decode 0x169312DB = .instr (.vssubS 5 6 9 1)
       ∧ decode 0x189312DB = .instr (.vssubZ 5 6 9 1) ∧ decode 0x1A9312DB = .instr (.vshl 5 6 9 1) ∧ decode 0x1C9312DB = .instr (.vshrS 5 6 9 1)
       ∧ decode 0x1E9312DB = .instr (.vshrZ 5 6 9 1) := by decide +kernel

theorem test_decode_vector_2 :
    decode 0x209312DB = .instr (.vand 5 6 9 1) ∧ decode 0x229312DB = .instr (.vor 5 6 9 1) ∧ decode 0x249312DB = .instr (.vxor 5 6 9 1)
       ∧ decode 0x269312DB = .instr (.vandn 5 6 9 1) ∧ decode 0x309312DB = .instr (.vcmpEq 5 6 9 1) ∧ decode 0x329312DB = .instr (.vcmpNe 5 6 9 1)
       ∧ decode 0x349312DB = .instr (.vcmpLt 5 6 9 1) ∧ decode 0x369312DB = .instr (.vcmpLe 5 6 9 1) ∧ decode 0x389312DB = .instr (.vcmpLtZ 5 6 9 1)
       ∧ decode 0x3A9312DB = .instr (.vcmpLeZ 5 6 9 1) ∧ decode 0x3C9312DB = .instr (.vsel 5 6 9 1) ∧ decode 0x409362DB = .instr (.vfadd 5 6 9 6)
       ∧ decode 0x429362DB = .instr (.vfsub 5 6 9 6) ∧ decode 0x449362DB = .instr (.vfmul 5 6 9 6) ∧ decode 0x469362DB = .instr (.vfma 5 6 9 6)
       ∧ decode 0x489362DB = .instr (.vfmin 5 6 9 6) := by decide +kernel

theorem test_decode_vector_3 :
    decode 0x4A9362DB = .instr (.vfmax 5 6 9 6) ∧ decode 0x4C9362DB = .instr (.vfdiv 5 6 9 6) ∧ decode 0x4E0362DB = .instr (.vfsqrt 5 6 6)
       ∧ decode 0x500362DB = .instr (.vexp2 5 6) ∧ decode 0x520362DB = .instr (.vlog2 5 6) ∧ decode 0x540362DB = .instr (.vrcp 5 6)
       ∧ decode 0x560362DB = .instr (.vrsqrt 5 6) ∧ decode 0x580362DB = .instr (.vsinpi 5 6) ∧ decode 0x5A0362DB = .instr (.vcospi 5 6)
       ∧ decode 0x600312DB = .instr (.vrsum 5 6 1) ∧ decode 0x620312DB = .instr (.vrmax 5 6 1) ∧ decode 0x640312DB = .instr (.vrmin 5 6 1)
       ∧ decode 0x701362DB = .instr (.vcvt 5 6 1 6) ∧ decode 0x721362DB = .instr (.vcvtHi 5 6 1 6) ∧ decode 0x741362DB = .instr (.vcvtPk 5 6 1 6)
       ∧ decode 0x760362DB = .instr (.vcvtl 5 6 6) := by decide +kernel

theorem test_decode_vector_4 :
    decode 0x780362DB = .instr (.vcvtlf 5 6 6) ∧ decode 0x809312DB = .instr (.vshuf 5 6 9 1) ∧ decode 0x820312DB = .instr (.vbcast 5 6 1)
       ∧ decode 0x843312DB = .instr (.vins 5 6 3 1) ∧ decode 0x863312DB = .instr (.vext 5 6 3 1) ∧ decode 0x883312DB = .instr (.vextz 5 6 3 1)
       ∧ decode 0x909312DB = .instr (.vksort 5 6 9 1) ∧ decode 0x929312DB = .instr (.vkmergeLo 5 6 9 1) ∧ decode 0x949312DB = .instr (.vkmergeHi 5 6 9 1)
       ∧ decode 0x969312DB = .instr (.vkcombAdd 5 6 9 1) ∧ decode 0x989312DB = .instr (.vkcombFirst 5 6 9 1) ∧ decode 0x9A9312DB = .instr (.vkmatch 5 6 9 1)
       ∧ decode 0xA09362DB = .instr (.vsmmerge 5 6 9) ∧ decode 0xA29362DB = .instr (.vsmscale 5 6 9) ∧ decode 0xA49362DB = .instr (.vsmnorm 5 6 9) := by decide +kernel

theorem test_decode_region_engines_1 :
    decode 0x007302FB = .instr (.runionEx 5 6 7) ∧ decode 0x027302FB = .instr (.runionSup 5 6 7) ∧ decode 0x047302FB = .instr (.rinterEx 5 6 7)
       ∧ decode 0x067302FB = .instr (.rinterSup 5 6 7) ∧ decode 0x087302FB = .instr (.rsubEx 5 6 7) ∧ decode 0x0A7302FB = .instr (.rsubSup 5 6 7)
       ∧ decode 0x0C7302FB = .instr (.rsubSub 5 6 7) ∧ decode 0x107302FB = .instr (.rdil 5 6 7) ∧ decode 0x127302FB = .instr (.rshift 5 6 7)
       ∧ decode 0x147302FB = .instr (.rproj 5 6 7) ∧ decode 0x167302FB = .instr (.rsplit 5 6 7) ∧ decode 0x187302FB = .instr (.rclip 5 6 7)
       ∧ decode 0x1A0302FB = .instr (.rcount 5 6) ∧ decode 0x1C7302FB = .instr (.rtest 5 6 7) ∧ decode 0x1E7302FB = .instr (.rgetb 5 6 7)
       ∧ decode 0x200302FB = .instr (.rld 5 6) := by decide +kernel

theorem test_decode_region_engines_2 :
    decode 0x2273007B = .instr (.rst 6 7) ∧ decode 0x247302FB = .instr (.rb2 5 6 7) ∧ decode 0x267302FB = .instr (.rmask 5 6 7)
       ∧ decode 0x287302FB = .instr (.tilepost 5 6 7) ∧ decode 0x2A0302FB = .instr (.tilenext 5 6) ∧ decode 0x187312FB = .instr (.rgather 5 6 7 3)
       ∧ decode 0x1A7312FB = .instr (.rscatterSet 5 6 7 3) ∧ decode 0x1C7312FB = .instr (.rscatterAdd 5 6 7 3) ∧ decode 0x007322FB = .instr (.rcopy 5 6 7)
       ∧ decode 0x02732E7B = .instr (.rstream 28 6 7) ∧ decode 0x047E22FB = .instr (.rsink 5 28 7) ∧ decode 0x0673207B = .instr (.rwait 6 7)
       ∧ decode 0x087322FB = .instr (.rcapmkR 5 6 7) ∧ decode 0x0A7322FB = .instr (.rcapmkW 5 6 7) ∧ decode 0x0C7322FB = .instr (.rcapmkRw 5 6 7)
       ∧ decode 0x10732E7B = .instr (.qbind 28 6 7) := by decide +kernel

theorem test_decode_region_engines_3 :
    decode 0x12002E7B = .instr (.qfree 28) ∧ decode 0x1473207B = .instr (.cinit 6 7) ∧ decode 0x1603207B = .instr (.carrive 6)
       ∧ decode 0x1873207B = .instr (.cexpect 6 7) ∧ decode 0x1A73207B = .instr (.cwatch 6 7) ∧ decode 0x1C73207B = .instr (.bedset 6 7)
       ∧ decode 0x2563327B = .instr (.mmul 4 6 2 1 1 9) ∧ decode 0x0003407B = .instr (.mlds 6) ∧ decode 0x0223407B = .instr (.mstc 6 2)
       ∧ decode 0x0420407B = .instr (.mzero 2) ∧ decode 0x0603407B = .instr (.mcfg 6) ∧ decode 0x087342FB = .instr (.mcmd 5 6 7) ∧ decode 0x0A00407B = .instr .mwait := by decide +kernel

/-- Words that the manual writes out (tables of the chapters on handlers, memory, regions, the Sluice and the matrix unit). -/
theorem test_decode_manual_words_1 :
    decode 0x02C5850B = .instr (.bind 10 11 12) ∧ decode 0x0405038B = .instr (.unbind 7 10) ∧ decode 0x28C5B52F = .instr (.amocasD 10 11 12 0 0)
      ∧ decode 0x046522AF = .instr (.amoaddW 5 10 6 1 0) ∧ decode 0x2A0EB82F = .instr (.amocasD 16 29 0 0 1) ∧ decode 0x0105852B = .instr (.ldaqD 10 11 16)
      ∧ decode 0x00A5A42B = .instr (.strlD 11 10 8) ∧ decode 0x0225682B = .instr (.wst 10 2 48) ∧ decode 0x0645C52B = .instr (.stvQ 10 11 4)
      ∧ decode 0x08C5C52B = .instr (.vwatch 10 11 12) ∧ decode 0x0A31C02B = .instr (.dfence 3 3) ∧ decode 0x0EB5402B = .instr (.iflush 10 11)
      ∧ decode 0x40F977B3 = .instr (.andn 15 18 15) ∧ decode 0x0220000F = .instr (.fence 0 0 2 2) ∧ decode 0x082C1F8B = .instr (.send 31 24 2 2 0 0)
      ∧ decode 0x0913300B = .instr (.barrive 6 1 2 2) := by decide +kernel

theorem test_decode_manual_words_2 :
    decode 0x022082FB = .instr (.runionSup 5 1 2) ∧ decode 0x082081FB = .instr (.rsubEx 3 1 2) ∧ decode 0x10A1827B = .instr (.rdil 4 3 10)
      ∧ decode 0x1EC185FB = .instr (.rgetb 11 3 12) ∧ decode 0x2225007B = .instr (.rst 10 2) ∧ decode 0x2655037B = .instr (.rmask 6 10 5)
      ∧ decode 0x28B2857B = .instr (.tilepost 10 5 11) ∧ decode 0x2A06037B = .instr (.tilenext 6 12) ∧ decode 0x24B5167B = .instr (.rscatterAdd 12 10 11 4)
      ∧ decode 0x10B52D7B = .instr (.qbind 26 10 11) ∧ decode 0x1AB5207B = .instr (.cwatch 10 11) ∧ decode 0x0225C07B = .instr (.mstc 11 2)
      ∧ decode 0x0410407B = .instr (.mzero 1) ∧ decode 0x08B542FB = .instr (.mcmd 5 10 11) ∧ decode 0x10C5C52B = .instr (.rkload 10 11 12)
      ∧ decode 0x47B2E25B = .instr (.vfma 4 5 27 6) ∧ decode 0x220D225B = .instr (.vor 4 26 0 2) := by decide +kernel

/-- "Words that are not instructions", with its HINT. -/
theorem test_decode_no_instruction :
    decode 0 = .illegal ∧ decode 0xFFFFFFFF = .illegal ∧ decode 0x0000100F = .illegal ∧ decode 0x30200073 = .illegal ∧ decode 0x403120DB = .illegal
      ∧ decode 0x0000028B = .reserved .done ∧ isReserved (decode 0x0515228B) = true ∧ isReserved (decode 0x074737FB) = true
      ∧ decode 0x00100013 = .instr (.addi 0 0 1) := by decide +kernel

/-! ## Well-formedness: an ill-formed term for each check -/

theorem test_wf_accepts : (Instr.addi 31 31 4095).wf = true ∧ (Instr.send 1 2 63 8 1 1).wf = true ∧ (Instr.mmul 1 2 3 2 2 63).wf = true ∧ (Instr.rkwalk 31 1 2 15).wf = true := by decide
theorem test_wf_register_numbers : (Instr.add 32 0 0).wf = false ∧ (Instr.add 0 32 0).wf = false ∧ (Instr.add 0 0 32).wf = false ∧ (Instr.rcapmkR 24 0 0).wf = false := by decide
theorem test_wf_region_registers : (Instr.runionEx 16 0 0).wf = false ∧ (Instr.rtest 0 16 0).wf = false ∧ (Instr.rst 0 16).wf = false ∧ (Instr.tenq 0 0 16 0).wf = false ∧ (Instr.tenq 0 0 0 16).wf = false := by decide
theorem test_wf_immediates : (Instr.addi 0 0 4096).wf = false ∧ (Instr.lui 0 1048576).wf = false ∧ (Instr.slli 0 0 64).wf = false ∧ (Instr.slliw 0 0 32).wf = false := by decide
theorem test_wf_targets : (Instr.beq 0 0 3).wf = false ∧ (Instr.beq 0 0 8192).wf = false ∧ (Instr.jal 0 1).wf = false ∧ (Instr.jal 0 2097152).wf = false := by decide
theorem test_wf_csr : (Instr.csrrw 1 2 0x800).wf = false ∧ (Instr.csrrwi 1 32 0x802).wf = false := by decide
theorem test_wf_atomics : (Instr.amoaddW 1 2 3 2 0).wf = false ∧ (Instr.amoaddW 1 2 3 0 2).wf = false ∧ (Instr.amocasQ 11 10 12 0 0).wf = false ∧ (Instr.amocasQ 10 10 13 0 0).wf = false := by decide
theorem test_wf_constants : (Instr.fence 0 0 16 0).wf = false ∧ (Instr.fenceFm8 0 0 3 3).wf = false ∧ (Instr.dfence 6 0).wf = false ∧ (Instr.dfence 0 16).wf = false ∧ (Instr.barrive 0 8 0 0).wf = false
    ∧ (Instr.barrive 0 0 8 0).wf = false ∧ (Instr.barrive 0 0 0 64).wf = false := by decide
theorem test_wf_messages : (Instr.send 0 0 64 0 0 0).wf = false ∧ (Instr.send 0 0 0 9 0 0).wf = false ∧ (Instr.send 0 0 0 0 2 0).wf = false ∧ (Instr.send 0 0 0 0 0 2).wf = false := by decide
theorem test_wf_types : (Instr.vadd 0 0 0 4).wf = false ∧ (Instr.vfadd 0 0 0 3).wf = false ∧ (Instr.vcvtl 0 0 7).wf = false ∧ (Instr.vksort 0 0 0 0).wf = false ∧ (Instr.vrsum 0 0 8).wf = false
    ∧ (Instr.vcvt 0 0 8 0).wf = false ∧ (Instr.vins 0 0 8 1).wf = false ∧ (Instr.vext 0 0 2 3).wf = false := by decide
theorem test_wf_ports_and_tiles : (Instr.qbind 25 0 0).wf = false ∧ (Instr.qfree 32).wf = false ∧ (Instr.rsink 0 25 0).wf = false ∧ (Instr.rkwalk 26 0 0 16).wf = false ∧ (Instr.mzero 4).wf = false
    ∧ (Instr.mmul 0 0 4 0 0 0).wf = false ∧ (Instr.mmul 0 0 0 3 0 0).wf = false ∧ (Instr.mmul 0 0 0 0 3 0).wf = false ∧ (Instr.mmul 0 0 0 0 0 64).wf = false := by decide

/-! ## Scalar instructions -/

/-- x1 waits for an outstanding load. -/
def busy1 : State := regs.setRcx regs.cur { regs.rc with ops := [{ mkOp .load 0x100 8 0 0 (.x 1 8 true) false false with parts := [(0x100, 8)] }] }

theorem test_integer_hypotheses :
    (∃ f, registerRule (.add 5 1 2) = some (5, 1, 2, f)) ∧ (∃ f, immediateRule (.addi 5 1 0xFFD) = some (5, [1], 1, f)) ∧ (Instr.addi 5 1 0xFFD).wf = true
      ∧ Live regs ∧ Ready regs [5, 1, 2] :=
  ⟨⟨_, rfl⟩, ⟨_, rfl⟩, by decide +kernel⟩

theorem test_integer_results :
    (after (.sub 5 1 2) regs).x 5 = w64 (-2) ∧ (after (.addi 5 1 0xFFD) regs).x 5 = 2 ∧ (after (.sltu 5 1 3) regs).x 5 = 1 ∧ (after (.mulhu 5 3 3) regs).x 5 = w64 (-2)
      ∧ (after (.rori 5 1 1) regs).x 5 = 0x8000000000000002 ∧ (after (.clz 5 1) regs).x 5 = 61 ∧ (after (.addw 5 3 3) regs).x 5 = w64 (-2)
      ∧ (after (.andn 5 2 1) regs).x 5 = 2 ∧ (after (.sh3add 5 1 2) regs).x 5 = 47 ∧ (after (.sraiw 5 3 4) regs).x 5 = w64 (-1) := by decide +kernel

theorem test_division_hypotheses :
    (∃ f, divisionRule (.div 5 1 0) = some (5, 1, 0, f)) ∧ Live regs ∧ Ready regs [5, 1, 0] ∧ (∃ f, divisionRule (.remw 0 1 2) = some (0, 1, 2, f)) ∧ Ready regs [0, 1, 2] :=
  ⟨⟨_, rfl⟩, by decide +kernel, by decide +kernel, ⟨_, rfl⟩, by decide +kernel⟩

/-- R61: a divisor of zero, and the one overflow. -/
theorem test_division_corners :
    (after (.div 5 1 0) regs).x 5 = w64 (-1) ∧ (after (.rem 5 1 0) regs).x 5 = 5 ∧ (after (.divuw 5 1 0) regs).x 5 = w64 (-1) ∧ (after (.remw 5 3 0) regs).x 5 = w64 (-1)
      ∧ (after (.div 5 1 3) (withX regs [(1, 0x8000000000000000)])).x 5 = 0x8000000000000000 ∧ (after (.rem 5 1 3) (withX regs [(1, 0x8000000000000000)])).x 5 = 0
      ∧ (after (.divw 5 1 3) (withX regs [(1, 0x80000000)])).x 5 = 0xFFFFFFFF80000000 ∧ (after (.rem 5 3 2) regs).x 5 = w64 (-1) ∧ (after (.div 5 3 2) regs).x 5 = 0 := by decide +kernel

theorem test_zero_destination :
    Live busy1 ∧ (Instr.addi 0 1 1).wf = true ∧ (Instr.add 0 1 2).wf = true ∧ (∃ f, registerRule (.add 0 1 2) = some (0, 1, 2, f)) ∧ (∃ f, immediateRule (.addi 0 1 1) = some (0, [1], 1, f))
      ∧ Advanced busy1 (after (.add 0 1 2) busy1) ∧ (after (.add 0 1 2) busy1).x 0 = 0 :=
  ⟨by decide +kernel, by decide, by decide, ⟨_, rfl⟩, ⟨_, rfl⟩, by decide +kernel, by decide +kernel⟩

theorem test_busy_stalls :
    (∃ f, registerRule (.add 5 1 2) = some (5, 1, 2, f)) ∧ (∃ f, divisionRule (.div 1 2 3) = some (1, 2, 3, f)) ∧ (∃ f, immediateRule (.addi 5 1 1) = some (5, [1], 1, f))
      ∧ [5, 1, 2].any busy1.rc.busyX = true ∧ (after (.add 5 1 2) busy1).stalled = true ∧ (after (.add 5 1 2) busy1).rc.pc = busy1.rc.pc :=
  ⟨⟨_, rfl⟩, ⟨_, rfl⟩, ⟨_, rfl⟩, by decide +kernel⟩

theorem test_branch_hypotheses :
    (∃ c, branchRule (.beq 1 1 8) = some (1, 1, 8, c) ∧ c 5 5 = true) ∧ (∃ c, branchRule (.bne 1 1 8) = some (1, 1, 8, c) ∧ c 5 5 = false) ∧ (Instr.beq 1 1 8).wf = true
      ∧ (Instr.beq 1 1 6).wf = true ∧ (Instr.jal 1 8).wf = true ∧ (Instr.jal 1 6).wf = true ∧ Live regs ∧ Ready regs [1, 1] ∧ (regs.rc.pc + w64 (simm 8 13)).toNat % 4 = 0
      ∧ (regs.rc.pc + w64 (simm 6 13)).toNat % 4 ≠ 0 ∧ (regs.rc.pc + w64 (simm 6 21)).toNat % 4 ≠ 0 :=
  ⟨⟨_, rfl, by decide⟩, ⟨_, rfl, by decide⟩, by decide +kernel⟩

/-- R64. -/
theorem test_branches :
    (after (.blt 3 1 0x1FF8) regs).rc.pc = w64 (0x10000000000 - 8) ∧ (after (.bltu 3 1 8) regs).rc.pc = 0x10000000004 ∧ (after (.jal 5 16) regs).x 5 = 0x10000000004
      ∧ (after (.jal 5 16) regs).rc.pc = 0x10000000010 ∧ trapsWith (.jal 5 6) regs 0x20 0x10000000006 = true ∧ trapsWith (.beq 1 1 6) regs 0x20 0x10000000006 = true := by decide +kernel

/-- R65. -/
theorem test_jalr :
    (Instr.jalr 0 1 3).wf = true ∧ Live regs ∧ Ready regs [1] ∧ (w64 (((regs.x 1).toInt + simm 3 12) / 2 * 2)).toNat % 4 = 0 ∧ (after (.jalr 0 1 3) regs).rc.pc = 8
      ∧ (w64 (((regs.x 1).toInt + simm 1 12) / 2 * 2)).toNat % 4 ≠ 0 ∧ trapsWith (.jalr 0 1 1) regs 0x20 6 = true ∧ trapsWith (.jalr 1 1 3) regs 0x03 8 = true := by decide +kernel

/-- A function table of two entries at 0x200 of own TCM: the second goes to 0x10000000040 with signature 0x77. -/
def withTable : State :=
  let s := regs.modTenant 0 0 fun t => { t with fntab := 0x200, fnlen := 2 }
  withX { s with mem := [(tcmHome 0 0 + 0x210, 0x40), (tcmHome 0 0 + 0x215, 1), (tcmHome 0 0 + 0x218, 0x77)] } [(6, 1), (7, 0x5500000077), (8, 2)]

theorem test_callt :
    Live withTable ∧ Fresh withTable ∧ Ready withTable [1, 6, 7] ∧ NoAcquire withTable ∧ withTable.tn.fnlen ≤ (withTable.x 8).toNat ∧ trapsWith (.callt 1 8 7) withTable 0x05 2 = true
      ∧ (let home := tcmHome 0 0 + (withTable.tn.fntab + 16 * (withTable.x 6).toNat)
         (withTable.x 6).toNat < withTable.tn.fnlen ∧ withTable.rc.ops = [] ∧ withTable.poisoned home 16 = false ∧ withTable.heldLine home = false ∧ Plain withTable
           ∧ leNat (withTable.bytes (home + 8) 4) = (withTable.x 7).toNat % 2 ^ 32 ∧ leNat (withTable.bytes home 8) % 4 = 0)
      ∧ (after (.callt 1 6 7) withTable).rc.pc = 0x10000000040 ∧ (after (.callt 1 6 7) withTable).x 1 = 0x10000000004 := by decide +kernel

/-! ## Accesses -/

/-- Eight bytes 0x80…0x87 at 0x100 of own TCM, x6 its address. -/
def withBytes : State := withX { regs with mem := (List.range 8).map fun k => (tcmHome 0 0 + 0x100 + k, BitVec.ofNat 8 (0x80 + k)) } [(6, 0x100), (8, 0x3FFFE), (9, 0x40000000), (10, 0xFFFFFFC)]

/-- An access of own TCM meets what AccessesIssue asks. -/
def issues (i : Instr) (s : State) : Bool :=
  match accessRule i s with
  | some A => i.wf && decide (Live s ∧ Ready s A.regs ∧ ReadyW s A.wregs ∧ NoAcquire s ∧ Unmasked s A.feats ∧ Plain s ∧ A.va % A.align = 0)
      && ((s.windowId s.cur A.va != 0) && (List.range A.n).all fun j => s.windowId s.cur (A.va + j) == s.windowId s.cur A.va) && s.footOk s.cur A.va A.n A.write
  | none => false

theorem test_access_hypotheses :
    issues (.ld 5 6 0) withBytes = true ∧ issues (.sd 6 2 0) withBytes = true ∧ issues (.amoaddD 5 6 2 0 0) withBytes = true ∧ issues (.wld 1 6 0) withBytes = true
      ∧ issues (.ldvD 5 6) withBytes = true ∧ issues (.stvQ 5 6 1) withBytes = true ∧ issues (.cinit 6 1) withBytes = true ∧ issues (.carrive 6) withBytes = true
      ∧ issues (.cexpect 6 1) withBytes = true ∧ issues (.amocasQ 10 6 12 0 0) withBytes = true ∧ withBytes.rc.ops = [] := by decide +kernel

/-- R62, R63: misaligned; outside every window, from the third byte on; two windows (none meet in this map but those of remote TCM). -/
theorem test_access_traps :
    trapsWith (.ldaqD 5 6 4) withBytes 0x20 0x104 = true ∧ trapsWith (.ld 5 8 0) withBytes 0x46 0x40000 = true ∧ trapsWith (.sw 9 2 0) withBytes 0x4E 0x40000000 = true
      ∧ trapsWith (.amoaddD 5 9 2 0 0) withBytes 0x56 0x40000000 = true := by decide +kernel

/-- A band of two members; x6 ends the remote window of the first. -/
def withBand : State := withX (regs.modTenant 0 0 fun t => { t with bandsz := 2, ctab := [0, 1] }) [(6, 0x10003FFFC)]
theorem test_access_two_windows :
    withBand.windowId withBand.cur 0x10003FFFC ≠ 0 ∧ withBand.windowId withBand.cur 0x100040000 ≠ 0 ∧ withBand.windowId withBand.cur 0x100040000 ≠ withBand.windowId withBand.cur 0x10003FFFC
      ∧ trapsWith (.ld 5 6 0) withBand 0x20 0x10003FFFC = true := by decide +kernel

theorem test_own_tcm_hypotheses :
    withBytes.eager = true ∧ Plain withBytes ∧ withBytes.cur.core < 4096 ∧ withBytes.cur.ctx < 8 ∧ Quiet withBytes (tcmHome 0 0 + 0x100) 8
      ∧ (accessRule (.ld 5 6 0) withBytes).map (fun A => A.op.k) = some .load ∧ (accessRule (.sd 6 2 0) withBytes).map (fun A => A.op.k) = some .store
      ∧ (accessRule (.amomaxW 5 6 3 0 0) withBytes).map (fun A => A.op.k) = some (.amo 6) := by decide +kernel

theorem test_loads :
    (after (.ld 5 6 0) withBytes).x 5 = 0x8786858483828180 ∧ (after (.lb 5 6 1) withBytes).x 5 = w64 (-127) ∧ (after (.lhu 5 6 1) withBytes).x 5 = 0x8281
      ∧ (after (.lw 5 6 3) withBytes).x 5 = 0xFFFFFFFF86858483 ∧ (after (.wld 1 6 0) withBytes).rc.rw 1 = 0x8786858483828180 ∧ (after (.lwu 0 6 0) withBytes).x 0 = 0 := by decide +kernel

theorem test_stores :
    leNat ((after (.sd 6 3 0xFFF) withBytes).bytes (tcmHome 0 0 + 0xFF) 9) = 0x87FFFFFFFFFFFFFFFF ∧ leNat ((after (.sb 6 1 1) withBytes).bytes (tcmHome 0 0 + 0x100) 3) = 0x820580
      ∧ (after (.sd 6 3 0xFFF) withBytes).rc.x = withBytes.rc.x := by decide +kernel

/-- R142: AMOMAX.W compares signed words; a failed AMOCAS leaves the place. -/
theorem test_atomics :
    (after (.amomaxW 5 6 1 0 0) withBytes).x 5 = 0xFFFFFFFF83828180 ∧ leNat ((after (.amomaxW 5 6 1 0 0) withBytes).bytes (tcmHome 0 0 + 0x100) 8) = 0x8786858400000005
      ∧ leNat ((after (.amocasD 1 6 2 0 0) withBytes).bytes (tcmHome 0 0 + 0x100) 8) = 0x8786858483828180 ∧ (after (.amocasD 1 6 2 0 0) withBytes).x 1 = 0x8786858483828180
      ∧ leNat ((after (.amocasD 1 6 2 0 0) (withX withBytes [(1, 0x8786858483828180)])).bytes (tcmHome 0 0 + 0x100) 8) = 7 := by decide +kernel

/-! ## Queue fields, fences, watches, CSRs, ends of handlers -/

/-- The acting register context changed. -/
def withRc (s : State) (f : RegCtx → RegCtx) : State := s.setRcx s.cur (f s.rc)
/-- The acting tenant context changed. -/
def withTn (s : State) (f : Tenant → Tenant) : State := s.modTenant s.cur.core s.cur.ctx f

/-- A message of one extension granule. -/
def aMsg : Msg := { hdr := mkHdr 0 3 0 false false 1 2 9, pay := [10, 11], ext := [0xAB], bar := none }

/-- A handler of that message; operations wait for their homes; port q2 is an input with one element, q3 a bound neighbour output with a credit. -/
def withQueues : State :=
  withTn { withRc withBytes fun r => { r with msg := some aMsg, chan := some 9 } with eager := false } fun t =>
    { t with ports := [(2, { Port.reset with kind := 1, buf := [0x77], stage := [0x78, 0x79] }), (3, { Port.reset with kind := 5, credits := 1 }), (4, { Port.reset with kind := 2 })] }

/-- What QueueFieldsIssue asks of an access through one w field. -/
def queueIssues (i : Instr) (f : Nat) (s : State) : Bool :=
  match accessRule i s with
  | some A => i.wf && decide (A.wregs = [f] ∧ Live s ∧ Ready s A.regs ∧ NoAcquire s ∧ Unmasked s A.feats ∧ Plain s ∧ A.va % A.align = 0)
      && ((s.windowId s.cur A.va != 0) && (List.range A.n).all fun j => s.windowId s.cur (A.va + j) == s.windowId s.cur A.va) && s.footOk s.cur A.va A.n A.write
  | none => false

theorem test_queue_fields :
    queueIssues (.wld 25 6 0) 25 withQueues = true ∧ (after (.wld 25 6 0) withQueues).rc.outbox = [none]
      ∧ queueIssues (.wld 27 6 0) 27 withQueues = true ∧ (withQueues.tn.port 3).kind = 5 ∧ (after (.wld 27 6 0) withQueues).rc.ops.map (fun o => o.dest) = [.port 3]
      ∧ queueIssues (.wst 6 24 0) 24 withQueues = true ∧ aMsg.ext[withQueues.rc.q0]? = some 0xAB ∧ (after (.wst 6 24 0) withQueues).rc.ops.map (fun o => o.data) = [0xAB]
      ∧ queueIssues (.wst 6 26 0) 26 withQueues = true ∧ (after (.wst 6 26 0) withQueues).rc.ops.map (fun o => o.data) = [0x77]
      ∧ ((after (.wst 6 26 0) withQueues).tn.port 2).buf = [0x78] := by decide +kernel

theorem test_queue_field_traps :
    trapsWith (.wst 6 25 0) withQueues 0x2F 0 = true ∧ trapsWith (.wld 24 6 0) withQueues 0x2F 0 = true ∧ trapsWith (.wst 6 24 0) (withRc withQueues fun r => { r with msg := none }) 0x28 0 = true
      ∧ trapsWith (.wst 6 24 0) (withRc withQueues fun r => { r with q0 := 1 }) 0x28 0 = true ∧ trapsWith (.wld 25 6 0) (withRc withQueues fun r => { r with outbox := List.replicate 16 (some 0) }) 0x2E 0 = true
      ∧ trapsWith (.wld 27 0 0x100) { withQueues with cur := { withQueues.cur with rc := 1 } } 0x08 0 = true ∧ trapsWith (.wst 6 29 0) withQueues 0x29 0 = true
      ∧ trapsWith (.wst 6 28 0) withQueues 0x2F 0 = true ∧ trapsWith (.wld 26 6 0) withQueues 0x2F 0 = true := by decide +kernel

/-- A load of own TCM is outstanding. -/
def loading : State := after (.ld 5 6 0) { withBytes with eager := false }
/-- A store of own TCM is outstanding. -/
def storing : State := after (.sd 6 2 0) { withBytes with eager := false }

/-- A later load of own TCM. -/
def laterLoad (s : State) : Op := { mkOp .load 0x208 8 0 0 (.x 9 8 true) false false with parts := [(0x208, 8)], seq := s.rc.seq + 1 }
/-- Whether the home may perform that load after an instruction. -/
def passes (i : Instr) (s : State) : Bool := (after i s).mayPerform s.cur (laterLoad s)

/-- R153: a fence keeps a later load of other bytes back where it puts the kind that is outstanding first. -/
theorem test_fences :
    regs.opsOf regs.cur = [] ∧ regs.xfers = [] ∧ regs.mcmds = [] ∧ regs.flights = [] ∧ Advanced regs (after (.fence 0 0 3 3) regs) ∧ (after (.dfence 5 15) regs).rc.fences = []
      ∧ loading.rc.ops.map (fun o => (o.k, o.parts)) = [(.load, [(0x100, 8)])] ∧ loading.rc.ops.all (fun o => decide (o.seq ≤ loading.rc.seq)) = true
      ∧ passes (.fence 0 0 2 2) loading = false ∧ passes (.fenceTso 0 0) loading = false ∧ passes (.fenceFm8 0 0 2 2) loading = false ∧ passes (.dfence 0 1) loading = false
      ∧ passes (.fence 0 0 0 3) loading = true ∧ passes (.fence 0 0 3 0) loading = true ∧ passes (.fence 0 0 2 1) loading = true ∧ passes (.fence 0 0 2 1) storing = false
      ∧ passes (.fence 0 0 2 2) storing = true ∧ passes (.dfence 0 3) storing = false ∧ passes (.dfence 0 1) storing = true := by decide +kernel

theorem test_cache_fences :
    regs.storing = false ∧ Ready regs [1, 2] ∧ storing.storing = true ∧ (after .tfence storing).stalled = true ∧ (after (.iflush 1 2) storing).stalled = true
      ∧ (after .tfence (withTn regs fun t => { t with tsrc := [(64, [1])] })).tn.tsrc = []
      ∧ (after (.iflush 1 2) (withX regs [(1, 0x10000000004)])).icache = [] ∧ (after (.iflush 1 2) (withX regs [(1, 0x10000000040)])).icache = regs.icache
      ∧ (after (.iflush 1 0) (withX regs [(1, 0x10000000004)])).icache = regs.icache := by decide +kernel

/-- x6 is a place of own TCM, x7 a version and channel 5, x8 a channel. -/
def toWatch : State := withX { regs with eager := false } [(6, 0x108), (7, 0x50013), (8, 0x100)]

theorem test_watches :
    (Instr.vwatch 5 6 7).wf = true ∧ Ready toWatch [5, 6, 7] ∧ NoAcquire toWatch ∧ Unmasked toWatch [8] ∧ Plain toWatch ∧ toWatch.footOk toWatch.cur 0x100 16 false = true
      ∧ (after (.vwatch 5 6 7) toWatch).tn.vwPend = 1 ∧ (after (.vwatch 5 6 7) toWatch).rc.ops.map (fun o => o.k) = [.vwatch 0x13 5 0 false]
      ∧ (after (.vwatch 5 6 7) (withTn toWatch fun t => { t with vwPend := 32 })).x 5 = 1
      ∧ (Instr.cwatch 8 7).wf = true ∧ (toWatch.x 8).toNat % 16 = 0 ∧ (after (.cwatch 8 7) toWatch).tn.cwPend = 1
      ∧ trapsWith (.cwatch 8 7) (withTn toWatch fun t => { t with cwPend := 32 }) 0x8B 0x100 = true := by decide +kernel

theorem test_barrier_arrivals :
    (Instr.barrive 6 1 2 33).wf = true ∧ toWatch.cur.rc = 0 ∧ toWatch.rc.task = none ∧ Tbl.get false toWatch.tn.arrived 1 = false
      ∧ Tbl.get false (after (.barrive 6 1 2 33) toWatch).tn.arrived 1 = true ∧ (after (.barrive 6 1 2 33) toWatch).rc.ops.map (fun o => o.k) = [.barrive 1 2 33 0]
      ∧ trapsWith (.barrive 6 1 2 33) (withRc toWatch fun r => { r with task := some 4 }) 0x89 0 = true
      ∧ trapsWith (.barrive 6 1 2 33) (withTn toWatch fun t => { t with arrived := [(1, true)] }) 0x88 0 = true := by decide +kernel

theorem test_csr_hypotheses :
    (csrRule (.csrrw 5 1 0x802) regs).map (fun r => (r.2.2.1, r.2.2.2.2.2)) = some (0x802, true) ∧ (Instr.csrrw 5 1 0x802).wf = true ∧ csrPlain 0x802 = true ∧ Ready regs [5, 1]
      ∧ (csrRule (.csrrs 5 0 0xC40) regs).map (fun r => r.2.2.2.2.2) = some false ∧ (Instr.csrrs 5 0 0xC40).wf = true ∧ regs.cur.rc = 0 ∧ regs.xfers = [] ∧ regs.rc.ops = [] := by decide +kernel

/-- R70, R75: frm takes a rounding mode and keeps its value otherwise; wdlim is clamped; a counter takes 32 bits. -/
theorem test_csr_results :
    (after (.csrrwi 5 3 0x802) regs).csr 0x802 = 3 ∧ (after (.csrrwi 5 7 0x802) regs).csr 0x802 = 0 ∧ (after (.csrrw 5 1 0x850) regs).csr 0x850 = 4096
      ∧ (after (.csrrw 5 1 0x850) regs).x 5 = 0x400000 ∧ (after (.csrrs 5 1 0x823) regs).csr 0x823 = 5 ∧ (after (.csrrci 5 1 0x823) (after (.csrrs 5 1 0x823) regs)).csr 0x823 = 4
      ∧ (after (.csrrs 5 0 0xC22) regs).x 5 = 0 ∧ (after (.csrrw 0 3 0x820) regs).csr 0x820 = 0xFFFFFFFF := by decide +kernel

/-- Channel 9 is diverted with nothing resident, channel 10 with one message not yet replayed. -/
def diverting : State := withTn regs fun t => { t with chans := [(9, { Chan.reset with divert := true }), (10, { Chan.reset with divert := true, dcnt := 1 })] }

theorem test_csr_traps :
    trapsWith (.csrrw 5 1 0xC00) regs 0x00 0xC00 = true ∧ trapsWith (.csrrsi 5 1 0x842) regs 0x00 0x842 = true
      ∧ trapsWith (.csrrs 5 0 0xC40) { regs with cur := { regs.cur with rc := 1 } } 0x08 0 = true
      ∧ (Chan.at (after (.csrrw 5 1 0x842) (withX diverting [(1, 0x600)])).tn 9).divert = false ∧ (Chan.at (after (.csrrw 5 1 0x842) (withX diverting [(1, 0x600)])).tn 10).divert = true
      ∧ (after (.csrrw 5 1 0x842) (withX diverting [(1, 0x600)])).x 5 = 0x600 := by decide +kernel

/-- A speculative task 4 in the handler. -/
def inTask : State :=
  { withRc regs fun r => { r with task := some 4, spec := true } with
    tasks := [{ id := 4, part := 0, ctx := 0, ts := 9, dom := 0, chan := 5, prio := 0, aff := none, args := [], src := 0, srcCore := 0, read := .empty 0, write := .empty 0, parent := none,
                st := .spec, core := 0, stores := [], msgs := [], traps := [] }] }
/-- The overflow handler with its message. -/
def overflowing : State := { (withTn regs fun t => { t with ovfEntry := some 0x40, o := { t.n with msg := some aMsg } }) with cur := { core := 0, ctx := 0, rc := 2 } }

theorem test_traps :
    NoGang regs regs.cur ∧ Ended (regs.trap regs.cur 0x20 0x40 6 0).rc ∧ (regs.trap regs.cur 0x20 0x40 6 0).flights.map (fun f => f.msg.pay) = [[0x20, 0x40, 6, 0, 64, 0, 0]]
      ∧ overflowing.rc.msg = some aMsg ∧ (overflowing.trap overflowing.cur 0x20 0x40 6 0).tn.ovfEntry = none ∧ (overflowing.trap overflowing.cur 0x20 0x40 6 0).tn.inboxN = [{ msg := aMsg, div := true }]
      ∧ inTask.rc.task = some 4 ∧ inTask.rc.spec = true ∧ (inTask.findTask 0 4).map (fun k => k.st) = some .spec
      ∧ ((inTask.trap inTask.cur 0x20 0x40 6 0).findTask 0 4).map (fun k => (k.st, k.traps.map fun f => f.msg.pay)) = some (.failed, [[0x820, 0x40, 6, 0, 64, 4, 0]]) := by decide +kernel

/-- A pending fault of the matrix unit; a command of it held. -/
def deferring : State := withTn regs fun t => { t with mx := { t.mx with deferred := some { cause := 0x69, addr := 0x340, tile := 1, k := 2 } } }
def mxHeld : State := withTn regs fun t => { t with mx := { t.mx with held := true } }

theorem test_handler_ends :
    regs.rc.task = none ∧ regs.tn.mx.held = false ∧ regs.tn.mx.deferred = none ∧ Ended (after .done regs).rc ∧ (after .done regs).tn.instret = 1 ∧ Ended (after .ecall regs).rc
      ∧ (Chan.at (after .done overflowing).tn 9).dcnt = 1 ∧ (after .done overflowing).tn.ovfEntry = some 0x40
      ∧ (after .done deferring).flights.map (fun f => f.msg.pay) = [[0x69, 0x10000000000, 0x340, 0, 64, 0, 0x20001]] ∧ mxHeld.tn.freeSlot ≠ none
      ∧ (after .done mxHeld).rc.run = .idle ∧ (after .done mxHeld).tn.slots.map (fun p => p.1) = [0] := by decide +kernel

/-- All four slots occupied (R320). -/
def fourSlots : Tbl Slot := (List.range 4).map fun i => (i, { rc := 1, img := .reset, g := [], wait := { why := .rerun, pc := 0, cont := 0, need := 1, gang := none } })
/-- The context under debugging. -/
def debugged : State := regs.modPart 0 fun p => { p with trapcfg := [(0, 2 ^ 20)] }

theorem test_breakpoints :
    trapsWith .ebreak regs 0x06 0 = true ∧ debugged.tn.freeSlot = some 0 ∧ (after .ebreak debugged).rc.run = .idle ∧ (after .ebreak debugged).held.map (fun h => h.cause) = [0x06]
      ∧ (after .ebreak debugged).tn.slots.map (fun p => p.2.wait.cont) = [0x10000000004]
      ∧ (after .ebreak (withTn debugged fun t => { t with slots := fourSlots })).rc.run = .held
      ∧ (after .ebreak (withTn debugged fun t => { t with slots := fourSlots })).rc.wait.map (fun x => (x.why, x.cont)) = some (.ebreak, 0x10000000004)
      ∧ (after .ebreak (withTn debugged fun t => { t with slots := fourSlots })).held.map (fun h => h.cause) = [0x06] := by decide +kernel

/-! ## Vector instructions -/

/-- w registers of the acting context set to values. -/
def withW (s : State) (l : List (Nat × Gran)) : State := withRc s fun r => l.foldl (fun r p => r.ww p.1 p.2) r

/-- w1 holds 1.0, 2.0, −3.0, NaN in FP32; w2 four times 0.5; w3 bytes 0x00…0x0F; w4 bytes of 0x7F. -/
def vecs : State :=
  withW withQueues [(1, 0x7FC00000C0400000400000003F800000), (2, 0x3F0000003F0000003F0000003F000000), (3, 0x0F0E0D0C0B0A09080706050403020100), (4, 0x7F7F7F7F7F7F7F7F7F7F7F7F7F7F7F7F)]

theorem test_vector_hypotheses :
    (∃ f, intRule (.vsaddS 5 3 4 0) = some (5, 3, 4, 0, .satS, f)) ∧ (∃ f, moveRule (.vins 5 1 3 1) = some (5, 1, 5, 5, some 1, f)) ∧ (∃ f, orderRule (.vfmin 5 1 2 6) = some (5, 1, 2, 6, f))
      ∧ (∃ f, arithRule (.vfma 5 1 2 6) = some (5, 1, 2, 6, [0], f)) ∧ (∃ f, intRule (.vadd 5 24 3 2) = some (5, 24, 3, 2, .wrap, f)) :=
  ⟨⟨_, rfl⟩, ⟨_, rfl⟩, ⟨_, rfl⟩, ⟨_, rfl⟩, ⟨_, rfl⟩⟩

theorem test_vector_registers_ready :
    (Instr.vsaddS 5 3 4 0).wf = true ∧ (Instr.vins 5 1 3 1).wf = true ∧ (Instr.vfmin 5 1 2 6).wf = true ∧ (Instr.vfma 5 1 2 6).wf = true ∧ Live vecs ∧ ReadyW vecs [5, 1, 2] ∧ ReadyW vecs [5, 3, 4]
      ∧ Ready vecs [1] ∧ Unmasked vecs [0, 1, 2, 3, 4] ∧ (Instr.vext 6 3 15 0).wf = true := by decide +kernel

theorem test_vector_integers :
    (after (.vsaddS 5 3 4 0) vecs).rc.rw 5 = 0x7F7F7F7F7F7F7F7F7F7F7F7F7F7F7F7F ∧ Tbl.get 0 (after (.vsaddS 5 3 4 0) vecs).tn.evc 2 = 15
      ∧ (after (.vadd 5 3 4 0) vecs).rc.rw 5 = 0x8E8D8C8B8A898887868584838281807F ∧ (after (.vcmpLt 5 3 4 3) vecs).rc.rw 5 = 0xFFFFFFFFFFFFFFFFFFFFFFFFFFFFFFFF
      ∧ (after (.vshrS 5 4 3 1) vecs).rc.rw 5 = 0x00010007001F007F01FD07F71FDF7F7F ∧ (after (.vmulhZ 5 4 4 3) vecs).rc.rw 5 = 0x3F7FC0004080C1003F7FC0004080C100 := by decide +kernel

theorem test_vector_moves :
    (after (.vins 5 1 3 1) vecs).rc.rw 5 = 0x5000000000000 ∧ (after (.vbcast 5 1 3) vecs).rc.rw 5 = 0x50000000000000005 ∧ (after (.vext 6 2 1 6) vecs).x 6 = 0x3F000000
      ∧ (after (.vext 6 4 0 0) vecs).x 6 = 0x7F ∧ (after (.vext 6 1 2 6) vecs).x 6 = 0xFFFFFFFFC0400000 ∧ (after (.vextz 6 1 2 6) vecs).x 6 = 0xC0400000 ∧ (after (.vshuf 5 4 3 0) vecs).rc.rw 5 = 0x7F7F7F7F7F7F7F7F7F7F7F7F7F7F7F7F := by decide +kernel

theorem test_vector_queues :
    ReadyW vecs [5, 3] ∧ vecs.rc.msg = some aMsg ∧ aMsg.ext[vecs.rc.q0]? = some 0xAB ∧ (after (.vadd 5 24 3 2) vecs).rc.q0 = 1 ∧ (after (.vadd 5 24 3 2) vecs).rc.rw 5 = 0x0F0E0D0C0B0A090807060504030201AB
      ∧ vecs.rc.outbox = [] ∧ (after (.vadd 25 3 4 2) vecs).rc.outbox.length = 1 ∧ trapsWith (.vadd 5 25 3 2) vecs 0x2F 0 = true := by decide +kernel

/-- R203, R204: lanes 1.0 + 0.5, 2.0 + 0.5, −3.0 + 0.5, NaN. -/
theorem test_vector_floats :
    (after (.vfadd 5 1 2 6) vecs).rc.rw 5 = 0x7FC00000C0200000402000003FC00000 ∧ (after (.vfmin 5 1 2 6) vecs).rc.rw 5 = 0x3F000000C04000003F0000003F000000
      ∧ (after (.vcmpLt 5 1 2 6) vecs).rc.rw 5 = 0x00000000FFFFFFFF0000000000000000 ∧ (after (.vcmpLt 5 1 2 6) vecs).rc.fflags = 0x10 ∧ (after (.vrcp 5 1) vecs).rc.rw 5 = 0x7FC00000BEAAAAAB3F0000003F800000
      ∧ (after (.vfsqrt 5 1 6) vecs).rc.fflags = 0x11 := by decide +kernel

theorem test_vector_reductions :
    (after (.vrsum 5 3 0) vecs).rc.rw 5 = 0x78 ∧ (after (.vrmax 5 3 1) vecs).rc.rw 5 = 0x0F0E ∧ (after (.vrmin 5 1 2) vecs).rc.rw 5 = 0xC0400000 ∧ (after (.vcvt 5 4 0 1) vecs).rc.rw 5 = 0x007F007F007F007F007F007F007F007F
      ∧ (after (.vcvtHi 5 3 0 1) vecs).rc.rw 5 = 0x000F000E000D000C000B000A00090008 ∧ (after (.vcvtPk 5 3 1 0) vecs).rc.rw 5 = 0x0E0C0A08060402000000000000000000
      ∧ goes (.vcvtl 5 1 6) vecs = true := by decide +kernel

/-- Keys 3, 1 with values 30, 10; keys 1, 3 with values 7, 8. -/
def pairs : State := withW vecs [(1, 0x0000000A000000010000001E00000003), (2, 0x00000008000000030000000700000001)]
theorem test_key_values :
    Unmasked pairs (keyFeat 2) ∧ (after (.vksort 5 1 0 2) pairs).rc.rw 5 = 0x0000001E000000030000000A00000001 ∧ (after (.vkmatch 5 1 2 2) pairs).rc.rw 5 = 0x00000007000000010000000800000003
      ∧ (after (.vkmergeLo 5 2 2 2) pairs).rc.rw 5 = 0x00000007000000010000000700000001 ∧ (after (.vkmergeHi 5 2 2 2) pairs).rc.rw 5 = 0x00000008000000030000000800000003 := by decide +kernel

/-- Partials (m, s) = (1.0, 2.0) twice in w1; a row of 3.0 over s = 2.0, then over s = 0 in w2. -/
theorem test_soft_maximum :
    Unmasked vecs [0, 3]
      ∧ (after (.vsmnorm 5 1 2) (withW vecs [(1, 0x40400000404000004040000040400000), (2, 0x4000000000000000)])).rc.rw 5 = 0x3FC000003FC000003FC000003FC00000
      ∧ (let t := after (.vsmnorm 5 1 2) (withW vecs [(1, 0x40400000404000004040000040400000), (2, 0x10000000000000000)])
         t.rc.rw 5 = 0 ∧ Tbl.get 0 t.tn.evc 1 = 1)
      ∧ (after (.vsmmerge 5 1 1) (withW vecs [(1, 0x400000003F800000400000003F800000)])).rc.rw 5 = 0x408000003F800000408000003F800000 := by decide +kernel

theorem test_float_formats :
    formOf 6 ∈ forms ∧ finiteOf (formOf 6) 0x3F800000 = true ∧ finiteOf (formOf 6) 0x3F000000 = true ∧ valueOf (formOf 6) 0x3F800000 + valueOf (formOf 6) 0x3F000000 ≠ 0 ∧ nanOf (formOf 6) 0x7FC00000 = true
      ∧ sigOf (formOf 6) 0x7F800001 = true ∧ 0 < valueOf (formOf 6) 0x3F800000 ∧ valueOf (formOf 6) 0xBF800000 < 0 ∧ finiteOf (formOf 6) ((formOf 6).round 0 false 0x1000001 0).v = true
      ∧ ((formOf 6).round 0 false 0x1000001 0).v = 0x4B800000 ∧ ((formOf 6).round 3 false 0x1000001 0).v = 0x4B800001 ∧ ((formOf 6).add 0 0x3F800000 0x3F000000).v = 0x3FC00000 := by decide +kernel

/-! ## Regions and work queues -/

def rng (lo hi step : Nat) : Rng := { lo := lo, hi := hi, step := step }
def boxed (rank : Nat) (bs : List (List Rng)) : Region := { Region.empty rank with boxes := bs }

/-- g1 = [0, 9] × [0, 9], g2 = [5, 14] × [0, 9], g3 ragged with window [0, 3] × [0, 7], rows of 2, 0, 8 and 1 cells; g4 = [0, 9] by 3, inexact. -/
def regions : State :=
  let s := withTn regs fun t => { t with g := [(1, boxed 2 [[rng 0 9 1, rng 0 9 1]]), (2, boxed 2 [[rng 5 14 1, rng 0 9 1]]),
    (3, { boxed 2 [[rng 0 3 1, rng 0 7 1]] with ragged := true, lenvec := 0x400 }), (4, { boxed 1 [[rng 0 9 3]] with inexact := true })] }
  withX { s with mem := [(tcmHome 0 0 + 0x400, 2), (tcmHome 0 0 + 0x408, 8), (tcmHome 0 0 + 0x40C, 1)] } [(6, 0x002FFF), (7, 0x103), (8, 3), (9, 0x300000005)]

theorem test_region_hypotheses :
    (∃ l r, regionRule (.runionEx 5 1 2) regions = some (5, l, 2, r, false)) ∧ (∃ l r, regionRule (.rdil 5 4 1) regions = some (5, l, 1, r, true)) :=
  ⟨⟨_, _, rfl⟩, ⟨_, _, rfl⟩⟩

/-- R232, R233: the union of two boxes that meet along a dimension is one box; a shift by (−1, 2); a rank that does not fit. -/
theorem test_region_algebra :
    Ready regions [6] ∧ NoAcquire regions ∧ regions.cur.rc = 0 ∧ (Instr.runionEx 5 1 2).wf = true ∧ (after (.runionEx 5 1 2) regions).g 5 = boxed 2 [[rng 0 14 1, rng 0 9 1]]
      ∧ (after (.rinterEx 5 1 2) regions).g 5 = boxed 2 [[rng 5 9 1, rng 0 9 1]] ∧ (after (.rsubEx 5 1 2) regions).g 5 = boxed 2 [[rng 0 4 1, rng 0 9 1]]
      ∧ (after (.rshift 5 1 6) regions).g 5 = boxed 2 [[rng 0 8 1, rng 2 11 1]] ∧ trapsWith (.runionEx 5 1 4) regions 0x24 0 = true
      ∧ (after (.rb2 5 8 9) regions).g 5 = boxed 2 [[rng 3 5 1, rng 0 3 1]] ∧ ((after (.rsubSup 0 1 2) regions).g 0).boxes = []
      ∧ (after (.rinterSup 5 4 4) regions).g 5 = { boxed 1 [[rng 0 9 3]] with inexact := true } := by decide +kernel

theorem test_region_traps :
    (Instr.runionEx 5 1 2).wf = true ∧ trapsWith (.runionEx 5 1 2) { regions with cur := { regions.cur with rc := 1 } } 0x08 0 = true ∧ (regions.g 3).ragged = true
      ∧ trapsWith (.rshift 5 3 6) regions 0x22 0 = true := by decide +kernel

/-- The boxes of a region's cells. -/
def cellsOf (s : State) (g : Region) : Option (List (List Rng)) :=
  match s.cellBoxes s.cur g with
  | .ok u bs => if u.cur = s.cur then some bs else none
  | _ => none

/-- R234–R236: rows of 2, 0, 8 and 1 cells; g1 and g2 meet, neither holds the other. -/
theorem test_region_reads :
    cellsOf regions (regions.g 3) = some [[rng 0 0 1, rng 0 1 1], [rng 2 2 1, rng 0 7 1], [rng 3 3 1, rng 0 0 1]] ∧ cellsOf regions (regions.g 1) = some [[rng 0 9 1, rng 0 9 1]]
      ∧ rankOf (regions.g 1) (regions.g 2) = some 2 ∧ (after (.rcount 5 3) regions).x 5 = 11 ∧ (after (.rcount 5 1) regions).x 5 = 100 ∧ (after (.rtest 5 1 2) regions).x 5 = 1
      ∧ (after (.rtest 5 3 1) regions).x 5 = 3 ∧ Ready regions [5, 7] ∧ (after (.rgetb 5 2 0) regions).x 5 = 5 ∧ (after (.rgetb 5 2 7) regions).x 5 = 0
      ∧ (after (.rgetb 5 4 6) (withX regions [(6, 0x300)])).x 5 = 0x20101 := by decide +kernel

theorem test_ragged_regions :
    (regions.g 3).rank = 2 ∧ (regions.g 3).boxes = [[rng 0 3 1, rng 0 7 1]] ∧ (regions.g 2).boxes = [[rng 5 14 1, rng 0 9 1]] ∧ (after (.rinterEx 5 3 1) regions).g 5 = regions.g 3
      ∧ (after (.rinterEx 5 1 3) regions).g 5 = regions.g 3 ∧ (after (.rinterSup 5 3 2) regions).g 5 = .empty 2 ∧ (regions.g 7).boxes = [] ∧ (after (.rinterEx 5 3 7) regions).g 5 = .empty 2
      ∧ trapsWith (.rinterEx 5 3 3) regions 0x22 0 = true ∧ (regions.x 8).toNat % 32 = 3 ∧ (after (.rproj 5 3 8) regions).g 5 = regions.g 3 := by decide +kernel

/-- The image of g1 at 0x800 of own TCM (R223), and a bitmap of ten bits 1110011011 at 0x600; g5 = [0, 9]. -/
def images : State :=
  let s := withTn regs fun t => { t with g := [(1, boxed 2 [[rng 0 9 1, rng 0 9 1]]), (5, boxed 1 [[rng 0 9 1]])] }
  withX { s with mem := [(0x600, 0x9B), (0x601, 0x03), (0x800, 1), (0x801, 2), (0x834, 9), (0x838, 9), (0x848, 1), (0x84C, 1)] } [(6, 0x800), (7, 0x600)]

/-- An image is one that RLD takes. -/
def loads (s : State) (a : Nat) (g : Region) : Bool :=
  match regionOfImage (s.bytes (tcmHome 0 0 + a) 512) with
  | .ok r => r == g
  | .error _ => false

theorem test_region_memory :
    Ready images [6] ∧ Fresh images ∧ images.rc.ops = [] ∧ images.poisoned (tcmHome 0 0 + 0x800) 512 = false ∧ images.hostHeld = [] ∧ loads images 0x800 (boxed 2 [[rng 0 9 1, rng 0 9 1]]) = true
      ∧ (after (.rld 8 6) images).g 8 = boxed 2 [[rng 0 9 1, rng 0 9 1]] ∧ images.rc.task = none ∧ ((after (.rst 6 1) { images with eager := false }).rc.ops).length = 32 := by decide +kernel

/-- R240: the runs of set bits of 0x39B: 0–1, 3–4, 7–9. -/
theorem test_region_bitmap :
    (images.g 5).boxes = [[rng 0 9 1]] ∧ isDense (images.g 5).boxes = true ∧ images.poisoned (tcmHome 0 0 + 0x600) 2 = false
      ∧ (after (.rmask 8 7 5) images).g 8 = boxed 1 [[rng 0 1 1], [rng 3 4 1], [rng 7 9 1]] := by decide +kernel

/-- The tensor that an address names, where it reads no memory. -/
def tensorAt (s : State) (a : Nat) : Option Operand :=
  match s.tensor s.cur a with
  | .ok u o => if u = s then some o else none
  | _ => none

theorem test_region_clip :
    (tensorAt regions 0x1001).map (fun o => o.tsr.rank) = some 1 ∧ (regions.g 4).ragged = false ∧ (regions.g 4).rank = 1 ∧ (after (.rclip 8 4 6) (withX regions [(6, 0x1001)])).g 8 = regions.g 4 := by decide +kernel

/-- x6 posts g1 in tiles of 4 × 8 to queue 2. -/
def tiling : State := withX regions [(6, 0x4000000000007003), (7, 2)]

/-- R125–R127: tiles of [0, 9] × [0, 9]: the first is [0, 3] × [0, 7]. -/
theorem test_work_queues :
    Ready tiling [5, 6] ∧ Plain tiling ∧ fieldOf (tiling.x 6) 61 3 = 2 ∧ fieldOf (tiling.x 6) 24 36 = 0 ∧ (gridCounts (tiling.g 1).bbox [4, 8]).foldl (· * ·) 1 ≤ 2 ^ 32 ∧ (tiling.wq 2).live = false
      ∧ (after (.tilepost 5 1 6) tiling).x 5 = 0 ∧ ((after (.tilepost 5 1 6) tiling).wq 2).live = true ∧ (after (.tilepost 5 1 6) (after (.tilepost 5 1 6) tiling)).x 5 = 1
      ∧ (after (.tilenext 5 7) tiling).g 5 = .empty 0 ∧ (after (.tilenext 5 7) (after (.tilepost 5 1 6) tiling)).g 5 = boxed 2 [[rng 0 3 1, rng 0 7 1]]
      ∧ ((after (.tilepost 5 1 6) tiling).wq 2).next 0 ≠ none := by decide +kernel

theorem test_ranges : Shaped (rng 1 13 4) ∧ Shaped (rng 3 15 6) ∧ ((rng 1 13 4).meet (rng 3 15 6)).map (fun r => (r.lo, r.hi)) = some (9, 9) :=
  ⟨by unfold Shaped; decide, by unfold Shaped; decide, by decide +kernel⟩

/-! ## Witnesses of what numbers, conversions and region algebra are stated on -/

/-- Half-precision and BF16 lanes for reductions: eight of 1.0 and one of 2.0. -/
def halves : State := withW vecs [(6, 0x3C003C003C003C003C003C003C004000), (7, 0x3F803F803F803F803F803F803F804000)]

/-- R206: 2.0 + 7 × 1.0 in FP16 and in BF16, and the extremes. -/
theorem test_float_reductions :
    ReadyW halves [5, 6, 7] ∧ (Instr.vrsum 5 6 5).wf = true ∧ (after (.vrsum 5 6 5) halves).rc.rw 5 = 0x4880 ∧ (after (.vrsum 5 7 4) halves).rc.rw 5 = 0x4110
      ∧ (after (.vrmax 5 6 5) halves).rc.rw 5 = 0x4000 ∧ (after (.vrmin 5 7 4) halves).rc.rw 5 = 0x3F80 := by decide +kernel

/-- R184, R207: −3.0 to INT8; 300 to INT8 saturates; NaN to an integer is 0; 1/3 to BF16; 65504 × 2 to FP16 under RTZ; an integer to FP16. -/
theorem test_conversions :
    convert 6 0 0 0xC0400000 = Lane.pure 0xFD ∧ convert 6 0 0 0x43960000 = { v := 0x7F, fl := 0x10, e0 := 0, e2 := 0, e3 := 1 }
      ∧ (convert 6 2 0 0x7FC00000).v = 0 ∧ (convert 6 4 0 0x3EAAAAAB).v = 0x3EAB ∧ (convert 6 4 0 0x3EAAAAAB).fl = 1 ∧ (convert 6 5 1 0x47FFE000).v = 0x7BFF
      ∧ convert 2 5 0 3 = Lane.pure 0x4200 ∧ finiteOf (formOf 6) 0xC0400000 = true ∧ integerOf 0 (valueOf (formOf 6) 0xC0400000) = -3
      ∧ finiteOf (formOf 6) 0xFF800000 = false ∧ nanOf (formOf 6) 0xFF800000 = false ∧ nanOf (formOf 6) 0x7FC00000 = true ∧ valueOf (formOf 6) 0 = 0 := by decide +kernel

/-- R181–R183: 1.0 is code 0, 2.0 code 4, −0.5 code 0x20 + 28; code 4 is 2.0; the code of zero. -/
theorem test_logarithms :
    convert 6 8 0 0x3F800000 = Lane.pure 0 ∧ convert 6 8 0 0x40000000 = Lane.pure 4 ∧ convert 6 8 0 0xBF000000 = Lane.pure 0x3C ∧ convert 8 6 0 4 = Lane.pure 0x40000000
      ∧ convert 6 8 0 0x7F800000 = { v := 15, fl := 0, e0 := 1, e2 := 0, e3 := 0 } ∧ magn (valueOf (formOf 6) 0x40000000) = (2 ^ 23 : Nat) * pow2 (1 - 23)
      ∧ lnsValue 4 ≠ 0 ∧ lnsValue 16 = 0 := by decide +kernel

/-- R191: exact powers, the logarithm, the reciprocal and the sine of a half turn. -/
theorem test_special_functions :
    fexp2 0x3F800000 = Lane.pure 0x40000000 ∧ (flog2 0x40800000).v = 0x40000000 ∧ (frcp 0x40000000).v = 0x3F000000 ∧ (frsqrt 0x40800000).v = 0x3F000000
      ∧ fsinpi 0x3F800000 = Lane.pure 0 ∧ fcospi 0x3F000000 = Lane.pure 0 ∧ finiteOf (formOf 6) 0x3F800000 = true ∧ nanOf (formOf 6) 0x7F800001 = true := by decide +kernel

/-- The real number of a pattern, from its exact value. -/
theorem test_real_values : realOf 0x3F800000 = 1 ∧ realOf 0x3F000000 = 1 / 2 ∧ realOf 0xBF800000 = -1 := by
  have a : valueOf (formOf 6) 0x3F800000 = 1 := by decide +kernel
  have b : valueOf (formOf 6) 0x3F000000 = 1 / 2 := by decide +kernel
  have c : valueOf (formOf 6) 0xBF800000 = -1 := by decide +kernel
  unfold realOf
  rw [a, b, c]
  norm_num

theorem test_real_hypotheses :
    0 < realOf 0x3F800000 ∧ realOf 0xBF800000 < 0 ∧ realOf 0x3F800000 = ((1 : Int) : ℝ) ∧ realOf 0x3F000000 = ((0 : Int) : ℝ) + 1 / 2 := by
  obtain ⟨a, b, c⟩ := test_real_values
  rw [a, b, c]
  norm_num

/-- R193: partials (1.0, 2.0) and (−∞, 0): the factors are 1 and 0, the sum 2.0; two empty rows; a NaN maximum. -/
theorem test_soft_merge :
    (softMerge 0x3F800000 0x40000000 0xFF800000 0).s = Lane.pure 0x40000000 ∧ (softMerge 0x3F800000 0x40000000 0xFF800000 0).f2 = Lane.pure 0
      ∧ (softMerge 0xFF800000 0 0xFF800000 0).m = 0xFF800000 ∧ (softMerge 0x7FC00000 0 0 0).m = 0x7FC00000 ∧ nanOf (formOf 6) 0x3F800000 = false
      ∧ orderOf (formOf 6) 0xFF800000 < orderOf (formOf 6) 0x3F800000 ∧ finiteOf (formOf 6) 0x40000000 = true
      ∧ valueOf (formOf 6) 0x40000000 * valueOf (formOf 6) 0x3F800000 + valueOf (formOf 6) 0 * valueOf (formOf 6) 0 ≠ 0 := by decide +kernel

/-- Boxes as region registers hold them. -/
theorem test_register_boxes : RegisterBoxes 1 [[rng 0 6 3], [rng 12 15 3]] ∧ RegisterBoxes 2 [[rng 0 9 1, rng 0 9 1]] := by
  unfold RegisterBoxes Shaped
  decide

/-- R225: a subtrahend of single cells in steps of three is strided, so SUP leaves it out where the lattices do not meet. -/
theorem test_strided_subtrahend :
    isDense [[rng 0 0 1], [rng 6 6 1], [rng 15 15 1]] = false ∧ subR .ex 1 [[rng 0 6 3], [rng 12 15 3]] [[rng 0 0 1]] = .ok [[rng 3 6 3], [rng 12 15 3]] false := by decide +kernel

/-- A record of rank 2 at 0xA80 of own TCM, extents 3 and 5; x6 names it. -/
def ragClip : State :=
  withX { regions with mem := [(0xA80, [0, 2, 0, 0, 0, 3]), (0xA89, [0x50]), (0xA90, [3, 0, 0, 0, 5]), (0xAC0, [5]), (0xAC8, [1])].foldl (fun m p => putBytes m p.1 p.2) regions.mem } [(6, 0xA80)]

/-- The domain of the record that x6 names, and the state after its fetch kept its registers. -/
def domainAt (s : State) : Option (List Rng) :=
  match s.tensor s.cur (s.x 6).toNat with
  | .ok u o => if u.cur = s.cur ∧ u.tn.g = s.tn.g then some o.tsr.domain else none
  | _ => none

theorem test_ragged_clip :
    domainAt ragClip = some [rng 0 2 1, rng 0 4 1] ∧ Ready ragClip [6] ∧ (ragClip.g 3).boxes = [[rng 0 3 1, rng 0 7 1]]
      ∧ (after (.rclip 5 3 6) ragClip).g 5 = { ragClip.g 3 with boxes := [[rng 0 2 1, rng 0 4 1]] }
      ∧ (match regions.readRange regions.cur 0x400 16 with | .ok u bs => decide (u.cur = regions.cur) && bs.length == 16 | _ => false) = true := by decide +kernel

/-- FIPS 202: SHAKE256 of the empty string begins 46 B9 DD 2B 0B A8 8D 13. -/
theorem test_shake : (shake256 [] 8).map (·.toNat) = [0x46, 0xb9, 0xdd, 0x2b, 0x0b, 0xa8, 0x8d, 0x13] := by decide +kernel

/-! ## Channels, messages, handlers -/

/-- The operands of an event. -/
def event (s : State) (a b c : Nat) : State := { s with inp := { EvArgs.zero with a := a, b := b, c := c } }

/-- Channel 9 was bound at generation 0xFFFF and is bound with priority 3; a message for it is resident, and one for it on its way. -/
def bound : State :=
  let s := withTn regs fun t => { t with chans := [(9, { Chan.reset with bound := true, gen := 0xFFFF, entry := 0x10, prio := 3 })], inboxN := [{ msg := aMsg, div := false }] }
  withX { s with flights := [{ msg := aMsg, core := 0, ctx := 0, src := none }] } [(6, 0x400), (7, 0x1509), (8, 0x2000), (9, 9)]

/-- R78, R95: the generation after 0xFFFF is 1. -/
theorem test_bind :
    Ready bound [5, 6, 7] ∧ Plain bound ∧ (after (.bind 5 6 7) bound).x 5 = 1 ∧ Chan.at (after (.bind 5 6 7) bound).tn 9 = { Chan.reset with bound := true, gen := 1, entry := 0x100, prio := 5, urg := true }
      ∧ (after (.bind 5 6 8) bound).tn.ovfEntry = some 0x400 ∧ (after (.bind 5 6 8) bound).x 5 = 0 ∧ trapsWith (.bind 5 9 7) bound 0x20 9 = true
      ∧ trapsWith (.bind 5 6 7) (withRc bound fun r => { r with spec := true }) 0x85 0 = true := by decide +kernel

theorem test_unbind :
    Ready bound [5, 9] ∧ aMsg.kind = 0 ∧ aMsg.bnc = false ∧ (after (.unbind 5 9) bound).x 5 = 0xFFFF ∧ (Chan.at (after (.unbind 5 9) bound).tn 9).bound = false
      ∧ (after (.unbind 5 9) bound).tn.inboxN = [] ∧ Tbl.get 0 (after (.unbind 5 9) bound).tn.evc 5 = 1 ∧ trapsWith (.unbind 5 9) (withRc bound fun r => { r with spec := true }) 0x85 0 = true := by decide +kernel

/-- The manual's example: logical core 5 sends to core 12, generation 7, channel 9. -/
def sending : State := withX (withTn { regs with flights := [] } fun t => { t with lcore := 5, bandsz := 16, ctab := List.range 16 }) [(11, 0x000700000000000C), (10, 1)]

theorem test_send :
    (Instr.send 5 11 9 3 1 1).wf = true ∧ Ready sending [5, 11, 10, 11, 12] ∧ NoAcquire sending ∧ Plain sending ∧ none ∉ sending.rc.outbox
      ∧ (after (.send 5 11 9 3 1 1) sending).flights.map (fun f => (f.msg.hdr, f.core)) = [(0x00070050C0600009, 12)] ∧ (after (.send 5 1 9 3 1 1) (withX sending [(1, 16)])).x 5 = 2
      ∧ (after (.send 5 11 9 3 1 1) (withRc sending fun r => { r with outbox := [none] })).stalled = true
      ∧ (after (.send 5 11 9 0 0 0) { sending with flights := List.replicate 4 { msg := aMsg, core := 1, ctx := 0, src := some sending.cur } }).stalled = true := by decide +kernel

/-- A SEND of a speculative task is held with it (R97). -/
def sendingTask : State :=
  { withRc sending fun r => { r with task := some 4, spec := true } with tasks := inTask.tasks }
theorem test_send_in_task :
    sendingTask.rc.task = some 4 ∧ (sendingTask.findTask sendingTask.tn.partid 4).isSome = true ∧ (after (.send 5 11 9 3 1 1) sendingTask).x 5 = 1
      ∧ ((after (.send 5 11 9 3 1 1) sendingTask).findTask 0 4).map (fun k => k.msgs.length) = some 1 := by decide +kernel

/-- A heap record of one payload dword for channel 9 at 0x100 of own TCM. -/
def heap : State :=
  withX (withTn { regs with mem := [(0x100, 9), (0x102, 0x20), (0x110, 0x55)] } fun t => { t with chans := [(9, { Chan.reset with bound := true, divert := true, dcnt := 2 })] }) [(6, 0x100), (7, 0x3FFC0), (8, 0x108)]

theorem test_loopback :
    Ready heap [5, 6] ∧ Fresh heap ∧ NoAcquire heap ∧ Plain heap ∧ NoneLeft heap ∧ heap.poisoned (tcmHome 0 0 + 0x100) 80 = false ∧ NoEpisode heap.tn ∧ heap.tn.follower = false
      ∧ (after (.loopb 5 6) heap).x 5 = 0 ∧ (after (.loopb 5 6) heap).tn.inboxN.map (fun m => (m.msg.pay, m.div)) = [([0x55], false)] ∧ (Chan.at (after (.loopb 5 6) heap).tn 9).dcnt = 1
      ∧ (after (.loopb 5 7) heap).x 5 = 2 ∧ trapsWith (.loopb 5 8) heap 0x20 0x108 = true
      ∧ (after (.loopb 5 6) (withTn heap fun t => { t with inboxN := List.replicate 335 { msg := { aMsg with pay := [0, 0], ext := [0] }, div := true } })).x 5 = 1 := by decide +kernel

/-- The message under way finds channel 9 bound; diverted; unbound, with a bounce asked for. -/
def arriving (c : Chan) (bnc : Bool) : State :=
  let m := { aMsg with hdr := mkHdr 0 0 0 false bnc 1 2 9 }
  event (withTn { bound with flights := [{ msg := m, core := 0, ctx := 0, src := none }] } fun t => { t with chans := [(9, c)], inboxN := [] }) 0 0 0

/-- Context 0 of core 0 is switched out, or back with a message in its log. -/
def switched (log : List Flight) (resident : Nat) (flag : Bool) : State :=
  let s := arriving { Chan.reset with bound := true } false
  { withTn s fun t => { t with log := log } with parts := [(1, { Part.reset with clen := 16, resident := some resident })], inp := { EvArgs.zero with flag := flag } }

/-- The same message with a class and a generation; the half that it fills. -/
def arrivingAs (c : Chan) (urg : Bool) (gen : Nat) (l : List InMsg) : State :=
  let m := { aMsg with hdr := mkHdr gen 0 0 urg true 1 2 9 }
  event (withTn { bound with flights := [{ msg := m, core := 0, ctx := 0, src := none }] } fun t => { t with chans := [(7, { Chan.reset with bound := true, prio := 2 }), (9, c)], inboxN := l }) 0 0 0
/-- Messages of channel 7. -/
def manySevens (n : Nat) : List InMsg := List.replicate n { msg := { hdr := mkHdr 0 0 0 false false 0 0 7, pay := [], ext := [], bar := none }, div := false }

/-- R82, R83: another class is cause 0x83, another generation 0x82. R89: the half at 16,048 bytes diverts the channel of the lowest priority, 7. -/
theorem test_messages_discarded :
    (arrivingAs { Chan.reset with bound := true, gen := 4 } true 0 []).msgWaits { msg := aMsg, core := 0, ctx := 0, src := none } = false
      ∧ (after .messageResident (arrivingAs { Chan.reset with bound := true, gen := 4 } true 0 [])).flights.map (fun f => f.msg.pay.take 1) = [[0x783]]
      ∧ (after .messageResident (arrivingAs { Chan.reset with bound := true, gen := 4 } false 3 [])).flights.map (fun f => f.msg.pay.take 1) = [[0x782]]
      ∧ (after .messageResident (arrivingAs { Chan.reset with bound := true, gen := 4 } false 4 [])).tn.inboxN.length = 1 := by decide +kernel

theorem test_episode_begins :
    (let s := arrivingAs { Chan.reset with bound := true, prio := 3 } false 0 (manySevens 1000)
     NoEpisode s.tn ∧ s.tn.occ false = 16000 ∧ aMsg.size = 48 ∧ (Chan.at (after .messageResident s).tn 7).divert = true ∧ (Chan.at (after .messageResident s).tn 9).divert = false
       ∧ (after .messageResident s).tn.inboxN.all (fun m => m.div == (m.msg.chan == 7)) = true) := by decide +kernel

theorem test_messages_arrive :
    (arriving { Chan.reset with bound := true } false).away 0 0 = false ∧ (after .messageResident (arriving { Chan.reset with bound := true } false)).tn.inboxN.length = 1
      ∧ (after .messageResident (arriving { Chan.reset with divert := true } false)).tn.inboxN.map (fun m => m.div) = [true]
      ∧ (after .messageResident (arriving .reset false)).tn.inboxN = [] ∧ Tbl.get 0 (after .messageResident (arriving .reset false)).tn.evc 5 = 1
      ∧ (after .messageResident (arriving .reset true)).flights.map (fun f => f.msg.pay) = [[0x783, 0, mkHdr 0 0 0 false true 1 2 9, 0, 9, 0, 10]]
      ∧ (switched [] 1 false).away 0 0 = true ∧ (after .messageResident (switched [] 1 false)).tn.log.length = 1
      ∧ (switched bound.flights 0 true).away 0 ((switched bound.flights 0 true).live 0) = false ∧ (after .messageResident (switched bound.flights 0 true)).tn.log = []
      ∧ (after .messageResident (switched bound.flights 0 true)).tn.inboxN.length = 1 := by decide +kernel

/-- The core idle, with the message of channel 9 resident; the same one diverted, with an overflow entry; a handler past its limit. -/
def toDispatch : State := event (withRc bound fun r => { r with run := .idle }) 0 0 0
def toPresent : State := withTn toDispatch fun t => { t with ovfEntry := some 0x80, inboxN := [{ msg := aMsg, div := true }] }
def tooLong : State := event (withRc regs fun r => { r with wdcnt := 0x400000 }) 0 0 0

theorem test_handlers_start :
    MayStart toDispatch 0 ∧ toDispatch.tn.gangsz ≤ 1 ∧ toDispatch.rc.run = .idle ∧ toDispatch.rc.ops = [] ∧ toDispatch.tn.slots = [] ∧ aMsg.urg = false ∧ aMsg.chan = 9 ∧ aMsg.gen = 0
      ∧ (after .dispatch toDispatch).rc.pc = 0x40 ∧ (after .dispatch toDispatch).x 11 = 11 ∧ (after .dispatch toDispatch).x 12 = 0 ∧ (after .dispatch toDispatch).x 5 = aMsg.hdr
      ∧ (after .dispatch toDispatch).rc.run = .running ∧ toPresent.tn.ovfEntry = some 0x80 ∧ (after .overflowPresent toPresent).tn.o.pc = 0x80 ∧ (after .overflowPresent toPresent).tn.o.run = .running
      ∧ tooLong.tn.wdlim ≤ tooLong.rc.wdcnt ∧ tooLong.tn.follower = false ∧ (after .watchdog tooLong).rc.run = .idle
      ∧ (after .watchdog tooLong).flights.map (fun f => f.msg.pay) = [[0x80, 0x10000000000, 0x400000, 0, 64, 0, 0x400000]] := by decide +kernel

/-- The channel that R85 selects. -/
theorem test_selected : Selected toDispatch.tn false 9 := by
  have only : ∀ k, k ≠ 9 → (Chan.at toDispatch.tn k).bound = false := by
    intro k h
    have : Tbl.get Chan.reset [(9, { Chan.reset with bound := true, gen := 0xFFFF, entry := 0x10, prio := 3 })] k = Chan.reset := by
      simp [Tbl.get, h]
    show (Tbl.get Chan.reset toDispatch.tn.chans k).bound = false
    rw [show toDispatch.tn.chans = [(9, { Chan.reset with bound := true, gen := 0xFFFF, entry := 0x10, prio := 3 })] by rfl, this]
    rfl
  refine ⟨⟨by decide, by decide +kernel, by decide +kernel, by decide +kernel, by decide +kernel, { msg := aMsg, div := false }, by decide +kernel, by decide, by decide +kernel⟩, ?_⟩
  intro k hk
  by_cases h : k = 9
  · subst h; exact Or.inr ⟨rfl, Nat.le_refl _⟩
  · exact absurd hk.2.1 (by rw [only k h]; decide)

/-! ## Homes, suspension, fault service -/

/-- What AtHome asks of operation c of the acting context, on own TCM. -/
def atHome (s : State) : Bool :=
  match (s.rcx (actor s)).findOp s.inp.c with
  | some o =>
    let l := s.locate (actor s) o.va (needOf o.k.acc) o.k.isStore
    decide (o.seq = s.inp.c ∧ s.inp.d = 0 ∧ s.mayPerform (actor s) o = true ∧ o.parts = [(o.va, o.n)] ∧ o.got = [] ∧ s.pick (actor s) o 0 = some ((o.va, o.n), { o with parts := [] })
        ∧ l.s.specStores (actor s) = [] ∧ l.tier ≠ some .host ∧ l.tier ≠ some .tier2 ∧ (o.needsV = true → s.vPage (actor s) o.va = true))
      && (match l.res with
          | .ok sp => decide (space sp.home = .tcm ∨ space sp.home = .hbm) && !s.heldLine sp.home && !l.s.poisoned sp.home o.n && !l.s.garbled sp
          | _ => false)
  | none => false

/-- One instruction issued on withBytes, its operation the one that an event names. -/
def issued (i : Instr) : State :=
  let s := { withBytes with eager := false }
  event (after i s) 0 0 s.rc.seq

theorem test_homes_perform :
    atHome (issued (.lb 5 6 1)) = true ∧ (after .loadReturn (issued (.lb 5 6 1))).x 5 = w64 (-127) ∧ (after .loadReturn (issued (.lb 5 6 1))).rc.ops = []
      ∧ atHome (issued (.wld 1 6 0)) = true ∧ (after .loadReturn (issued (.wld 1 6 0))).rc.rw 1 = 0x8786858483828180
      ∧ atHome (issued (.sd 6 2 0)) = true ∧ leNat ((after .storePerformed (issued (.sd 6 2 0))).bytes (tcmHome 0 0 + 0x100) 8) = 7
      ∧ atHome (issued (.amoaddW 5 6 2 0 0)) = true ∧ (after .amoAtHome (issued (.amoaddW 5 6 2 0 0))).x 5 = 0xFFFFFFFF83828180
      ∧ leNat ((after .amoAtHome (issued (.amoaddW 5 6 2 0 0))).bytes (tcmHome 0 0 + 0x100) 4) = 0x83828187 := by decide +kernel

/-- R262: an object with two arrivals pending, two expected, in phase 3: one arrival, then the last one, then one too many. -/
theorem test_arrivals :
    objectAfter (3 + 2 * 2 ^ 16 + 2 * 2 ^ 36) none = 3 + 2 ^ 16 + 2 * 2 ^ 36 ∧ objectAfter (3 + 2 ^ 16 + 2 * 2 ^ 36) none = 4 + 2 * 2 ^ 16 + 2 * 2 ^ 36
      ∧ objectAfter (3 + 2 * 2 ^ 36) none = 3 + 2 * 2 ^ 36 + 2 ^ 82 + 2 ^ 83 + 0x36 * 2 ^ 88
      ∧ (let s := { withBytes with eager := false, mem := [(0x100, 3), (0x102, 2), (0x104, 0x20)] }
         let t := event (after (.carrive 6) s) 0 0 s.rc.seq
         atHome t = true ∧ leNat ((after .amoAtHome t).bytes (tcmHome 0 0 + 0x100) 16) = 3 + 2 ^ 16 + 2 * 2 ^ 36) := by decide +kernel

/-- A write that an MSTC left for own TCM, with its tag. -/
def mstcLeft : State := event (withTn regs fun t => { t with mx := { t.mx with stores := [{ home := 0x400, gen := 0, tag := 7, bytes := [1, 2] }] } }) 0 7 0
theorem test_matrix_store :
    mstcLeft.live 0 = 0 ∧ mstcLeft.cmdWaits { core := 0, ctx := 0, rc := 0 } 0 0 = false ∧ mstcLeft.heldLine 0x400 = false ∧ space 0x400 = .tcm ∧ mstcLeft.poisoned 0x400 2 = false ∧ (after .storePerformed mstcLeft).tn.mx.stores = []
      ∧ (after .storePerformed mstcLeft).bytes 0x400 2 = [1, 2] ∧ Tbl.get 256 (after .storePerformed mstcLeft).tags 1 = 7 := by decide +kernel

/-- A versioned page of station 0 under a key of domain 0, its granule 0 at version 0x11; x6 its address. -/
def versioned : State :=
  let s := (regs.modPart 0 fun p => { p with slice := [0], keys := [(0, 1)] })
  withX { s with eager := false, vers := [(2 ^ 40, 0x11)],
                 tcache := page 4 0x10000004000 0 0 true }
    [(6, 0x10000004000), (7, 0x50013), (8, 0x50010), (9, 3)]
def watching (b : Nat) : State := event (after (.vwatch 5 6 b) versioned) 0 0 versioned.rc.seq
def cwatching : State := event (after (.cwatch 6 9) versioned) 0 0 versioned.rc.seq

/-- An access of versions of 8 bytes there; x9 = 3. -/
def versionedOp (i : Instr) : State := event (after i versioned) 0 0 versioned.rc.seq

/-- R148, R149: the version read goes to vlast, and the one written to x[rd]. -/
theorem test_versioned_homes :
    atHome (versionedOp (.ldvD 5 6)) = true ∧ (after .loadReturn (versionedOp (.ldvD 5 6))).rc.vlast = 0x11 ∧ (after .loadReturn (versionedOp (.ldvD 5 6))).rc.ops = []
      ∧ atHome (versionedOp (.stvD 5 6 9)) = true ∧ (after .storePerformed (versionedOp (.stvD 5 6 9))).x 5 = 0x12 ∧ leNat ((after .storePerformed (versionedOp (.stvD 5 6 9))).bytes (2 ^ 44) 8) = 3
      ∧ Tbl.get 0 (after .storePerformed (versionedOp (.stvD 5 6 9))).vers (2 ^ 40) = 0x12 := by decide +kernel

/-- R263, R264: CINIT lays the whole object down; CEXPECT adds 3 to the arrivals pending. -/
theorem test_object_homes :
    (let s := { withX withBytes [(1, 2 * 2 ^ 16 + 3)] with eager := false, mem := [(0x100, 3), (0x102, 2), (0x104, 0x20)] }
     let c := event (after (.cinit 6 1) s) 0 0 s.rc.seq
     let e := event (after (.cexpect 6 9) (withX s [(9, 3)])) 0 0 s.rc.seq
     atHome c = true ∧ (c.rc.ops.map fun o => match o.k with | .cinit v => (after .storePerformed c).bytes (tcmHome 0 0 + 0x100) 16 == leBytes v.toNat 16 | _ => false) = [true]
       ∧ atHome e = true ∧ leNat ((after .amoAtHome e).bytes (tcmHome 0 0 + 0x100) 16) = 3 + 5 * 2 ^ 16 + 2 * 2 ^ 36) := by decide +kernel

/-- R150: at version 0x11 the target 0x13 is not reached, the target 0x10 is. -/
theorem test_watches_register :
    atHome (watching 7) = true ∧ atHome (watching 8) = true ∧ atHome cwatching = true ∧ (watching 7).watches = [] ∧ (after .vwatchRegister (watching 7)).watches.map (fun x => x.target) = [0x13]
      ∧ (after .vwatchRegister (watching 8)).watches = [] ∧ (after .vwatchRegister (watching 8)).flights.map (fun f => f.msg.pay) = [[0x10000004000, 0x11]]
      ∧ (after .vwatchRegister cwatching).watches.map (fun x => (x.pool, x.chan)) = [(1, 3)] := by decide +kernel

/-- A load of a page that no table maps. -/
def unmapped : State :=
  let s := withX { regs with eager := false } [(6, 0x10000008000)]
  event (after (.ld 5 6 0) s) 0 0 s.rc.seq

/-- An operation whose walk fails with a kind. -/
def faultsWith (s : State) (k : Nat) : Bool :=
  match (s.rcx (actor s)).findOp s.inp.c with
  | some o =>
    decide (s.mayPerform (actor s) o = true ∧ o.parts = [(o.va, o.n)] ∧ (s.rcx (actor s)).inv = o.inv ∧ s.pick (actor s) o 0 = some ((o.va, o.n), { o with parts := [] }))
      && (match (s.locate (actor s) o.va (needOf o.k.acc) o.k.isStore).res with
          | .error j => j == k
          | _ => false)
  | none => false

/-- Suspended, held in place, and ready to go on. -/
def suspended : State := after .translationFault unmapped
def inPlace : State :=
  event (withRc regs fun r => { r with run := .held, wait := some { why := .rerun, pc := r.pc, cont := r.pc, need := 1, gang := none } }) 0 0 0
def resumable : State :=
  event (withTn (withRc regs fun r => { r with run := .idle }) fun t =>
    { t with slots := [(2, { rc := 0, img := t.n, g := [], wait := { why := .ebreak, pc := 0x40, cont := 0x44, need := 0, gang := none } })] }) 0 2 0

theorem test_suspension :
    NoGang unmapped (actor unmapped) ∧ faultsWith unmapped 0 = true ∧ unmapped.rc.run = .running ∧ unmapped.tn.freeSlot = some 0 ∧ suspended.rc.run = .idle
      ∧ suspended.tn.slots.map (fun p => (p.1, p.2.wait.cont, p.2.wait.need)) = [(0, 0x10000000004, 1)] ∧ suspended.tn.instret = 0 ∧ suspended.held.map (fun h => (h.cause, h.va, h.fn)) = [(0x40, 0x10000008000, 0)]
      ∧ Tbl.get 0 suspended.tn.evc 10 = 1 ∧ inPlace.rc.run = .held ∧ inPlace.tn.freeSlot = some 0 ∧ (after .suspendOnSlotFree inPlace).rc.run = .idle
      ∧ (after .suspendOnSlotFree inPlace).tn.slots.map (fun p => p.1) = [0] ∧ Tbl.get 0 (after .suspendOnSlotFree inPlace).tn.evc 10 = 1 ∧ MayStart resumable 0 ∧ resumable.tn.slots.map (fun p => (p.1, p.2.wait.need)) = [(2, 0)]
      ∧ (after .handlerResume resumable).rc.run = .running ∧ (after .handlerResume resumable).rc.pc = 0x44 ∧ (after .handlerResume resumable).tn.instret = 1
      ∧ (after .handlerResume resumable).tn.slots = [] := by decide +kernel

/-- A slot whose load has returned 0xF0. -/
def returned : State :=
  let o := { mkOp .load 0x100 8 0 0 (.x 5 8 true) false false with parts := [], got := (leBytes 0xF0 8).zipIdx.map fun q => (0x100 + q.2, q.1) }
  event (withTn (withRc regs fun r => { r with run := .idle }) fun t =>
    { t with slots := [(2, { rc := 0, img := t.n, g := [], wait := { why := .op o, pc := 0x40, cont := 0x44, need := 0, gang := none } })] }) 0 2 0
theorem test_resume_of_an_operation :
    returned.mayResume 0 = true ∧ (after .handlerResume returned).rc.run = .running ∧ (after .handlerResume returned).rc.pc = 0x44 ∧ (after .handlerResume returned).x 5 = 0xF0
      ∧ (after .handlerResume returned).x 1 = 5 ∧ (after .handlerResume returned).tn.slots = [] ∧ (after .handlerResume returned).tn.instret = 1 := by decide +kernel

/-- A CALLT whose table lies in that page is suspended, to run again. -/
def suspendedCall : State := after (.callt 1 6 7) (withTn withTable fun t => { t with fntab := 0x10000008000 })

/-- Stage 2 of partition 0 maps all to host memory; stage 1 maps the page, at intermediate address 0x8000. -/
def mapped : State :=
  let mem := [(hbmHome 0x1000, [0x01, 0x20]), (hbmHome 0x2000, [0x0F, 0, 0, 0, 0, 0, 0x80]), (hostHome + 0x1010, [0x01, 0x20]), (hostHome + 0x2000, [0x0F])]
  event { suspendedCall with parts := [(0, { Part.reset with s1root := [(0, 0x1000)], s2root := 0x1000, fqbase := 0x4000, nextFid := 1 })],
                             mem := mem.foldl (fun m p => putBytes m p.1 p.2) [] } 0 0 0

/-- The first of the requests held. -/
def firstHeld (s : State) : Held := (s.held[0]?).getD { fn := 0, fid := 0, cause := 0, va := 0, by_ := .xfer 0, peer := false }

theorem test_replay :
    mapped.held.map (fun h => (h.fn, h.fid, h.cause, h.by_)) = [(0, 0, 0x40, .slot 0 0 0 (0x10000008010, 16))] ∧ mapped.tn.slots.map (fun p => (p.1, p.2.wait.why, p.2.wait.need)) = [(0, .rerun, 1)]
      ∧ (match (State.locate (State.forget { mapped with held := [] } 0 0 0x10000008010) { core := 0, ctx := 0, rc := 3 } 0x10000008010 1 false).res with
         | .ok sp => decide (sp.home = hostHome + 0x8010)
         | _ => false) = true
      ∧ mapped.tn.slots.map (fun p => p.2.img.kept) = [[]] ∧ (after .resumeReplay mapped).tn.slots.map (fun p => p.2.img.kept.length) = [16]
      ∧ (after .resumeReplay mapped).held = [] ∧ (after .resumeReplay mapped).tn.slots.map (fun p => p.2.wait.need) = [0] ∧ (after .resumeFail mapped).tn.slots = []
      ∧ (after .resumeFail mapped).flights.map (fun f => f.msg.pay.take 3) = [[0x40, 0x10000000000, 0x10000008010]] := by decide +kernel

theorem test_fault_record :
    mapped.frecs.length = 1 ∧ (mapped.part 0).fqRoom = true ∧ (mapped.write2 0 0x4000 (List.replicate 16 0)).2 = true ∧ (after .faultRecordPost mapped).frecs = [] ∧ ((after .faultRecordPost mapped).part 0).fqhead = 1
      ∧ leNat ((after .faultRecordPost mapped).bytes (hostHome + 0x4000) 24) = 0x01 * 2 ^ 56 + 0x40 * 2 ^ 32 + 0x10000008010 * 2 ^ 64 + 0x10000000000 * 2 ^ 128
      ∧ (suspendedCall.part 0).fqRoom = false ∧ suspendedCall.frecs.map (fun r => r.resumable) = [true] ∧ ((after .faultRecordPost (event { suspendedCall with frecs := suspendedCall.frecs.map fun r => { r with resumable := false } } 0 0 0)).part 0).lost = true ∧ (after .faultRecordPost (event suspendedCall 0 0 0)).frecs.length = 1
      ∧ (let s := event { suspendedCall with parts := [(0, { Part.reset with fqbase := 0x4000, nextFid := 1 })] } 0 0 0
         (s.part 0).fqRoom = true ∧ (s.write2 0 0x4000 (List.replicate 16 0)).2 = false ∧ (after .faultRecordPost s).frecs.map (fun r => r.told) = [true]
           ∧ (after .faultRecordPost (after .faultRecordPost s)).frecs.map (fun r => r.told) = [true]) := by decide +kernel

/-- A transfer held on fault service. -/
def heldTransfer : State :=
  event { regs with
    time := 500, held := [{ fn := 0, fid := 7, cause := 0x48, va := 0x10000008010, by_ := .xfer 3, peer := false }],
    xfers := [{ id := 3, recno := 0, who := { core := 0, ctx := 0, rc := 0 }, part := 0, cluster := 0, pc := 0, kind := .copy, moves := [{ cell := [0], src := some 0x10000008010, dst := some 0x100, bad := false }],
                src := none, dst := none, port := 0, comp := 0, accepted := true, done := 0, deadline := 900, xl := [], fault := none, takeovers := 0, heldPg := [0x10000008], heldAt := 400 }] } 0 7 0

theorem test_transfer_replay :
    (after .resumeReplay heldTransfer).xfers.map (fun x => (x.heldPg, x.deadline)) = [([], 1000)] ∧ (after .resumeFail heldTransfer).xfers.map (fun x => (x.heldPg, x.fault)) = [([], some 0x48)]
      ∧ (after .resumeFail heldTransfer).xfers.map (fun x => x.moves.map fun m => (m.bad, m.done)) = [[(true, false)]] ∧ (after .resumeFail heldTransfer).held = [] := by decide +kernel

/-- R243: a cell whose destination lies on the page that is given up is not written; one that has been read already keeps its source. -/
def heldSink : State := { heldTransfer with xfers := heldTransfer.xfers.map fun x => { x with moves := [{ cell := [0], src := some 0x100, dst := some 0x10000008010, bad := false }, { cell := [1], src := some 0x10000008011, dst := some 0x101, bad := false }], got := [(1, 9)] } }
theorem test_given_up :
    (after .resumeFail heldSink).xfers.map (fun x => x.moves.map fun m => (m.bad, m.done)) = [[(false, true), (false, false)]] := by decide +kernel

/-! ## Tasks, barriers, bands -/

/-- A descriptor at 0x200 of own TCM: timestamp 9, channel 5, domain 3, priority 2, no affinity, arguments 1 to 4. -/
def tasking : State :=
  withX { regs with mem := [(0x200, 9), (0x208, 5), (0x209, 3), (0x20A, 2), (0x210, 1), (0x214, 2), (0x218, 3), (0x21C, 4)] } [(6, 0x200), (7, 0x210), (8, 0x40000), (9, 3 * 2 ^ 58)]

/-- A task with a number, a state and an owner. -/
def aTask (id ts : Nat) (st : TState) : Task :=
  { id := id, part := 0, ctx := 0, ts := ts, dom := 3, chan := 5, prio := 2, aff := some 0, args := [1, 2], src := 0, srcCore := 0, read := .empty 0, write := .empty 0, parent := none,
    st := st, core := 0, stores := [], msgs := [], traps := [] }

theorem test_tenq :
    (Instr.tenq 5 6 1 2).wf = true ∧ Unmasked tasking [7] ∧ Fresh tasking ∧ tasking.rc.ops = [] ∧ Plain tasking ∧ tasking.rc.task = none ∧ tasking.tasks = [] ∧ tasking.poisoned 0x200 32 = false
      ∧ (tasking.g 1).boxes = [] ∧ (after (.tenq 5 6 1 2) tasking).x 5 = w64 (3 * 2 ^ 58)
      ∧ (after (.tenq 5 6 1 2) tasking).tasks.map (fun k => [k.ts, k.dom, k.chan, k.prio] ++ k.args) = [[9, 3, 5, 2, 1, 2, 3, 4]] ∧ (after (.tenq 5 6 1 2) tasking).tasks.map (fun k => (k.aff, k.st)) = [(none, .queued)]
      ∧ trapsWith (.tenq 5 7 1 2) tasking 0x20 0x210 = true ∧ trapsWith (.tenq 5 8 1 2) tasking 0x8A 0x40000 = true := by decide +kernel

theorem test_tcancel :
    (Instr.tcancel 5 9).wf = true ∧ Ready tasking [5, 9] ∧ tasking.findTask 0 (3 * 2 ^ 58) = none ∧ (after (.tcancel 5 9) tasking).x 5 = 2
      ∧ (after (.tcancel 5 9) { tasking with tasks := [{ aTask (3 * 2 ^ 58) 9 .queued with ctx := 1 }] }).x 5 = 2
      ∧ (after (.tcancel 5 9) { tasking with tasks := [aTask (3 * 2 ^ 58) 9 .oldest] }).x 5 = 1 ∧ (after (.tcancel 5 9) { tasking with tasks := [aTask (3 * 2 ^ 58) 9 .queued] }).x 5 = 0
      ∧ (after (.tcancel 5 9) { tasking with tasks := [aTask (3 * 2 ^ 58) 9 .queued] }).tasks = [] := by decide +kernel

/-- Two tasks of domain 3; the later one is of higher priority in the second state. -/
def queued : State := event { withTn regs fun t => { t with bandsz := 1, ctab := [0] } with tasks := [aTask 20 4 .queued] } 0 0 0
def ended : State := event { queued with tasks := [{ aTask 20 4 .ended with stores := [{ home := 0x300, gen := 0, tag := 256, bytes := [1, 2] }], msgs := [{ msg := aMsg, core := 0, ctx := 0, src := none }] }, { aTask 21 5 .held with parent := some 20 }] } 0 20 0
def failed : State := event { queued with tasks := [{ aTask 20 4 .failed with traps := [{ msg := aMsg, core := 0, ctx := 0, src := none }] }] } 0 20 0
/-- The handler of a task that nothing stands before any longer. -/
def promoted : State :=
  event { withRc queued fun r => { r with task := some 20, spec := true } with tasks := [{ aTask 20 4 .spec with msgs := [{ msg := aMsg, core := 0, ctx := 0, src := none }] }] } 0 20 0

theorem test_tasks_eligible : Eligible117 queued (aTask 20 4 .queued) ∧ ¬ Behind queued (aTask 20 4 .queued) ∧ Behind { queued with tasks := [aTask 19 4 .oldest] } (aTask 20 4 .queued) := by
  refine ⟨⟨rfl, Or.inr ?_⟩, ?_, by decide, aTask 19 4 .oldest, by decide, rfl, rfl, by decide⟩
  · intro e he _ _ h
    simp [queued, event, withTn] at he
    subst he; simp [aTask] at h
  · rintro ⟨_, e, he, _, _, h⟩
    simp [queued, event, withTn] at he
    subst he; simp [aTask] at h

theorem test_tasks_run :
    queued.thermal = false ∧ (queued.findTask 0 20).isSome = true ∧ (queued.tenant 0 0).gangidx = 0 ∧ (after .taskDispatch queued).flights.map (fun f => (f.msg.kind, f.msg.chan, f.msg.pay)) = [(1, 5, [1, 2, 20])]
      ∧ (after .taskDispatch queued).tasks.map (fun k => k.st) = [.oldest] ∧ (after .taskCommit ended).bytes 0x300 2 = [1, 2] ∧ (after .taskCommit ended).tasks.map (fun k => (k.id, k.st)) = [(21, .queued)]
      ∧ (after .taskCommit ended).flights.length = 1 ∧ ended.opsOf { core := 0, ctx := 0, rc := 0 } = [] ∧ (ended.rcx { core := 0, ctx := 0, rc := 0 }).fences = [] ∧ ended.poison = [] ∧ ended.taskWriting (aTask 20 4 .ended) = false ∧ ended.domBusy 0 20 = false
      ∧ (after .taskCommit promoted).tasks.map (fun k => (k.st, k.msgs)) = [(.oldest, [])] ∧ (after .taskCommit promoted).flights.map (fun f => f.task) = [20] ∧ (after .taskCommit promoted).rc.spec = false ∧ (after .taskCommit failed).tasks = [] ∧ (after .taskCommit failed).flights.length = 1 := by decide +kernel

/-- A band of two: member 1 has arrived at barrier 1 with 7, op SUM or another, and member 0 arrives with 5 and SUM. -/
def barriers (size op : Nat) : State :=
  let at_ := fun (core v op : Nat) => ({ part := 0, ticket := 4, core := core, ctx := 0, lcore := core, bar := 1, v := BitVec.ofNat 64 v, op := op, chan := 33, gen := 2, evc := [] } : Arrival)
  event { withTn regs fun t => { t with bandsz := size } with arrivals := [at_ 0 5 1], bars := [{ part := 0, ticket := 4, bar := 1, phases := 2, arr := [at_ 1 7 op], die := 0 }] } 0 0 0

/-- R110, R111: 5 + 7, phase 3, operation SUM, barrier 1. -/
theorem test_barriers :
    ((barriers 2 1).tenant 0 0).bandsz = 2 ∧ (after .barrierArrival (barriers 2 1)).flights.map (fun f => (f.core, f.msg.kind, f.msg.gen, f.msg.pay)) = [(0, 3, 2, [12, w64 (3 * 2 ^ 32 + 9)]), (1, 3, 2, [12, w64 (3 * 2 ^ 32 + 9)])]
      ∧ (after .barrierArrival (barriers 3 1)).flights = [] ∧ (after .barrierArrival (barriers 3 1)).bars.map (fun b => b.arr.length) = [2]
      ∧ (after .barrierArrival (barriers 2 6)).flights.map (fun f => f.msg.pay.head?) = [some 0x388, some 0x388] ∧ (after .ctHung (barriers 3 1)).bars.map (fun b => b.die) = [1] := by decide +kernel

/-- A launch record at intermediate address 0x4000 of partition 0: 4 cores of a torus 2 × 2, gangs of 1. -/
def submitting : State :=
  let s := mapped
  { s with mem := putBytes s.mem (hostHome + 0x4000) [0, 0, 4, 0, 2, 0, 2, 0, 1], inp := { EvArgs.zero with b := 0x4000 } }

/-- Its launch, in a partition of 16 cores, with an image of one handler. -/
def aLaunch : Launch :=
  { part := 0, ctx := 0, ticket := 6, submitted := 0, bad := false, rsv := false, mtype := 0, cores := 4, tx := 2, ty := 2, gang := 1, prio := 0, args := [1, 2, 3, 4], comp := 0, routes := 0, resv := none }
def launching (images : List Image) : State :=
  event { State.reset with parts := [(0, { Part.reset with clen := 16, ctxen := 1 })], launches := [aLaunch], images := images, cfail := [1] } 0 0 0
def anImage : Image := { part := 0, ctx := 0, handlers := [{ chan := 7, prio := 3, urg := false, entry := 0x40 }], tcm := [], pans := [], fntab := 0x200, fnlen := 2 }

theorem test_launch_submitted :
    (submitting.read2 0 0x4000 64).map (fun b => b.length) = some 64 ∧ submitting.unreached2 0 0x4000 64 = false ∧ (after .lsubmit submitting).launches.map (fun l => (l.cores, l.tx, l.gang, l.ticket)) = [(4, 2, 1, 0)]
      ∧ ((after .lsubmit submitting).part 0).lticket = 1 ∧ ((after .lsubmit { submitting with launches := List.replicate 256 aLaunch }).part 0).lfull = true := by decide +kernel

theorem test_launch_fits : FitsAt (launching [anImage]) aLaunch 2 ∧ ∀ k, k < 2 → ¬ FitsAt (launching [anImage]) aLaunch k := by
  refine ⟨⟨by decide, by decide, ?_, ?_⟩, ?_⟩
  · intro c hc; simp [launching, event] at hc; subst hc; decide
  · intro b hb; simp [launching, event, State.reset] at hb
  · intro k hk h
    have := h.2.2.1 1 (by decide)
    simp [aLaunch] at this
    omega

/-- R101, R102: core 1 has failed, and the band takes the four cores from 2 on. -/
theorem test_launch_placed :
    (after .launchPlace (launching [])).lstats.map (fun x => (x.status, x.ticket)) = [(0x87, 6)] ∧ (after .launchPlace (launching [anImage])).bands.map (fun b => (b.h0, b.len, b.members)) = [(2, 4, [2, 3, 4, 5])]
      ∧ ((after .launchPlace (launching [anImage])).tenant 4 0).lcore = 2 ∧ ((after .launchPlace (launching [anImage])).tenant 4 0).n.rx 2 = 0x40000
      ∧ (after .launchPlace (launching [anImage])).flights.map (fun f => (f.core, f.msg.kind, f.msg.chan)) = [(2, 2, 7), (3, 2, 7), (4, 2, 7), (5, 2, 7)] := by decide +kernel

/-- A band of one idle member, and one that has ended; the status of it waits. -/
def aBand (e : Bool) : Band := { part := 0, ctx := 0, ticket := 6, h0 := 0, len := 1, members := [0], comp := 0, submitted := 3, ended := e, killed := false }
def quiet (e : Bool) : State := event { State.reset with bands := [aBand e] } 0 6 0
def reporting : State :=
  event { mapped with lstats := [{ part := 0, ctx := 0, ticket := 6, status := 0, comp := 0, submitted := 3, completed := 9 }], parts := [(0, { mapped.part 0 with lstatbase := 0x5000 })], time := 50 } 0 0 0

theorem test_quiet_member : QuietMember (quiet false) 0 0 ∧ LandedMember (quiet true) 0 0 := by
  have r : ∀ e j, (quiet e).rcx { core := 0, ctx := 0, rc := j } = .reset := by
    intro e j
    rcases j with _ | _ | _ | j <;> rfl
  refine ⟨{ handlers := fun j _ => by rw [r]; rfl, slots := rfl, inbox := ⟨rfl, rfl, rfl⟩, copies := ?_, watches := ⟨rfl, rfl⟩, flights := ?_, tasks := ?_, arrivals := ⟨?_, ?_⟩, arriving := rfl },
    { ops := fun j _ => by rw [r]; rfl, xfers := ?_, walks := ?_, loads := ?_, cmds := ?_, unit := ⟨rfl, rfl, rfl, rfl⟩ }⟩ <;> intro x hx <;> cases hx

theorem test_band_ends :
    (after .bandEnd (quiet false)).bands.map (fun b => b.ended) = [true] ∧ (after .launchComplete (quiet true)).bands = [] ∧ (after .launchComplete (quiet true)).lstats.map (fun x => (x.status, x.ticket)) = [(0, 6)]
      ∧ (reporting.part 0).lstatbase ≠ 0 ∧ (reporting.write2 0 0x5000 (leBytes 6 16)).2 = true ∧ (after .launchStatusWrite reporting).lstats = []
      ∧ leNat ((after .launchStatusWrite reporting).bytes (hostHome + 0x5000) 16) = 6 + 50 * 2 ^ 64 ∧ (after .launchStatusWrite { reporting with parts := [] }).lstats.length = 1 := by decide +kernel

/-- An MMUL whose operand's page is being serviced. -/
def aHeldJob : MJob :=
  let op : Operand := { tsr := { fmt := 0, rank := 1, wrap := 0, layout := 0, bed := none, rights := 3, rot := 0, base := 0, ext := [2], origin := [0], rotbase := 0, stride := [1], grant := 0 }, fmt := 0, scale := 0 }
  let o : MOperand := { op := op, orgr := 0, orgc := 0, ksteps := 1, sparse := false, spix := 0, tsrAt := 0 }
  { tile := 0, mode := 0, m := 8, n := 16, a := o, b := o, k := 0, src := none, word0 := 0, pre := false, held := false, pc := 0 }
/-- The handler of a band that is to be killed, and the band. -/
def toKill : State := { regs with bands := [aBand false], inp := { EvArgs.zero with b := 6 * 2 ^ 32 } }
def killing : State :=
  event { withTn bound fun t => { t with vwPend := 1, mx := { t.mx with queue := [{ aHeldJob with held := true }], held := true } } with
    bands := [aBand false], tasks := [aTask 20 4 .spec], held := [{ fn := 0, fid := 7, cause := 0x58, va := 0, by_ := .matrix 0 0, peer := false }] } 0 6 0

theorem test_kills :
    NoGang toKill toKill.cur ∧ toKill.rc.run = .running ∧ toKill.rc.wait = none ∧ toKill.rc.task = none ∧ toKill.tn.slots = [] ∧ (after .killh toKill).rc.run = .idle
      ∧ (after .killh toKill).flights.map (fun f => f.msg.pay.head?) = [some 0x81] ∧ (after .killh { toKill with tenants := [] }).flights = []
      ∧ (after .killb killing).tasks = [] ∧ (after .killb killing).held = [] ∧ (after .killb killing).tn.mx.queue = [] ∧ (after .killb killing).bands.map (fun b => (b.killed, b.ended)) = [(true, true)] ∧ (after .killb killing).rc.run = .idle ∧ (after .killb killing).tn.inboxN = []
      ∧ (after .killb killing).tn.vwPend = 0 ∧ (after .killb killing).flights = [] := by decide +kernel

/-! ## The Sluice -/

/-- The bytes 1 to 4 at 0x1008 of own TCM; g1 = [8, 11]; x6 and x7 name the flat tensors at 0x1000 and 0x2000; port 3 is bound for a stream, port 4 for a sink. -/
def copying : State :=
  let s := withTn regs fun t => { t with g := [(1, flatRegion 8 4), (2, Region.empty 1)], ports := [(3, { Port.reset with kind := 1 }), (4, { Port.reset with kind := 2, buf := [0x04030201] })] }
  withX { s with eager := false, mem := putBytes [] (tcmHome 0 0 + 0x1008) [1, 2, 3, 4] } [(6, 0x1001), (7, 0x2001), (8, w64 (2 ^ 63 + 3 * 2 ^ 56 : Nat)), (9, 0x3FFF9)]

/-- The transfers that a command adds. -/
def issuedX (i : Instr) (s : State) : List (XK × Nat × List Mv) := (after i s).xfers.map fun x => (x.kind, x.port, x.moves)

/-- What the checks of a transfer answer: 0 a transfer, 1 an empty region, the cause of a trap otherwise. -/
def prepared (s : State) (k : XK) (src dst idx : Option Nat) (g : Region) (q : Nat) : Nat :=
  match s.prep s.cur k g src dst idx q s.rc.txcomp.toNat with
  | .ok u (some _) => if u.eager then 3 else 0
  | .ok _ none => 1
  | .stall => 2
  | .again _ => 2
  | .fault _ c _ _ => c

theorem test_transfer_rule : transferRule (.rcopy 6 7 1) copying = some (.copy, some 0x1001, some 0x2001, none, flatRegion 8 4, 0) := rfl

theorem test_transfers_issue :
    Calm copying ∧ (Instr.rcopy 6 7 1).wf = true
      ∧ prepared copying .copy (some 0x1001) (some 0x2001) none (copying.g 1) 0 = 0 ∧ prepared copying .copy (some 0x1001) (some 0x2001) none (copying.g 2) 0 = 1
      ∧ prepared copying .copy (some 0x1009) (some 0x2001) none (copying.g 1) 0 = 0x20 ∧ issuedX (.rcopy 6 7 1) copying = [(.copy, 0, flatMoves 8 4 (some 0x1000) (some 0x2000))]
      ∧ (after (.rcopy 6 7 1) copying).rc.pc = copying.rc.pc + 4 ∧ issuedX (.rcopy 6 7 2) copying = [] := by decide +kernel

theorem test_streams_issue :
    (copying.tn.port 3).kind = 1 ∧ (Instr.rstream 27 6 1).wf = true ∧ issuedX (.rstream 27 6 1) copying = [(.stream, 3, flatMoves 8 4 (some 0x1000) none)]
      ∧ issuedX (.rsink 7 28 1) copying = [(.sink, 4, flatMoves 8 4 none (some 0x2000))] ∧ trapsWith (.rstream 29 6 1) copying 0x29 0 = true ∧ trapsWith (.rstream 28 6 1) copying 0x2F 0 = true
      ∧ trapsWith (.rcopy 6 7 1) (withRc copying fun r => { r with spec := true }) 0x85 0 = true
      ∧ trapsWith (.rcopy 6 7 1) { copying with cur := { core := 0, ctx := 0, rc := 1 } } 0x08 0 = true := by decide +kernel

/-- An index tensor of rank 1 and INT32 at 0x800 (its record) over the entries 9, 8, 99, 11 at 0x900. -/
def indexing : State :=
  withX { copying with mem := [(0x800, [2, 1, 0, 0, 0, 3]), (0x808, [0, 9]), (0x810, [16]), (0x840, [4]), (0x920, [9]), (0x924, [8]), (0x928, [99]), (0x92C, [11])].foldl (fun m p => putBytes m p.1 p.2) copying.mem } [(10, 0x800)]
theorem test_indexed_transfers :
    prepared indexing .gather (some 0x1001) (some 0x2001) (some 0x800) (indexing.g 1) 0 = 0
      ∧ (issuedX (.rgather 7 6 10 1) indexing).map (fun x => x.2.2.map fun m => (m.src, m.dst)) = [[(some 0x1009, some 0x2008), (some 0x1008, some 0x2009), (some 0x1063, some 0x200A), (some 0x100B, some 0x200B)]]
      ∧ (issuedX (.rscatterSet 7 6 10 1) indexing).map (fun x => x.2.2.map fun m => (m.src, m.dst)) = [[(some 0x1008, some 0x2009), (some 0x1009, some 0x2008), (some 0x100A, some 0x2063), (some 0x100B, some 0x200B)]]
      ∧ (issuedX (.rgather 8 6 10 1) indexing).map (fun x => x.2.1) = [3] := by decide +kernel

/-- One transfer of own TCM, accepted or not. -/
def aXfer (kind : XK) (port : Nat) (src dst : Option Nat) (acc : Bool) : Xfer :=
  { id := 4, recno := 0, who := { core := 0, ctx := 0, rc := 0 }, part := 0, cluster := 0, pc := 0, kind := kind, moves := flatMoves 8 4 src dst, src := src.map flatOperand, dst := dst.map flatOperand,
    port := port, comp := 0, accepted := acc, done := 0, deadline := 900, xl := [], fault := none, takeovers := 0, heldPg := [], heldAt := 0 }

/-- The decision is at tick 250, or under an emergency. -/
def deciding : State := event { copying with time := 250, xfers := [aXfer .copy 0 (some 0x1000) (some 0x2000) false] } 4 0 0
/-- A transfer of 16 bytes from host memory through a translation it keeps, for a partition that reserves nothing and one with 8 bytes in each frame from 3 on. -/
def hostCopy : State :=
  event { deciding with xfers := [{ aXfer .copy 0 (some 0x10000008000) (some 0x2000) false with
            xl := [(0x10000008, { home := 2 ^ 54, bits := 12, v := false, key := 0, s1 := 7, s2 := 7, ipa := 0, leaves := [], via := [] })] }] } 4 0 0
def reserving : State := hostCopy.modPart 0 fun p => { p with resv := [{ r := 384, from_ := 3, n := 100 }, { r := 402, from_ := 4, n := 8 }] }

/-- R245, R246: TCM to TCM in a cluster costs nothing: its deadline is 100 · 3 + 200. From the host, 16 bytes at 8 in a frame end in frame 5. -/
theorem test_decisions :
    (match deciding.admission (aXfer .copy 0 (some 0x1000) (some 0x2000) false) with | .ok _ => true | .error _ => false) = true ∧ (after .transferDecision deciding).rc.txstat = 250
      ∧ (after .transferDecision deciding).xfers.map (fun x => (x.accepted, x.deadline)) = [(true, 500)] ∧ (after .transferDecision { deciding with thermal := true }).xfers.length = 1
      ∧ (after .transferDecision hostCopy).rc.txstat = 0x8200000000000000 ∧ Tbl.get 0 (after .transferDecision hostCopy).tn.evc 7 = 1 ∧ (after .transferDecision hostCopy).xfers = []
      ∧ (after .transferDecision reserving).rc.txstat = w64 (100 * 6 + 200 - 250) ∧ (after .transferDecision reserving).taken.map (fun t => [t.r, t.f, t.n]) = [[384, 3, 16], [402, 4, 8], [402, 5, 8]] := by decide +kernel

theorem test_plan_is_greedy :
    (List.range 5).map (fun k => reserving.freeRes 0 402 (3 + k)) = [0, 8, 8, 8, 8] ∧ reserving.planRes 0 401 64 3 1 = none
      ∧ (reserving.planRes 0 402 64 3 20).map (fun l => l.map fun t => [t.f, t.n]) = some [[4, 8], [5, 8], [6, 4]] := by decide +kernel

/-- Accepted transfers: a copy, a stream to port 3, a sink of port 4. -/
def moving (k : XK) (q : Nat) (src dst : Option Nat) : State := event { copying with xfers := [aXfer k q src dst true] } 4 0 0

theorem test_transfers_move :
    copying.poison = [] ∧ copying.hostHeld = [] ∧ (after .transferComplete (moving .copy 0 (some 0x1000) (some 0x2000))).bytes (tcmHome 0 0 + 0x2008) 5 = [1, 2, 3, 4, 0]
      ∧ (after .transferComplete (moving .copy 0 (some 0x1000) (some 0x2000))).xfers = [] ∧ ((after .streamDeliver (moving .stream 3 (some 0x1000) none)).tn.port 3).buf = [0x04030201]
      ∧ (after .streamDeliver (moving .stream 3 (some 0x1000) none)).xfers.map (fun x => x.done) = [1]
      ∧ (after .transferComplete (moving .sink 4 none (some 0x2000))).bytes (tcmHome 0 0 + 0x2008) 5 = [1, 2, 3, 4, 0] ∧ ((after .transferComplete (moving .sink 4 none (some 0x2000))).tn.port 4).buf = [] := by decide +kernel

/-- An element from port 5 of core 1, where port 2 of core 0 is bound for it or is not; a credit for port 6. -/
def neighbours (k : Nat) : State :=
  event { withTn regs fun t => { t with bandsz := 2, ctab := [0, 1], ports := [(2, { Port.reset with kind := k, peer := 1, peerPort := 5 }), (6, { Port.reset with kind := 5, peer := 1, peerPort := 5, credits := 3 })] } with
    nelems := [{ core := 0, ctx := 0, q := 2, fromCore := 1, fromQ := 5, v := 77 }], ncredits := [{ core := 0, ctx := 0, q := 6, fromCore := 1, fromQ := 5, v := 0 }] } 0 0 0

theorem test_neighbours :
    (neighbours 4).away 0 0 = false ∧ ((after .neighbourElementArrive (neighbours 4)).tn.port 2).buf = [77] ∧ (after .neighbourElementArrive (neighbours 4)).nelems = []
      ∧ (after .neighbourElementArrive (neighbours 1)).ncredits.map (fun c => (c.core, c.q)) = [(0, 6), (1, 5)] ∧ ((after .neighbourCreditReturn (neighbours 4)).tn.port 6).credits = 4
      ∧ (after .neighbourCreditReturn (withTn (neighbours 4) fun t => { t with ports := [] })).ncredits = [] ∧ (after .slHung { moving .copy 0 (some 0x1000) (some 0x2000) with inp := .zero }).xfers.map (fun x => (x.cluster, x.takeovers)) = [(nextCluster 0, 1)] := by decide +kernel

/-! ## Waiting for cells, capabilities, ports, beds -/

/-- The four granules' landed bits: cells 8 to 11 of the tensor at 0x1000 lie in one granule. -/
def landing (b : Bool) : State := { copying with landed := if b then [((tcmHome 0 0 + 0x1008) / 16, true)] else [] }

theorem test_waits_ports_beds :
    (Instr.rwait 6 1).wf = true ∧ (landing true).xfers = [] ∧ (after (.rwait 6 1) (landing true)).rc.pc = (landing true).rc.pc + 4 ∧ trapsWith (.rwait 6 1) (landing false) 0x27 0x1008 = true
      ∧ Unmasked copying [10] ∧ goes (.rcapmkRw 3 6 1) copying = true ∧ (after (.rcapmkRw 3 6 1) copying).rc.pc = copying.rc.pc + 4 := by decide +kernel

/-- Port 2 as a neighbour input of port 5 of logical core 1; a bed of FP16 and scale 2. -/
def binding : State := withX (withTn copying fun t => { t with bandsz := 2, ctab := [0, 1] }) [(6, 4), (7, 0x50001), (8, 3), (9, 0x4000000000000005), (10, 9)]

theorem test_ports_and_beds :
    (Instr.qbind 26 6 7).wf = true ∧ Calm binding ∧ (after (.qbind 26 6 7) binding).tn.port 2 = { Port.reset with kind := 4, peer := 1, peerPort := 5 } ∧ (after (.qbind 27 8 7) binding).tn.port 3 = { Port.reset with kind := 3 }
      ∧ (after (.qbind 27 6 8) binding).tn.port 3 = .reset ∧ (after (.qfree 28) binding).tn.port 4 = .reset ∧ Ready binding [8, 9] ∧ Tbl.get .reset (after (.bedset 8 9) binding).beds (bedKey 0 0 0 3) = { scale := 0x40000000, fmt := 5 }
      ∧ (after (.bedset 8 9) { binding with xfers := [aXfer .copy 0 (some 0x1000) (some 0x2000) false] }).stalled = true
      ∧ (after (.bedset 8 10) binding).beds = [] ∧ trapsWith (.bedset 8 9) (withRc binding fun r => { r with spec := true }) 0x85 0 = true := by decide +kernel

/-! ## The matrix unit -/

/-- Records of INT8 of rank 1 at 0x900 and 0x9C0 (A and B, compressed), of INT32 of rank 2 at 0xA80 (D); their descriptors at 0x500, 0x520, 0x540; A has 5 and −2 in columns 3 and 7
of row 0, B has 10 and 4 in column 1 of rows 3 and 7. Block and image of a command at 0x5C0 and 0xC00. Two tiles. -/
def matrixMem : Tbl Byte :=
  [(0x900, [0, 1, 0, 0, 0, 1]), (0x909, [0x20]), (0x910, [2]), (0x940, [1]), (0x9C0, [0, 1, 0, 0, 0, 1]), (0x9C8, [0x10, 0x20]), (0x9D0, [2]), (0xA00, [1]),
    (0xA80, [2, 2, 0, 7, 0, 3]), (0xA89, [0x40]), (0xA90, [8, 0, 0, 0, 16]), (0xAC0, [64]), (0xAC8, [4]),
    (0x500, [0, 9]), (0x510, [1]), (0x514, [1]), (0x519, [0x30]), (0x520, [0xC0, 9]), (0x534, [1]), (0x538, [0, 0x31]), (0x540, [0x80, 0x0A]),
    (0x2000, [5, 0xFE]), (0x2010, [10, 4]), (0x3000, [1]), (0x3004, [2]), (0x300C, [2]), (0x3010, [3]), (0x3014, [7]),
    (0x3100, [8]), (0x3104, [2]), (0x3118, [1]), (0x311C, [1]), (0x3120, [1]), (0x3124, [1]), (0x3128, [2]), (0x312C, [1]), (0x3130, [1]),
    (0x5C0, [0x7B, 0x30]), (0x5F9, [0x0C])].foldl (fun m p => putBytes m p.1 p.2) []

def matrix : State :=
  withX (withTn { regs with eager := false, mem := matrixMem } fun t => { t with bandsz := 2, ctab := [0, 0], mx := { t.mx with cfg := 1 } }) [(6, 0x500), (7, 0x520), (8, 0x540), (9, 0x5C0), (10, 3), (11, 2)]

theorem test_tiles :
    MxCalm matrix ∧ Fresh matrix ∧ (after (.mcfg 11) matrix).tn.mx.cfg = 2 ∧ trapsWith (.mcfg 10) matrix 0x6D 3 = true ∧ trapsWith (.mzero 2) matrix 0x6D 2 = true
      ∧ (after (.mzero 1) (withTn matrix fun t => { t with mx := { t.mx with tiles := [(1, { Tile.reset with kind := 2 })] } })).tn.mx.tiles = [] ∧ (after .mwait matrix).rc.pc = matrix.rc.pc + 4 := by decide +kernel

/-- R288: a deferred fault is raised by the next MWAIT. -/
theorem test_deferred_fault :
    (let s := withTn matrix fun t => { t with mx := { t.mx with deferred := some { cause := 0x5A, addr := 0x340, tile := 1, k := 2 } } }
     (after .mwait s).tn.mx.deferred = none ∧ (after .mwait s).flights.map (fun f => f.msg.pay) = [[0x5A, s.rc.pc, 0x340, 0, 64, 0, 0x20001]]) := by decide +kernel

/-- The two operands that the checks of an MMUL give. -/
def operands (s : State) : Option (MOperand × MOperand) :=
  match s.pairChecks s.cur 1 8 16 (descOf s 0x500) (descOf s 0x520) with
  | .ok u p => if u.cur = s.cur ∧ u.tn.mx = s.tn.mx then some p else none
  | _ => none
theorem test_descriptors_fit : DescFits matrix 0x500 ∧ DescFits matrix 0x520 ∧ DescFits matrix 0x540 ∧ (operands matrix).isSome = true := by decide +kernel

/-- The operand of the descriptor of B, where it may be preloaded. -/
def toPreload (s : State) : Bool :=
  match s.operandOf s.cur (descOf s 0x520) with
  | .ok u b => (match u.operandChecks u.cur [(b, termsOf b.op.fmt, 16)] with | .ok v () => decide (v.cur = s.cur) && v.tn.mx.pre.isNone && b.op.fmt == 0 | _ => false)
  | _ => false
/-- The places of an MSTC of a tile of 8 × 16. -/
def toStore (s : State) (t : Tile) : Option (List MxStore) :=
  match s.operandOf s.cur (descOf s 0x540) with
  | .ok u d => (match u.grantOf s.cur d.op with
      | .ok v none => (match v.mstcPlaces s.cur (mstcWrites t 8 16 d).1 with | .ok w l => if w.cur = s.cur ∧ w.eager = false then some l else none | _ => none)
      | _ => none)
  | _ => none
/-- A tile of INT32 accumulators with 42 in slot 1. -/
def aTile : Tile := { shape := some (8, 16), kind := 0, sA := 0x3F800000, sB := 0x3F800000, slot := [(1, 42)], pres := [(1, true)] }
def filled : State := withTn matrix fun t => { t with mx := { t.mx with tiles := [(1, aTile)] } }

theorem test_matrix_commands :
    (Instr.mmul 7 6 1 0 0 0).wf = true ∧ (after (.mmul 7 6 1 0 0 0) matrix).tn.mx.queue.map (fun j => [j.tile, j.m, j.n, j.k]) = [[1, 8, 16, 0]]
      ∧ ((after (.mmul 7 6 1 0 0 0) matrix).tn.mx.tile 1).shape = some (8, 16) ∧ toPreload matrix = true ∧ (after (.mlds 7) matrix).tn.mx.pre.map (fun p => p.addr) = some 0x520 := by decide +kernel

/-- R248: layout 7 moves the element at 0x4004 to 0x4104. -/
theorem test_matrix_store_issues :
    (Instr.mstc 8 1).wf = true ∧ (toStore filled aTile).isSome = true ∧ filled.orderedTask filled.cur = none ∧ (after (.mstc 8 1) filled).tn.mx.stores.length = 128
      ∧ (after (.mstc 8 1) filled).tn.mx.stores[1]? = some { home := tcmHome 0 0 + 0x4104, gen := 0, tag := 7, bytes := [42, 0, 0, 0], va := 0x4104 } := by decide +kernel

theorem test_mcmd :
    Unmasked matrix [5, 9] ∧ (after (.mcmd 5 9 1) (withX matrix [(1, 2)])).x 5 = 2 ∧ trapsWith (.mcmd 5 7 10) matrix 0x20 0x520 = true ∧ (after (.mcmd 5 9 0) matrix).mcmds.map (fun c => (c.core, c.block.take 2)) = [(0, [0x7B, 0x30])] := by decide +kernel

/-- The operands' fetch of the oldest MMUL: whether it answers. -/
def fetches (s : State) (j : MJob) : Nat :=
  match s.mxFetch { core := 0, ctx := 0, rc := 0 } j with
  | .ok u (some _) => if u.tenant 0 0 = s.tenant 0 0 then 0 else 1
  | .ok _ none => 1
  | .stall => 2
  | .again _ => 2
  | .fault u c _ _ => if u.tenant 0 0 = s.tenant 0 0 ∧ u.held = s.held then c else 1

/-- An operand of INT8 compressed at an index block. -/
def packed (base spix : Nat) : MOperand :=
  { op := { tsr := { fmt := 0, rank := 1, wrap := 0, layout := 0, bed := none, rights := 3, rot := 0, base := base, ext := [2], origin := [0], rotbase := 0, stride := [1], grant := 0 }, fmt := 0, scale := 0x3F800000 },
    orgr := 0, orgc := 0, ksteps := 1, sparse := true, spix := spix, tsrAt := 0 }
def aJob (spix : Nat) : MJob := { tile := 1, mode := 0, m := 8, n := 16, a := packed 0x2000 0x3000, b := packed 0x2010 spix, k := 0, src := none, word0 := 0, pre := false, held := false, pc := 0 }
def multiplying (spix : Nat) : State := event (withTn filled fun t => { t with mx := { t.mx with queue := [aJob spix] } }) 0 0 0

/-- R277: 42 + 5 · 10 − 2 · 4 in slot 1 of the tile, nothing else; the only step is the last. -/
theorem test_matrix_step :
    fetches (multiplying 0x3100) (aJob 0x3100) = 0 ∧ (multiplying 0x3100).jobWaits { core := 0, ctx := 0, rc := 0 } (aJob 0x3100) = false ∧ (multiplying 0x3100).inp.b = 0 ∧ (multiplying 0x3100).live 0 = 0 ∧ ((after .mmulKstep (multiplying 0x3100)).tn.mx.tile 1).slot = [(1, 84)]
      ∧ (after .mmulKstep (multiplying 0x3100)).tn.mx.queue = [] := by decide +kernel

/-- B's index block lies nowhere in the first state, on a page that no table maps in the second. -/
theorem test_matrix_faults :
    fetches (multiplying 0x2000000) (aJob 0x2000000) = 0x5E ∧ (multiplying 0x2000000).jobWaits { core := 0, ctx := 0, rc := 0 } (aJob 0x2000000) = false ∧ (after .mmulKstep (multiplying 0x2000000)).tn.mx.deferred.map (fun d => [d.cause, d.tile, d.k]) = some [0x5E, 1, 0]
      ∧ suspends (fetches (multiplying 0x10000008000) (aJob 0x10000008000)) = true ∧ (after .operandFetchFault (multiplying 0x10000008000)).held.map (fun h => h.by_) = [.matrix 0 0]
      ∧ (after .operandFetchFault (multiplying 0x10000008000)).tn.mx.held = true := by decide +kernel

/-- A preload of B, and the same with its index block nowhere. -/
def preloading (spix : Nat) : State :=
  event (withTn matrix fun t => { t with mx := { t.mx with pre := some { addr := 0x520, ncode := 0, b := packed 0x2010 spix, cells := none, failed := false, claimed := false, pc := 0 } } }) 0 0 0
theorem test_preload :
    (preloading 0x3100).cmdWaits { core := 0, ctx := 0, rc := 0 } 0 0 = false ∧ (after .preloadRead (preloading 0x3100)).tn.mx.pre.map (fun p => (p.cells.map fun c => (c.length, c.getD 49 none, c.getD 50 none))) = some (some (512, some 10, none))
      ∧ (after .preloadRead (preloading 0x2000000)).tn.mx.pre.map (fun p => p.failed) = some true ∧ ((after .mxHung (multiplying 0x3100)).part 0).lost = true := by decide +kernel

/-- Commands that arrive: from the acting context to itself; the block's word, the full receive buffer, the queue. -/
def aCmd (w : List Byte) : MCmd := { core := 0, ctx := 0, src := { core := 0, ctx := 0, rc := 0 }, block := w ++ List.replicate (64 - w.length) 0, image := [] }
def commanded (w : List Byte) (recv : Nat) (q : Nat) : State :=
  event { withTn matrix (fun t => { t with partid := 1, n := { t.n with run := .idle }, mx := { t.mx with recv := List.replicate recv (aCmd [0x7B, 0x30]), queue := List.replicate q (aJob 0) } }) with mcmds := [aCmd w] } 0 0 0
theorem test_commands :
    wordOk 0x307B = true ∧ (commanded [] 0 0).mcmdWaits (aCmd []) = false ∧ (commanded [] 0 0).tn.mx.atCfg = false ∧ (commanded [] 0 0).peerReqs = [] ∧ (commanded [] 0 0).away 0 0 = false ∧ (after .mcmdReceive (commanded [1, 2] 0 0)).flights.map (fun f => f.msg.pay.take 1) = [[0x36B]]
      ∧ (after .mcmdReceive (commanded [0x7B, 0x30] 4 3)).flights.map (fun f => f.msg.pay.take 1) = [[0x36F]] ∧ (after .mcmdReceive (commanded [0x7B, 0x30] 0 0)).flights.map (fun f => f.msg.pay.take 1) = [[0x369]]
      ∧ (after .mcmdReceive (commanded [0x7B, 0x30] 0 3)).tn.mx.recv = [aCmd [0x7B, 0x30]] ∧ Tbl.get 0 (after .mcmdReceive (commanded [1, 2] 0 0)).tn.evc 14 = 1 := by decide +kernel

/-! ## The Rake -/

/-- A program of two rules at 0x600: NOTFOUND where dword 0 equals the key, else ADVANCE by 16 in a wrap of 2^6 to rule 1; rule 1 FOLLOWs dword 1; its limit is 9. -/
def program : List Word := [0x100009, 0x2000000000000000 + 0x00C4000000000000 + 63 * 2 ^ 33 + 6 * 2 ^ 19, 0x4200000000000000 + 0x0080000000000000 + 2 ^ 48 * 3]
def raking : State :=
  let mem := [(0x600, leBytes (program.getD 0 0).toNat 8), (0x608, leBytes (program.getD 1 0).toNat 8), (0x610, leBytes (program.getD 2 0).toNat 8)].foldl (fun m p => putBytes m p.1 p.2) []
  let s := withTn { (regs.modPart 0 fun p => { p with slice := [0, 5] }) with eager := false, mem := mem } fun t => { t with ports := [(2, { Port.reset with kind := 3 })] }
  withX s [(6, 0x600), (7, 4), (8, 0x10000004000), (9, 77), (10, 0x608), (11, 0x604), (12, 0x10000004008)]

theorem test_rkload :
    (Instr.rkload 5 6 7).wf = true ∧ Fresh raking ∧ raking.rkloads = [] ∧ Unmasked raking [6] ∧ raking.poisoned (tcmHome 0 0 + 0x600) 24 = false ∧ progOk (program.getD 0 0) (program.drop 1) = true
      ∧ (after (.rkload 5 6 7) raking).rkloads.map (fun k => (k.slot, k.prog, k.todo)) = [(4, program, [0, 5])] ∧ trapsWith (.rkload 5 11 7) raking 0x20 0x604 = true
      ∧ trapsWith (.rkload 5 10 7) raking 0x73 0x608 = true := by decide +kernel

/-- The load with its last station to come. -/
def lastStation : State := event (after .rakeSlotLoad (event (after (.rkload 5 6 7) raking) 0 0 0)) 0 5 0
theorem test_slot_load :
    lastStation.rkloads.map (fun k => k.todo) = [[5]] ∧ (after .rakeSlotLoad lastStation).x 5 = 2 ∧ (after .rakeSlotLoad lastStation).rc.ops = []
      ∧ (after .rakeSlotLoad lastStation).rkslots.map (fun x => [x.slot, x.station]) = [[4, 0], [4, 5]] := by decide +kernel

theorem test_rkwalk :
    Calm raking ∧ (after (.rkwalk 26 8 9 4) { lastStation with inp := raking.inp }).stalled = true ∧ (let s := { raking with rkslots := [{ part := 0, ctx := 0, slot := 4, station := 0, prog := program }] }
     (after (.rkwalk 26 8 9 4) s).walks.map (fun k => [k.ptr, k.key.toNat, k.port]) = [[0x10000004000, 77, 2]] ∧ trapsWith (.rkwalk 27 8 9 4) s 0x29 0 = true ∧ trapsWith (.rkwalk 26 8 9 3) s 0x74 3 = true
       ∧ trapsWith (.rkwalk 26 12 9 4) s 0x20 0x10000004008 = true ∧ trapsWith (.rkwalk 26 6 9 4) s 0x5E 0x600 = true
       ∧ trapsWith (.rkwalk 26 8 9 4) (withTn s fun t => { t with ports := [(2, { Port.reset with kind := 1 })] }) 0x2F 0 = true) := by decide +kernel

/-- A walk with its granules read: dword 0 is d0, dword 1 is d1. -/
def walking (prog : List Word) (d0 d1 steps : Nat) : State :=
  event { raking with walks := [{ id := 6, who := { core := 0, ctx := 0, rc := 0 }, part := 0, port := 2, ptr := 0x10000004070, key := 77, prog := prog, cur := 0, rule := 0, steps := steps, need := false,
                                  data := [BitVec.ofNat 128 (d0 + d1 * 2 ^ 64), 2, 3, 4], vers := [0x12, 0, 0, 0], station := 0, held := false, ready := none, task := none, pc := 0 }] } 6 0 0
/-- A program of one rule that always takes an action. -/
def always (act arg : Nat) : List Word := [9, BitVec.ofNat 64 (act * 2 ^ 61 + arg * 2 ^ 57 + 3 * 2 ^ 48 + 6 * 2 ^ 19)]
/-- What port 2 holds, and the walks, after one step. -/
def stepped (s : State) : List Nat × List (List Nat) :=
  (((after .rakeStep s).tn.port 2).buf.map (·.toNat), (after .rakeStep s).walks.map fun k => [k.ptr, k.cur, k.steps, if k.need then 1 else 0])

/-- R298, R301: the status granule is version, pointer, steps, code, rule, status. -/
theorem test_walk_steps :
    (walking program 77 5 0).walks.map (walking program 77 5 0).walkWaits = [false] ∧ stepped (walking program 77 5 0) = ([0x12 * 2 ^ 112 + 0x10000004070 * 2 ^ 64 + 2 ^ 48 + 1, 0, 0, 0, 0], []) ∧ stepped (walking program 78 5 0) = ([], [[0x10000004040, 1, 1, 1]])
      ∧ stepped (walking (always 0 0) 8 9 3) = ([0x12 * 2 ^ 112 + 0x10000004070 * 2 ^ 64 + 4 * 2 ^ 48, 8 + 9 * 2 ^ 64, 2, 3, 4], [])
      ∧ stepped (walking (always 5 0) 8 9 3) = ([0x12 * 2 ^ 112 + 0x10000004070 * 2 ^ 64 + 4 * 2 ^ 48 + 2, 8 + 9 * 2 ^ 64, 2, 3, 4], [])
      ∧ stepped (walking (always 2 1) 8 0x10000005007 3) = ([], [[0x10000005000, 0, 4, 1]]) ∧ stepped (walking (always 4 0) 8 9 3) = ([], [[0x10000004070, 0, 4, 0]]) := by decide +kernel

theorem test_walk_ends :
    stepped (walking (always 2 1) 8 0xF 3) = ([0x12 * 2 ^ 112 + 0x10000004070 * 2 ^ 64 + 4 * 2 ^ 48 + 1, 0, 0, 0, 0], [])
      ∧ stepped (walking (always 2 1) 8 0x5000 3) = ([0x12 * 2 ^ 112 + 0x10000004070 * 2 ^ 64 + 4 * 2 ^ 48 + 0x5E * 2 ^ 40 + 4, 0, 0, 0, 0], [])
      ∧ stepped (walking (always 0 0) 8 9 9) = ([0x12 * 2 ^ 112 + 0x10000004070 * 2 ^ 64 + 9 * 2 ^ 48 + 0x72 * 2 ^ 40 + 3, 0, 0, 0, 0], [])
      ∧ Tbl.get 0 (after .rakeStep (walking (always 0 0) 8 9 9)).tn.evc 9 = 1 ∧ progLimit 9 = 9 := by decide +kernel

/-- The walk's page lies at station 0; the walk is at station 5 and reads next. -/
def handing : State :=
  let s := walking program 77 5 0
  { s with tcache := page 5 0x10000004000 0 0 false, parts := (versioned.modPart 0 fun p => { p with slice := [0, 5] }).parts, walks := s.walks.map fun k => { k with station := 5, need := true } }
theorem test_handoff :
    handing.walks.map handing.walkWaits = [false] ∧ handing.walks.map (fun k => k.held) = [false] ∧ (handing.walks.map fun k => match (handing.walkAt k k.ptr).res with | .ok sp => decide (space sp.home = .hbm ∧ stationOf sp.home = 0) | _ => false) = [true]
      ∧ (after .rakeHandoff handing).walks.map (fun k => k.station) = [0] ∧ (after .rkHung (event handing 5 0 0)).walks.map (fun k => k.station) = [0]
      ∧ (after .rkHung { walking program 77 5 0 with inp := .zero }).walks.map (fun k => (k.station, k.remote)) = [(5, some 0)] := by decide +kernel

/-- A walk whose step reads one granule of a versioned page, at version 0x11; what it has seen of the read. -/
def reading (r : Word) (policy : Nat) (look : List (Gran × Nat)) (attempt : Nat) (cached : List TEntry) : State :=
  let s := walking [BitVec.ofNat 64 (9 + policy * 2 ^ 16), r] 77 5 1
  { s with tcache := cached, parts := (versioned.modPart 0 fun p => { p with slice := [0, 5] }).parts, vers := [(2 ^ 40 + 7, 0x11)], inp := { s.inp with flag := true },
           walks := s.walks.map fun k => { k with need := true, begun := true, look := look, attempt := attempt, vers := if look = [] then k.vers else look.map (·.2) } }
def gotoRule (vs : Nat) : Word := BitVec.ofNat 64 (4 * 2 ^ 61 + 4 * 2 ^ 54 + 3 * 2 ^ 48 + vs * 2 ^ 30)
/-- What a walk has after one act: granules seen, attempt, whether it reads next, whether it is held; and the status elements delivered. -/
def acted (s : State) : List (List Nat) × List Nat :=
  ((after .rakeStep s).walks.map (fun k => [k.look.length, k.attempt, if k.need then 1 else 0, if k.held then 1 else 0]), (((after .rakeStep s).tn.port 2).buf.take 1).map (fun g => g.toNat % 2 ^ 48))

/-- R303: with VS the version is read again; a change begins the next attempt, and the last ends UNSTABLE. -/
theorem test_walk_reads :
    acted (reading (gotoRule 0) 0 [] 0 (page 0 0x10000004000 0 0 true)) = ([[0, 0, 0, 0]], []) ∧ acted (reading (gotoRule 1) 0 [] 0 (page 0 0x10000004000 0 0 true)) = ([[1, 0, 1, 0]], [])
      ∧ acted (reading (gotoRule 1) 0 [(0, 0x11)] 0 (page 0 0x10000004000 0 0 true)) = ([[0, 0, 0, 0]], []) ∧ acted (reading (gotoRule 1) 0 [(0, 0x12)] 3 (page 0 0x10000004000 0 0 true)) = ([[0, 4, 1, 0]], [])
      ∧ acted (reading (gotoRule 1) 0 [(0, 0x12)] 4 (page 0 0x10000004000 0 0 true)) = ([], [5]) := by decide +kernel

/-- R304: a fault under the three policies. -/
theorem test_walk_faults :
    acted (reading (gotoRule 0) 0 [] 0 []) = ([], [0x580000000004]) ∧ acted (reading (gotoRule 0) 1 [] 0 []) = ([], [0x580000000001])
      ∧ acted (reading (gotoRule 0) 2 [] 0 []) = ([[0, 0, 1, 1]], []) ∧ (after .rakeStep (reading (gotoRule 0) 2 [] 0 [])).held.map (fun h => (h.by_, h.cause)) = [(.walk 6, 0x58)] := by decide +kernel

/-! ## Peers, the host, the physical function -/

/-- A load of 8 bytes at 0x100 that went to peer 3, sent at tick 100; with the events' operands. -/
def toPeer (b c : Nat) (flag : Bool) : State :=
  { loading with peerReqs := [{ port := 3, rpart := 0, ipa := 0x100, k := .load, data := 0, xfer := none, who := { core := 0, ctx := 0, rc := 0 }, seq := regs.rc.seq, va := 0x100, n := 8, issued := 100 }], inp := { EvArgs.zero with b := b, c := c, flag := flag } }

theorem test_peer_completion :
    (toPeer 0 0 false).peerReqs.map (fun r => r.by_) = [.other] ∧ (toPeer 0 0 false).rc.wait = none ∧ (toPeer 0 0 false).rc.ops.map (fun o => (o.seq, o.dest, o.parts)) = [(regs.rc.seq, .x 5 8 true, [(0x100, 8)])] ∧ NoGang (toPeer 0 0 false) regs.cur ∧ (after .peerCompletion (toPeer 0xF0 0 false)).x 5 = 0xF0
      ∧ (after .peerCompletion (toPeer 0xF0 0 false)).rc.ops = [] ∧ (after .peerCompletion (toPeer 0 4 true)).rc.run = .idle
      ∧ (after .peerCompletion (toPeer 0 4 true)).flights.map (fun f => f.msg.pay.take 3) = [[0x44, regs.rc.pc, 0x100]] := by decide +kernel

/-- The same load held for a fault of the peer. -/
def peerHolds : State :=
  event (withRc { loading with held := [{ fn := 0, fid := 8, cause := 0x40, va := 0x100, by_ := .op { core := 0, ctx := 0, rc := 0 } regs.rc.seq, peer := true }] } fun r =>
    { r with ops := r.ops.map fun o => { o with held := true } }) 8 0 0

theorem test_peer_failures :
    peerHolds.rc.ops.map (fun o => o.held) = [true] ∧ (after .peerServiceSignal peerHolds).rc.ops.map (fun o => o.held) = [false] ∧ (after .peerServiceSignal peerHolds).held = []
      ∧ (after .linkFatal (event (toPeer 0 0 false) 5 0 0)).failedLinks = [5] ∧ (after .linkFatal (event (toPeer 0 0 false) 5 0 0)).peerReqs = [] ∧ (after .linkFatal (event regs 22 0 0)).failedLinks = [] ∧ (after .linkFatal (event regs 18 0 0)).failedLinks = [18]
      ∧ (after .peerTimeout { toPeer 0 0 false with time := 5099 }).peerReqs.length = 1 ∧ (after .peerTimeout { toPeer 0 0 false with time := 5100 }).failedLinks = [5] := by decide +kernel

/-- Stage 2 of partition 0 takes intermediate addresses to the host's memory (leaf [15, …, 128]) or to HBM of station 0, from a root at 0x1000. -/
def staged (leaf : List Byte) : State :=
  { regs with parts := [(0, { Part.reset with s2root := 0x1000, slice := [0], keys := [(0, 1)] })],
              mem := [(hbmHome 0x1000, [0x01, 0x20]), (hbmHome 0x2000, leaf), (hbmHome 0x8000, [1, 2, 3, 4]), (hostHome + 0x8000, [5, 6, 7, 8])].foldl (fun m p => putBytes m p.1 p.2) [] }
def toHbm : State := staged [0x0F]
def toHost : State := staged [0x0F, 0, 0, 0, 0, 0, 0x80]

/-- The home to which stage 2 takes an intermediate address, where no line is held and the key is the same. -/
def home2 (s : State) (ipa need : Nat) (write : Bool) : Option Nat :=
  let l := s.locate2 0 ipa need write
  match l.res with
  | .ok sp => if !s.heldLine sp.home && !l.s.heldLine sp.home && !l.s.garbled sp && l.s.poison.isEmpty then some sp.home else none
  | .error k => some k
  | .wait => none
  | .asked => none

/-- A request of peer 3 for 4 bytes at 0x8000. -/
def asked (s : State) (acc : PAcc) (e : Nat) : State := { s with inp := { EvArgs.zero with a := 3, b := 0, c := 0x8000, d := 4, e := e, pacc := acc } }

theorem test_peer_requests :
    home2 toHbm 0x8000 1 false = some (hbmHome 0x8000) ∧ home2 toHost 0x8000 2 true = some (hostHome + 0x8000) ∧ (after .peerRequest (asked toHbm .load 0)).peerOut = [(3, 0, 0x04030201)]
      ∧ (after .peerRequest (asked toHbm .store 0x0D0C0B0A)).bytes (hbmHome 0x8000) 4 = [10, 11, 12, 13] ∧ (after .peerRequest (asked toHbm .store 0)).peerOut = [(3, 0, 0)]
      ∧ home2 (staged []) 0x8000 1 false = some 2 ∧ (after .peerRequest (asked (staged []) .load 0)).peerOut = [(3, 3, 0)] ∧ (after .peerRequest (asked (staged []) .load 0)).held.map (fun h => (h.by_, h.cause)) = [(.remote 3, 0x42)]
      ∧ home2 (toHost.modPart 0 fun p => p) 0x8000 1 false = some (hostHome + 0x8000) ∧ home2 { toHost with failedLinks := [0] } 0x8000 1 false = some 7
      ∧ (after .peerRequest (asked { toHost with failedLinks := [0] } .load 0)).peerOut = [(3, 8, 0)] ∧ (after .peerRequest (asked { toHost with failedLinks := [0] } .load 0)).held = [] := by decide +kernel

/-- A completion object of three arrivals pending at 0x8000: an arrival of the peer. -/
def peerArrives : State :=
  { toHbm with mem := putBytes toHbm.mem (hbmHome 0x8000) [0, 0, 3, 0], inp := { EvArgs.zero with a := 3, b := 0, c := 0x8000, d := 16, pacc := .arrive } }
theorem test_peer_arrival :
    home2 peerArrives 0x8000 3 true = some (hbmHome 0x8000) ∧ (after .peerRequest peerArrives).bytes (hbmHome 0x8000) 4 = [0, 0, 2, 0] ∧ (after .peerRequest peerArrives).peerOut = [(3, 0, 0)] := by decide +kernel

/-- BAR2 accesses of function 0 to 4 bytes at 0x8000. -/
def bar2 (s : State) (v : Nat) : State := { s with inp := { EvArgs.zero with a := 0, b := 0x8000, c := 4, d := v } }
theorem test_bar2 :
    toHbm.bar2Busy 0 = false ∧ (after .bar2Read (bar2 toHbm 0)).hostOut = [(0, 0x04030201, false)] ∧ (after .bar2Write (bar2 toHbm 0x0D0C0B0A)).bytes (hbmHome 0x8000) 4 = [10, 11, 12, 13]
      ∧ (after .bar2Read (bar2 (staged []) 0)).hostOut = [(0, 0, true)] := by decide +kernel

/-- The host's addresses from 16 GiB on are intermediate addresses from 0 on. -/
def decoded : State := { toHbm with hdec := [(2, { ipaBase := 0, hpaBase := 16, count := 4, en := true, part := 0 })], inp := { EvArgs.zero with a := 16 * 2 ^ 30 + 0x8000, b := 4, c := 0x0D0C0B0A, flag := true } }
/-- The host has that line, and gives it up. -/
def kept : State := { toHbm with hostHeld := [{ line := hbmHome 0x8000 / 64, entry := 2, part := 0, ipa := 0x8000 }], inp := { EvArgs.zero with a := hbmHome 0x8000 / 64, b := 9, flag := true } }
theorem test_cxl :
    (after .cxlMemRead decoded).hostOut = [(64, 0x04030201, false)] ∧ (after .cxlMemRead decoded).hostHeld = [{ line := hbmHome 0x8000 / 64, entry := 2, part := 0, ipa := 0x8000 }]
      ∧ (after .cxlMemWrite decoded).bytes (hbmHome 0x8000) 5 = [10, 11, 12, 13, 0] ∧ (after .cxlMemRead toHbm).hostOut = [(64, 0, true)] ∧ kept.keyOf 0 0 = 1
      ∧ kept.garbled { home := 64 * (hbmHome 0x8000 / 64), gen := 1, v := false } = false ∧ (after .backInvalidationResponse kept).hostHeld = [] ∧ (after .backInvalidationResponse kept).bytes (hbmHome 0x8000) 2 = [9, 0]
      ∧ (after .backInvalidationResponse { kept with inp := { kept.inp with flag := false } }).bytes (hbmHome 0x8000) 2 = [1, 2] := by decide +kernel

/-- A write of a register of function 5. -/
def writing (r : BReg) (v : Nat) : State := { regs.modPart 5 (fun p => { p with ctxmax := 3 }) with inp := { EvArgs.zero with a := 5, b := v, br := r } }
def written (r : BReg) (v : Nat) : Part := (after .registerWrite (writing r v)).part 5

/-- R330, R331: the bits that each register keeps. -/
theorem test_function_registers :
    Tbl.get 0 (written (.s1root 2) 0xFFFFFFFFFFFFFFFF).s1root 2 = 0xFFFFFFFFFF000 ∧ Tbl.get 0 (written (.trapcfg 1) 0xFFFFFF).trapcfg 1 = 0x1FFFFF ∧ Tbl.get 100000 (written (.slice 1) 7).slices 1 = 1000
      ∧ (written .lstatbase 0xFFFFFFFFFFFFFFFF).lstatbase = 0xFFFFFFFFF000 ∧ (written .fqbase 0x1FFF).fqbase = 0x1000 ∧ (written .apbase 0x7FFFFFFF).apbase = 0x40000000 ∧ (written .ctxen 0xFF).ctxen = 7
      ∧ (written .fqlen 256).fqlen = 256 ∧ (written .fqlen 300).fqlen = 128 ∧ (written .fqlen 131072).fqlen = 128 := by decide +kernel

/-- A write of an entry of the partition table: partition 5, with a context resident or not. -/
def tabling (f : PField) (v : Nat) (res : Option Nat) : State := { regs.modPart 5 (fun p => { p with clen := 16, resident := res }) with inp := { EvArgs.zero with a := 5, b := v, pf := f } }
def tabled (f : PField) (v : Nat) (res : Option Nat) : Part := (after .ptabWrite (tabling f v res)).part 5

theorem test_partition_table :
    (tabled .feat 3 (some 0)).pterr = true ∧ (tabled .feat 3 (some 0)).feat = 0 ∧ (tabled .feat 3 none).feat = 3 ∧ (tabled .cbase 4081 none).pterr = true ∧ (tabled .cbase 4080 none).cbase = 4080 ∧ ((after .ptabWrite ((tabling .cbase 32 none).modTenant 3 1 fun t => { t with fntab := 7 })).tenant 35 1).fntab = 7
      ∧ regs.bar0 5 0x1000 = some 0 ∧ regs.bar0 5 0x10000 = none ∧ regs.bar0 5 0x2008 = some 128 ∧ (tabling .qact 0 none).bar0 0 (0x10000 + 512 * 5) = some (16 * 2 ^ 16)
      ∧ (tabled .ctxmax 9 none).pterr = true ∧ (tabled .period 99999 none).pterr = true ∧ Tbl.get 0 (tabled (.qlim 3) 77 (some 0)).qlim 3 = 77 := by decide +kernel

/-- A write of entry 2 of the host decoder: enabled, 4 GiB from 16 GiB on, for partition 1. -/
def decoding (d : Tbl HDec) (v : Nat) : State := event { regs with hdec := d } 2 v 0
theorem test_host_decoder :
    Tbl.get .reset (after .hdecWrite (decoding [] (16 * 2 ^ 30 + 4 * 2 ^ 8 + 2 ^ 7 + 1))).hdec 2 = { ipaBase := 0, hpaBase := 16, count := 4, en := true, part := 1 }
      ∧ (after .hdecWrite (decoding decoded.hdec (2 ^ 7))).hdec = decoded.hdec ∧ (after .hdecWrite { decoding decoded.hdec 0 with hostHeld := kept.hostHeld }).hdec = decoded.hdec
      ∧ (after .hdecWrite (decoding decoded.hdec 0)).hdec = [] := by decide +kernel

/-- R334, R344: a key that was never used; the page 0x10000004 is dropped from the translation cache. -/
theorem test_keys_and_caches :
    (after .keyLoad (event regs 3 4 0)).keyOf 3 4 = regs.keyGen ∧ (after .keyLoad (event regs 3 4 0)).keyGen = regs.keyGen + 1 ∧ (after .keyDestroy (event (regs.modPart 3 fun p => { p with keys := [(4, 9)] }) 3 4 0)).keyOf 3 4 = 0
      ∧ (after .inval (event versioned 0 0x10000004000 0)).tcache.map (fun e => e.stage) = [2] ∧ (after .inval (event versioned 0 0x10000003000 0)).tcache.length = 2
      ∧ (after .inval (event versioned 0 (2 ^ 63 + 2 ^ 60) 0)).tcache.length = 2 ∧ (after .s2invctl (event { versioned with s2invaddr := 0x8000 } 0 0 0)).tcache.map (fun e => e.stage) = [1]
      ∧ (after .s2invctl (event { versioned with s2invaddr := 0x9000 } 0 0 0)).tcache.length = 2
      ∧ ((after .invalComplete (after .inval (event versioned 0 0x10000004000 0))).part 0).invalstat = none ∧ (after .s2invctl (event versioned (2 ^ 31) 0 0)).tcache = []
      ∧ (after .s2invctl (event versioned (2 ^ 31) 0 0)).s2invstat = some (0, 2 ^ 31) ∧ (after .s2invComplete (after .s2invctl (event versioned (2 ^ 31) 0 0))).s2invstat = none := by decide +kernel

/-- R335: a mailbox message of 7 and its reply of 5; a management message to member 0. -/
def mailing : State := { regs.modPart 5 (fun p => { p with mbout := [(0, 7)], mbdest := 9 }) with inp := { EvArgs.zero with a := 5, b := 5 }, bands := [{ aBand false with part := 5 }] }
theorem test_mailboxes :
    ((after .mbdoor mailing).part 5).mbreq = true ∧ (after .mbdoor mailing).mbq.map (fun m => (m.1, m.2.take 2)) = [(5, [7, 0])] ∧ (Tbl.get 0 ((after .mbinReply mailing).part 5).mbin 0).toNat = 5
      ∧ ((after .mbinReply mailing).part 5).mbrep = true ∧ (after .managementMessage mailing).flights.map (fun f => (f.core, f.ctx, f.msg.chan)) = [(0, 0, 9)]
      ∧ (after .managementMessage mailing).flights.map (fun f => f.msg.pay.take 2) = [[5, 0]] := by decide +kernel

/-- Partition 5 with one core, context 0 resident since tick 100 and context 1 enabled. -/
def sliced (time : Nat) (stop : Option Nat) : State :=
  { regs.modPart 5 (fun p => { p with cbase := 64, clen := 1, ctxmax := 2, ctxen := 3, resident := some 0, sliceStart := some 100, stopping := stop, period := 100000, qstart := 50, quse := [(0, 70)],
                                      qlim := [(0, 60), (1, 60)], qact := 1 }) with time := time, inp := { EvArgs.zero with a := 5 } }

/-- Both contexts' bands have not run yet: what the switch does not save is not lost. -/
def switching : State := [0, 1].foldl (fun s c => s.modTenant 64 c fun t => { t with fresh := true }) (sliced 9 (some 8))

theorem test_context_switch :
    ((after .contextSwitch switching).part 5).resident = some 1 ∧ ((after .contextSwitch switching).part 5).lastCtx = 0 ∧ (switching.tenant 64 0).liveimg = 0 ∧ (switching.tenant 64 0).mx.stores = []
      ∧ (switching.part 5).ctxen = 3 ∧ (switching.part 5).log.recs = [] := by decide +kernel

theorem test_slices :
    ((after .sliceEnd (sliced 100099 none)).part 5).stopping = none ∧ ((after .sliceEnd (sliced 100100 none)).part 5).stopping = some 100100
      ∧ ((after .periodEnd (sliced 100049 none)).part 5).qperiod = 0 ∧ ((after .periodEnd (sliced 100050 none)).part 5).qperiod = 1 ∧ ((after .periodEnd (sliced 100050 none)).part 5).quse = []
      ∧ ((after .quotaLimitReached (sliced 9 none)).part 5).qhit = [0] ∧ ((after .quotaLimitReached (sliced 9 none)).part 5).stopping = some 9
      ∧ ((after .quotaLimitReached { sliced 9 none with inp := { EvArgs.zero with a := 5, b := 1 } }).part 5).qhit = [] := by decide +kernel

/-- A category whose action is to end handlers. -/
def ending : State :=
  let s := (sliced 9 none).modPart 5 fun p => { p with quse := [(1, 60)] }
  { s.modRcx { core := 64, ctx := 0, rc := 1 } (fun r => { r with run := .running }) with inp := { EvArgs.zero with a := 5, b := 1 } }
/-- A log with one open record, 100,000,000 ticks old or younger. -/
def logging (time : Nat) : State := { regs.modPart 5 (fun p => { p with log := { LogBuf.reset with seq := 4, batchCount := 1, batchTime := 7 } }) with time := time, inp := { EvArgs.zero with a := 5 } }
theorem test_quota_and_log :
    ((after .quotaLimitReached ending).part 5).qhit = [1] ∧ ((after .quotaLimitReached ending).rcx { core := 64, ctx := 0, rc := 1 }).run = .idle
      ∧ ((after .logBatchClose (logging 100000006)).part 5).log.batchCount = 1 ∧ ((after .logBatchClose (logging 100000007)).part 5).log.batchCount = 0 := by decide +kernel

/-- A byte in own TCM and one in HBM. -/
def used : State := { regs with mem := [(0x40, 1), (hbmHome 0, 2)], time := 77, inp := { EvArgs.zero with a := 4 } }
/-- Partition 5 with a core and a handler on it. -/
def resetting (b : List Band) : State :=
  { regs.modPart 5 (fun p => { p with cbase := 64, clen := 1, lticket := 4 }) with bands := b, inp := { EvArgs.zero with a := 5 } }

theorem test_resets :
    (after .moduleReset used).byte 0x40 = 0 ∧ (after .moduleReset used).byte (hbmHome 0) = 2 ∧ (after .moduleReset used).time = 0 ∧ (after .moduleReset used).cfail = [2] ∧ (after .moduleReset used).tenants = []
      ∧ ((after .functionLevelReset (resetting [{ aBand false with part := 5, members := [64] }])).part 5).flr = true
      ∧ (after .functionLevelReset (resetting [{ aBand false with part := 5, members := [64] }])).bands.map (fun b => b.killed) = [true]
      ∧ ((after .functionLevelReset ((resetting []).modRcx { core := 64, ctx := 2, rc := 0 } fun r => { r with pc := 8 })).tenant 64 2).n.pc = 0 ∧ ((after .functionLevelReset (resetting [])).part 5).lticket = 0
      ∧ ((after .functionLevelReset (resetting [])).part 5).cbase = 64 := by decide +kernel

theorem test_power_and_errors :
    (after .aclkChange (event regs 4 0 0)).aclkStep = 4 ∧ (after .aclkChange (event { regs with aclkMax := 3 } 4 0 0)).aclkStep = 0 ∧ (after .powercapWrite (event { regs with aclkStep := 7 } 5 0 0)).aclkStep = 5
      ∧ regs.aclkStep = 0 ∧ (after .thermalEmergency regs).thermal = true ∧ (after .thermalEmergency { regs with aclkStep := 1 }).thermal = false ∧ (after .getMeasurements regs).attests.map (fun m => m.length) = [2956]
      ∧ (after .softError { regs with inp := { EvArgs.zero with loc := .gran 0x47 } }).poison = [(4, true)] ∧ (after .softError { regs with inp := { EvArgs.zero with loc := .xreg 0 0 1 } }).x 1 = 0
      ∧ (after .softError { regs with inp := { EvArgs.zero with loc := .xreg 0 0 1 } }).rc.run = .idle ∧ (after .softError { regs with inp := { EvArgs.zero with loc := .xreg 0 0 1 } }).x 2 = 7
      ∧ (after .softError regs).corrected = 1
      ∧ (let t := after .softError { withTn regs fun t => { t with mx := { t.mx with queue := [aHeldJob], tiles := [(0, { Tile.reset with slot := [(1, 42)] })] } } with inp := { EvArgs.zero with loc := .plane 0 0 } }
         t.tn.mx.queue = [] ∧ (t.tn.mx.tile 0).slot = [] ∧ t.tn.mx.deferred.map (fun d => d.cause) = some 0xAD) := by decide +kernel

/-- R56: the word 0 is no instruction; ADD with a reserved field. -/
theorem test_words_that_are_none :
    decode 0 = .illegal ∧ trapsWith .notAnInstruction (event regs 0 0 0) 0x00 0 = true ∧ isReserved (decode 0x0515228B) = true ∧ (regs.part regs.tn.partid).feat = 0 := by decide +kernel

/-- A partition with the matrix unit masked (R350). -/
def masked : State := regs.modPart 0 fun p => { p with feat := 2 ^ 5 }
theorem test_masked_feature :
    (Instr.mwait).wf = true ∧ (match encode .mwait with
      | some w => ((wordFeatures w .mwait).any fun f => (masked.part masked.tn.partid).feat / 2 ^ f % 2 == 1) && trapsWith .mwait masked 0x02 w
      | none => false) = true := by decide +kernel

/-! ## Witnesses of failures, of acts of their own, and of waits -/

/-- R323, R359: a load whose link fails, or that is too old, ends its handler with 0x47. -/
theorem test_peer_load_fails :
    (toPeer 0 0 false).held = [] ∧ (toPeer 0 0 false).tasks = [] ∧ (toPeer 0 0 false).rc.run = .running ∧ (toPeer 0 0 false).rc.task = none ∧ (toPeer 0 0 false).rc.ops.map (fun o => o.inv) = [(toPeer 0 0 false).rc.inv]
      ∧ (after .linkFatal (event (toPeer 0 0 false) 5 0 0)).rc.run = .idle ∧ ((after .linkFatal (event (toPeer 0 0 false) 5 0 0)).flights.map fun f => f.msg.pay.take 3) = [[0x47, regs.rc.pc, 0x100]]
      ∧ (after .peerTimeout { toPeer 0 0 false with time := 5100 }).rc.run = .idle ∧ ((after .peerTimeout { toPeer 0 0 false with time := 5100 }).flights.map fun f => f.msg.pay.take 3) = [[0x47, regs.rc.pc, 0x100]] := by decide +kernel

/-- A store that went to peer 3, and a transfer whose cell 0 is read there. -/
def storeToPeer3 (time : Nat) : State :=
  { storing with time := time, peerReqs := [{ port := 3, rpart := 0, ipa := 0x100, k := .store, data := 7, xfer := none, who := { core := 0, ctx := 0, rc := 0 }, seq := regs.rc.seq, va := 0x100, n := 8, issued := 100 }] }
def copyFromPeer (time : Nat) : State :=
  { moving .copy 0 (some 0x10000008000) (some 0x2000) with
    time := time, peerReqs := [{ port := 3, rpart := 0, ipa := 0x100, k := .load, data := 0, xfer := some (4, 1), who := { core := 0, ctx := 0, rc := 0 }, seq := 0, va := 0x10000008000, n := 1, issued := 100 }] }

/-- R359: the store is given up and its handler goes on; the transfer records 0x5F and does not move the cell. -/
theorem test_peer_store_and_transfer_fail :
    (storeToPeer3 0).rc.ops.map (fun o => (o.k, o.parts, o.inv)) = [(.store, [(0x100, 8)], (storeToPeer3 0).rc.inv)] ∧ (after .linkFatal (event (storeToPeer3 0) 5 0 0)).rc.ops = [] ∧ (after .linkFatal (event (storeToPeer3 0) 5 0 0)).rc.run = .running
      ∧ (after .peerTimeout (event (storeToPeer3 5100) 0 0 0)).rc.ops = [] ∧ (after .peerTimeout (event (storeToPeer3 5100) 0 0 0)).rc.run = .running
      ∧ (after .linkFatal (event (copyFromPeer 0) 5 0 0)).xfers.map (fun x => (x.fault, (x.moves.take 2).map fun m => m.bad)) = [(some 0x5F, [true, false])]
      ∧ (after .peerTimeout (event (copyFromPeer 5100) 0 0 0)).xfers.map (fun x => (x.fault, (x.moves.take 2).map fun m => m.bad)) = [(some 0x5F, [true, false])]
      ∧ (after .peerTimeout (event (copyFromPeer 5099) 0 0 0)).xfers.map (fun x => x.fault) = [none] := by decide +kernel

/-- R319, R358: the peer's function fails the fault that it holds. -/
def peerGivesUp : State := { peerHolds with inp := { peerHolds.inp with flag := true } }
theorem test_peer_service_fails :
    peerGivesUp.rc.run = .running ∧ peerGivesUp.rc.wait = none ∧ peerGivesUp.tn.slots = [] ∧ NoGang peerGivesUp regs.cur ∧ (after .peerServiceSignal peerGivesUp).rc.run = .idle ∧ (after .peerServiceSignal peerGivesUp).held = []
      ∧ (after .peerServiceSignal peerGivesUp).flights.map (fun f => f.msg.pay.take 3) = [[0x40, regs.rc.pc, 0x100]] := by decide +kernel

/-- R358: an AMOADD of 1 on four bytes, and an AMOCAS whose comparand differs. -/
theorem test_peer_atomics :
    home2 (asked toHbm (.amo 0) 1) 0x8000 3 true = some (hbmHome 0x8000) ∧ (after .peerRequest (asked toHbm (.amo 0) 1)).bytes (hbmHome 0x8000) 4 = [2, 2, 3, 4] ∧ (after .peerRequest (asked toHbm (.amo 0) 1)).peerOut = [(3, 0, 0x04030201)]
      ∧ (after .peerRequest (asked toHbm (.amo 9) 1)).bytes (hbmHome 0x8000) 4 = [1, 2, 3, 4] ∧ amoRule 9 4 0x04030201 1 0 = 0x04030201 ∧ amoRule 9 4 0x04030201 1 0x04030201 = 1 := by decide +kernel

/-- R356: what the write of a line that the host gives up is stated on. -/
theorem test_line_given_up :
    (let q := State.locate2 { kept with hostHeld := [] } 0 0x8000 2 true
     (match q.res with | .wait => false | .asked => false | _ => true) && !q.s.garbled { home := 64 * (hbmHome 0x8000 / 64), gen := 1, v := false }) = true := by decide +kernel

/-- R300: the program is admitted; one whose rule 1 names a rule that there is not, and one of limit 0, are not. -/
theorem test_admitted :
    admitted 0x100009 ((program.drop 1).map (·.toNat)) ∧ ¬ admitted 0x9 ((program.drop 1).map (·.toNat)) ∧ ¬ admitted 0x100000 ((program.drop 1).map (·.toNat))
      ∧ progOk 0x9 (program.drop 1) = false ∧ progOk 0x100000 (program.drop 1) = false := by
  refine ⟨?_, ?_, ?_, by decide, by decide⟩ <;> simp [admitted, actionFits, program]

/-- R307: a station takes its program while others are still to. -/
theorem test_slot_load_of_many :
    (let s := event (after (.rkload 5 6 7) raking) 0 0 0
     s.rkloads.map (fun k => (k.id, k.todo)) = [(0, [0, 5])] ∧ (after .rakeSlotLoad s).rkloads.map (fun k => k.todo) = [[5]] ∧ (after .rakeSlotLoad s).rc.ops.length = 1) := by decide +kernel

/-- R294: a walk at station 0 that is to be accepted, where slot 4 holds programs at stations 0 and 5, or at station 5 alone. -/
def accepting (all : Bool) : State :=
  let s := walking [9, 0] 77 5 0
  let at5 : RkSlot := { part := 0, ctx := 0, slot := 4, station := 5, prog := [9, 1] }
  { s with walks := s.walks.map (fun k => { k with slot := some 4 }), inp := { s.inp with flag := true },
           rkslots := if all then [at5, { part := 0, ctx := 0, slot := 4, station := 0, prog := program }] else [at5] }
theorem test_walk_accepted :
    (accepting true).walks.map (accepting true).walkWaits = [false] ∧ (accepting true).walks.map (accepting true).mustGo = [false] ∧ (after .rakeStep (accepting true)).walks.map (fun k => (k.slot, k.prog)) = [(none, program)]
      ∧ (after .rakeStep (accepting false)).walks.map (fun k => (k.slot, k.prog)) = [(none, [9, 1])] := by decide +kernel

/-- R303: two granules, the version of the first has changed and that of the second is still to be read; then the second. -/
def rereading (seen : Nat) : State :=
  let s := reading (gotoRule 1 + 2 ^ 31) 0 [(0, 0x12), (1, 0)] 0 (page 0 0x10000004000 0 0 true)
  { s with walks := s.walks.map fun k => { k with seen := seen, vers := if seen = 0 then [0x12, 0] else [0x11, 0] } }
theorem test_walk_rereads :
    acted (rereading 0) = ([[2, 0, 1, 0]], []) ∧ (after .rakeStep (rereading 0)).walks.map (fun k => (k.seen, k.vers)) = [(1, [0x11, 0])]
      ∧ acted (rereading 1) = ([[0, 1, 1, 0]], []) ∧ (after .rakeStep (rereading 1)).walks.map (fun k => k.vers) = [[0x11, 0]] := by decide +kernel

/-- The formats and the kind of a job changed. -/
def multiplyingAs (kind fa fb : Nat) (mem : List (Nat × List Byte)) : State :=
  let op := fun (b f : Nat) => { packed b 0x3000 with op := { (packed b 0x3000).op with fmt := f, tsr := { (packed b 0x3000).op.tsr with fmt := f, stride := [elemBytes f] } } }
  let j := { aJob 0x3100 with a := op 0x2000 fa, b := { op 0x2010 fb with spix := 0x3100 } }
  let s := withTn filled fun t => { t with mx := { t.mx with queue := [j], tiles := [(1, { aTile with kind := kind, slot := [] })] } }
  event { s with mem := mem.foldl (fun m p => putBytes m p.1 p.2) s.mem } 0 0 0

/-- R187: the two products of the manual's example; R186: 1.0 × 2.0 + 0.5 × 0.5 in BF16 is 2.25. -/
theorem test_matrix_kinds :
    ((after .mmulKstep (multiplyingAs 2 8 8 [(0x2000, [4, 0x31]), (0x2010, [2, 0x11])])).tn.mx.tile 1).slot = [(1, 2960223)] ∧ lnsTerm 4 2 = 2966016 ∧ lnsTerm 0x31 0x11 = -5793 ∧ lnsTerm 16 4 = 0
      ∧ ((after .mmulKstep (multiplyingAs 1 4 4 [(0x2000, [0x80, 0x3F, 0, 0x3F]), (0x2010, [0, 0x40, 0, 0x3F])])).tn.mx.tile 1).slot = [(1, 0x40100000)]
      ∧ valueOf (formOf 4) 0x3F80 * valueOf (formOf 4) 0x4000 + valueOf (formOf 4) 0x3F00 * valueOf (formOf 4) 0x3F00 = valueOf (formOf 6) 0x40100000
      ∧ ((after .mmulKstep (multiplyingAs 1 4 4 [(0x2000, [0xC0, 0x7F, 0, 0x3F]), (0x2010, [0, 0x40, 0, 0x3F])])).tn.mx.tile 1).slot = [(1, 0x7FC00000)] := by decide +kernel

/-- R289: the record of a hung array, in a queue with room. -/
def hungArray : State :=
  event { withTn mapped fun t => { t with mx := { t.mx with queue := [{ aJob 0x3100 with k := 2 }] } } with held := [], frecs := [] } 0 0 0
theorem test_hung_array :
    (hungArray.part 0).fqRoom = true ∧ hungArray.held2 0 0x4000 32 = false ∧ (after .mxHung hungArray).tenants = hungArray.tenants ∧ ((after .mxHung hungArray).part 0).fqhead = 1
      ∧ leNat ((after .mxHung hungArray).bytes (hostHome + 0x4000) 32) % 2 ^ 48 = 2 * 2 ^ 40 + 0x68 * 2 ^ 32 + 1 ∧ leNat ((after .mxHung hungArray).bytes (hostHome + 0x4000 + 28) 4) = 1 + 2 * 65536 := by decide +kernel

/-- R120: a task behind one of its domain that has not committed; the host holds the line of a record's place; a full queue of launches. -/
theorem test_waits_and_refusals :
    (let s : State := { queued with tasks := [aTask 19 4 .oldest, aTask 20 5 .ended], inp := { EvArgs.zero with b := 20 } }
     s.findTask 0 20 = some (aTask 20 5 .ended) ∧ after .taskCommit s = s)
      ∧ (let s : State := { mapped with hostHeld := [{ line := (hostHome + 0x4000) / 64, entry := 0, part := 0 }] }
         (s.part 0).fqRoom = true ∧ s.held2 0 0x4000 32 = true ∧ (after .faultRecordPost s).frecs = s.frecs ∧ (after .faultRecordPost s).mem = s.mem)
      ∧ submitting.held2 0 0x4000 64 = false := by decide +kernel

theorem test_behind_a_task : Behind { queued with tasks := [aTask 19 4 .oldest, aTask 20 5 .ended] } (aTask 20 5 .ended) :=
  ⟨by decide, aTask 19 4 .oldest, by decide, rfl, rfl, by decide⟩

/-- A launch record at a peer module, over port 3 to its partition 2. -/
def submittingAway : State :=
  let s := mapped
  { s with twpair := [(192, 0x82)], mem := putBytes s.mem (hbmHome 0x2000) [0x0F, 0, 0, 0, 0, 0, 0xC0, 4], inp := { EvArgs.zero with b := 0x4000 } }
theorem test_launch_record_at_a_peer :
    submittingAway.held2 0 0x4000 64 = false ∧ (match (submittingAway.locate2 0 0x4000 1 false).res with | .ok sp => decide (space sp.home = .peer) | _ => false) = true
      ∧ (after .lsubmit submittingAway).launches.map (fun l => (l.at_, l.ticket)) = [(some 0x4000, 0)] ∧ (after .lsubmit submittingAway).peerReqs.map (fun r => (r.va, r.n, r.port)) = [(0x4000, 16, 3), (0x4010, 16, 3), (0x4020, 16, 3), (0x4030, 16, 3)] := by decide +kernel

/-- A store of a speculative task to a versioned page, whose page has been serviced. -/
def speculating : State :=
  event (withRc { versioned with tasks := [aTask 20 4 .spec, aTask 19 3 .oldest] } fun r =>
    { r with task := some 20, spec := true, tdomain := 3, ops := [{ mkOp .store 0x10000004000 8 3 0 .none false false with seq := r.seq, inv := r.inv, task := some 20, spec := true }] }) 0 0 versioned.rc.seq
theorem test_speculative_store :
    speculating.rc.ops.map (fun o => (o.k, o.spec, o.rl)) = [(.store, true, false)] ∧ speculating.rc.ops.map (fun o => (o.parts, o.task)) = [([(0x10000004000, 8)], some 20)] ∧ (speculating.rc.ops.map fun o => speculating.mayPerform speculating.cur o) = [true]
      ∧ (match (speculating.locate speculating.cur 0x10000004000 (needOf 1) false).res with | .ok sp => decide (sp.home = 2 ^ 44) | _ => false) = true
      ∧ (after .storePerformed speculating).rc.ops = [] ∧ (after .storePerformed speculating).mem = (speculating.locate speculating.cur 0x10000004000 (needOf 1) false).s.mem
      ∧ (after .storePerformed speculating).tasks.map (fun k => k.stores.map fun m => (m.home, m.bytes)) = [[(2 ^ 44, [3, 0, 0, 0, 0, 0, 0, 0])], []] := by decide +kernel

/-- R326: what a switch takes of the images of cores that name none. -/
theorem test_images_taken : (switching.snapLive 0 (switching.coresOf 5)).2 = true ∧ (switching.snapLive 0 (switching.coresOf 5)).1.mem = switching.mem := by decide +kernel

/-- R231: RCOUNT of a ragged region, RLD and RMASK leave one operation; the image and the bitmap are read part by part. -/
theorem test_region_loads_issue :
    (after (.rcount 5 3) { regions with eager := false }).rc.ops.map (fun o => o.dest) = [.fill (.count 5 (regions.g 3))] ∧ (after (.rcount 5 3) { regions with eager := false }).rc.ops.map (fun o => o.parts) = [[(0x400, 16)]]
      ∧ (after (.rld 8 6) { images with eager := false }).rc.ops.map (fun o => (o.n, o.parts.length)) = [(512, 32)] ∧ (after (.rmask 8 7 5) { images with eager := false }).rc.ops.map (fun o => o.parts) = [[(0x600, 2)]] := by decide +kernel
theorem test_fill_rule :
    fillRule (.rcount 5 3) regions = some (.count 5 (regions.g 3), [(0x400, 16)]) ∧ fillRule (.rld 8 6) images = some (.image 8, [(0x800, 512)])
      ∧ fillRule (.rmask 8 7 5) images = some (.mask 8 false (images.g 5), [(0x600, 2)])
      ∧ fillRule (.rtest 5 3 1) regions = some (.test 5 (regions.g 3) (regions.g 1), [(0x400, 16)]) ∧ fillRule (.rproj 5 3 7) (withX regions [(7, 2)]) = some (.proj 5 2 (regions.g 3), [(0x400, 16)]) := by decide +kernel

/-- R231: an image that R223 does not accept ends its handler when it has returned; a bitmap of five runs over a box of two dimensions. -/
theorem test_region_loads_complete :
    (let s : State := { images with mem := putBytes images.mem 0x803 [1] }
     (after (.rld 8 6) s).flights.map (fun f => f.msg.pay.take 3) = [[0x30, images.rc.pc, 0x800]] ∧ (after (.rld 8 6) s).rc.run = .idle)
      ∧ (after (.rproj 5 3 7) (withX regions [(7, 2)])).g 5 = boxed 1 [[rng 0 7 1]] ∧ entryOf [(0x400, 2), (0x401, 0), (0x402, 0), (0x403, 0)] (regions.g 3) 0 = 2 := by decide +kernel

end Sys2Proof.Tests
end

/-! PROOF. What a retiring instruction of the scalar pipeline leaves behind: the register context that acts, the count of retired
instructions, and everything else as it was. -/

namespace Sys2Proof.Machine

open Sys2Proof.Safety

/-! ## The contexts that act, after a write of x and a transfer of control -/

@[simp] theorem Tenant.rcx_withInstret (t : Tenant) (n j : Nat) : Tenant.rcx { t with instret := n } j = t.rcx j := by
  unfold Tenant.rcx; split <;> rfl

theorem Tenant.setRcx_withInstret (t : Tenant) (n j : Nat) (r : RegCtx) :
    Tenant.setRcx { t with instret := n } j r = { t.setRcx j r with instret := n } := by
  unfold Tenant.setRcx; split <;> rfl

theorem State.retire_eq_jump (s : State) : s.retire = s.jump (s.rc.pc + 4) := rfl

theorem State.setX_rc {s : State} (h : Live s) (i : Nat) (v : Word) : (s.setX i v).rc = s.rc.wx i v :=
  State.rcx_modRcx s s.cur (fun r => r.wx i v) h

theorem State.setX_tn (s : State) (i : Nat) (v : Word) : (s.setX i v).tn = s.tn.setRcx s.cur.rc (s.rc.wx i v) :=
  State.tenant_setTenant s _ _ _

theorem State.jump_tn (s : State) (p : Word) :
    (s.jump p).tn = { s.tn.setRcx s.cur.rc { s.rc with pc := p, kept := [] } with instret := s.tn.instret + 1 } :=
  State.tenant_setTenant s _ _ _

theorem State.setX_jump_tn {s : State} (h : Live s) (i : Nat) (v p : Word) :
    ((s.setX i v).jump p).tn = { s.tn.setRcx s.cur.rc { s.rc.wx i v with pc := p, kept := [] } with instret := s.tn.instret + 1 } := by
  have hc : (s.setX i v).cur = s.cur := rfl
  rw [State.jump_tn, State.setX_rc h, State.setX_tn, hc, Tenant.setRcx_setRcx _ _ _ _ h, Tenant.setRcx_instret]

theorem OnlyTenant.setTenant (s : State) (t : Tenant) : OnlyTenant s (s.setTenant s.cur.core s.cur.ctx t) :=
  ⟨rfl, fun c x h => State.tenant_setTenant_other s _ _ c x t h⟩

theorem OnlyTenant.setX_jump (s : State) (i : Nat) (v p : Word) : OnlyTenant s ((s.setX i v).jump p) := by
  refine ⟨rfl, fun c x h => ?_⟩
  calc ((s.setX i v).jump p).tenant c x
      = (s.setX i v).tenant c x := State.tenant_setTenant_other (s.setX i v) _ _ c x _ h
    _ = s.tenant c x := State.tenant_setTenant_other s _ _ c x _ h

/-! ## Retirement with a given register context -/

/-- One instruction has retired with the acting register context left as r, and nothing else has changed. -/
def Retired (s t : State) (r : RegCtx) : Prop :=
  OnlyTenant s t ∧ t.tn = { s.tn.setRcx s.cur.rc r with instret := s.tn.instret + 1 }

theorem State.jump_retired (s : State) (p : Word) : Retired s (s.jump p) { s.rc with pc := p, kept := [] } :=
  ⟨OnlyTenant.setTenant s _, State.jump_tn s p⟩

theorem State.setX_jump_retired {s : State} (h : Live s) (i : Nat) (v p : Word) :
    Retired s ((s.setX i v).jump p) { s.rc.wx i v with pc := p, kept := [] } :=
  ⟨OnlyTenant.setX_jump s i v p, State.setX_jump_tn h i v p⟩

theorem OnlyTenant.cur {s t : State} (h : OnlyTenant s t) : t.cur = s.cur := (congrArg State.cur h.1 :)

section
variable {s t : State} {r : RegCtx}

theorem Retired.rc (k : Retired s t r) (h : Live s) : t.rc = r := by
  have e : t.rc = t.tn.rcx t.cur.rc := rfl
  rw [e, OnlyTenant.cur k.1, k.2, Tenant.rcx_withInstret, Tenant.rcx_setRcx _ _ _ h]

theorem Retired.instret (k : Retired s t r) : t.tn.instret = s.tn.instret + 1 := by rw [k.2]

theorem Retired.onlyContext (k : Retired s t r) (h : Live s) : OnlyContext s t := by
  have own : s.tn.setRcx s.cur.rc s.rc = s.tn := Tenant.setRcx_rcx s.tn s.cur.rc h
  refine ⟨k.1, ?_⟩
  rw [k.2, Tenant.setRcx_withInstret, Tenant.setRcx_setRcx _ _ _ _ h, own]

end

/-! ## What control instructions and results do -/

/-- R64: control goes to p, and nothing else changes. -/
theorem State.jump_effect {s : State} (h : Live s) (p : Word) :
    (s.jump p).rc.pc = p ∧ (s.jump p).tn.instret = s.tn.instret + 1 ∧ OnlyPc s (s.jump p) := by
  have k := State.jump_retired s p
  exact ⟨by rw [k.rc h], k.instret, k.onlyContext h, by rw [k.rc h]⟩

theorem RegCtx.wx_restored (r : RegCtx) (i : Nat) (v p : Word) :
    { { r.wx i v with pc := p, kept := [] } with x := r.x, pc := r.pc, kept := r.kept } = r := by
  unfold RegCtx.wx; split <;> rfl

/-- R60, R64: x[i] receives v, unless it is x0; control goes to p, and nothing else changes. -/
theorem State.setX_jump_effect {s : State} (h : Live s) (i : Nat) (v p : Word) :
    ((s.setX i v).jump p).rc.pc = p ∧ ((s.setX i v).jump p).tn.instret = s.tn.instret + 1
      ∧ ((s.setX i v).jump p).x i = (if i = 0 then 0 else v) ∧ OnlyX s ((s.setX i v).jump p) i := by
  have k := State.setX_jump_retired h i v p
  have reads : ∀ j, ((s.setX i v).jump p).x j = (s.rc.wx i v).rx j := fun j => by rw [State.x, k.rc h]; rfl
  refine ⟨by rw [k.rc h], k.instret, ?_, k.onlyContext h, ?_, fun j hj => ?_⟩
  · rw [reads, RegCtx.rx_wx, if_pos rfl]
  · rw [k.rc h]; exact RegCtx.wx_restored s.rc i v p
  · rw [reads, RegCtx.rx_wx, if_neg hj]
    by_cases hz : j = 0
    · subst hz; rfl
    · exact if_neg hz

theorem State.retire_effect {s : State} (h : Live s) : Advanced s s.retire ∧ OnlyPc s s.retire := by
  obtain ⟨hpc, hret, hframe⟩ := State.jump_effect h (s.rc.pc + 4)
  exact ⟨⟨hpc, hret⟩, hframe⟩

theorem State.result_effect {s : State} (h : Live s) (rd : Nat) (v : Word) :
    (s.result rd v).x rd = (if rd = 0 then 0 else v) ∧ Advanced s (s.result rd v) ∧ OnlyX s (s.result rd v) rd := by
  have e : s.result rd v = (s.setX rd v).jump (s.rc.pc + 4) := by
    rw [State.result, State.retire_eq_jump, State.setX_rc h, RegCtx.wx_pc]
  rw [e]
  obtain ⟨hpc, hret, hx, hframe⟩ := State.setX_jump_effect h rd v (s.rc.pc + 4)
  exact ⟨hx, ⟨hpc, hret⟩, hframe⟩

/-- R49, R60: with no register busy an instruction with one result writes it; a write of x0 is discarded whatever the value. -/
theorem alu_ready (rd : Nat) (l : List Nat) (v : Word) (s : State) (g : Ready s (rd :: l)) : alu rd l v s = .next (s.result rd v) := by
  by_cases h : rd = 0
  · subst h; rfl
  · exact alu_result rd l v s h g

end Sys2Proof.Machine

/-! PROOF. The division instructions (R60, R61): the quotient and remainder of bit vectors are the rule's integers, at every width. -/

namespace Sys2Proof.Machine

open Sys2Proof.Safety Sys2Proof.Spec

section
variable {n : Nat} (a b : BitVec n)

theorem toInt_eq_zero_iff : b.toInt = 0 ↔ b = 0 := by rw [← BitVec.toInt_inj, BitVec.ofNat_eq_ofNat, BitVec.toInt_zero]

theorem natCast_toNat_eq_zero_iff : (b.toNat : Int) = 0 ↔ b = 0 := by
  rw [Int.natCast_eq_zero, ← BitVec.toNat_inj, BitVec.ofNat_eq_ofNat, BitVec.toNat_ofNat, Nat.zero_mod]

theorem eq_intMin_of_toInt (hn : 0 < n) (h : a.toInt = -(2 ^ (n - 1))) : a = BitVec.intMin n := by
  have lt : 2 ^ (n - 1) < 2 ^ n := Nat.pow_lt_pow_right (by decide) (by omega)
  apply BitVec.eq_of_toInt_eq
  rw [h, BitVec.toInt_intMin, Nat.mod_eq_of_lt lt, Nat.cast_pow, Nat.cast_ofNat]

theorem eq_neg_one_of_toInt (hn : 0 < n) (h : b.toInt = -1) : b = -1#n := by
  apply BitVec.eq_of_toInt_eq
  rw [h, BitVec.neg_one_eq_allOnes, BitVec.toInt_allOnes, if_pos hn]

theorem ofInt_neg_one : BitVec.ofInt n (-1) = BitVec.allOnes n := by
  rw [BitVec.ofInt_neg, ← BitVec.neg_one_eq_allOnes]; rfl

/-- R61, signed: in the one overflow the bit vectors' quotient wraps to the dividend. -/
theorem divS_eq_quot (hn : 0 < n) : divS a b = BitVec.ofInt n (quot true n a.toInt b.toInt) := by
  unfold divS quot
  by_cases hb : b = 0
  · rw [if_pos hb, if_pos ((toInt_eq_zero_iff b).mpr hb), ofInt_neg_one]
  rw [if_neg hb, if_neg (mt (toInt_eq_zero_iff b).mp hb)]
  split
  case isTrue h =>
    obtain ⟨-, ha, hb⟩ := h
    rw [BitVec.ofInt_toInt, eq_intMin_of_toInt a hn ha, eq_neg_one_of_toInt b hn hb, BitVec.intMin_sdiv_neg_one]
  case isFalse =>
    apply BitVec.eq_of_toInt_eq
    rw [BitVec.toInt_sdiv, BitVec.toInt_ofInt]

theorem remS_eq_rest : remS a b = BitVec.ofInt n (rest true n a.toInt b.toInt) := by
  unfold remS rest
  by_cases hb : b = 0
  · rw [if_pos hb, if_pos ((toInt_eq_zero_iff b).mpr hb), BitVec.ofInt_toInt]
  rw [if_neg hb, if_neg (mt (toInt_eq_zero_iff b).mp hb)]
  have srem : a.srem b = BitVec.ofInt n (a.toInt.tmod b.toInt) := by rw [← BitVec.toInt_srem, BitVec.ofInt_toInt]
  split
  case isTrue h => rw [srem, h.2.2, Int.tmod_neg, Int.tmod_one]
  case isFalse => exact srem

theorem divU_eq_quot : divU a b = BitVec.ofInt n (quot false n a.toNat b.toNat) := by
  unfold divU quot
  by_cases hb : b = 0
  · rw [if_pos hb, if_pos ((natCast_toNat_eq_zero_iff b).mpr hb), ofInt_neg_one]
  rw [if_neg hb, if_neg (mt (natCast_toNat_eq_zero_iff b).mp hb), if_neg fun h => Bool.false_ne_true h.1,
    ← Int.ofNat_tdiv, BitVec.ofInt_natCast, BitVec.udiv_eq, ← BitVec.toNat_udiv, BitVec.ofNat_toNat, BitVec.setWidth_eq]

theorem remU_eq_rest : remU a b = BitVec.ofInt n (rest false n a.toNat b.toNat) := by
  unfold remU rest
  by_cases hb : b = 0
  · rw [if_pos hb, if_pos ((natCast_toNat_eq_zero_iff b).mpr hb), BitVec.ofInt_natCast, BitVec.ofNat_toNat,
      BitVec.setWidth_eq]
  rw [if_neg hb, if_neg (mt (natCast_toNat_eq_zero_iff b).mp hb), if_neg fun h => Bool.false_ne_true h.1,
    ← Int.ofNat_tmod, BitVec.ofInt_natCast, BitVec.umod_eq, ← BitVec.toNat_umod, BitVec.ofNat_toNat, BitVec.setWidth_eq]

end

/-! ## The W forms -/

theorem lo32u_eq_toNat (x : Word) : lo32u x = (x.setWidth 32).toNat := (BitVec.toNat_setWidth 32 x).symm

section
variable (x y : Word)

theorem divS_low_words : (divS (x.setWidth 32) (y.setWidth 32)).signExtend 64 = w32 (quot true 32 (lo32s x) (lo32s y)) := by
  rw [divS_eq_quot _ _ (by decide)]; rfl

theorem divU_low_words : (divU (x.setWidth 32) (y.setWidth 32)).signExtend 64 = w32 (quot false 32 (lo32u x) (lo32u y)) := by
  rw [divU_eq_quot, lo32u_eq_toNat, lo32u_eq_toNat]; rfl

theorem remS_low_words : (remS (x.setWidth 32) (y.setWidth 32)).signExtend 64 = w32 (rest true 32 (lo32s x) (lo32s y)) := by
  rw [remS_eq_rest]; rfl

theorem remU_low_words : (remU (x.setWidth 32) (y.setWidth 32)).signExtend 64 = w32 (rest false 32 (lo32u x) (lo32u y)) := by
  rw [remU_eq_rest, lo32u_eq_toNat, lo32u_eq_toNat]; rfl

end

/-- R60, R61: a division instruction is the operation that writes the rule's value. -/
theorem exec_of_divisionRule {i : Instr} {rd a b : Nat} {f : Word → Word → Word} (h : divisionRule i = some (rd, a, b, f)) (s : State) :
    exec i s = alu rd [a, b] (f (s.x a) (s.x b)) s := by
  unfold divisionRule at h
  split at h <;> cases h
  case h_1 => exact congrArg (alu rd [a, b] · s) (divS_eq_quot _ _ (by decide))
  case h_2 => exact congrArg (alu rd [a, b] · s) (divU_eq_quot _ _)
  case h_3 => exact congrArg (alu rd [a, b] · s) (remS_eq_rest _ _)
  case h_4 => exact congrArg (alu rd [a, b] · s) (remU_eq_rest _ _)
  case h_5 => exact congrArg (alu rd [a, b] · s) (divS_low_words _ _)
  case h_6 => exact congrArg (alu rd [a, b] · s) (divU_low_words _ _)
  case h_7 => exact congrArg (alu rd [a, b] · s) (remS_low_words _ _)
  case h_8 => exact congrArg (alu rd [a, b] · s) (remU_low_words _ _)

/-- Settles O10: each division is an operation on bit vectors with the rule's value, and such an operation writes its result alone. -/
theorem divisionResults : Obligations.DivisionResults := by
  intro i rd a b f s rule live ready
  rw [exec_of_divisionRule rule, alu_ready rd [a, b] _ s ready]
  exact ⟨_, rfl, State.result_effect live rd _⟩

end Sys2Proof.Machine

/-! PROOF. Branches, JAL and JALR (R64, R65): the model's immediates and targets are the rules', and control goes there or traps. -/

namespace Sys2Proof.Machine

open Sys2Proof.Safety Sys2Proof.Spec

/-! ## Immediates and targets -/

/-- R43: within its n bits an immediate is sign-extended from its top bit. -/
theorem sextI_eq_simm {v n : Nat} (hn : 0 < n) (hv : v < 2 ^ n) : sextI v n = simm v n := by
  have double : 2 ^ n = 2 * 2 ^ (n - 1) := by rw [← pow_succ', Nat.sub_add_cancel hn]
  have mod : ((v : Int) % 2 ^ n) = v := by exact_mod_cast Nat.mod_eq_of_lt hv
  unfold sextI simm
  rw [mod]
  by_cases h : v < 2 ^ (n - 1)
  · rw [Nat.div_eq_of_lt h, if_neg (by decide), if_pos h]
  · have top : v / 2 ^ (n - 1) = 1 := Nat.div_eq_of_lt_le (by omega) (by omega)
    rw [top, if_pos rfl, if_neg h, Nat.cast_pow, Nat.cast_ofNat]

theorem sext64_eq_w64_simm {v n : Nat} (hn : 0 < n) (hv : v < 2 ^ n) : sext64 v n = w64 (simm v n) := by
  rw [sext64, sextI_eq_simm hn hv, w64]

/-- R65: bit 0 of an integer modulo 2^64 cleared. -/
theorem w64_clear_bit0 (i : Int) : w64 i &&& ~~~1 = w64 (i / 2 * 2) := by
  have mask : (~~~1 : Word) = BitVec.allOnes 64 <<< 1 := by decide
  rw [mask, ← BitVec.shiftLeft_ushiftRight]
  apply BitVec.eq_of_toNat_eq
  simp only [w64, BitVec.toNat_shiftLeft, BitVec.toNat_ushiftRight, BitVec.toNat_ofInt, Nat.shiftLeft_eq, Nat.shiftRight_eq_div_pow]
  omega

theorem jalr_target (x : Word) {imm : Nat} (h : imm < 4096) : (x + immS imm 12) &&& ~~~1 = w64 ((x.toInt + simm imm 12) / 2 * 2) := by
  have sum : x + immS imm 12 = w64 (x.toInt + simm imm 12) := by
    rw [immS, sext64_eq_w64_simm (by decide) h, w64, w64, BitVec.ofInt_add, BitVec.ofInt_toInt]
  rw [sum, w64_clear_bit0]

/-! ## Branches and JAL -/

theorem not_slt_eq_decide_ge (x y : Word) : (!x.slt y) = decide (y.toInt ≤ x.toInt) := by rw [← BitVec.sle_eq_not_slt, BitVec.sle]

theorem not_ult_eq_decide_ge (x y : Word) : (!x.ult y) = decide (y.toNat ≤ x.toNat) := by rw [← BitVec.ule_eq_not_ult, BitVec.ule]

/-- R64: a conditional branch is the shared operation with the rule's condition, its offset within 13 bits. -/
theorem exec_of_branchRule {i : Instr} {a b imm : Nat} {c : Word → Word → Bool} (h : branchRule i = some (a, b, imm, c)) (s : State) :
    exec i s = branch a b imm c s := by
  unfold branchRule at h
  split at h <;> cases h
  case h_1 | h_2 | h_3 | h_5 => rfl
  case h_4 => exact congrArg (branch a b imm · s) (funext₂ not_slt_eq_decide_ge)
  case h_6 => exact congrArg (branch a b imm · s) (funext₂ not_ult_eq_decide_ge)

theorem branch_offset_bound {i : Instr} {a b imm : Nat} {c : Word → Word → Bool} (h : branchRule i = some (a, b, imm, c)) (wf : i.wf = true) :
    imm < 2 ^ 13 := by
  unfold branchRule at h
  split at h <;> cases h
  all_goals
    simp only [Instr.wf, Bool.and_eq_true, decide_eq_true_eq] at wf
    omega

theorem branch_effect {s : State} (a b imm : Nat) (c : Word → Word → Bool) (himm : imm < 2 ^ 13) (live : Live s) (ready : Ready s [a, b]) :
    let target := s.rc.pc + w64 (simm imm 13)
    (c (s.x a) (s.x b) = false → ∃ t, branch a b imm c s = .next t ∧ Advanced s t ∧ OnlyPc s t)
    ∧ (c (s.x a) (s.x b) = true → target.toNat % 4 = 0 →
        ∃ t, branch a b imm c s = .next t ∧ t.rc.pc = target ∧ t.tn.instret = s.tn.instret + 1 ∧ OnlyPc s t)
    ∧ (c (s.x a) (s.x b) = true → target.toNat % 4 ≠ 0 → branch a b imm c s = .next (s.trap s.cur 0x20 s.rc.pc target 0)) := by
  intro target
  have taken (hc : c (s.x a) (s.x b) = true) : branch a b imm c s = goTo s target id := by
    rw [branch_taken a b imm c s ready hc, sext64_eq_w64_simm (by decide) himm]
  refine ⟨fun hc => ?_, fun hc al => ?_, fun hc mis => ?_⟩
  · exact ⟨_, branch_not_taken a b imm c s ready hc, State.retire_effect live⟩
  · exact ⟨_, (taken hc).trans (goTo_aligned s target id al), State.jump_effect live target⟩
  · exact (taken hc).trans (goTo_misaligned s target id mis)

theorem jal_eq_goTo {s : State} {rd imm : Nat} (himm : imm < 2 ^ 21) (ready : Ready s [rd]) :
    exec (.jal rd imm) s = goTo s (s.rc.pc + w64 (simm imm 21)) fun t => t.setX rd (s.rc.pc + 4) := by
  rw [← sext64_eq_w64_simm (by decide) himm]
  exact useX_ready s [rd] _ ready

/-- Settles O12: a branch and JAL go to a target or trap on the state as it was. -/
theorem branchesAndJal : Obligations.BranchesAndJal := by
  refine ⟨fun i a b imm c s rule wf live ready => ?_, fun rd imm s wf live ready => ?_⟩
  · rw [exec_of_branchRule rule]
    exact branch_effect a b imm c (branch_offset_bound rule wf) live ready
  · have himm : imm < 2 ^ 21 := by
      simp only [Instr.wf, Bool.and_eq_true, decide_eq_true_eq] at wf; omega
    intro target
    rw [jal_eq_goTo himm ready]
    exact ⟨fun al => ⟨_, goTo_aligned s target _ al, State.setX_jump_effect live rd _ target⟩, fun mis => goTo_misaligned s target _ mis⟩

/-! ## JALR -/

theorem jalr_eq {s : State} {rd a imm : Nat} (himm : imm < 4096) (ready : Ready s [a]) :
    exec (.jalr rd a imm) s =
      if rd ≠ 0 then trapNow s 0x03 (w64 (((s.x a).toInt + simm imm 12) / 2 * 2)) 0
      else goTo s (w64 (((s.x a).toInt + simm imm 12) / 2 * 2)) id := by
  rw [← jalr_target (s.x a) himm]
  exact useX_ready s [a] _ ready

/-- Settles O13: with rd = x0 JALR goes to its target or traps as R42 states; with any other rd it traps at once. -/
theorem jalrReturnsOrTraps : Obligations.JalrReturnsOrTraps := by
  intro rd a imm s wf live ready target
  have himm : imm < 4096 := by
    simp only [Instr.wf, Bool.and_eq_true, decide_eq_true_eq] at wf; omega
  rw [jalr_eq himm ready]
  refine ⟨fun z al => ?_, fun z mis => ?_, fun nz => if_pos nz⟩
  · rw [if_neg (not_not.mpr z)]
    exact ⟨_, goTo_aligned s target id al, State.jump_effect live target⟩
  · rw [if_neg (not_not.mpr z)]
    exact goTo_misaligned s target id mis

end Sys2Proof.Machine
